-- ==== Sys2Proof/Word.lean ====
section
/-! DEFINITION. The word types of the command interface and of the wire (20_memory.md R63, R64; 30_encoding.md R100). -/

namespace Sys2Proof

/-- One octet of a PDU, of a payload or of a result (R61). -/
abbrev Byte := BitVec 8

/-- A byte string (00_scope.md R8). -/
abbrev Bytes := List Byte

/-- The LCID field of a command header, which selects one of the 32 bearer slots (R21, R100). -/
abbrev Lcid := BitVec 5

/-- The SUB field of a command header (R100). -/
abbrev Sub := BitVec 5

/-- The IMM field of a command header: a payload length, a byte budget or a timer tag (R100). -/
abbrev Imm := BitVec 16

/-- A 32-bit command header word (R100). -/
abbrev Header := BitVec 32

end Sys2Proof
end

