-- ==== Sys2Proof/Syntax.lean ====
section
/-! DEFINITION. The commands of RLCW, one constructor per row of spec/opcode_table.json (30_encoding.md R105). -/

namespace Sys2Proof

/-- A command with its header fields and payload. A field that the opcode map fixes to 0 is kept as an operand, because a
nonzero value is a legal header word that the command answers with ERR_BAD_FIELD (R106). Where `IMM` is the payload length
(R101) it is `payload.length` and has no operand of its own. -/
inductive Instr where
  /-- NOP, R188. -/
  | nop (lcid : Lcid) (sub : Sub) (imm : Imm)
  /-- ADD_BEARER, R181. -/
  | addBearer (lcid : Lcid) (sub : Sub) (payload : Bytes)
  /-- CONFIGURE, R183. -/
  | configure (lcid : Lcid) (sub : Sub) (payload : Bytes)
  /-- DEL_BEARER, R185. -/
  | delBearer (lcid : Lcid) (sub : Sub) (imm : Imm)
  /-- REESTABLISH, R184. -/
  | reestablish (lcid : Lcid) (sub : Sub) (imm : Imm)
  /-- GET_METRICS, R186. -/
  | getMetrics (lcid : Lcid) (sub : Sub) (imm : Imm)
  /-- GET_STATE, R187. -/
  | getState (lcid : Lcid) (sub : Sub) (imm : Imm)
  /-- WRITE_SDU, R211. -/
  | writeSdu (lcid : Lcid) (sub : Sub) (payload : Bytes)
  /-- GET_BUFFER_STATE, R212. -/
  | getBufferState (lcid : Lcid) (sub : Sub) (imm : Imm)
  /-- READ_PDU with its byte budget, R214. -/
  | readPdu (lcid : Lcid) (sub : Sub) (budget : Imm)
  /-- WRITE_PDU, R231. -/
  | writePdu (lcid : Lcid) (sub : Sub) (payload : Bytes)
  /-- TIMER_EXPIRY with its timer kind and generation tag, R363. -/
  | timerExpiry (lcid : Lcid) (kind : Sub) (gen : Imm)
  /-- SN_INWIN, R132. -/
  | snInwin (lcid : Lcid) (payload : Bytes)
  /-- SN_INRANGE, R133. -/
  | snInrange (lcid : Lcid) (payload : Bytes)
  /-- SN_REL, R134. -/
  | snRel (lcid : Lcid) (payload : Bytes)
  /-- SN_BEFORE, R135. -/
  | snBefore (lcid : Lcid) (payload : Bytes)
  /-- HDR_PACK with its format selector, R155. -/
  | hdrPack (lcid : Lcid) (fmt : Sub) (payload : Bytes)
  /-- HDR_UNPACK with its format selector, R157. -/
  | hdrUnpack (lcid : Lcid) (fmt : Sub) (payload : Bytes)
  /-- STATUS_PACK, R161. -/
  | statusPack (lcid : Lcid) (sub : Sub) (payload : Bytes)
  /-- STATUS_UNPACK, R162. -/
  | statusUnpack (lcid : Lcid) (sub : Sub) (payload : Bytes)
  /-- STATUS_CHECK, R164. -/
  | statusCheck (lcid : Lcid) (sub : Sub) (payload : Bytes)
  deriving DecidableEq, Repr

end Sys2Proof
end

