-- ==== Sys2Proof/WellFormed.lean ====
section
/-! DEFINITION. Well-formed commands: those that some header word and payload encode (30_encoding.md R100, R101). -/

namespace Sys2Proof

/-- The payload that follows the header word of a command, empty where `plen = 0` (R101). -/
def Instr.payload : Instr → Bytes
  | .nop _ _ _ | .delBearer _ _ _ | .reestablish _ _ _ | .getMetrics _ _ _ | .getState _ _ _ => []
  | .getBufferState _ _ _ | .readPdu _ _ _ | .timerExpiry _ _ _ => []
  | .addBearer _ _ p | .configure _ _ p | .writeSdu _ _ p | .writePdu _ _ p => p
  | .snInwin _ p | .snInrange _ p | .snRel _ p | .snBefore _ p => p
  | .hdrPack _ _ p | .hdrUnpack _ _ p | .statusPack _ _ p | .statusUnpack _ _ p | .statusCheck _ _ p => p

/-- The one check: a payload is at most `MAX_PAYLOAD` = 65535 bytes, because `IMM` has 16 bits (R6, R100). Every other
header field has the width of its type. A header field that a command refuses (R106) is well-formed: it is the command that
answers ERR_BAD_FIELD. -/
def Instr.wf (i : Instr) : Bool := i.payload.length < 65536

end Sys2Proof
end

