-- ==== Sys2Proof/Decode.lean ====
section
/-! DEFINITION. Decoding of command bytes (30_encoding.md R100, R101, R105, R112), and the encoder. -/

namespace Sys2Proof

/-- Why a taken header word names no command. -/
inductive DecodeError where
  /-- An OPC that the opcode map does not list: answered with ERR_INVALID_OPCODE (R112). -/
  | reservedOpcode
  /-- OPC 0x10 with SUB 4 to 31: answered with ERR_BAD_FIELD (R106, R112). -/
  | badSnSub
  deriving DecidableEq, Repr

/-! ## The header word, R100 -/

/-- `H[31:26]`. -/
def hdrOpc (h : Header) : BitVec 6 := h.extractLsb' 26 6

/-- `H[25:21]`. -/
def hdrLcid (h : Header) : Lcid := h.extractLsb' 21 5

/-- `H[20:16]`. -/
def hdrSub (h : Header) : Sub := h.extractLsb' 16 5

/-- `H[15:0]`. -/
def hdrImm (h : Header) : Imm := h.extractLsb' 0 16

/-- The header word with the given fields, R100. -/
def mkHeader (opc : BitVec 6) (lcid : Lcid) (sub : Sub) (imm : Imm) : Header :=
  opc ++ lcid ++ sub ++ imm

/-- The header word as four bytes, most significant first (R64). -/
def headerBytes (h : Header) : Bytes :=
  [h.extractLsb' 24 8, h.extractLsb' 16 8, h.extractLsb' 8 8, h.extractLsb' 0 8]

/-- The opcodes whose `IMM` is the payload length, R101. OPC 0x10 is the SN_* commands' whatever its SUB (log 3). -/
def opcHasPayload (opc : Nat) : Bool :=
  [0x01, 0x02, 0x08, 0x0B, 0x10, 0x11, 0x12, 0x13, 0x14, 0x15].contains opc

/-- `plen`, the number of payload bytes after the header word, R101. -/
def plen (h : Header) : Nat :=
  if opcHasPayload (hdrOpc h).toNat then (hdrImm h).toNat else 0

/-! ## Decoding -/

/-- The command a header word and its payload stand for, by OPC and for OPC 0x10 also by SUB (R105). -/
def decodeCommand (h : Header) (payload : Bytes) : Except DecodeError Instr :=
  let l := hdrLcid h
  let sub := hdrSub h
  let imm := hdrImm h
  match (hdrOpc h).toNat with
  | 0x00 => .ok (.nop l sub imm)
  | 0x01 => .ok (.addBearer l sub payload)
  | 0x02 => .ok (.configure l sub payload)
  | 0x03 => .ok (.delBearer l sub imm)
  | 0x04 => .ok (.reestablish l sub imm)
  | 0x05 => .ok (.getMetrics l sub imm)
  | 0x06 => .ok (.getState l sub imm)
  | 0x08 => .ok (.writeSdu l sub payload)
  | 0x09 => .ok (.getBufferState l sub imm)
  | 0x0A => .ok (.readPdu l sub imm)
  | 0x0B => .ok (.writePdu l sub payload)
  | 0x0C => .ok (.timerExpiry l sub imm)
  | 0x10 =>
    match sub.toNat with
    | 0 => .ok (.snInwin l payload)
    | 1 => .ok (.snInrange l payload)
    | 2 => .ok (.snRel l payload)
    | 3 => .ok (.snBefore l payload)
    | _ => .error .badSnSub
  | 0x11 => .ok (.hdrPack l sub payload)
  | 0x12 => .ok (.hdrUnpack l sub payload)
  | 0x13 => .ok (.statusPack l sub payload)
  | 0x14 => .ok (.statusUnpack l sub payload)
  | 0x15 => .ok (.statusCheck l sub payload)
  | _ => .error .reservedOpcode

/-- The next command of a byte stream, whole: its header word, exactly `plen` payload bytes, and the bytes after them
(R65, R101). `none` while the host has not presented it whole. -/
def takeCommand : Bytes → Option (Header × Bytes × Bytes)
  | b3 :: b2 :: b1 :: b0 :: rest =>
    let h : Header := b3 ++ b2 ++ b1 ++ b0
    if plen h ≤ rest.length then some (h, rest.take (plen h), rest.drop (plen h)) else none
  | _ => none

/-- The decoder on any bytes: the first command and the bytes after it. `none` where the bytes hold no whole command. -/
def decode (b : Bytes) : Option (Except DecodeError Instr × Bytes) :=
  (takeCommand b).map fun (h, payload, rest) => (decodeCommand h payload, rest)

/-! ## Encoding -/

/-- The fields OPC, LCID, SUB and IMM of a command's header word, R105. -/
def Instr.header : Instr → Header
  | .nop l sub imm => mkHeader 0x00 l sub imm
  | .addBearer l sub p => mkHeader 0x01 l sub (BitVec.ofNat 16 p.length)
  | .configure l sub p => mkHeader 0x02 l sub (BitVec.ofNat 16 p.length)
  | .delBearer l sub imm => mkHeader 0x03 l sub imm
  | .reestablish l sub imm => mkHeader 0x04 l sub imm
  | .getMetrics l sub imm => mkHeader 0x05 l sub imm
  | .getState l sub imm => mkHeader 0x06 l sub imm
  | .writeSdu l sub p => mkHeader 0x08 l sub (BitVec.ofNat 16 p.length)
  | .getBufferState l sub imm => mkHeader 0x09 l sub imm
  | .readPdu l sub budget => mkHeader 0x0A l sub budget
  | .writePdu l sub p => mkHeader 0x0B l sub (BitVec.ofNat 16 p.length)
  | .timerExpiry l kind gen => mkHeader 0x0C l kind gen
  | .snInwin l p => mkHeader 0x10 l 0 (BitVec.ofNat 16 p.length)
  | .snInrange l p => mkHeader 0x10 l 1 (BitVec.ofNat 16 p.length)
  | .snRel l p => mkHeader 0x10 l 2 (BitVec.ofNat 16 p.length)
  | .snBefore l p => mkHeader 0x10 l 3 (BitVec.ofNat 16 p.length)
  | .hdrPack l fmt p => mkHeader 0x11 l fmt (BitVec.ofNat 16 p.length)
  | .hdrUnpack l fmt p => mkHeader 0x12 l fmt (BitVec.ofNat 16 p.length)
  | .statusPack l sub p => mkHeader 0x13 l sub (BitVec.ofNat 16 p.length)
  | .statusUnpack l sub p => mkHeader 0x14 l sub (BitVec.ofNat 16 p.length)
  | .statusCheck l sub p => mkHeader 0x15 l sub (BitVec.ofNat 16 p.length)

/-- The bytes of a command as the host presents them: the header word, then the payload (R64, R101). -/
def encode (i : Instr) : Bytes := headerBytes i.header ++ i.payload

/-! ## One opcode-table word -/

/-- `n` payload bytes read from the bits above the header word, the first in bits 7..0 of `v`. -/
def tablePayload : Nat → Nat → Bytes
  | 0, _ => []
  | n + 1, v => BitVec.ofNat 8 v :: tablePayload n (v / 256)

/-- The bytes of an instruction whose bits are `w`, numbered as spec/opcode_table.json numbers them: the header word in
bits 31..0, the payload bytes above it, and 0 in every bit from `nbits` up. The header word is laid out big-endian (R64). -/
def tableBytes (nbits w : Nat) : Bytes :=
  let v := w % 2 ^ nbits
  let h : Header := BitVec.ofNat 32 v
  headerBytes h ++ tablePayload (plen h) (v / 2 ^ 32)

/-- The command the decoder reads from an opcode-table word. -/
def decodeTableWord (nbits w : Nat) : Option Instr :=
  match decode (tableBytes nbits w) with
  | some (.ok i, _) => some i
  | _ => none

end Sys2Proof
end

