-- ==== Sys2Proof/Machine/Bits.lean ====
section
/-! DEFINITION. Wire bit order and command byte order: `rd`, `wr`, `u16be`, `u32be` (00_scope.md R9; 20_memory.md R63, R64). -/

namespace Sys2Proof.Machine

/-- The bit at wire position `p`: bit `7 - (p mod 8)` of byte `p div 8`, R9. Positions past the end read 0. -/
def wireBit (buf : Bytes) (p : Nat) : Bool := (buf.getD (p / 8) 0).getLsbD (7 - p % 8)

/-- `rd(buf, p, n)`, R9: the `n`-bit value whose most significant bit is at position `p`. -/
def rd (buf : Bytes) (p : Nat) : Nat → Nat
  | 0 => 0
  | n + 1 => 2 * rd buf p n + (wireBit buf (p + n)).toNat

/-- A byte with bit `i` made `v`. -/
def putBit (b : Byte) (i : Nat) (v : Bool) : Byte :=
  if v then b ||| BitVec.twoPow 8 i else b &&& ~~~ BitVec.twoPow 8 i

/-- A byte string with the bit at wire position `p` made `v`. -/
def setWireBit (buf : Bytes) (p : Nat) (v : Bool) : Bytes :=
  buf.modify (p / 8) fun b => putBit b (7 - p % 8) v

/-- `wr(buf, p, n, v)`, R9: the `n` low bits of `v` written from position `p`, the most significant first. -/
def wr (buf : Bytes) (p : Nat) : Nat → Nat → Bytes
  | 0, _ => buf
  | n + 1, v => setWireBit (wr buf p n (v / 2)) (p + n) (v % 2 == 1)

/-- The byte at index `i` of a payload. -/
def u8 (b : Bytes) (i : Nat) : Nat := (b.getD i 0).toNat

/-- `u16be(b, i)`, R9. -/
def u16be (b : Bytes) (i : Nat) : Nat := u8 b i * 256 + u8 b (i + 1)

/-- `u32be(b, i)`, R9. -/
def u32be (b : Bytes) (i : Nat) : Nat :=
  ((u8 b i * 256 + u8 b (i + 1)) * 256 + u8 b (i + 2)) * 256 + u8 b (i + 3)

/-- One byte of value `n`. -/
def put8 (n : Nat) : Bytes := [BitVec.ofNat 8 n]

/-- Two bytes of value `n`, big-endian (R64). -/
def put16 (n : Nat) : Bytes := [BitVec.ofNat 8 (n / 256), BitVec.ofNat 8 n]

/-- Four bytes of value `n`, big-endian (R64). -/
def put32 (n : Nat) : Bytes :=
  [BitVec.ofNat 8 (n / 16777216), BitVec.ofNat 8 (n / 65536), BitVec.ofNat 8 (n / 256), BitVec.ofNat 8 n]

end Sys2Proof.Machine
end

