-- ==== Sys2Proof/Machine/Types.lean ====
section
/-! DEFINITION. The records that the state of RLCW is made of (10_state.md R20 to R31), and its responses and events
(30_encoding.md R102 to R104). -/

namespace Sys2Proof.Machine

/-! ## Parameters -/

/-- The values that R6 marks *parameter*: arguments of the model, fixed for one machine. Every procedure whose rule names one
takes it from here. -/
structure Params where
  /-- `MAX_LI`, the most LIs in one data PDU. -/
  maxLi : Nat
  /-- `MAX_NACKS`, the most NACK records in one status PDU. -/
  maxNacks : Nat
  /-- `Q_SDU`, the SDUs that a bearer's queue holds. -/
  qSdu : Nat
  /-- `MAX_SDU_BYTES`, the largest SDU accepted or delivered. -/
  maxSduBytes : Nat
  deriving DecidableEq, Repr

/-! ## Timers -/

/-- The timer kinds of 60_exceptions.md R360. -/
inductive TimerKind where
  | reord | prohibit | pollretx
  deriving DecidableEq, Repr

/-- One value for each timer kind of a bearer. -/
structure PerTimer (α : Type) where
  reord : α
  prohibit : α
  pollretx : α
  deriving DecidableEq, Repr, Inhabited

/-! ## Configuration, R22 -/

inductive Mode where
  | um | am
  deriving DecidableEq, Repr, Inhabited

/-- The SN field widths a bearer accepts, R22 and R182. -/
inductive SnWidth where
  | w5 | w10
  deriving DecidableEq, Repr, Inhabited

/-- The LI field widths, R22. -/
inductive LiWidth where
  | w11 | w15
  deriving DecidableEq, Repr, Inhabited

/-- The configuration record `S[l].cfg`, R22. -/
structure Cfg where
  mode : Mode
  snw : SnWidth
  liw : LiWidth
  maxRetxThreshold : BitVec 8
  tReorderingMs : BitVec 16
  tStatusProhibitMs : BitVec 16
  tPollRetransmitMs : BitVec 16
  pollPdu : BitVec 16
  pollByte : BitVec 32
  amW : BitVec 16
  deriving DecidableEq, Repr, Inhabited

/-! ## Byte ranges and SN-keyed buffers -/

/-- A range set, R11: half-open intervals `[s, e)`, kept disjoint, non-adjacent and ascending. -/
abbrev RangeSet := List (Nat × Nat)

/-- A map from SN to `α`, kept with strictly rising SNs (log 17). -/
abbrev SnMap (α : Type) := List (Nat × α)

/-- A record of the SDU queue, R23. -/
structure TxSdu where
  bytes : Bytes
  off : Nat
  deriving DecidableEq, Repr, Inhabited

/-- An entry of the retransmission buffer `RB`, R26. -/
structure RetxEntry where
  fi : BitVec 2
  bounds : List Nat
  data : Bytes
  p0 : Bool
  retxCount : BitVec 8
  pending : RangeSet
  dead : Bool
  deriving DecidableEq, Repr, Inhabited

/-- A data field with its framing, as the UM reception buffer `RXU` and the reassembly procedure hold it (R27, R237). -/
structure Body where
  fi : BitVec 2
  bounds : List Nat
  data : Bytes
  deriving DecidableEq, Repr, Inhabited

/-- An entry of the AM reception buffer `RXA`, R28. `data` is the partial map from byte offset to byte, by rising offset.
`none` in `len`, `fiFirst` and `fiLast` is the spec's own `⊥`: not known yet. -/
structure AmEntry where
  data : List Host.Cell
  rcvd : RangeSet
  bset : List Nat
  len : Option Nat
  fiFirst : Option Bool
  fiLast : Option Bool
  deriving DecidableEq, Repr, Inhabited

/-- The reassembly buffer, R29. `part = none` is the spec's `⊥`: no SDU is in progress. -/
structure Rsm where
  part : Option Bytes
  next : Nat
  deriving DecidableEq, Repr, Inhabited

/-- The six counters of R31, each modulo 2^32. -/
structure Metrics where
  numTxPdus : BitVec 32
  numRxPdus : BitVec 32
  numTxSdus : BitVec 32
  numRxSdus : BitVec 32
  numLostPdus : BitVec 32
  numRetxPdus : BitVec 32
  deriving DecidableEq, Repr, Inhabited

/-- One bearer slot `S[l]`, R21 to R31. -/
structure Slot where
  active : Bool
  cfg : Cfg
  /-- The SDU queue, R23. -/
  txq : List TxSdu
  /-- UM transmit, R24. -/
  vtUs : Nat
  /-- AM transmit, R25. -/
  vtS : Nat
  vtA : Nat
  pollSn : Nat
  pduWithoutPoll : BitVec 32
  byteWithoutPoll : BitVec 32
  pollPending : Bool
  /-- The retransmission buffer, R26. -/
  rb : SnMap RetxEntry
  /-- UM receive, R27. -/
  vrUr : Nat
  vrUx : Nat
  vrUh : Nat
  rxu : SnMap Body
  /-- AM receive, R28. -/
  vrR : Nat
  vrX : Nat
  vrH : Nat
  statusTriggered : Bool
  rxa : SnMap AmEntry
  /-- Reassembly, R29. -/
  rsm : Rsm
  /-- The timer shadow bits, R30. -/
  running : PerTimer Bool
  /-- The counters, R31. -/
  metrics : Metrics
  deriving DecidableEq, Repr, Inhabited

/-! ## Responses and events -/

/-- The response codes of 60_exceptions.md R350. -/
inductive Code where
  | ok | invalidOpcode | badField | noBearer | bearerExists | configRejected
  | queueFull | malformedHeader | malformedStatus | sduSize
  deriving DecidableEq, Repr

/-- The reasons of a DROP event, R104 and R354. -/
inductive DropReason where
  | malformedHeader | malformedStatusPdu
  deriving DecidableEq, Repr

/-- The events of R104. -/
inductive Event where
  | deliverSdu (l : Lcid) (sdu : Bytes)
  | notifyMaxRetx (l : Lcid) (sn : Nat)
  | timerStart (l : Lcid) (k : TimerKind) (gen : BitVec 16) (ms : BitVec 16)
  | timerStop (l : Lcid) (k : TimerKind) (gen : BitVec 16)
  | drop (l : Lcid) (reason : DropReason)
  deriving DecidableEq, Repr

/-- A response, R102. -/
structure Response where
  code : Code
  result : Bytes
  events : List Event
  deriving DecidableEq, Repr

/-! ## Wire records -/

/-- The data-PDU header formats of the codec, R80 and R105. AMD and AMD-SEG are one format, told apart by RF. -/
inductive Fmt where
  | umd5 | umd10 | amd
  deriving DecidableEq, Repr

/-- A header record, R108 and R150. -/
structure Hdr where
  sn : Nat
  fi : BitVec 2
  rf : Bool
  p : Bool
  lsf : Bool
  so : Nat
  lis : List Nat
  deriving DecidableEq, Repr

/-- A NACK record of a status record, R153. -/
structure Nack where
  sn : Nat
  hasSo : Bool
  soStart : Nat
  soEnd : Nat
  deriving DecidableEq, Repr

/-- A status record, R153. -/
structure Status where
  ack : Nat
  nacks : List Nack
  deriving DecidableEq, Repr

/-- One received piece of an AM PDU, R312. -/
structure Piece where
  so : Nat
  len : Nat
  last : Bool
  deriving DecidableEq, Repr

end Sys2Proof.Machine
end

