-- ==== Sys2Proof/Machine/Maps.lean ====
section
/-! DEFINITION. The internal buffer memories: SN-keyed maps, range sets and boundary sets (20_memory.md R60; 00_scope.md R11). -/

namespace Sys2Proof.Machine

/-! ## SN-keyed maps -/

/-- The entry of key `k`. -/
def mapGet {α : Type} (k : Nat) : SnMap α → Option α
  | [] => none
  | (j, a) :: m => if j = k then some a else mapGet k m

/-- `k` is a key. -/
def mapHas {α : Type} (k : Nat) (m : SnMap α) : Bool := (mapGet k m).isSome

/-- The map with `k` at `a`, keys kept rising. -/
def mapPut {α : Type} (k : Nat) (a : α) : SnMap α → SnMap α
  | [] => [(k, a)]
  | (j, b) :: m => if k < j then (k, a) :: (j, b) :: m else if k = j then (k, a) :: m else (j, b) :: mapPut k a m

/-- The map without `k`. -/
def mapDel {α : Type} (k : Nat) (m : SnMap α) : SnMap α := m.filter fun e => e.1 != k

/-- The keys, in the map's order. -/
def mapKeys {α : Type} (m : SnMap α) : List Nat := m.map Prod.fst

/-- The canonical form of a map: strictly rising keys (log 17). -/
def mapWf {α : Type} (m : SnMap α) : Bool := decide ((mapKeys m).Pairwise (· < ·))

/-- The element of a list with the least measure, the first of equals. -/
def leastBy (f : Nat → Nat) : List Nat → Option Nat
  | [] => none
  | k :: ks =>
    match leastBy f ks with
    | none => some k
    | some j => if f j < f k then some j else some k

/-- The element of a list with the greatest measure, the first of equals. -/
def greatestBy (f : Nat → Nat) : List Nat → Option Nat
  | [] => none
  | k :: ks =>
    match greatestBy f ks with
    | none => some k
    | some j => if f k < f j then some j else some k

/-! ## Range sets, R11 -/

/-- The union with the interval `[s, e)`. -/
def rangeAdd (s e : Nat) : RangeSet → RangeSet
  | [] => if s < e then [(s, e)] else []
  | (a, b) :: r =>
    if e ≤ s then (a, b) :: r
    else if e < a then (s, e) :: (a, b) :: r
    else if b < s then (a, b) :: rangeAdd s e r
    else rangeAdd (min s a) (max e b) r

/-- The union of two range sets. -/
def rangeUnion (r q : RangeSet) : RangeSet := q.foldl (fun acc i => rangeAdd i.1 i.2 acc) r

/-- The difference with the interval `[s, e)`. -/
def rangeSub (s e : Nat) : RangeSet → RangeSet
  | [] => []
  | (a, b) :: r =>
    (if a < min b s then [(a, min b s)] else []) ++ (if max a e < b then [(max a e, b)] else []) ++ rangeSub s e r

/-- `[s, e) ⊆ r`. -/
def rangeIncl (s e : Nat) (r : RangeSet) : Bool := e ≤ s || r.any fun i => i.1 ≤ s && e ≤ i.2

/-- `covers(r, L)`, R11: `[0, L) ⊆ r`. -/
def rangeCovers (r : RangeSet) (len : Nat) : Bool := rangeIncl 0 len r

/-- The offset `x` is in the range set. -/
def rangeHas (x : Nat) (r : RangeSet) : Bool := r.any fun i => i.1 ≤ x && x < i.2

/-- Some offset of the range set is `L` or more: `max(r) >= L` of R314. -/
def rangeReaches (r : RangeSet) (len : Nat) : Bool := r.any fun i => len < i.2

/-- The canonical form of a range set from offset `lo` on: non-empty intervals, ascending, disjoint and non-adjacent (R11). -/
def rangeWfFrom (lo : Nat) : RangeSet → Bool
  | [] => true
  | (a, b) :: r => lo ≤ a && a < b && rangeWfFrom (b + 1) r

/-- The canonical form of a range set, R11. -/
def rangeWf (r : RangeSet) : Bool := rangeWfFrom 0 r

/-- The gaps of a range set from offset `p` on, within `[0, L)`, or within `[0, ∞)` where `L = none`. A gap's end is `none`
where it is unbounded. -/
def rangeGaps (len : Option Nat) (p : Nat) : RangeSet → List (Nat × Option Nat)
  | [] =>
    match len with
    | none => [(p, none)]
    | some n => if p < n then [(p, some n)] else []
  | (a, b) :: r =>
    let z := match len with
      | none => a
      | some n => min a n
    (if p < z then [(p, some z)] else []) ++ rangeGaps len b r

/-! ## Partial maps from offset to byte, and boundary sets -/

/-- Puts the cell `x` before the cells of a list that lie above it, drops one at its own offset, and goes on with `rest`. -/
def cellInsert (x : Host.Cell) (rest : List Host.Cell → List Host.Cell) : List Host.Cell → List Host.Cell
  | [] => x :: rest []
  | y :: ys =>
    if y.1 < x.1 then y :: cellInsert x rest ys
    else if y.1 = x.1 then x :: rest ys
    else x :: rest (y :: ys)

/-- The cells held, and the new ones at offsets not held: "bytes held stay" (R314). -/
def cellMerge : List Host.Cell → List Host.Cell → List Host.Cell
  | [], new => new
  | x :: held, new => cellInsert x (cellMerge held) new

/-- The cells of a byte string whose first byte has offset `so`. -/
def cellsOf (so : Nat) : Bytes → List Host.Cell
  | [] => []
  | b :: bs => (so, b) :: cellsOf (so + 1) bs

/-- The bytes at offsets below `L`, by rising offset. -/
def cellBytes (len : Nat) (cells : List Host.Cell) : Bytes := (cells.filter fun c => c.1 < len).map Prod.snd

/-- A set of boundaries with `b`, kept rising. -/
def bsetAdd (b : Nat) : List Nat → List Nat
  | [] => [b]
  | c :: cs => if b < c then b :: c :: cs else if b = c then c :: cs else c :: bsetAdd b cs

/-- A set of boundaries with those of a list. -/
def bsetUnion (s bs : List Nat) : List Nat := bs.foldl (fun acc b => bsetAdd b acc) s

end Sys2Proof.Machine
end

