-- ==== Sys2Proof/Machine/SnArith.lean ====
section
/-! DEFINITION. Sequence-number arithmetic modulo `N` (00_scope.md R10; 40_sn_arith.md R130). -/

namespace Sys2Proof.Machine

/-- The bits of an SN field, R22. -/
def SnWidth.bits : SnWidth → Nat
  | .w5 => 5
  | .w10 => 10

/-- `mod_N(x)`, R10. -/
def modN (n x : Nat) : Nat := x % n

/-- `rel(x, b) = mod_N(x - b)`, the distance of `x` after base `b`, R10. -/
def rel (n x b : Nat) : Nat := (x + (n - b % n)) % n

/-- `inside(x, b, W)`, the half-open window `[b, b + W)`, R10. -/
def inside (n x b w : Nat) : Bool := rel n x b < w

/-- `inside_closed(x, lo, hi)`, the closed range `[lo, hi]`, R10. -/
def insideClosed (n x lo hi : Nat) : Bool := rel n x lo ≤ rel n hi lo

/-- `before(x, y, b)`, the modular order with base `b`, R10. -/
def before (n x y b : Nat) : Bool := rel n x b < rel n y b

/-- The SNs `a`, `mod_N(a + 1)`, ... of which there are `k`, in order. -/
def snRun (n a : Nat) : Nat → List Nat
  | 0 => []
  | k + 1 => a :: snRun n (modN n (a + 1)) k

/-- The SNs of `[a, b)` in modular order, R10. -/
def snInterval (n a b : Nat) : List Nat := snRun n a (rel n b a)

/-- The first SN at or after `t` for which `p` fails, looking at no more than `fuel` SNs (log 10). -/
def snSkip (n : Nat) (p : Nat → Bool) : Nat → Nat → Nat
  | 0, t => t
  | fuel + 1, t => if p t then snSkip n p fuel (modN n (t + 1)) else t

end Sys2Proof.Machine
end

