-- ==== Sys2Proof/Config.lean ====
section
/-! DEFINITION. The defaults of the parameters of 00_scope.md R6, its fixed values, and the values that the spec leaves open. -/

namespace Sys2Proof.Config

/-- The defaults that R6 gives its parameters: the machine that `State.reset` starts (log 7). -/
def defaultParams : Machine.Params where
  maxLi := 128
  maxNacks := 512
  qSdu := 128
  maxSduBytes := 8192

/-- `MAX_AM_DATA`, fixed by R6. -/
def maxAmData : Nat := 32767

/-- `MAX_PAYLOAD`, fixed by R6. -/
def maxPayload : Nat := 65535

/-- A free value: the contents of a slot that DEL_BEARER has left unspecified (R185; log 5). -/
opaque freeSlot : Nat → Machine.Slot

/-- A free value: the event-count field of a serialised response whose events are more than 16 bits count (R102; log 16). -/
opaque freeEventCount : Nat → BitVec 16

/-- A free value: the length field of a result that is longer than 16 bits count (R102; log 20). -/
opaque freeResultLength : Nat → BitVec 16

/-- A free value: the length field of a DELIVER_SDU event whose SDU is longer than 16 bits count (R104; log 20). -/
opaque freeSduLength : Nat → BitVec 16

end Sys2Proof.Config
end

