-- ==== Sys2Proof/Machine/State.lean ====
section
/-! DEFINITION. The state of RLCW (10_state.md R20, R21), the reasons a step could stop, and hardware reset (R380). -/

namespace Sys2Proof.Machine

/-- The state. `gen` and `slots` are the spec's (R20, R21). `params` holds the arguments of the model that R6 names. `input`,
`responses` and `freeCount` are the model's own. -/
structure State where
  /-- The parameters of R6. No command changes them (log 7). -/
  params : Params
  /-- `G.gen[l][k]`, the timer generation tags, R20. -/
  gen : Vector (PerTimer (BitVec 16)) 32
  /-- The bearer slots `S[0]` to `S[31]`, R21. -/
  slots : Vector Slot 32
  /-- The command bytes the host has presented and RLCW has not taken yet (R65, R101; log 1). -/
  input : List (BitVec 8)
  /-- The responses given so far, the oldest first (R102; log 1). -/
  responses : List Response
  /-- How many free slot contents have been drawn (log 6). -/
  freeCount : Nat
  deriving DecidableEq, Repr

/-- No command of RLCW faults: it has no trap (R368), and a failed check is answered with a response code (R350). -/
inductive Fault where
  deriving DecidableEq, Repr

/-- The refusals of the host's interface. -/
inductive Refusal where
  /-- Raised by an arm of `exec` for an instruction that has no meaning yet. Safe: the model stops. No arm raises it. -/
  | notModelled (mnemonic : String)
  deriving DecidableEq, Repr

/-- The configuration of a slot that no ADD_BEARER has written. R380 leaves it unspecified and unobservable. DESIGN CHOICE,
unsafe (log 4). -/
def Cfg.blank : Cfg where
  mode := .um
  snw := .w5
  liw := .w11
  maxRetxThreshold := 0
  tReorderingMs := 0
  tStatusProhibitMs := 0
  tPollRetransmitMs := 0
  pollPdu := 0
  pollByte := 0
  amW := 0

/-- A slot after hardware reset, R380: `active = 0`. The spec leaves every other field unspecified and unobservable; the
value named here is zero, empty or absent. DESIGN CHOICE, unsafe (log 4). -/
def Slot.blank : Slot where
  active := false
  cfg := Cfg.blank
  txq := []
  vtUs := 0
  vtS := 0
  vtA := 0
  pollSn := 0
  pduWithoutPoll := 0
  byteWithoutPoll := 0
  pollPending := false
  rb := []
  vrUr := 0
  vrUx := 0
  vrUh := 0
  rxu := []
  vrR := 0
  vrX := 0
  vrH := 0
  statusTriggered := false
  rxa := []
  rsm := ⟨none, 0⟩
  running := ⟨false, false, false⟩
  metrics := ⟨0, 0, 0, 0, 0, 0⟩

/-- Hardware reset of the machine with parameters `pm`, R380: every slot inactive and every generation tag 0. No command has
been presented and no response given. -/
def State.resetOf (pm : Params) : State where
  params := pm
  gen := Vector.replicate 32 ⟨0, 0, 0⟩
  slots := Vector.replicate 32 Slot.blank
  input := []
  responses := []
  freeCount := 0

/-- Hardware reset of the machine with the parameters that R6 gives as defaults. -/
def State.reset : State := State.resetOf Config.defaultParams

end Sys2Proof.Machine
end

