-- ==== Sys2Proof/Machine/Flags.lean ====
section
/-! DEFINITION. The status flags of 10_state.md R32, the derived constants of R22 and the derived predicates of R28 and R35. -/

namespace Sys2Proof.Machine

/-- The value of timer kind `k`. -/
def PerTimer.get {α : Type} (t : PerTimer α) : TimerKind → α
  | .reord => t.reord
  | .prohibit => t.prohibit
  | .pollretx => t.pollretx

/-- The record with timer kind `k` at `v`. -/
def PerTimer.set {α : Type} (t : PerTimer α) (k : TimerKind) (v : α) : PerTimer α :=
  match k with
  | .reord => { t with reord := v }
  | .prohibit => { t with prohibit := v }
  | .pollretx => { t with pollretx := v }

/-- `N = 2^snw`, R22. -/
def Cfg.modulus (c : Cfg) : Nat := 2 ^ c.snw.bits

/-- `UM_W = 2^(snw-1)`, R22 and R232. -/
def Cfg.umW (c : Cfg) : Nat := 2 ^ (c.snw.bits - 1)

/-- The LI field width, R22. -/
def LiWidth.bits : LiWidth → Nat
  | .w11 => 11
  | .w15 => 15

/-- `LI_MAX = 2^liw - 1`, R22. -/
def LiWidth.max (w : LiWidth) : Nat := 2 ^ w.bits - 1

/-- `H0`, the fixed header length: 1 for UM with snw = 5, else 2 (R22). -/
def Cfg.h0 (c : Cfg) : Nat :=
  match c.mode, c.snw with
  | .um, .w5 => 1
  | _, _ => 2

/-- The header format of a bearer's data PDUs, R80. -/
def Cfg.fmt (c : Cfg) : Fmt :=
  match c.mode, c.snw with
  | .am, _ => .amd
  | .um, .w5 => .umd5
  | .um, .w10 => .umd10

/-- The modulus `N` of a slot's SN variables. -/
def Slot.n (s : Slot) : Nat := s.cfg.modulus

/-- `AM_W`, R22. -/
def Slot.amW (s : Slot) : Nat := s.cfg.amW.toNat

/-- `VR_MR = mod_N(VR_R + AM_W)`, derived and not stored, R28. -/
def Slot.vrMr (s : Slot) : Nat := modN s.n (s.vrR + s.amW)

/-- The base of every UM receive comparison, `mod_N(VR_UH - UM_W)`, R232. -/
def Slot.umBase (s : Slot) : Nat := rel s.n s.vrUh s.cfg.umW

/-- `stalled(l)`, the AM "window-stalled" state, R35. -/
def Slot.stalled (s : Slot) : Bool := !inside s.n s.vtS s.vtA s.amW

/-- Some RB entry has pending bytes. -/
def Slot.anyPending (s : Slot) : Bool := s.rb.any fun e => !e.2.pending.isEmpty

/-- "Nothing more to send": `txq` is empty and no RB entry has pending bytes (R270, R279). -/
def Slot.nothingToSend (s : Slot) : Bool := s.txq.isEmpty && !s.anyPending

/-- `complete(r)`, R28. -/
def AmEntry.complete (r : AmEntry) : Bool :=
  match r.len with
  | none => false
  | some n => rangeCovers r.rcvd n

/-- `SN s` is a key of `RXA` and completely received, R318 and R320. -/
def Slot.rxComplete (s : Slot) (sn : Nat) : Bool :=
  match mapGet sn s.rxa with
  | none => false
  | some r => r.complete

/-- FI1 of an FI value, bit 1 (R87). -/
def fi1 (fi : BitVec 2) : Bool := fi.getLsbD 1

/-- FI0 of an FI value, bit 0 (R87). -/
def fi0 (fi : BitVec 2) : Bool := fi.getLsbD 0

/-- `2*fi1 + fi0`. -/
def mkFi (first last : Bool) : BitVec 2 := BitVec.ofBool first ++ BitVec.ofBool last

/-- The flags byte of the GET_STATE block, R110. -/
def Slot.flagsByte (s : Slot) : Nat :=
  match s.cfg.mode with
  | .um => 4 * s.running.reord.toNat
  | .am =>
    s.pollPending.toNat + 2 * s.statusTriggered.toNat + 4 * s.running.reord.toNat + 8 * s.running.prohibit.toNat
      + 16 * s.running.pollretx.toNat

end Sys2Proof.Machine
end

