-- ==== Sys2Proof/Machine/Codec.lean ====
section
/-! DEFINITION. The pure codec functions for data-PDU headers and status PDUs (41_codec.md R150 to R154; 30_encoding.md R80 to
R96). The layouts come from general knowledge by the spec's own mark (log 8). -/

namespace Sys2Proof.Machine

/-! ## Lengths -/

/-- `li_bytes(k)`, R85. -/
def liBytes (liw : LiWidth) (k : Nat) : Nat :=
  match liw with
  | .w11 => (3 * k + 1) / 2
  | .w15 => 2 * k

/-- The fixed part of a data header in octets, R80: 1, 2, 2 or 4. -/
def fixedLen (fmt : Fmt) (rf : Bool) : Nat :=
  match fmt with
  | .umd5 => 1
  | .umd10 => 2
  | .amd => if rf then 4 else 2

/-- `status_len` of `n` records of which `m` have an SO pair, R91. -/
def statusLen (nacks : List Nack) : Nat :=
  (15 + 12 * nacks.length + 30 * (nacks.filter fun k => k.hasSo).length + 7) / 8

/-! ## Data-PDU headers -/

/-- The `(E, LI)` chain of R84, written from position `pos`. -/
def packLis (liw : LiWidth) (pos : Nat) : List Nat → Bytes → Bytes
  | [], buf => buf
  | li :: rest, buf =>
    let buf := wr (wr buf pos 1 (!rest.isEmpty).toNat) (pos + 1) liw.bits li
    packLis liw (pos + 1 + liw.bits) rest buf

/-- The fixed fields of a data header, R81, R82, R83 and R86, on a buffer of zero octets. -/
def packFixed (fmt : Fmt) (h : Hdr) (buf : Bytes) : Bytes :=
  let e0 := (!h.lis.isEmpty).toNat
  match fmt with
  | .umd5 => wr (wr (wr buf 0 2 h.fi.toNat) 2 1 e0) 3 5 h.sn
  | .umd10 => wr (wr (wr (wr buf 0 3 0) 3 2 h.fi.toNat) 5 1 e0) 6 10 h.sn
  | .amd =>
    let buf := wr (wr (wr (wr buf 0 1 1) 1 1 h.rf.toNat) 2 1 h.p.toNat) 3 2 h.fi.toNat
    let buf := wr (wr buf 5 1 e0) 6 10 h.sn
    if h.rf then wr (wr buf 16 1 h.lsf.toNat) 17 15 h.so else buf

/-- `pack_hdr(fmt, liw, h)`, R150. -/
def packHdr (fmt : Fmt) (liw : LiWidth) (h : Hdr) : Bytes :=
  let f := fixedLen fmt h.rf
  let buf := List.replicate (f + liBytes liw h.lis.length) (0 : Byte)
  packLis liw (8 * f) h.lis (packFixed fmt h buf)

/-- `h` is valid for `(fmt, liw)`, R150. `h.fi <= 3` holds by its type. -/
def Hdr.valid (pm : Params) (fmt : Fmt) (liw : LiWidth) (h : Hdr) : Bool :=
  h.lis.length ≤ pm.maxLi && h.lis.all (fun li => 1 ≤ li && li ≤ liw.max) &&
    match fmt with
    | .umd5 => h.sn < 32 && !h.rf && !h.p && !h.lsf && h.so == 0
    | .umd10 => h.sn < 1024 && !h.rf && !h.p && !h.lsf && h.so == 0
    | .amd => h.sn < 1024 && (if h.rf then decide (h.so ≤ Config.maxAmData - 1) else !h.lsf && h.so == 0)

/-- The `(E, LI)` chain read from position `pos`, where `e` is the last E read and at most `fuel` LIs may follow: the LIs and
the position after them (R94, R151). -/
def readLis (liw : LiWidth) (pdu : Bytes) : Nat → Nat → Bool → Option (List Nat × Nat)
  | _, pos, false => some ([], pos)
  | 0, _, true => none
  | fuel + 1, pos, true =>
    if pos + 1 + liw.bits > 8 * pdu.length then none
    else
      (readLis liw pdu fuel (pos + 1 + liw.bits) (wireBit pdu pos)).map fun (lis, p) =>
        (rd pdu (pos + 1) liw.bits :: lis, p)

/-- The fixed fields of a data header and its E bit, R81, R82, R83 and R86. The R1 bits are ignored. -/
def readFixed (fmt : Fmt) (pdu : Bytes) : Hdr × Bool :=
  match fmt with
  | .umd5 => (⟨rd pdu 3 5, BitVec.ofNat 2 (rd pdu 0 2), false, false, false, 0, []⟩, wireBit pdu 2)
  | .umd10 => (⟨rd pdu 6 10, BitVec.ofNat 2 (rd pdu 3 2), false, false, false, 0, []⟩, wireBit pdu 5)
  | .amd =>
    let rf := wireBit pdu 1
    (⟨rd pdu 6 10, BitVec.ofNat 2 (rd pdu 3 2), rf, wireBit pdu 2, rf && wireBit pdu 16,
      if rf then rd pdu 17 15 else 0, []⟩, wireBit pdu 5)

/-- `unpack_hdr(fmt, liw, pdu)`, R151: the header record and `hdr_len`. `none` is MalformedHeader, for the conditions of
R95. -/
def unpackHdr (pm : Params) (fmt : Fmt) (liw : LiWidth) (pdu : Bytes) : Option (Hdr × Nat) :=
  if fmt = .amd ∧ (pdu.length < 1 ∨ wireBit pdu 0 = false) then none
  else
    let f := fixedLen fmt (wireBit pdu 1)
    if pdu.length < f then none
    else
      let (h, e) := readFixed fmt pdu
      match readLis liw pdu pm.maxLi (8 * f) e with
      | none => none
      | some (lis, pos) =>
        let pos := if liw = .w11 ∧ lis.length % 2 = 1 then pos + 4 else pos
        if pos > 8 * pdu.length then none
        else
          let dlen := pdu.length - pos / 8
          if dlen = 0 then none
          else if lis.any fun li => li == 0 then none
          else if dlen ≤ lis.sum then none
          else if fmt = .amd ∧ Config.maxAmData < dlen then none
          else if fmt = .amd ∧ h.rf = true ∧ Config.maxAmData < h.so + dlen then none
          else some ({ h with lis := lis }, pos / 8)

/-! ## Elements and boundaries, R152 -/

/-- `bounds_of(lis)` from a running sum. -/
def boundsFrom (b : Nat) : List Nat → List Nat
  | [] => []
  | li :: lis => (b + li) :: boundsFrom (b + li) lis

/-- `bounds_of(lis)`, R152. -/
def boundsOf (lis : List Nat) : List Nat := boundsFrom 0 lis

/-- `lis_of(b)` from the boundary before. -/
def lisFrom (prev : Nat) : List Nat → List Nat
  | [] => []
  | b :: bs => (b - prev) :: lisFrom b bs

/-- `lis_of(b)`, R152. -/
def lisOf (bounds : List Nat) : List Nat := lisFrom 0 bounds

/-- `split(d, b)` where `d` starts at offset `prev`. -/
def splitFrom (prev : Nat) (d : Bytes) : List Nat → List Bytes
  | [] => [d]
  | b :: bs => d.take (b - prev) :: splitFrom b (d.drop (b - prev)) bs

/-- `split(d, b)`, the elements of a data field, R152. -/
def splitData (d : Bytes) (bounds : List Nat) : List Bytes := splitFrom 0 d bounds

/-! ## Status PDUs -/

/-- `NACK_SN` is in the half window below `ACK_SN`: `mod_1024(ack - sn)` in `1..512` (R96 condition 6). -/
def halfWindow (ack sn : Nat) : Bool := 1 ≤ rel 1024 ack sn && rel 1024 ack sn ≤ 512

/-- The status record is valid, R153. -/
def Status.valid (pm : Params) (s : Status) : Bool :=
  s.ack < 1024 && s.nacks.length ≤ pm.maxNacks &&
    s.nacks.all fun k =>
      k.sn < 1024 && (if k.hasSo then k.soStart ≤ k.soEnd && k.soEnd ≤ 0x7FFF else k.soStart == 0 && k.soEnd == 0) &&
        halfWindow s.ack k.sn

/-- The NACK records of R90, written from position `pos`. -/
def packNacks (pos : Nat) : List Nack → Bytes → Bytes
  | [], buf => buf
  | k :: rest, buf =>
    let buf := wr (wr (wr buf pos 10 k.sn) (pos + 10) 1 (!rest.isEmpty).toNat) (pos + 11) 1 k.hasSo.toNat
    if k.hasSo then packNacks (pos + 42) rest (wr (wr buf (pos + 12) 15 k.soStart) (pos + 27) 15 k.soEnd)
    else packNacks (pos + 12) rest buf

/-- `pack_status(s)`, R153. -/
def packStatus (s : Status) : Bytes :=
  let buf := List.replicate (statusLen s.nacks) (0 : Byte)
  let buf := wr (wr (wr (wr buf 0 1 0) 1 3 0) 4 10 s.ack) 14 1 (!s.nacks.isEmpty).toNat
  packNacks 15 s.nacks buf

/-- The NACK records read from position `pos`, where `e1` is the last E1 read and at most `fuel` records may follow
(R154). -/
def readNacks (ack : Nat) (b : Bytes) : Nat → Nat → Bool → Option (List Nack)
  | _, _, false => some []
  | 0, _, true => none
  | fuel + 1, pos, true =>
    if pos + 12 > 8 * b.length then none
    else
      let sn := rd b pos 10
      let e1 := wireBit b (pos + 10)
      if wireBit b (pos + 11) then
        if pos + 42 > 8 * b.length then none
        else
          let s0 := rd b (pos + 12) 15
          let s1 := rd b (pos + 27) 15
          if s1 < s0 then none
          else if halfWindow ack sn = false then none
          else (readNacks ack b fuel (pos + 42) e1).map fun ks => ⟨sn, true, s0, s1⟩ :: ks
      else if halfWindow ack sn = false then none
      else (readNacks ack b fuel (pos + 12) e1).map fun ks => ⟨sn, false, 0, 0⟩ :: ks

/-- `unpack_status(b)`, R154. `none` is MalformedStatusPdu, for the conditions of R96. -/
def unpackStatus (pm : Params) (b : Bytes) : Option Status :=
  if b.length < 2 then none
  else if rd b 0 1 ≠ 0 ∨ rd b 1 3 ≠ 0 then none
  else
    let ack := rd b 4 10
    (readNacks ack b pm.maxNacks 15 (wireBit b 14)).map fun ks => ⟨ack, ks⟩

end Sys2Proof.Machine
end

