-- ==== Sys2Proof/Machine/Ops.lean ====
section
/-! DEFINITION. The named operations over the state: slots and tags, responses and refusals, events, timers and metrics
(00_scope.md R12; 60_exceptions.md R350 to R362). -/

namespace Sys2Proof.Machine

/-- What a command's meaning answers. -/
abbrev Next := Host.Outcome State Fault Refusal

/-! ## Slots and generation tags -/

/-- `S[l]`, R21. -/
def State.slot (s : State) (l : Lcid) : Slot := s.slots[l.toNat]'(l.isLt)

/-- `G.gen[l]`, R20. -/
def State.tags (s : State) (l : Lcid) : PerTimer (BitVec 16) := s.gen[l.toNat]'(l.isLt)

/-- The state with `S[l]` at `v`. -/
def State.setSlot (s : State) (l : Lcid) (v : Slot) : State := { s with slots := s.slots.set l.toNat v l.isLt }

/-- The state with `G.gen[l]` at `v`. -/
def State.setTags (s : State) (l : Lcid) (v : PerTimer (BitVec 16)) : State :=
  { s with gen := s.gen.set l.toNat v l.isLt }

/-! ## Responses and refusals -/

/-- The one response of a command, R102. -/
def State.respond (s : State) (r : Response) : State := { s with responses := s.responses ++ [r] }

/-- `Respond(OK, result)` of a command that changes no slot, R12. -/
def finish (s : State) (result : Bytes) : Next := .next (s.respond ⟨.ok, result, []⟩)

/-- `raise E`: the response is E's code with no result and no event, and nothing else changes (R12, R353). This is RLCW's
one form of exception: it has no trap entry, saved state or return (R368). -/
def raise (s : State) (c : Code) : Next := .next (s.respond ⟨c, [], []⟩)

/-- Goes on with `k` where the check holds, and raises `c` where it fails. -/
def require (ok : Bool) (c : Code) (s : State) (k : Next) : Next := if ok then k else raise s c

/-- The slot check of upper-facing commands, R180. -/
def requireActive (l : Lcid) (s : State) (k : Next) : Next := require (s.slot l).active .noBearer s k

/-! ## A command at work on one slot -/

/-- A command at work on slot `lcid`, with the machine's parameters: the slot and its generation tags as the command has left them so far, and the events
it has emitted. -/
structure Work where
  params : Params
  lcid : Lcid
  slot : Slot
  tags : PerTimer (BitVec 16)
  events : List Event
  deriving DecidableEq, Repr

/-- The start of a command's work on slot `l`. -/
def State.enter (s : State) (l : Lcid) : Work := ⟨s.params, l, s.slot l, s.tags l, []⟩

/-- The state with the slot and tags a command's work has left. -/
def State.store (s : State) (w : Work) : State := (s.setSlot w.lcid w.slot).setTags w.lcid w.tags

/-- `Respond(OK, result)` at the end of a command's work, with the events it emitted. -/
def commit (s : State) (w : Work) (result : Bytes) : Next := .next ((s.store w).respond ⟨.ok, result, w.events⟩)

/-- `Emit(ev)`, R12. -/
def Work.emit (w : Work) (ev : Event) : Work := { w with events := w.events ++ [ev] }

/-- The work with its slot changed. -/
def Work.upd (w : Work) (f : Slot → Slot) : Work := { w with slot := f w.slot }

/-- `Drop(l, reason)`: the DROP event and nothing else, R354. -/
def Work.drop (w : Work) (reason : DropReason) : Work := w.emit (.drop w.lcid reason)

/-! ## Timers -/

/-- `duration(l, k)`, R360. -/
def Cfg.duration (c : Cfg) : TimerKind → BitVec 16
  | .reord => c.tReorderingMs
  | .prohibit => c.tStatusProhibitMs
  | .pollretx => c.tPollRetransmitMs

/-- `StartTimer(l, k)`, R361. -/
def Work.startTimer (w : Work) (k : TimerKind) : Work :=
  let g := w.tags.get k + 1
  let w := { w with tags := w.tags.set k g, slot := { w.slot with running := w.slot.running.set k true } }
  w.emit (.timerStart w.lcid k g (w.slot.cfg.duration k))

/-- `StopTimer(l, k)`, R362. -/
def Work.stopTimer (w : Work) (k : TimerKind) : Work :=
  let w := w.upd fun s => { s with running := s.running.set k false }
  w.emit (.timerStop w.lcid k (w.tags.get k))

/-- `StopTimer(l, k)` where the timer runs. -/
def Work.stopIfRunning (w : Work) (k : TimerKind) : Work := if w.slot.running.get k then w.stopTimer k else w

/-- `stop_all_timers(l)`: REORD, PROHIBIT, POLLRETX in that order, R190. -/
def Work.stopAllTimers (w : Work) : Work := ((w.stopIfRunning .reord).stopIfRunning .prohibit).stopIfRunning .pollretx

/-! ## Metrics, R31 -/

def Work.countTxPdu (w : Work) : Work :=
  w.upd fun s => { s with metrics := { s.metrics with numTxPdus := s.metrics.numTxPdus + 1 } }

def Work.countRxPdu (w : Work) : Work :=
  w.upd fun s => { s with metrics := { s.metrics with numRxPdus := s.metrics.numRxPdus + 1 } }

def Work.countTxSdu (w : Work) : Work :=
  w.upd fun s => { s with metrics := { s.metrics with numTxSdus := s.metrics.numTxSdus + 1 } }

def Work.countRxSdu (w : Work) : Work :=
  w.upd fun s => { s with metrics := { s.metrics with numRxSdus := s.metrics.numRxSdus + 1 } }

def Work.countLostPdu (w : Work) : Work :=
  w.upd fun s => { s with metrics := { s.metrics with numLostPdus := s.metrics.numLostPdus + 1 } }

def Work.countRetxPdu (w : Work) : Work :=
  w.upd fun s => { s with metrics := { s.metrics with numRetxPdus := s.metrics.numRetxPdus + 1 } }

/-! ## Bearer initialisation -/

/-- `init_entity(l)`, R189. `cfg`, `metrics` and `active` are not changed. -/
def initEntity (s : Slot) : Slot :=
  { s with
    txq := []
    vtUs := 0, vtS := 0, vtA := 0, pollSn := 0
    pduWithoutPoll := 0, byteWithoutPoll := 0, pollPending := false
    rb := []
    vrUr := 0, vrUx := 0, vrUh := 0, rxu := []
    vrR := 0, vrX := 0, vrH := 0, statusTriggered := false, rxa := []
    rsm := ⟨none, 0⟩
    running := ⟨false, false, false⟩ }

/-- `sat32`: addition to a u32 counter that saturates at `2^32 - 1`, R269. -/
def satAdd32 (x : BitVec 32) (n : Nat) : BitVec 32 := BitVec.ofNat 32 (min (x.toNat + n) 4294967295)

end Sys2Proof.Machine
end

