-- ==== Sys2Proof/Machine/Reassembly.lean ====
section
/-! DEFINITION. Reassembly, which UM and AM receive share (44_um_rx.md R237, R238). -/

namespace Sys2Proof.Machine

/-- The work with `RSM.part` at `part`. -/
def Work.setPart (w : Work) (part : Option Bytes) : Work :=
  w.upd fun s => { s with rsm := { s.rsm with part := part } }

/-- The elements of one PDU through the reassembly buffer, R237. `first` says that the next element is the PDU's first. A
partial SDU longer than MAX_SDU_BYTES is dropped (R238). -/
def feedElems (fi : BitVec 2) : Bool → List Bytes → Work → Work
  | _, [], w => w
  | first, e :: rest, w =>
    let starts := !first || !fi1 fi
    let ends := !rest.isEmpty || !fi0 fi
    let joined : Option Bytes := if starts then some e else w.slot.rsm.part.map fun p => p ++ e
    match joined with
    | none => feedElems fi false rest w
    | some b =>
      if w.params.maxSduBytes < b.length then feedElems fi false rest (w.setPart none)
      else if ends then feedElems fi false rest (((w.emit (.deliverSdu w.lcid b)).countRxSdu).setPart none)
      else feedElems fi false rest (w.setPart (some b))

/-- `rsm_feed(l, s, p)`, R237. -/
def rsmFeed (sn : Nat) (p : Body) (w : Work) : Work :=
  let w := if w.slot.rsm.part.isSome && w.slot.rsm.next != sn then w.setPart none else w
  let w := feedElems p.fi true (splitData p.data p.bounds) w
  if w.slot.rsm.part.isSome then
    w.upd fun s => { s with rsm := { s.rsm with next := modN s.n (sn + 1) } }
  else w

end Sys2Proof.Machine
end

