-- ==== Sys2Proof/Machine/AmRx.lean ====
section
/-! DEFINITION. AM receive: the receive window, the segment merge and the status generator (46_am_rx.md R310 to R326). -/

namespace Sys2Proof.Machine

/-! ## Segment merge -/

/-- A new, empty reception entry (R312). -/
def AmEntry.empty : AmEntry := ⟨[], [], [], none, none, none⟩

/-- The boundaries that a piece reveals, R314: those of its LIs, and its own edges where FI says that an SDU starts or ends
there. -/
def pieceBounds (pc : Piece) (h : Hdr) : List Nat :=
  (boundsOf h.lis).map (pc.so + ·) ++ (if 0 < pc.so && !fi1 h.fi then [pc.so] else []) ++
    (if !pc.last && !fi0 h.fi then [pc.so + pc.len] else [])

/-- The entry after a piece, before the consistency checks of R315. -/
def mergeRaw (r : AmEntry) (pc : Piece) (h : Hdr) (d : Bytes) : AmEntry where
  data := cellMerge r.data (cellsOf pc.so d)
  rcvd := rangeAdd pc.so (pc.so + pc.len) r.rcvd
  bset := bsetUnion r.bset (pieceBounds pc h)
  len := if pc.last then some (pc.so + pc.len) else r.len
  fiFirst := if pc.so = 0 ∧ r.fiFirst = none then some (fi1 h.fi) else r.fiFirst
  fiLast := if pc.last = true ∧ r.fiLast = none then some (fi0 h.fi) else r.fiLast

/-- An entry holds no byte and no boundary at or beyond its known length, R314's last check. -/
def AmEntry.consistent (r : AmEntry) : Bool :=
  match r.len with
  | none => true
  | some n => !rangeReaches r.rcvd n && r.bset.all fun b => b < n

/-- `merge(r, piece, h, d)`, R314. `none` is an inconsistent piece, R315. -/
def merge (r : AmEntry) (pc : Piece) (h : Hdr) (d : Bytes) : Option AmEntry :=
  if pc.last = true ∧ r.len ≠ none ∧ r.len ≠ some (pc.so + pc.len) then none
  else
    let r' := mergeRaw r pc h d
    if r'.consistent then some r' else none

/-! ## Delivery and timers -/

/-- The body of a complete entry, R318. -/
def AmEntry.body (r : AmEntry) : Body :=
  ⟨mkFi (r.fiFirst.getD false) (r.fiLast.getD false), r.bset, cellBytes (r.len.getD 0) r.data⟩

/-- `am_advance(l)`, R318. Each turn removes an entry, so as many turns as there are entries are enough. -/
def amAdvanceLoop : Nat → Work → Work
  | 0, w => w
  | fuel + 1, w =>
    match mapGet w.slot.vrR w.slot.rxa with
    | none => w
    | some r =>
      if r.complete then
        let w := rsmFeed w.slot.vrR r.body w
        amAdvanceLoop fuel
          (w.upd fun s => { s with rxa := mapDel s.vrR s.rxa, vrR := modN s.n (s.vrR + 1) })
      else w

/-- `am_advance(l)`, R318. -/
def amAdvance (w : Work) : Work := amAdvanceLoop w.slot.rxa.length w

/-- The AM reordering timer is stopped: `VR_X` is outside `(VR_R, VR_MR]` (R319). -/
def amTimerObsolete (s : Slot) : Bool :=
  s.vrX == s.vrR || !(0 < rel s.n s.vrX s.vrR && rel s.n s.vrX s.vrR ≤ s.amW)

/-- The AM reordering timer is started against `VR_H`. -/
def amStartReord (w : Work) : Work := (w.upd fun s => { s with vrX := s.vrH }).startTimer .reord

/-- `am_timers(l)`, R319. -/
def amTimers (w : Work) : Work :=
  let w := if w.slot.running.reord && amTimerObsolete w.slot then w.stopTimer .reord else w
  if !w.slot.running.reord && w.slot.vrH != w.slot.vrR then amStartReord w else w

/-- AM t_reordering expiry, R320. -/
def amReordExpiry (w : Work) : Work :=
  let s := w.slot
  let m := snSkip s.n (fun t => t != s.vrH && s.rxComplete t) s.n s.vrX
  let w := w.upd fun s => { s with statusTriggered := true }
  if rel s.n m s.vrR < rel s.n s.vrH s.vrR then amStartReord w else w

/-! ## Reception -/

/-- A received data PDU is counted, and its P bit triggers a status (R312, R321). -/
def amCount (p : Bool) (w : Work) : Work :=
  w.countRxPdu.upd fun s => { s with statusTriggered := s.statusTriggered || p }

/-- The piece that a header record and data length describe, R312. -/
def pieceOf (h : Hdr) (len : Nat) : Piece := if h.rf then ⟨h.so, len, h.lsf⟩ else ⟨0, len, true⟩

/-- Every offset of the piece is held by an existing entry, R316. -/
def pieceDuplicate (old : Option AmEntry) (pc : Piece) : Bool :=
  match old with
  | none => false
  | some r => rangeIncl pc.so (pc.so + pc.len) r.rcvd

/-- `VR_H` after a new piece of SN `x`, R317. -/
def amBumpVrH (x : Nat) (s : Slot) : Slot :=
  if rel s.n s.vrH s.vrR ≤ rel s.n x s.vrR then { s with vrH := modN s.n (x + 1) } else s

/-- The update of R312 for an accepted piece that is not a duplicate. -/
def amAccept (x : Nat) (r : AmEntry) (w : Work) : Work :=
  let w := w.upd fun s => amBumpVrH x { s with rxa := mapPut x r s.rxa }
  let w := if x == w.slot.vrR && r.complete then amAdvance w else w
  amTimers w

/-- `am_data_receive(l, pdu)`, R312. -/
def amDataReceive (pdu : Bytes) (w : Work) : Work :=
  match unpackHdr w.params .amd w.slot.cfg.liw pdu with
  | none => w.drop .malformedHeader
  | some (h, n) =>
    let d := pdu.drop n
    let pc := pieceOf h d.length
    if !inside w.slot.n h.sn w.slot.vrR w.slot.amW then amCount h.p w
    else
      let old := mapGet h.sn w.slot.rxa
      match merge (old.getD AmEntry.empty) pc h d with
      | none => w.drop .malformedHeader
      | some r =>
        let w := amCount h.p w
        if pieceDuplicate old pc then w else amAccept h.sn r w

/-! ## Status generator -/

/-- The NACK records of one SN, `Q` of R324: none where it is complete, one where it is wholly missing, one per gap
otherwise. -/
def nacksOf (rxa : SnMap AmEntry) (sn : Nat) : List Nack :=
  match mapGet sn rxa with
  | none => [⟨sn, false, 0, 0⟩]
  | some r =>
    if r.complete then []
    else (rangeGaps r.len 0 r.rcvd).map fun g =>
      ⟨sn, true, g.1, match g.2 with
        | none => 0x7FFF
        | some z => z - 1⟩

/-- The loop of R324 over the SNs left, with the NACKs so far. `ack` is `VR_H`. -/
def statusLoop (pm : Params) (rxa : SnMap AmEntry) (budget ack : Nat) : List Nat → List Nack → Status
  | [], nacks => ⟨ack, nacks⟩
  | sn :: rest, nacks =>
    let q := nacksOf rxa sn
    if q ≠ [] ∧ (pm.maxNacks < nacks.length + q.length ∨ budget < statusLen (nacks ++ q)) then ⟨sn, nacks⟩
    else statusLoop pm rxa budget ack rest (nacks ++ q)

/-- `build_status(l, B)`, R324. -/
def buildStatus (pm : Params) (s : Slot) (budget : Nat) : Status :=
  statusLoop pm s.rxa budget s.vrH (snInterval s.n s.vrR s.vrH) []

end Sys2Proof.Machine
end

