-- ==== Sys2Proof/Machine/UmTx.lean ====
section
/-! DEFINITION. The SDU queue's builder and UM transmit (43_um_tx.md R210 to R217). -/

namespace Sys2Proof.Machine

/-- `remaining(q)`, R23. -/
def TxSdu.remaining (q : TxSdu) : Nat := q.bytes.length - q.off

/-- `bs_new(l, H, ·)`, the new-data part of the buffer state, R213. -/
def bsNew (h : Nat) (liw : LiWidth) (txq : List TxSdu) : Nat :=
  match txq.length with
  | 0 => 0
  | n + 1 => h + liBytes liw n + (txq.map TxSdu.remaining).sum

/-- What `build_elems` returns, R215. -/
structure Built where
  fi : BitVec 2
  lis : List Nat
  data : Bytes
  txq : List TxSdu
  deriving DecidableEq, Repr

/-- The room left in the data field for one more element, 0 where the loop of R215 must exit. `elems` are the elements so
far. -/
def elemRoom (pm : Params) (budget h dcap : Nat) (liw : LiWidth) (elems : List Bytes) : Nat :=
  let k := elems.length
  let used := (elems.map List.length).sum
  let lastTooLong := match elems.getLast? with
    | none => false
    | some e => decide (liw.max < e.length)
  if lastTooLong || decide (pm.maxLi < k) then 0
  else min (budget - (h + liBytes liw k)) dcap - used

/-- The loop of R215: the elements, FI0, and the queue left. -/
def elemLoop (pm : Params) (budget h dcap : Nat) (liw : LiWidth) : List TxSdu → List Bytes → List Bytes × Bool × List TxSdu
  | [], elems => (elems, false, [])
  | s :: q, elems =>
    let room := elemRoom pm budget h dcap liw elems
    if room = 0 then (elems, false, s :: q)
    else
      let take := min s.remaining room
      let elems := elems ++ [(s.bytes.drop s.off).take take]
      if take < s.remaining then (elems, true, { s with off := s.off + take } :: q)
      else elemLoop pm budget h dcap liw q elems

/-- `build_elems(l, B, H, DCAP)`, R215. -/
def buildElems (pm : Params) (budget h dcap : Nat) (liw : LiWidth) (txq : List TxSdu) : Option Built :=
  match txq with
  | [] => none
  | s :: q =>
    if budget ≤ h then none
    else
      let (elems, last, rest) := elemLoop pm budget h dcap liw (s :: q) []
      some ⟨mkFi (decide (0 < s.off)) last, elems.dropLast.map List.length, elems.flatten, rest⟩

/-- `um_read(l, B)`, R216: the PDU, empty where there is nothing to send, and the work after it. -/
def umRead (budget : Nat) (w : Work) : Bytes × Work :=
  let c := w.slot.cfg
  match buildElems w.params budget c.h0 Config.maxPayload c.liw w.slot.txq with
  | none => ([], w)
  | some b =>
    let pdu := packHdr c.fmt c.liw ⟨w.slot.vtUs, b.fi, false, false, false, 0, b.lis⟩ ++ b.data
    (pdu, (w.upd fun s => { s with txq := b.txq, vtUs := modN s.n (s.vtUs + 1) }).countTxPdu)

end Sys2Proof.Machine
end

