-- ==== Sys2Proof/Machine/AmTx.lean ====
section
/-! DEFINITION. AM transmit: the transmit window, the retransmission buffer, polling and status reception (45_am_tx.md R260 to
R283). -/

namespace Sys2Proof.Machine

/-! ## Poll -/

/-- The counters of R269 for a new AMD PDU. -/
def pollCount (new : Bool) (nbytes : Nat) (s : Slot) : Slot :=
  if new then
    { s with
      pduWithoutPoll := satAdd32 s.pduWithoutPoll 1
      byteWithoutPoll := satAdd32 s.byteWithoutPoll nbytes }
  else s

/-- The poll condition of R270, after the counters have been updated. -/
def pollDue (s : Slot) : Bool :=
  s.pollPending || (s.cfg.pollPdu != 0 && decide (s.cfg.pollPdu.toNat ≤ s.pduWithoutPoll.toNat)) ||
    (s.cfg.pollByte != 0 && decide (s.cfg.pollByte.toNat ≤ s.byteWithoutPoll.toNat)) || s.nothingToSend || s.stalled

/-- `poll_decide(l, new, nbytes)`, R270: the P bit, and the work after it. -/
def pollDecide (new : Bool) (nbytes : Nat) (w : Work) : Bool × Work :=
  let w := w.upd (pollCount new nbytes)
  if pollDue w.slot then
    (true, (w.upd fun s =>
      { s with pduWithoutPoll := 0, byteWithoutPoll := 0, pollPending := false, pollSn := rel s.n s.vtS 1 }).startTimer .pollretx)
  else (false, w)

/-! ## New data -/

/-- `new_pdu(l, B)`, R263. -/
def newPdu (budget : Nat) (w : Work) : Option (Bytes × Work) :=
  if w.slot.stalled then none
  else
    let liw := w.slot.cfg.liw
    match buildElems w.params budget 2 Config.maxAmData liw w.slot.txq with
    | none => none
    | some b =>
      let sn := w.slot.vtS
      let w := w.upd fun s => { s with txq := b.txq, vtS := modN s.n (s.vtS + 1) }
      let (p, w) := pollDecide true b.data.length w
      let e : RetxEntry := ⟨b.fi, boundsOf b.lis, b.data, p, 0, [], false⟩
      let w := w.upd fun s => { s with rb := mapPut sn e s.rb }
      some (packHdr .amd liw ⟨sn, b.fi, false, p, false, 0, b.lis⟩ ++ b.data, w)

/-! ## Retransmission -/

/-- `image(e, sn)`, R26: the byte image of the PDU as first sent. -/
def RetxEntry.image (liw : LiWidth) (sn : Nat) (e : RetxEntry) : Bytes :=
  packHdr .amd liw ⟨sn, e.fi, false, e.p0, false, 0, lisOf e.bounds⟩ ++ e.data

/-- The boundaries `b` with `a < b < a + n`, R265 and R266. -/
def innerBounds (bounds : List Nat) (a n : Nat) : List Nat := bounds.filter fun b => a < b && b < a + n

/-- The length of the segment `[a, a + n)`, header included, R265. -/
def segLen (liw : LiWidth) (bounds : List Nat) (a n : Nat) : Nat := 4 + liBytes liw (innerBounds bounds a n).length + n

/-- The largest `n` of `1 .. m` whose segment from `a` fits the budget, R265. -/
def largestSeg (liw : LiWidth) (bounds : List Nat) (budget a : Nat) : Nat → Option Nat
  | 0 => none
  | m + 1 => if segLen liw bounds a (m + 1) ≤ budget then some (m + 1) else largestSeg liw bounds budget a m

/-- `seg_fields(e, a, n)`, R266: FI, LIs and LSF of a segment. -/
def segFields (e : RetxEntry) (a n : Nat) : BitVec 2 × List Nat × Bool :=
  let l := e.data.length
  let first := if a = 0 then fi1 e.fi else !e.bounds.contains a
  let last := if a + n = l then fi0 e.fi else !e.bounds.contains (a + n)
  (mkFi first last, lisOf ((innerBounds e.bounds a n).map (· - a)), decide (a + n = l))

/-- The SNs with pending bytes, R265. -/
def pendingSns (rb : SnMap RetxEntry) : List Nat := mapKeys (rb.filter fun e => !e.2.pending.isEmpty)

/-- The whole PDU of an entry, as first sent but for P, R265. -/
def retxWhole (sn : Nat) (e : RetxEntry) (w : Work) : Bytes × Work :=
  let w := w.upd fun s => { s with rb := mapPut sn { e with pending := [] } s.rb }
  let (p, w) := pollDecide false e.data.length w
  (packHdr .amd w.slot.cfg.liw ⟨sn, e.fi, false, p, false, 0, lisOf e.bounds⟩ ++ e.data, w)

/-- The segment `[a, a + n)` of an entry, R265. -/
def retxSegment (sn : Nat) (e : RetxEntry) (a n : Nat) (w : Work) : Bytes × Work :=
  let (fi, lis, lsf) := segFields e a n
  let w := w.upd fun s => { s with rb := mapPut sn { e with pending := rangeSub a (a + n) e.pending } s.rb }
  let (p, w) := pollDecide false n w
  (packHdr .amd w.slot.cfg.liw ⟨sn, fi, true, p, lsf, a, lis⟩ ++ (e.data.drop a).take n, w)

/-- `retx_pdu(l, B)` for a chosen SN, R265. -/
def retxEntry (budget sn : Nat) (e : RetxEntry) (w : Work) : Option (Bytes × Work) :=
  let liw := w.slot.cfg.liw
  let l := e.data.length
  if e.pending = [(0, l)] ∧ 2 + liBytes liw e.bounds.length + l ≤ budget then some (retxWhole sn e w)
  else
    match e.pending with
    | [] => none
    | (a, z) :: _ =>
      match largestSeg liw e.bounds budget a (min (z - a) (budget - 4)) with
      | none => none
      | some n => some (retxSegment sn e a n w)

/-- `retx_pdu(l, B)`, R265: the lowest SN with pending bytes, in window order. -/
def retxPdu (budget : Nat) (w : Work) : Option (Bytes × Work) :=
  match leastBy (fun sn => rel w.slot.n sn w.slot.vtA) (pendingSns w.slot.rb) with
  | none => none
  | some sn =>
    match mapGet sn w.slot.rb with
    | none => none
    | some e => retxEntry budget sn e w

/-! ## READ_PDU of an AM bearer -/

/-- A triggered status may be sent now, R262 and R326. -/
def statusDue (s : Slot) : Bool := s.statusTriggered && !s.running.prohibit

/-- Priority 1 of R262: the status PDU. -/
def statusPdu (budget : Nat) (w : Work) : Bytes × Work :=
  (packStatus (buildStatus w.params w.slot budget),
    ((w.upd fun s => { s with statusTriggered := false }).startTimer .prohibit).countTxPdu)

/-- `am_read(l, B)`, R262: status, then retransmission, then new data. -/
def amRead (budget : Nat) (w : Work) : Bytes × Work :=
  if statusDue w.slot && decide (2 ≤ budget) then statusPdu budget w
  else
    match retxPdu budget w with
    | some (pdu, w) => (pdu, w.countTxPdu.countRetxPdu)
    | none =>
      match newPdu budget w with
      | some (pdu, w) => (pdu, w.countTxPdu)
      | none => ([], w)

/-! ## Status reception -/

/-- `in_context(l, s)`, R271. -/
def inContext (n vtA vtS : Nat) (s : Status) : Bool :=
  insideClosed n s.ack vtA vtS && s.nacks.all fun k => before n k.sn s.ack vtA

/-- One NACK record's range within `[0, L)`, R274. -/
def nackRange (len : Nat) (k : Nack) (rg : RangeSet) : RangeSet :=
  if k.hasSo then
    let z := if k.soEnd = 0x7FFF then len else min (k.soEnd + 1) len
    if k.soStart < len then rangeAdd k.soStart z rg else rg
  else rangeAdd 0 len rg

/-- `nack_ranges(e, R)`, R274. -/
def nackRanges (len : Nat) (ks : List Nack) : RangeSet := ks.foldl (fun rg k => nackRange len k rg) []

/-- `consider_for_retx(l, sn, rg)`, R276. -/
def considerForRetx (sn : Nat) (rg : RangeSet) (w : Work) : Work :=
  match mapGet sn w.slot.rb with
  | none => w
  | some e =>
    if e.dead then w
    else if e.pending.isEmpty then
      if w.slot.cfg.maxRetxThreshold.toNat < e.retxCount.toNat + 1 then
        (w.upd fun s => { s with rb := mapPut sn { e with dead := true } s.rb }).emit (.notifyMaxRetx w.lcid sn)
      else
        w.upd fun s =>
          { s with rb := mapPut sn { e with retxCount := e.retxCount + 1, pending := rangeUnion e.pending rg } s.rb }
    else w.upd fun s => { s with rb := mapPut sn { e with pending := rangeUnion e.pending rg } s.rb }

/-- One SN below ACK_SN, R273: freed where it has no NACK record, considered for retransmission where it has. -/
def statusStep (nacks : List Nack) (w : Work) (sn : Nat) : Work :=
  match mapGet sn w.slot.rb with
  | none => w
  | some e =>
    let ks := nacks.filter fun k => k.sn == sn
    if ks.isEmpty then w.upd fun s => { s with rb := mapDel sn s.rb }
    else
      let rg := nackRanges e.data.length ks
      if rg.isEmpty then w else considerForRetx sn rg w

/-- `VT_A` after a status, R275: the lowest SN still in `RB` from the old `VT_A`, or `VT_S`. -/
def nextVtA (n a0 vtS : Nat) (rb : SnMap RetxEntry) : Nat := (leastBy (fun k => rel n k a0) (mapKeys rb)).getD vtS

/-- `handle_status(l, s)`, R273. -/
def handleStatus (st : Status) (w : Work) : Work :=
  let n := w.slot.n
  let a0 := w.slot.vtA
  let w := (snInterval n a0 st.ack).foldl (statusStep st.nacks) w
  let w := w.upd fun s => { s with vtA := nextVtA n a0 s.vtS s.rb }
  if w.slot.running.pollretx && before n w.slot.pollSn st.ack a0 then w.stopTimer .pollretx else w

/-- WRITE_PDU of a control PDU on an AM bearer, R272. -/
def statusReceive (pdu : Bytes) (w : Work) : Work :=
  match unpackStatus w.params pdu with
  | none => w.drop .malformedStatusPdu
  | some st =>
    if inContext w.slot.n w.slot.vtA w.slot.vtS st then handleStatus st w.countRxPdu else w.drop .malformedStatusPdu

/-- WRITE_PDU on an active AM bearer, R311. -/
def amWritePdu (pdu : Bytes) (w : Work) : Work :=
  if pdu.length = 0 then w.drop .malformedHeader
  else if wireBit pdu 0 then amDataReceive pdu w
  else statusReceive pdu w

/-! ## Timer expiry and buffer state -/

/-- t_poll_retransmit expiry, R279. -/
def pollRetxExpiry (w : Work) : Work :=
  let w := w.upd fun s => { s with pollPending := true }
  let s := w.slot
  if s.vtS != s.vtA && (s.nothingToSend || s.stalled) then
    match greatestBy (fun sn => rel s.n sn s.vtA) (mapKeys (s.rb.filter fun e => !e.2.dead)) with
    | none => w
    | some sn =>
      match mapGet sn s.rb with
      | none => w
      | some e => considerForRetx sn (rangeAdd 0 e.data.length []) w
  else w

/-- The bytes of an entry's pending retransmission, R283. -/
def bsEntry (liw : LiWidth) (e : RetxEntry) : Nat :=
  let l := e.data.length
  if e.pending.isEmpty then 0
  else if e.pending = [(0, l)] then 2 + liBytes liw e.bounds.length + l
  else (e.pending.map fun i => segLen liw e.bounds i.1 (i.2 - i.1)).sum

/-- `bs_am(l)`, R283. -/
def bsAm (pm : Params) (s : Slot) : Nat :=
  (if statusDue s then (packStatus (buildStatus pm s 65535)).length else 0) +
    (s.rb.map fun e => bsEntry s.cfg.liw e.2).sum +
    (if s.stalled then 0 else bsNew 2 s.cfg.liw s.txq)

end Sys2Proof.Machine
end

