-- ==== Sys2Proof/Machine/Operands.lean ====
section
/-! DEFINITION. The operand forms of the commands: header-field checks (30_encoding.md R106), the configuration block (R107,
R182), the SN payload (40_sn_arith.md), the header record (R108), the status record (R109) and the state and metrics blocks
(R110, R111). -/

namespace Sys2Proof.Machine

/-! ## Header fields, R105 and R106 -/

/-- The timer kind that SUB names, R360 and R363. -/
def timerKindOf (k : Sub) : Option TimerKind :=
  match k.toNat with
  | 0 => some .reord
  | 1 => some .prohibit
  | 2 => some .pollretx
  | _ => none

/-- The format selector of HDR_PACK and HDR_UNPACK, R105: `SUB[1:0]` the format, `SUB[2]` the LI width, `SUB[4:3]` 0. -/
def fmtOf (sub : Sub) : Option (Fmt × LiWidth) :=
  if sub.extractLsb' 3 2 ≠ 0 then none
  else
    let liw := if sub.getLsbD 2 then LiWidth.w15 else LiWidth.w11
    match (sub.extractLsb' 0 2).toNat with
    | 0 => some (.umd5, liw)
    | 1 => some (.umd10, liw)
    | 2 => some (.amd, liw)
    | _ => none

/-! ## The configuration block -/

/-- The SN width that a block selects for a mode, R182 conditions 4 and 5. -/
def snWidthOf (mode : Mode) (b : Nat) : Option SnWidth :=
  match mode, b with
  | .um, 5 => some .w5
  | .um, 10 => some .w10
  | .am, 10 => some .w10
  | _, _ => none

/-- The mode byte, R182 condition 1. -/
def modeOf (b : Nat) : Option Mode :=
  match b with
  | 0 => some .um
  | 1 => some .am
  | _ => none

/-- The LI width byte, R182 condition 3. -/
def liWidthOf (b : Nat) : Option LiWidth :=
  match b with
  | 0 => some .w11
  | 11 => some .w11
  | 15 => some .w15
  | _ => none

/-- `am_w` of a block: `u16be(b, 16)`, or 512 when that is 0 (R182 condition 7). -/
def amWOf (b : Bytes) : Nat := if u16be b 16 = 0 then 512 else u16be b 16

/-- `accept_cfg(b)`, R182. `none` is ERR_CONFIG_REJECTED. -/
def acceptCfg (b : Bytes) : Option Cfg :=
  match modeOf (u8 b 0), liWidthOf (u8 b 2) with
  | some mode, some liw =>
    match snWidthOf mode (u8 b 1) with
    | none => none
    | some snw =>
      if u16be b 18 ≠ 0 then none
      else if mode = .am ∧ u8 b 3 = 0 then none
      else if mode = .am ∧ ¬ (1 ≤ amWOf b ∧ amWOf b ≤ 2 ^ (snw.bits - 1)) then none
      else
        some {
          mode := mode
          snw := snw
          liw := liw
          maxRetxThreshold := BitVec.ofNat 8 (u8 b 3)
          tReorderingMs := BitVec.ofNat 16 (u16be b 4)
          tStatusProhibitMs := BitVec.ofNat 16 (u16be b 6)
          tPollRetransmitMs := BitVec.ofNat 16 (u16be b 8)
          pollPdu := BitVec.ofNat 16 (u16be b 10)
          pollByte := BitVec.ofNat 32 (u32be b 12)
          amW := BitVec.ofNat 16 (amWOf b) }
  | _, _ => none

/-- A CONFIGURE from `c` to `d` is structural, R183. -/
def structuralChange (c d : Cfg) : Bool :=
  d.mode != c.mode || d.snw != c.snw || d.liw != c.liw || (d.mode == .am && d.amW != c.amW)

/-! ## The SN payload -/

/-- The operands of an SN_* command. -/
structure SnArgs where
  w : Nat
  rsv : Nat
  base : Nat
  bound : Nat
  sn : Nat
  deriving DecidableEq, Repr

/-- The 14-byte payload of the SN_* commands (40_sn_arith.md section 2). -/
def snArgs (p : Bytes) : SnArgs := ⟨u8 p 0, u8 p 1, u32be p 2, u32be p 6, u32be p 10⟩

/-- `w in {5, 10, 12, 16, 18} and rsv = 0`, the check common to R132 to R135. -/
def SnArgs.widthOk (a : SnArgs) : Bool := [5, 10, 12, 16, 18].contains a.w && a.rsv == 0

/-- `N = 2^w`. -/
def SnArgs.n (a : SnArgs) : Nat := 2 ^ a.w

/-! ## The header record, R108 -/

/-- HREC parsed from a payload, and the data bytes after it (R155). `none` where the payload is shorter than `6 + 2k` or
bits 7 to 5 of byte 2 are not 0. -/
def parseHrec (p : Bytes) : Option (Hdr × Bytes) :=
  if p.length < 6 then none
  else
    let k := u8 p 5
    if p.length < 6 + 2 * k then none
    else
      let f : Byte := p.getD 2 0
      if f.extractLsb' 5 3 ≠ 0 then none
      else
        some (⟨u16be p 0, f.extractLsb' 0 2, f.getLsbD 2, f.getLsbD 3, f.getLsbD 4, u16be p 3,
          (List.range k).map fun j => u16be p (6 + 2 * j)⟩, p.drop (6 + 2 * k))

/-- HREC of a header record, R108. -/
def putHrec (h : Hdr) : Bytes :=
  put16 h.sn ++ put8 (h.fi.toNat + 4 * h.rf.toNat + 8 * h.p.toNat + 16 * h.lsf.toNat) ++ put16 h.so ++
    put8 h.lis.length ++ h.lis.flatMap put16

/-! ## The status record, R109 -/

/-- A NACK record of SREC at index `i` of a payload. -/
def parseSrecNack (p : Bytes) (i : Nat) : Nack := ⟨u16be p i, (p.getD (i + 2) 0).getLsbD 0, u16be p (i + 3), u16be p (i + 5)⟩

/-- SREC parsed from a whole payload (R161). `none` where the length is not `4 + 7n` or bits 7 to 1 of a flags byte are not
0. -/
def parseSrec (p : Bytes) : Option Status :=
  let n := u16be p 2
  if p.length < 4 then none
  else if p.length ≠ 4 + 7 * n then none
  else if (List.range n).any fun j => 2 ≤ u8 p (4 + 7 * j + 2) then none
  else some ⟨u16be p 0, (List.range n).map fun j => parseSrecNack p (4 + 7 * j)⟩

/-- SREC of a status record, R109. -/
def putSrec (s : Status) : Bytes :=
  put16 s.ack ++ put16 s.nacks.length ++
    s.nacks.flatMap fun k => put16 k.sn ++ put8 k.hasSo.toNat ++ put16 k.soStart ++ put16 k.soEnd

/-! ## Result blocks -/

/-- The mode byte of R110. -/
def modeByte : Mode → Nat
  | .um => 0
  | .am => 1

/-- The 40-byte state block of GET_STATE, R110. -/
def stateBlock (s : Slot) : Bytes :=
  let am (n : Nat) : Nat := match s.cfg.mode with
    | .um => 0
    | .am => n
  let pick (um am : Nat) : Nat := match s.cfg.mode with
    | .um => um
    | .am => am
  put8 (modeByte s.cfg.mode) ++ put8 s.cfg.snw.bits ++ put8 s.cfg.liw.bits ++ put8 s.flagsByte ++
    put16 (pick s.vtUs s.vtS) ++ put16 (am s.vtA) ++ put16 (am s.pollSn) ++
    put16 (pick s.vrUr s.vrR) ++ put16 (pick s.vrUx s.vrX) ++ put16 (pick s.vrUh s.vrH) ++
    put16 s.txq.length ++ put16 (match s.txq with | [] => 0 | q :: _ => q.off) ++
    put16 (am s.rb.length) ++ put16 (am (s.rb.filter fun e => !e.2.pending.isEmpty).length) ++
    put16 (pick s.rxu.length s.rxa.length) ++
    put16 (match s.rsm.part with | none => 0 | some b => b.length) ++
    put32 (am s.pduWithoutPoll.toNat) ++ put32 (am s.byteWithoutPoll.toNat) ++
    put16 s.rsm.next ++ put16 0

/-- The 24-byte metrics block of GET_METRICS, R111. -/
def metricsBlock (m : Metrics) : Bytes :=
  put32 m.numTxPdus.toNat ++ put32 m.numRxPdus.toNat ++ put32 m.numTxSdus.toNat ++ put32 m.numRxSdus.toNat ++
    put32 m.numLostPdus.toNat ++ put32 m.numRetxPdus.toNat

end Sys2Proof.Machine
end

