-- ==== Sys2Proof/Machine/CodecCmd.lean ====
section
/-! DEFINITION. The codec commands (41_codec.md R155 to R164). -/

namespace Sys2Proof.Machine

/-- HDR_PACK, R155. -/
def execHdrPack (lcid : Lcid) (fmt : Sub) (payload : Bytes) (s : State) : Next :=
  require (lcid == 0) .badField s <|
    match fmtOf fmt with
    | none => raise s .badField
    | some (f, liw) =>
      match parseHrec payload with
      | none => raise s .badField
      | some (h, d) => require (h.valid s.params f liw) .badField s <| finish s (packHdr f liw h ++ d)

/-- HDR_UNPACK, R157. -/
def execHdrUnpack (lcid : Lcid) (fmt : Sub) (payload : Bytes) (s : State) : Next :=
  require (lcid == 0) .badField s <|
    match fmtOf fmt with
    | none => raise s .badField
    | some (f, liw) =>
      match unpackHdr s.params f liw payload with
      | none => raise s .malformedHeader
      | some (h, n) => finish s (putHrec h ++ put16 n)

/-- STATUS_PACK, R161. -/
def execStatusPack (lcid : Lcid) (sub : Sub) (payload : Bytes) (s : State) : Next :=
  require (lcid == 0 && sub == 0) .badField s <|
    match parseSrec payload with
    | none => raise s .badField
    | some st => require (st.valid s.params) .badField s <| finish s (packStatus st)

/-- STATUS_UNPACK, R162. -/
def execStatusUnpack (lcid : Lcid) (sub : Sub) (payload : Bytes) (s : State) : Next :=
  require (lcid == 0 && sub == 0) .badField s <|
    match unpackStatus s.params payload with
    | none => raise s .malformedStatus
    | some st => finish s (putSrec st)

/-- The verdict of STATUS_CHECK, R164: 0 valid, 1 malformed, 2 ACK_SN out of range, 3 a NACK_SN out of range. -/
def statusVerdict (pm : Params) (vtA vtS : Nat) (b : Bytes) : Nat :=
  match unpackStatus pm b with
  | none => 1
  | some st =>
    if !insideClosed 1024 st.ack vtA vtS then 2
    else if st.nacks.all fun k => before 1024 k.sn st.ack vtA then 0
    else 3

/-- STATUS_CHECK, R164. -/
def execStatusCheck (lcid : Lcid) (sub : Sub) (payload : Bytes) (s : State) : Next :=
  let vtA := u16be payload 0
  let vtS := u16be payload 2
  require (lcid == 0 && sub == 0) .badField s <|
    require (decide (4 ≤ payload.length)) .badField s <|
      require (decide (vtA < 1024) && decide (vtS < 1024) && decide (rel 1024 vtS vtA ≤ 512)) .badField s <|
        finish s (put8 (statusVerdict s.params vtA vtS (payload.drop 4)))

end Sys2Proof.Machine
end

