-- ==== Sys2Proof/Machine/Lifecycle.lean ====
section
/-! DEFINITION. The lifecycle commands ADD_BEARER, CONFIGURE, DEL_BEARER and REESTABLISH (42_bearer_ctrl.md R180 to R190). -/

namespace Sys2Proof.Machine

/-- The slot that ADD_BEARER creates from an accepted configuration, R181. -/
def addedSlot (c : Cfg) (s : Slot) : Slot :=
  { initEntity { s with cfg := c } with metrics := ⟨0, 0, 0, 0, 0, 0⟩, active := true }

/-- ADD_BEARER, R181. -/
def execAddBearer (lcid : Lcid) (sub : Sub) (payload : Bytes) (s : State) : Next :=
  require (sub == 0 && payload.length == 20) .badField s <|
    require (!(s.slot lcid).active) .bearerExists s <|
      match acceptCfg payload with
      | none => raise s .configRejected
      | some c => commit s ((s.enter lcid).upd (addedSlot c)) []

/-- The work of a CONFIGURE to an accepted configuration, R183. -/
def reconfigure (c : Cfg) (w : Work) : Work :=
  if structuralChange w.slot.cfg c then w.stopAllTimers.upd fun s => initEntity { s with cfg := c }
  else w.upd fun s => { s with cfg := c }

/-- CONFIGURE, R183. -/
def execConfigure (lcid : Lcid) (sub : Sub) (payload : Bytes) (s : State) : Next :=
  require (sub == 0 && payload.length == 20) .badField s <|
    requireActive lcid s <|
      match acceptCfg payload with
      | none => raise s .configRejected
      | some c => commit s (reconfigure c (s.enter lcid)) []

/-- The slot that DEL_BEARER leaves: inactive, and unspecified in every other field, which is a free value (R185; log 5). -/
def deletedSlot (k : Nat) : Slot := { Config.freeSlot k with active := false }

/-- DEL_BEARER, R185. -/
def execDelBearer (lcid : Lcid) (sub : Sub) (imm : Imm) (s : State) : Next :=
  require (sub == 0 && imm == 0) .badField s <|
    requireActive lcid s <|
      commit { s with freeCount := s.freeCount + 1 }
        ((s.enter lcid).stopAllTimers.upd fun _ => deletedSlot s.freeCount) []

/-- REESTABLISH, R184. -/
def execReestablish (lcid : Lcid) (sub : Sub) (imm : Imm) (s : State) : Next :=
  require (sub == 0 && imm == 0) .badField s <|
    requireActive lcid s <|
      commit s ((s.enter lcid).stopAllTimers.upd initEntity) []

end Sys2Proof.Machine
end

