-- ==== Sys2Proof/Machine/System.lean ====
section
/-! DEFINITION. The system commands NOP, GET_METRICS and GET_STATE (42_bearer_ctrl.md R186 to R188). -/

namespace Sys2Proof.Machine

/-- A command answers a reserved header word: ERR_INVALID_OPCODE for an unlisted OPC, ERR_BAD_FIELD for OPC 0x10 with an
unlisted SUB (R106, R112). -/
def rejectReserved (e : DecodeError) (s : State) : Next :=
  match e with
  | .reservedOpcode => raise s .invalidOpcode
  | .badSnSub => raise s .badField

/-- NOP, R188. -/
def execNop (lcid : Lcid) (sub : Sub) (imm : Imm) (s : State) : Next :=
  require (lcid == 0 && sub == 0 && imm == 0) .badField s <|
    finish s []

/-- GET_METRICS, R186. -/
def execGetMetrics (lcid : Lcid) (sub : Sub) (imm : Imm) (s : State) : Next :=
  require (sub == 0 && imm == 0) .badField s <|
    requireActive lcid s <|
      finish s (metricsBlock (s.slot lcid).metrics)

/-- GET_STATE, R187. -/
def execGetState (lcid : Lcid) (sub : Sub) (imm : Imm) (s : State) : Next :=
  require (sub == 0 && imm == 0) .badField s <|
    requireActive lcid s <|
      finish s (stateBlock (s.slot lcid))

end Sys2Proof.Machine
end

