-- ==== Sys2Proof/Machine/UmRx.lean ====
section
/-! DEFINITION. UM receive: the reordering window and its timer (44_um_rx.md R230 to R236). -/

namespace Sys2Proof.Machine

/-- One SN passed by `VR_UR`: its PDU goes to reassembly, or it is counted lost (R233). -/
def umPass (w : Work) (sn : Nat) : Work :=
  let w := match mapGet sn w.slot.rxu with
    | some p => (rsmFeed sn p w).upd fun s => { s with rxu := mapDel sn s.rxu }
    | none => w.countLostPdu
  w.upd fun s => { s with vrUr := modN s.n (sn + 1) }

/-- `um_advance(l, to)`: the SNs of `[VR_UR, to)` in order, R233. -/
def umAdvance (stop : Nat) (w : Work) : Work := (snInterval w.slot.n w.slot.vrUr stop).foldl umPass w

/-- The first SN at or after `VR_UR` that is not a key of `RXU` (R234 step 3, R236). -/
def umGap (s : Slot) : Nat := snSkip s.n (fun t => mapHas t s.rxu) s.n s.vrUr

/-- The UM reordering timer is stopped: its zone is filled or has left the window (R235). -/
def umTimerObsolete (s : Slot) : Bool :=
  rel s.n s.vrUx s.umBase ≤ rel s.n s.vrUr s.umBase || (!inside s.n s.vrUx s.umBase s.cfg.umW && s.vrUx != s.vrUh)

/-- The UM reordering timer is started against `VR_UH`. -/
def umStartReord (w : Work) : Work := (w.upd fun s => { s with vrUx := s.vrUh }).startTimer .reord

/-- `um_timers(l)`, R235. -/
def umTimers (w : Work) : Work :=
  let w := if w.slot.running.reord && umTimerObsolete w.slot then w.stopTimer .reord else w
  let s := w.slot
  if !s.running.reord && decide (rel s.n s.vrUr s.umBase < rel s.n s.vrUh s.umBase) then umStartReord w else w

/-- Step 2 of R234: the PDU is inserted, and an SN outside the window moves the window. -/
def umInsert (x : Nat) (p : Body) (w : Work) : Work :=
  let outside := !inside w.slot.n x w.slot.umBase w.slot.cfg.umW
  let w := w.upd fun s => { s with rxu := mapPut x p s.rxu }
  if outside then
    let w := w.upd fun s => { s with vrUh := modN s.n (x + 1) }
    if !inside w.slot.n w.slot.vrUr w.slot.umBase w.slot.cfg.umW then umAdvance w.slot.umBase w else w
  else w

/-- Step 1 of R234: the SN is a duplicate in `RXU`, or lies in `[VR_UH - UM_W, VR_UR)`. -/
def umStale (s : Slot) (x : Nat) : Bool :=
  mapHas x s.rxu || (inside s.n x s.umBase s.cfg.umW && before s.n x s.vrUr s.umBase)

/-- `um_receive(l, x, p)`, R234. -/
def umReceive (x : Nat) (p : Body) (w : Work) : Work :=
  if umStale w.slot x then w
  else
    let w := umInsert x p w
    let w := if mapHas w.slot.vrUr w.slot.rxu then umAdvance (umGap w.slot) w else w
    umTimers w

/-- WRITE_PDU on an active UM bearer, R231. -/
def umWritePdu (pdu : Bytes) (w : Work) : Work :=
  match unpackHdr w.params w.slot.cfg.fmt w.slot.cfg.liw pdu with
  | none => w.drop .malformedHeader
  | some (h, n) => umReceive h.sn ⟨h.fi, boundsOf h.lis, pdu.drop n⟩ w.countRxPdu

/-- UM t_reordering expiry, R236. -/
def umReordExpiry (w : Work) : Work :=
  let w := umAdvance w.slot.vrUx w
  let w := umAdvance (umGap w.slot) w
  if w.slot.vrUr != w.slot.vrUh then umStartReord w else w

end Sys2Proof.Machine
end

