-- ==== Sys2Proof/Machine/Timers.lean ====
section
/-! DEFINITION. TIMER_EXPIRY (60_exceptions.md R363, R364). -/

namespace Sys2Proof.Machine

/-- `expiry_action(l, k)`, R364. PROHIBIT has no action of its own (R280). A UM bearer never starts PROHIBIT or POLLRETX, and
R364 lists no action for it (log 12). -/
def expiryAction (k : TimerKind) (w : Work) : Work :=
  match k, w.slot.cfg.mode with
  | .reord, .um => umReordExpiry w
  | .reord, .am => amReordExpiry w
  | .pollretx, .am => pollRetxExpiry w
  | .prohibit, _ => w
  | .pollretx, .um => w

/-- An expiry is current: the slot is active, the timer runs, and the tag is that of its last start (R363). -/
def expiryCurrent (k : TimerKind) (gen : BitVec 16) (w : Work) : Bool :=
  w.slot.active && w.slot.running.get k && gen == w.tags.get k

/-- The work of a current expiry, R363. -/
def expire (k : TimerKind) (w : Work) : Work :=
  expiryAction k (w.upd fun s => { s with running := s.running.set k false })

/-- TIMER_EXPIRY, R363. -/
def execTimerExpiry (lcid : Lcid) (kind : Sub) (gen : Imm) (s : State) : Next :=
  match timerKindOf kind with
  | none => raise s .badField
  | some k =>
    if expiryCurrent k gen (s.enter lcid) then commit s (expire k (s.enter lcid)) []
    else finish s []

end Sys2Proof.Machine
end

