-- ==== Sys2Proof/Machine/Transport.lean ====
section
/-! DEFINITION. The data-path commands WRITE_SDU, GET_BUFFER_STATE, READ_PDU and WRITE_PDU (43_um_tx.md R211 to R214;
44_um_rx.md R231; 60_exceptions.md R352). -/

namespace Sys2Proof.Machine

/-- WRITE_SDU, R211. -/
def execWriteSdu (lcid : Lcid) (sub : Sub) (payload : Bytes) (s : State) : Next :=
  require (sub == 0) .badField s <|
    require (decide (1 ≤ payload.length) && decide (payload.length ≤ s.params.maxSduBytes)) .sduSize s <|
      requireActive lcid s <|
        require (decide ((s.slot lcid).txq.length < s.params.qSdu)) .queueFull s <|
          commit s ((s.enter lcid).upd fun v => { v with txq := v.txq ++ [⟨payload, 0⟩] }).countTxSdu []

/-- The value of GET_BUFFER_STATE before it saturates, R212. -/
def bufferState (pm : Params) (v : Slot) : Nat :=
  if !v.active then 0
  else
    match v.cfg.mode with
    | .um => bsNew v.cfg.h0 v.cfg.liw v.txq
    | .am => bsAm pm v

/-- GET_BUFFER_STATE, R212. -/
def execGetBufferState (lcid : Lcid) (sub : Sub) (imm : Imm) (s : State) : Next :=
  require (sub == 0 && imm == 0) .badField s <|
    finish s (put32 (min (bufferState s.params (s.slot lcid)) 4294967295))

/-- One READ_PDU on an active slot, by mode (R214). -/
def readPdu (budget : Nat) (w : Work) : Bytes × Work :=
  match w.slot.cfg.mode with
  | .um => umRead budget w
  | .am => amRead budget w

/-- READ_PDU, R214. -/
def execReadPdu (lcid : Lcid) (sub : Sub) (budget : Imm) (s : State) : Next :=
  require (sub == 0) .badField s <|
    if !(s.slot lcid).active then finish s []
    else
      let (pdu, w) := readPdu budget.toNat (s.enter lcid)
      commit s w pdu

/-- One WRITE_PDU on an active slot, by mode (R231). -/
def writePdu (pdu : Bytes) (w : Work) : Work :=
  match w.slot.cfg.mode with
  | .um => umWritePdu pdu w
  | .am => amWritePdu pdu w

/-- WRITE_PDU, R231 and R311. -/
def execWritePdu (lcid : Lcid) (sub : Sub) (payload : Bytes) (s : State) : Next :=
  require (sub == 0) .badField s <|
    if !(s.slot lcid).active then finish s []
    else commit s (writePdu payload (s.enter lcid)) []

end Sys2Proof.Machine
end

