-- ==== Sys2Proof/Machine/Validator.lean ====
section
/-! DEFINITION. The sequence-number validator commands (40_sn_arith.md R132 to R135, R137). -/

namespace Sys2Proof.Machine

/-- The header and payload checks that R132 to R135 share (R106: LCID 0 and IMM 14), and the answer. `boundOk` is the
command's own check of `bound`. -/
def snCommand (lcid : Lcid) (payload : Bytes) (s : State) (boundOk : Bool) (result : Bytes) : Next :=
  let a := snArgs payload
  require (lcid == 0 && payload.length == 14) .badField s <|
    require a.widthOk .badField s <|
      require (decide (a.base < a.n) && decide (a.sn < a.n) && boundOk) .badField s <|
        finish s result

/-- SN_INWIN, R132. -/
def execSnInwin (lcid : Lcid) (payload : Bytes) (s : State) : Next :=
  let a := snArgs payload
  snCommand lcid payload s (a.bound ≤ a.n) (put8 (inside a.n a.sn a.base a.bound).toNat)

/-- SN_INRANGE, R133. -/
def execSnInrange (lcid : Lcid) (payload : Bytes) (s : State) : Next :=
  let a := snArgs payload
  snCommand lcid payload s (a.bound < a.n) (put8 (insideClosed a.n a.sn a.base a.bound).toNat)

/-- SN_REL, R134. -/
def execSnRel (lcid : Lcid) (payload : Bytes) (s : State) : Next :=
  let a := snArgs payload
  snCommand lcid payload s (a.bound == 0) (put32 (rel a.n a.sn a.base))

/-- SN_BEFORE, R135. -/
def execSnBefore (lcid : Lcid) (payload : Bytes) (s : State) : Next :=
  let a := snArgs payload
  snCommand lcid payload s (a.bound < a.n) (put8 (before a.n a.sn a.bound a.base).toNat)

end Sys2Proof.Machine
end

