-- ==== Sys2Proof/Machine/Dispatch.lean ====
section
/-! DEFINITION. One arm per command of the opcode map (30_encoding.md R105). -/

namespace Sys2Proof.Machine

def exec (i : Instr) (s : State) : Host.Outcome State Fault Refusal :=
  match i with
  | .nop lcid sub imm => Sys2Proof.Machine.execNop lcid sub imm s
  | .addBearer lcid sub payload => Sys2Proof.Machine.execAddBearer lcid sub payload s
  | .configure lcid sub payload => Sys2Proof.Machine.execConfigure lcid sub payload s
  | .delBearer lcid sub imm => Sys2Proof.Machine.execDelBearer lcid sub imm s
  | .reestablish lcid sub imm => Sys2Proof.Machine.execReestablish lcid sub imm s
  | .getMetrics lcid sub imm => Sys2Proof.Machine.execGetMetrics lcid sub imm s
  | .getState lcid sub imm => Sys2Proof.Machine.execGetState lcid sub imm s
  | .writeSdu lcid sub payload => Sys2Proof.Machine.execWriteSdu lcid sub payload s
  | .getBufferState lcid sub imm => Sys2Proof.Machine.execGetBufferState lcid sub imm s
  | .readPdu lcid sub budget => Sys2Proof.Machine.execReadPdu lcid sub budget s
  | .writePdu lcid sub payload => Sys2Proof.Machine.execWritePdu lcid sub payload s
  | .timerExpiry lcid kind gen => Sys2Proof.Machine.execTimerExpiry lcid kind gen s
  | .snInwin lcid payload => Sys2Proof.Machine.execSnInwin lcid payload s
  | .snInrange lcid payload => Sys2Proof.Machine.execSnInrange lcid payload s
  | .snRel lcid payload => Sys2Proof.Machine.execSnRel lcid payload s
  | .snBefore lcid payload => Sys2Proof.Machine.execSnBefore lcid payload s
  | .hdrPack lcid fmt payload => Sys2Proof.Machine.execHdrPack lcid fmt payload s
  | .hdrUnpack lcid fmt payload => Sys2Proof.Machine.execHdrUnpack lcid fmt payload s
  | .statusPack lcid sub payload => Sys2Proof.Machine.execStatusPack lcid sub payload s
  | .statusUnpack lcid sub payload => Sys2Proof.Machine.execStatusUnpack lcid sub payload s
  | .statusCheck lcid sub payload => Sys2Proof.Machine.execStatusCheck lcid sub payload s

end Sys2Proof.Machine
end

