-- ==== Sys2Proof/Machine/Step.lean ====
section
/-! DEFINITION. One step: RLCW takes the next whole command and answers it (20_memory.md R65; 30_encoding.md R101). -/

namespace Sys2Proof.Machine

/-- One step. Where the host has not presented a whole command, RLCW waits (R68, R380; log 2). A reserved header word is
answered with its response code (R112). -/
def step (s : State) : Host.Outcome State Fault Refusal :=
  match takeCommand s.input with
  | none => .next s
  | some (h, payload, rest) =>
    match decodeCommand h payload with
    | .ok i => exec i { s with input := rest }
    | .error e => rejectReserved e { s with input := rest }

/-- The state in which the host presents the opcode-table word `w` as the next command (log 1). -/
def State.withFetchWord (s : State) (nbits w : Nat) : State := { s with input := tableBytes nbits w }

end Sys2Proof.Machine
end

