-- ==== Sys2Proof/Machine/Serial.lean ====
section
/-! DEFINITION. The bytes of a response on the command interface (30_encoding.md R102, R104; 60_exceptions.md R350). -/

namespace Sys2Proof.Machine

/-- The number of a response code, R350. -/
def Code.byte : Code → Nat
  | .ok => 0
  | .invalidOpcode => 1
  | .badField => 2
  | .noBearer => 3
  | .bearerExists => 4
  | .configRejected => 5
  | .queueFull => 6
  | .malformedHeader => 7
  | .malformedStatus => 8
  | .sduSize => 9

/-- The number of a timer kind, R360. -/
def TimerKind.byte : TimerKind → Nat
  | .reord => 0
  | .prohibit => 1
  | .pollretx => 2

/-- The number of a DROP reason, R104. -/
def DropReason.byte : DropReason → Nat
  | .malformedHeader => 1
  | .malformedStatusPdu => 2

/-- A 16-bit count or length, R102 and R104. The spec does not say what the field holds for a number above 65535: it is then
the free value `free` of that number (log 16, log 20). -/
def countField (free : Nat → BitVec 16) (n : Nat) : Bytes := if n < 65536 then put16 n else put16 (free n).toNat

/-- An event as bytes: `type ++ lcid ++ body`, R104. The length of an SDU that its field cannot hold is a free value (log 20). -/
def Event.bytes : Event → Bytes
  | .deliverSdu l sdu => put8 1 ++ put8 l.toNat ++ countField Config.freeSduLength sdu.length ++ sdu
  | .notifyMaxRetx l sn => put8 2 ++ put8 l.toNat ++ put16 sn
  | .timerStart l k gen ms => put8 3 ++ put8 l.toNat ++ put8 k.byte ++ put16 gen.toNat ++ put16 ms.toNat
  | .timerStop l k gen => put8 4 ++ put8 l.toNat ++ put8 k.byte ++ put16 gen.toNat
  | .drop l reason => put8 5 ++ put8 l.toNat ++ put8 reason.byte

/-- The event-count field, R102. The spec does not say what it holds when there are more than 65535 events: a free value
(log 16). -/
def eventCount (n : Nat) : Bytes := countField Config.freeEventCount n

/-- The result-length field, R102. The spec does not say what it holds for a result of more than 65535 bytes, which STATUS_UNPACK
gives where MAX_NACKS admits 9362 records: a free value (log 20). -/
def resultLength (n : Nat) : Bytes := countField Config.freeResultLength n

/-- A response as bytes, R102. -/
def Response.bytes (r : Response) : Bytes :=
  put8 r.code.byte ++ resultLength r.result.length ++ r.result ++ eventCount r.events.length ++
    r.events.flatMap Event.bytes

/-- Every byte RLCW has sent to the host. -/
def State.sent (s : State) : Bytes := s.responses.flatMap Response.bytes

end Sys2Proof.Machine
end

