-- ==== Sys2Proof/Safety.lean ====
section
/-! DEFINITION. What holds of every slot a run leaves (10_state.md R22, R23, R36), in the terms that claims use. -/

namespace Sys2Proof

/-- The bearer slot that a command's LCID field names, R100. -/
def Instr.lcid : Instr → Lcid
  | .nop l _ _ | .addBearer l _ _ | .configure l _ _ | .delBearer l _ _ | .reestablish l _ _ | .getMetrics l _ _ => l
  | .getState l _ _ | .writeSdu l _ _ | .getBufferState l _ _ | .readPdu l _ _ | .writePdu l _ _ | .timerExpiry l _ _ => l
  | .snInwin l _ | .snInrange l _ | .snRel l _ | .snBefore l _ => l
  | .hdrPack l _ _ | .hdrUnpack l _ _ | .statusPack l _ _ | .statusUnpack l _ _ | .statusCheck l _ _ => l

/-- The commands that have no side effect, R67. -/
def Instr.readOnly : Instr → Bool
  | .nop _ _ _ | .getMetrics _ _ _ | .getState _ _ _ | .getBufferState _ _ _ => true
  | .snInwin _ _ | .snInrange _ _ | .snRel _ _ | .snBefore _ _ => true
  | .hdrPack _ _ _ | .hdrUnpack _ _ _ | .statusPack _ _ _ | .statusUnpack _ _ _ | .statusCheck _ _ _ => true
  | .addBearer _ _ _ | .configure _ _ _ | .delBearer _ _ _ | .reestablish _ _ _ | .writeSdu _ _ _ => false
  | .readPdu _ _ _ | .writePdu _ _ _ | .timerExpiry _ _ _ => false

end Sys2Proof

namespace Sys2Proof.Machine

/-- The parameters fit the fields that carry what they bound: `k` of HREC is one byte (R108), `n` of SREC two (R109),
`count(txq)` and the lengths of GET_STATE two (R110). R6 names no other limit (log 7). -/
abbrev Params.Legal (pm : Params) : Prop :=
  pm.maxLi < 256 ∧ pm.maxNacks < 65536 ∧ pm.qSdu < 65536 ∧ pm.maxSduBytes < 65536

/-- The legal values of a configuration, R22. -/
abbrev Slot.CfgLegal (s : Slot) : Prop :=
  s.cfg.mode = .am → s.cfg.snw = .w10 ∧ 1 ≤ s.amW ∧ s.amW ≤ 512 ∧ s.cfg.maxRetxThreshold ≠ 0

/-- The SN variables of a slot, R34. -/
def Slot.snVars (s : Slot) : List Nat :=
  [s.vtUs, s.vtS, s.vtA, s.pollSn, s.vrUr, s.vrUx, s.vrUh, s.vrR, s.vrX, s.vrH, s.rsm.next]

/-- The SNs that a slot's buffers are keyed by. -/
def Slot.snKeys (s : Slot) : List Nat := mapKeys s.rb ++ mapKeys s.rxu ++ mapKeys s.rxa

/-- Every SN variable and every key of a buffer is `snw` bits wide, R34. -/
abbrev Slot.SnBounded (s : Slot) : Prop := (∀ x ∈ s.snVars, x < s.n) ∧ ∀ k ∈ s.snKeys, k < s.n

/-- The buffers are in their canonical form: rising SNs, and range sets of disjoint, non-adjacent, ascending intervals
(R11; log 17). -/
abbrev Slot.Canonical (s : Slot) : Prop :=
  mapWf s.rb = true ∧ mapWf s.rxu = true ∧ mapWf s.rxa = true ∧
    (∀ e ∈ s.rb, rangeWf e.2.pending = true) ∧ (∀ e ∈ s.rxa, rangeWf e.2.rcvd = true)

/-- The SDU queue is as R23 says: at most Q_SDU records of 1 to MAX_SDU_BYTES bytes, `off` below the length, and `off > 0`
at the head only. -/
abbrev Slot.QueueOk (pm : Params) (s : Slot) : Prop :=
  s.txq.length ≤ pm.qSdu ∧ (∀ q ∈ s.txq, q.off < q.bytes.length ∧ q.bytes.length ≤ pm.maxSduBytes) ∧
    (∀ q ∈ s.txq.tail, q.off = 0)

/-- R36 items 1 to 4, of AM transmit. -/
abbrev Slot.AmTxInv (s : Slot) : Prop :=
  s.cfg.mode = .am →
    rel s.n s.vtS s.vtA ≤ s.amW ∧
    (∀ k ∈ mapKeys s.rb, rel s.n k s.vtA < rel s.n s.vtS s.vtA) ∧
    (s.vtA ≠ s.vtS → s.vtA ∈ mapKeys s.rb) ∧
    (∀ e ∈ s.rb, (∀ i ∈ e.2.pending, i.2 ≤ e.2.data.length) ∧ (e.2.dead = true → e.2.pending = []))

/-- R36 items 5, 6, 7, 13 and 14, of UM receive, and item 12 in the form that a step keeps: `VR_UX` lies above `VR_UR` and
not above `VR_UH` in the frame of R232 while the timer runs. -/
abbrev Slot.UmRxInv (s : Slot) : Prop :=
  s.cfg.mode = .um →
    rel s.n s.vrUr s.umBase ≤ s.cfg.umW ∧
    (∀ k ∈ mapKeys s.rxu, rel s.n k s.vrUr < rel s.n s.vrUh s.vrUr) ∧
    s.vrUr ∉ mapKeys s.rxu ∧
    (s.running.reord = true →
      rel s.n s.vrUr s.umBase < rel s.n s.vrUx s.umBase ∧ rel s.n s.vrUx s.umBase ≤ s.cfg.umW) ∧
    (s.running.reord = false → s.vrUr = s.vrUh) ∧
    (s.vrUr ≠ s.vrUh → rel s.n s.vrUh 1 ∈ mapKeys s.rxu)

/-- R36 items 8 to 11 and 15, of AM receive. -/
abbrev Slot.AmRxInv (s : Slot) : Prop :=
  s.cfg.mode = .am →
    rel s.n s.vrH s.vrR ≤ s.amW ∧
    (∀ k ∈ mapKeys s.rxa, rel s.n k s.vrR < rel s.n s.vrH s.vrR) ∧
    s.rxComplete s.vrR = false ∧
    (s.running.reord = true → 0 < rel s.n s.vrX s.vrR ∧ rel s.n s.vrX s.vrR ≤ rel s.n s.vrH s.vrR) ∧
    (s.vrR ≠ s.vrH → rel s.n s.vrH 1 ∈ mapKeys s.rxa)

/-- The state of the mode that a bearer does not have is as `init_entity` left it: no rule of the other mode writes it. -/
abbrev Slot.OtherModeIdle (s : Slot) : Prop :=
  (s.cfg.mode = .um →
    s.rb = [] ∧ s.rxa = [] ∧ s.statusTriggered = false ∧ s.pollPending = false ∧ s.running.prohibit = false ∧
      s.running.pollretx = false) ∧
  (s.cfg.mode = .am → s.rxu = [] ∧ s.vtUs = 0 ∧ s.vrUr = 0 ∧ s.vrUh = 0)

/-- The invariant of an active slot: R36, and what its proof needs. -/
abbrev Slot.Inv (s : Slot) : Prop :=
  s.CfgLegal ∧ s.SnBounded ∧ s.Canonical ∧ s.AmTxInv ∧ s.UmRxInv ∧ s.AmRxInv

/-- The invariant of the machine: every active slot meets it. Nothing is said of an inactive slot, whose fields are
unspecified (R21). -/
abbrev State.Inv (s : State) : Prop := ∀ l : Lcid, (s.slot l).active = true → (s.slot l).Inv

/-! ## Entries of the AM buffers -/

/-- An entry of `RB` has the shape R26 gives it: 1 to MAX_AM_DATA data bytes, and at most MAX_LI boundaries that rise
strictly inside the data field, each LI of which fits the bearer's LI field. -/
abbrev RetxEntry.Shape (pm : Params) (liw : LiWidth) (e : RetxEntry) : Prop :=
  1 ≤ e.data.length ∧ e.data.length ≤ Config.maxAmData ∧ e.bounds.length ≤ pm.maxLi ∧ e.bounds.Pairwise (· < ·) ∧
    (∀ b ∈ e.bounds, 0 < b ∧ b < e.data.length) ∧ ∀ li ∈ lisOf e.bounds, li ≤ liw.max

/-- The offsets of a range set, by rising offset. -/
def rangeOffsets (r : RangeSet) : List Nat := r.flatMap fun i => List.range' i.1 (i.2 - i.1)

/-- An entry of `RXA` has the shape R28 gives it: the bytes held are those of `rcvd`, and none lies at or beyond the known
length or MAX_AM_DATA; `fi_first` is known once offset 0 is held, and `fi_last` once the length is. -/
abbrev AmEntry.Shape (r : AmEntry) : Prop :=
  r.rcvd ≠ [] ∧ rangeWf r.rcvd = true ∧ (∀ i ∈ r.rcvd, i.2 ≤ Config.maxAmData) ∧ r.len.getD 0 ≤ Config.maxAmData ∧
    r.data.map Prod.fst = rangeOffsets r.rcvd ∧ r.bset.Pairwise (· < ·) ∧ (∀ b ∈ r.bset, 0 < b) ∧ r.consistent = true ∧
    (rangeHas 0 r.rcvd = true → r.fiFirst ≠ none) ∧ (r.len ≠ none → r.fiLast ≠ none)

/-- The SDU queue, the retransmission entries, the reception entries and the reassembly buffer have the shapes of R23, R26,
R28 and R29. -/
abbrev Slot.Shapes (pm : Params) (s : Slot) : Prop :=
  s.QueueOk pm ∧ (∀ e ∈ s.rb, e.2.Shape pm s.cfg.liw) ∧ (∀ e ∈ s.rxa, e.2.Shape) ∧
    (s.rsm.part.getD []).length ≤ pm.maxSduBytes ∧ s.OtherModeIdle

/-- Every active slot's buffers have the shapes the spec gives them. -/
abbrev State.Shapes (s : State) : Prop := ∀ l : Lcid, (s.slot l).active = true → (s.slot l).Shapes s.params

/-! ## What a command answers -/

/-- The state after a command that was refused with code `c`: one response more, and nothing else changed (R353). -/
def State.refused (s : State) (c : Code) : State := s.respond ⟨c, [], []⟩

/-- The state after a command that answered OK with `result` and no event, and changed nothing else. -/
def State.answer (s : State) (result : Bytes) : State := s.respond ⟨.ok, result, []⟩

/-- The state after a command that left slot `l` at `v` and its tags at `g`, answered OK with `result` and `events`, and
changed nothing else. -/
def State.after (s : State) (l : Lcid) (v : Slot) (g : PerTimer (BitVec 16)) (result : Bytes) (events : List Event) :
    State :=
  ((s.setSlot l v).setTags l g).respond ⟨.ok, result, events⟩

/-- Every field that R189 names is at the value R189 gives it. -/
abbrev Slot.Fresh (v : Slot) : Prop :=
  v.txq = [] ∧ (v.vtUs = 0 ∧ v.vtS = 0 ∧ v.vtA = 0 ∧ v.pollSn = 0) ∧
    (v.pduWithoutPoll = 0 ∧ v.byteWithoutPoll = 0 ∧ v.pollPending = false) ∧ v.rb = [] ∧
    (v.vrUr = 0 ∧ v.vrUx = 0 ∧ v.vrUh = 0 ∧ v.rxu = []) ∧
    (v.vrR = 0 ∧ v.vrX = 0 ∧ v.vrH = 0 ∧ v.statusTriggered = false ∧ v.rxa = []) ∧
    (v.rsm.part = none ∧ v.rsm.next = 0) ∧ ∀ k : TimerKind, v.running.get k = false

/-- The events of `stop_all_timers`, R190: one TIMER_STOP for each running timer, in the order REORD, PROHIBIT, POLLRETX. -/
def stopEvents (l : Lcid) (v : Slot) (g : PerTimer (BitVec 16)) : List Event :=
  (if v.running.reord then [.timerStop l .reord g.reord] else []) ++
    (if v.running.prohibit then [.timerStop l .prohibit g.prohibit] else []) ++
    (if v.running.pollretx then [.timerStop l .pollretx g.pollretx] else [])

/-- Whether timer `k` of bearer `l` has a start request outstanding after the events, where `b` says so before them
(R30). -/
def timerAfter (l : Lcid) (k : TimerKind) : Bool → List Event → Bool
  | b, [] => b
  | b, .timerStart l' k' _ _ :: evs => timerAfter l k (if l' = l ∧ k' = k then true else b) evs
  | b, .timerStop l' k' _ :: evs => timerAfter l k (if l' = l ∧ k' = k then false else b) evs
  | b, _ :: evs => timerAfter l k b evs

/-- The generation tags of the TIMER_START events of timer `k` of bearer `l`, in order. -/
def startTags (l : Lcid) (k : TimerKind) : List Event → List (BitVec 16)
  | [] => []
  | .timerStart l' k' g _ :: evs => if l' = l ∧ k' = k then g :: startTags l k evs else startTags l k evs
  | _ :: evs => startTags l k evs

/-- The SDU bytes of a record that are still to be sent. -/
def TxSdu.rest (q : TxSdu) : Bytes := q.bytes.drop q.off

/-- The SDU bytes that a queue still holds, in order (R210). -/
def queueBytes (q : List TxSdu) : Bytes := q.flatMap TxSdu.rest

/-- The framing `fi`, `lis` and the data field `data` of a new PDU with a fixed header of `h` bytes, within `budget` and the cap
`dcap`, are what R215 takes from the queue `txq`, leaving `txq'`: its elements are what is left of the SDUs in front, each whole
but the last, of which the first `x` bytes are taken; and nothing more fits. -/
def BuiltFrom (pm : Params) (liw : LiWidth) (budget h dcap : Nat) (txq txq' : List TxSdu) (fi : BitVec 2) (lis : List Nat)
    (data : Bytes) : Prop :=
  ∃ (pre : List TxSdu) (q : TxSdu) (post : List TxSdu) (x : Nat),
    txq = pre ++ q :: post ∧ 0 < x ∧ x ≤ q.remaining ∧
    splitData data (boundsOf lis) = pre.map TxSdu.rest ++ [q.rest.take x] ∧
    txq' = (if x < q.remaining then { q with off := q.off + x } :: post else post) ∧
    (fi1 fi = true ↔ 0 < (txq.head?.map TxSdu.off).getD 0) ∧ (fi0 fi = true ↔ x < q.remaining) ∧
    lis.length ≤ pm.maxLi ∧ (∀ li ∈ lis, 1 ≤ li ∧ li ≤ liw.max) ∧
    h + liBytes liw lis.length + data.length ≤ budget ∧ data.length ≤ dcap ∧
    (h + liBytes liw lis.length + data.length = budget ∨ data.length = dcap ∨ txq' = [] ∨
      (x = q.remaining ∧
        (liw.max < x ∨ pm.maxLi < pre.length + 1 ∨ budget ≤ h + liBytes liw (pre.length + 1) + data.length)))

/-! ## Retransmissions -/

/-- `sn` is the lowest SN with pending bytes, in window order, and `e` its entry (R265). -/
def Slot.FirstPending (v : Slot) (sn : Nat) (e : RetxEntry) : Prop :=
  mapGet sn v.rb = some e ∧ e.pending ≠ [] ∧ ∀ k ∈ v.rb, k.2.pending ≠ [] → rel v.n sn v.vtA ≤ rel v.n k.1 v.vtA

/-- All of an entry is pending and its whole PDU fits the budget (R265). -/
abbrev RetxEntry.WholeFits (e : RetxEntry) (liw : LiWidth) (budget : Nat) : Prop :=
  e.pending = [(0, e.data.length)] ∧ 2 + liBytes liw e.bounds.length + e.data.length ≤ budget

/-- No retransmission can be sent within the budget: nothing is pending, or the first that is pending neither fits whole nor
leaves room for a segment of one byte (R265). -/
def Slot.NoRetx (v : Slot) (budget : Nat) : Prop :=
  (∀ e ∈ v.rb, e.2.pending = []) ∨ ∃ sn e, v.FirstPending sn e ∧ ¬ e.WholeFits v.cfg.liw budget ∧ budget < 5

/-- The conditions of R270 on a slot that the PDU has already updated, with its poll counters at `pdus` and `bytes`. -/
def Slot.PollDue (v : Slot) (pdus bytes : Nat) : Prop :=
  v.pollPending = true ∨ (v.cfg.pollPdu ≠ 0 ∧ v.cfg.pollPdu.toNat ≤ pdus) ∨
    (v.cfg.pollByte ≠ 0 ∧ v.cfg.pollByte.toNat ≤ bytes) ∨ (v.txq = [] ∧ ∀ e ∈ v.rb, e.2.pending = []) ∨
    v.amW ≤ rel v.n v.vtS v.vtA

/-- The slot after a PDU that polls, R270. -/
def Slot.polled (v : Slot) : Slot :=
  { v with
    pduWithoutPoll := 0
    byteWithoutPoll := 0
    pollPending := false
    pollSn := rel v.n v.vtS 1
    running := { v.running with pollretx := true } }

/-! ## Reception -/

/-- What each element of a PDU makes, `none` where it is discarded: an element is the content of an SDU from its start on, but
the first of a PDU whose FI bit 1 is set, which continues `held`, and is discarded where nothing is held; and a content longer
than MAX_SDU_BYTES is discarded (R237, R238). -/
def contents (pm : Params) (held : Option Bytes) (continues : Bool) : List Bytes → List (Option Bytes)
  | [] => []
  | e :: rest =>
    ((if continues then held.map (· ++ e) else some e) :: rest.map some).map
      (Option.filter fun b => decide (b.length ≤ pm.maxSduBytes))

/-- The reassembly buffer after the PDU of SN `sn`, and the SDUs delivered, R237. What the buffer held counts only where it
expects this SN. The last content is held where FI bit 0 says that its SDU goes on; every other content is an SDU. -/
def reassemble (pm : Params) (n sn : Nat) (p : Body) (rsm : Rsm) : Rsm × List Bytes :=
  let held := if rsm.next = sn then rsm.part else none
  let cs := contents pm held (fi1 p.fi) (splitData p.data p.bounds)
  let part := if fi0 p.fi then cs.getLast?.join else none
  (⟨part, if part = none then rsm.next else (sn + 1) % n⟩, (if fi0 p.fi then cs.dropLast else cs).filterMap id)

/-- The reassembly buffer after the PDUs of the SNs of a list that `look` finds, one after another, and the SDUs delivered
(R233, R318). -/
def reassembleAll (pm : Params) (n : Nat) (look : Nat → Option Body) : List Nat → Rsm → Rsm × List Bytes
  | [], rsm => (rsm, [])
  | sn :: sns, rsm =>
    match look sn with
    | none => reassembleAll pm n look sns rsm
    | some p =>
      let first := reassemble pm n sn p rsm
      let rest := reassembleAll pm n look sns first.1
      (rest.1, first.2 ++ rest.2)

/-- What R237 and R238 say of a PDU of SN `sn` with the one element `d`: `rsm` before it, `after` and `sdus` after it. A whole SDU
is delivered; a first piece is held; a continuation is joined to what is held for this SN, and discarded where nothing is; and
nothing longer than MAX_SDU_BYTES is delivered or held. -/
def OneElement (pm : Params) (n sn : Nat) (fi : BitVec 2) (d : Bytes) (rsm after : Rsm) (sdus : List Bytes) : Prop :=
  (fi1 fi = true → rsm.part = none ∨ rsm.next ≠ sn → sdus = [] ∧ after = ⟨none, rsm.next⟩) ∧
    ∀ b, (fi1 fi = false ∧ b = d) ∨
        (fi1 fi = true ∧ rsm.next = sn ∧ ∃ held, rsm.part = some held ∧ b = held ++ d) →
      (pm.maxSduBytes < b.length → sdus = [] ∧ after = ⟨none, rsm.next⟩) ∧
      (b.length ≤ pm.maxSduBytes → fi0 fi = false → sdus = [b] ∧ after = ⟨none, rsm.next⟩) ∧
      (b.length ≤ pm.maxSduBytes → fi0 fi = true → sdus = [] ∧ after = ⟨some b, (sn + 1) % n⟩)

/-- The boundaries that a piece, `d` from offset `so` on with header `h`, reveals: those of its LIs, and its own edges where FI says
that an SDU starts or ends there; `last` says that the piece ends the PDU (R314). -/
def Reveals (so : Nat) (last : Bool) (h : Hdr) (d : Bytes) (b : Nat) : Prop :=
  b ∈ (boundsOf h.lis).map (so + ·) ∨ (0 < so ∧ fi1 h.fi = false ∧ b = so) ∨
    (last = false ∧ fi0 h.fi = false ∧ b = so + d.length)

/-- The piece contradicts the reception entry `old`: it ends the PDU at another length than the one known, or with it a byte or a
boundary would lie at or beyond the known length (R314, R315). -/
def Contradicts (old : AmEntry) (so : Nat) (last : Bool) (h : Hdr) (d : Bytes) : Prop :=
  (last = true ∧ ∃ len, old.len = some len ∧ len ≠ so + d.length) ∨
    ∃ len, (if last then some (so + d.length) else old.len) = some len ∧
      ((∃ x, len ≤ x ∧ (rangeHas x old.rcvd = true ∨ (so ≤ x ∧ x < so + d.length))) ∨
        ∃ b, len ≤ b ∧ (b ∈ old.bset ∨ Reveals so last h d b))

/-- What one received piece, `d` from offset `so` on with header `h`, makes of the reception entry `old`; `last` says that the
piece ends the PDU (R314). -/
def MergedFrom (old r : AmEntry) (so : Nat) (last : Bool) (h : Hdr) (d : Bytes) : Prop :=
  (∀ x, rangeHas x r.rcvd = true ↔ rangeHas x old.rcvd = true ∨ (so ≤ x ∧ x < so + d.length)) ∧
    (∀ x b, (x, b) ∈ r.data ↔
      (x, b) ∈ old.data ∨ (rangeHas x old.rcvd = false ∧ so ≤ x ∧ d[x - so]? = some b)) ∧
    (∀ b, b ∈ r.bset ↔ b ∈ old.bset ∨ Reveals so last h d b) ∧
    r.len = (if last then some (so + d.length) else old.len) ∧
    r.fiFirst = (if so = 0 ∧ old.fiFirst = none then some (fi1 h.fi) else old.fiFirst) ∧
    r.fiLast = (if last = true ∧ old.fiLast = none then some (fi0 h.fi) else old.fiLast)

/-! ## Transfers -/

/-- Bearer `rx` has received, in order, every PDU that bearer `tx` has sent: they agree on the next SN, and `rx` holds exactly
the bytes of the SDU that `tx` has sent in part (R240). -/
def UmInStep (pm : Params) (tx rx : Slot) : Prop :=
  tx.active = true ∧ rx.active = true ∧ tx.cfg.mode = .um ∧ rx.cfg.mode = .um ∧ rx.cfg.snw = tx.cfg.snw ∧
    rx.cfg.liw = tx.cfg.liw ∧ tx.QueueOk pm ∧ tx.vtUs < tx.n ∧ rx.vrUr = tx.vtUs ∧ rx.vrUh = tx.vtUs ∧ rx.rxu = [] ∧
    rx.running.reord = false ∧
    match tx.txq with
    | [] => rx.rsm.part = none
    | q :: _ =>
      (q.off = 0 → rx.rsm.part = none) ∧
        (0 < q.off → rx.rsm.part = some (q.bytes.take q.off) ∧ rx.rsm.next = tx.vtUs)

/-- The segments `[a, a + n)` of an RB entry, received one after another into a reception entry (R266, R314). -/
def mergeSegments (e : RetxEntry) : List (Nat × Nat) → AmEntry → Option AmEntry
  | [], r => some r
  | (a, n) :: rest, r =>
    let (fi, lis, lsf) := segFields e a n
    (merge r ⟨a, n, lsf⟩ ⟨0, fi, true, false, lsf, a, lis⟩ ((e.data.drop a).take n)).bind (mergeSegments e rest)

/-- A NACK record asks for the byte at offset `x` (R92, R274). -/
def Nack.asks (k : Nack) (x : Nat) : Bool := !k.hasSo || (k.soStart ≤ x && (k.soEnd == 0x7FFF || x ≤ k.soEnd))

/-! ## What a host can observe -/

/-- The same parameters and tags, and the same active slots with the same contents. The contents of inactive slots may differ
(R21, R380). -/
def State.SameBearers (s t : State) : Prop :=
  s.params = t.params ∧ s.gen = t.gen ∧
    ∀ l : Lcid, (s.slot l).active = (t.slot l).active ∧ ((s.slot l).active = true → s.slot l = t.slot l)

/-- Two states that no command can tell apart. -/
def State.Indistinguishable (s t : State) : Prop :=
  s.SameBearers t ∧ s.input = t.input ∧ s.responses = t.responses ∧ s.freeCount = t.freeCount

/-- Every length and number of a response fits the field that R102 and R104 give it. -/
abbrev Response.Fits (r : Response) : Prop :=
  r.result.length < 65536 ∧ r.events.length < 65536 ∧
    ∀ ev ∈ r.events, match ev with
      | .deliverSdu _ sdu => sdu.length < 65536
      | .notifyMaxRetx _ sn => sn < 65536
      | _ => True

end Sys2Proof.Machine
end

