-- ==== Sys2Proof/Certificates/Slice0/Obligations.lean ====
section
/-! DEFINITION. The statements for the provers. Each docstring names the rule that a statement formalises, or the log entry
where it rests on a choice of the model. -/

open Sys2Proof Sys2Proof.Machine

/-! ## Reset, the command stream and the step -/

/-- R380: after reset every slot is inactive, every tag is 0, and no response has been produced, whatever the parameters of R6. -/
def Obligations.ResetLeavesEveryBearerInactive : Prop :=
  (∀ pm : Params,
    (∀ l : Lcid, ((State.resetOf pm).slot l).active = false ∧ (State.resetOf pm).tags l = ⟨0, 0, 0⟩) ∧
      (State.resetOf pm).responses = [] ∧ (State.resetOf pm).params = pm) ∧
    ∃ pm : Params, State.reset = State.resetOf pm

/-- The model's choice (log 2, from R68 and R380): RLCW waits while the header word or the payload is incomplete. -/
def Obligations.StepWaitsForAWholeCommand : Prop :=
  ∀ s : State,
    (s.input.length < 4 → step s = .next s) ∧
      ∀ (h : Header) (p : Bytes), s.input = headerBytes h ++ p → p.length < plen h → step s = .next s

/-- R65, R101: a step takes the next command whole, runs it, and leaves the bytes after it for the next step. -/
def Obligations.StepRunsTheDecodedCommand : Prop :=
  ∀ (i : Instr) (rest : Bytes) (s : State),
    (decode s.input = some (.ok i, rest) → step s = exec i { s with input := rest }) ∧
      (i.wf = true → s.input = encode i ++ rest → step s = exec i { s with input := rest })

/-- R112: an OPC that the opcode map does not list is answered ERR_INVALID_OPCODE, and OPC 0x10 with SUB 4 to 31
ERR_BAD_FIELD; nothing else changes. How many bytes the second form takes is log 3. -/
def Obligations.ReservedOpcodesAreRefused : Prop :=
  ∀ (h : Header) (p rest : Bytes) (s : State), s.input = headerBytes h ++ p ++ rest → p.length = plen h →
    (((hdrOpc h).toNat = 0x07 ∨ (0x0D ≤ (hdrOpc h).toNat ∧ (hdrOpc h).toNat ≤ 0x0F) ∨ 0x16 ≤ (hdrOpc h).toNat) →
      step s = .next (({ s with input := rest } : State).refused .invalidOpcode)) ∧
    ((hdrOpc h).toNat = 0x10 → 4 ≤ (hdrSub h).toNat →
      step s = .next (({ s with input := rest } : State).refused .badField))

/-- Words written out from R100 and R105 decode to the commands they stand for. -/
def Obligations.WrittenWordsDecode : Prop :=
  decodeTableWord 32 0x00000000 = some (.nop 0 0 0) ∧
    decodeTableWord 32 0x10200000 = some (.reestablish 1 0 0) ∧
    decodeTableWord 40 0xAB20200001 = some (.writeSdu 1 0 [0xAB]) ∧
    decodeTableWord 32 0x28200008 = some (.readPdu 1 0 8) ∧
    decodeTableWord 32 0x30A10001 = some (.timerExpiry 5 1 1) ∧
    decodeTableWord 48 0x780050000002 = some (.statusUnpack 0 0 [0x00, 0x78]) ∧
    decodeTableWord 32 0x1C000000 = none

/-- R100, R101, R105: decoding an encoded command gives it back with the bytes after it, and whatever decodes to a command is
that command's encoding. -/
def Obligations.DecodeAndEncodeAgree : Prop :=
  (∀ (i : Instr) (rest : Bytes), i.wf = true → decode (encode i ++ rest) = some (.ok i, rest)) ∧
    ∀ (b : Bytes) (i : Instr) (rest : Bytes), decode b = some (.ok i, rest) → i.wf = true ∧ b = encode i ++ rest

/-- R102, R353, R390: every command completes with exactly one response, takes no further bytes and leaves the parameters of R6
as they are; a refusal leaves the whole state as it was, with an empty result and no event. -/
def Obligations.EveryCommandAnswersOnceAndRefusesAtomically : Prop :=
  ∀ (i : Instr) (s : State), ∃ t r, exec i s = .next t ∧ t.responses = s.responses ++ [r] ∧ t.input = s.input ∧
    t.params = s.params ∧
    (r.code ≠ .ok → t = s.refused r.code)

/-- R67: the commands without side effect change no state, emit no event, and answer the same when run again. -/
def Obligations.ReadOnlyCommandsAreIdempotent : Prop :=
  ∀ (i : Instr) (s : State), i.readOnly = true →
    ∃ r : Response, r.events = [] ∧ exec i s = .next (s.respond r) ∧
      exec i (s.respond r) = .next ((s.respond r).respond r)

/-! ## System and lifecycle commands -/

/-- R188. -/
def Obligations.NopAnswersOk : Prop :=
  ∀ (l : Lcid) (sub : Sub) (imm : Imm) (s : State),
    exec (.nop 0 0 0) s = .next (s.answer []) ∧
      (l ≠ 0 ∨ sub ≠ 0 ∨ imm ≠ 0 → exec (.nop l sub imm) s = .next (s.refused .badField))

/-- R180, R351: the upper-facing commands check their header fields first, and then that the bearer exists. -/
def Obligations.UpperCommandsCheckFieldsThenBearer : Prop :=
  ∀ (l : Lcid) (sub : Sub) (imm : Imm) (p : Bytes) (s : State),
    (sub ≠ 0 ∨ imm ≠ 0 →
      exec (.getMetrics l sub imm) s = .next (s.refused .badField) ∧
      exec (.getState l sub imm) s = .next (s.refused .badField) ∧
      exec (.delBearer l sub imm) s = .next (s.refused .badField) ∧
      exec (.reestablish l sub imm) s = .next (s.refused .badField)) ∧
    (sub ≠ 0 ∨ p.length ≠ 20 →
      exec (.configure l sub p) s = .next (s.refused .badField) ∧
      exec (.addBearer l sub p) s = .next (s.refused .badField)) ∧
    (sub ≠ 0 → exec (.writeSdu l sub p) s = .next (s.refused .badField)) ∧
    ((s.slot l).active = false →
      exec (.getMetrics l 0 0) s = .next (s.refused .noBearer) ∧
      exec (.getState l 0 0) s = .next (s.refused .noBearer) ∧
      exec (.delBearer l 0 0) s = .next (s.refused .noBearer) ∧
      exec (.reestablish l 0 0) s = .next (s.refused .noBearer) ∧
      (p.length = 20 → exec (.configure l 0 p) s = .next (s.refused .noBearer)) ∧
      (1 ≤ p.length → p.length ≤ s.params.maxSduBytes → exec (.writeSdu l 0 p) s = .next (s.refused .noBearer)))

/-- R186, R111. -/
def Obligations.GetMetricsReportsTheCounters : Prop :=
  ∀ (l : Lcid) (s : State), (s.slot l).active = true →
    ∃ r, exec (.getMetrics l 0 0) s = .next (s.answer r) ∧ r.length = 24 ∧
      u32be r 0 = (s.slot l).metrics.numTxPdus.toNat ∧ u32be r 4 = (s.slot l).metrics.numRxPdus.toNat ∧
      u32be r 8 = (s.slot l).metrics.numTxSdus.toNat ∧ u32be r 12 = (s.slot l).metrics.numRxSdus.toNat ∧
      u32be r 16 = (s.slot l).metrics.numLostPdus.toNat ∧ u32be r 20 = (s.slot l).metrics.numRetxPdus.toNat

/-- R187, R110: every field of the state block, for both modes. -/
def Obligations.GetStateReportsTheBearer : Prop :=
  ∀ (l : Lcid) (s : State) (v : Slot), v = s.slot l → v.active = true → v.Inv → v.Shapes s.params → s.params.Legal →
    ∃ r, exec (.getState l 0 0) s = .next (s.answer r) ∧ r.length = 40 ∧
      (u8 r 1 = v.cfg.snw.bits ∧ u8 r 2 = v.cfg.liw.bits ∧ u16be r 16 = v.txq.length ∧
        u16be r 18 = (v.txq.head?.map TxSdu.off).getD 0 ∧ u16be r 26 = (v.rsm.part.getD []).length ∧
        u16be r 36 = v.rsm.next ∧ u16be r 38 = 0 ∧ (r.getD 3 0).getLsbD 2 = v.running.reord ∧
        (r.getD 3 0).extractLsb' 5 3 = 0) ∧
      (v.cfg.mode = .um →
        u8 r 0 = 0 ∧ (r.getD 3 0).extractLsb' 0 2 = 0 ∧ (r.getD 3 0).extractLsb' 3 2 = 0 ∧ u16be r 4 = v.vtUs ∧
        u16be r 6 = 0 ∧ u16be r 8 = 0 ∧ u16be r 10 = v.vrUr ∧ u16be r 12 = v.vrUx ∧ u16be r 14 = v.vrUh ∧
        u16be r 20 = 0 ∧ u16be r 22 = 0 ∧ u16be r 24 = v.rxu.length ∧ u32be r 28 = 0 ∧ u32be r 32 = 0) ∧
      (v.cfg.mode = .am →
        u8 r 0 = 1 ∧ (r.getD 3 0).getLsbD 0 = v.pollPending ∧ (r.getD 3 0).getLsbD 1 = v.statusTriggered ∧
        (r.getD 3 0).getLsbD 3 = v.running.prohibit ∧ (r.getD 3 0).getLsbD 4 = v.running.pollretx ∧
        u16be r 4 = v.vtS ∧ u16be r 6 = v.vtA ∧ u16be r 8 = v.pollSn ∧ u16be r 10 = v.vrR ∧ u16be r 12 = v.vrX ∧
        u16be r 14 = v.vrH ∧ u16be r 20 = v.rb.length ∧
        u16be r 22 = (v.rb.filter fun e => !e.2.pending.isEmpty).length ∧ u16be r 24 = v.rxa.length ∧
        u32be r 28 = v.pduWithoutPoll.toNat ∧ u32be r 32 = v.byteWithoutPoll.toNat)

/-- R182: a configuration block is refused exactly on the seven conditions, and an accepted one gives these fields. -/
def Obligations.ConfigurationBlockAcceptance : Prop :=
  ∀ (b : Bytes) (w : Nat), b.length = 20 → w = (if u16be b 16 = 0 then 512 else u16be b 16) →
    (acceptCfg b = none ↔
      u8 b 0 ∉ [0, 1] ∨ b.drop 18 ≠ [0, 0] ∨ u8 b 2 ∉ [0, 11, 15] ∨ (u8 b 0 = 0 ∧ u8 b 1 ∉ [5, 10]) ∨
        (u8 b 0 = 1 ∧ u8 b 1 ≠ 10) ∨ (u8 b 0 = 1 ∧ u8 b 3 = 0) ∨
        (u8 b 0 = 1 ∧ ¬ (1 ≤ w ∧ w ≤ 2 ^ (u8 b 1 - 1)))) ∧
    ∀ c, acceptCfg b = some c →
      modeByte c.mode = u8 b 0 ∧ c.snw.bits = u8 b 1 ∧ c.liw.bits = (if u8 b 2 = 15 then 15 else 11) ∧
        c.maxRetxThreshold.toNat = u8 b 3 ∧ c.tReorderingMs.toNat = u16be b 4 ∧
        c.tStatusProhibitMs.toNat = u16be b 6 ∧ c.tPollRetransmitMs.toNat = u16be b 8 ∧
        c.pollPdu.toNat = u16be b 10 ∧ c.pollByte.toNat = u32be b 12 ∧ c.amW.toNat = w

/-- R181: ADD_BEARER takes an inactive slot from any contents to the accepted configuration, the initial protocol state and
zero metrics, and keeps its generation tags. -/
def Obligations.AddBearerStartsFresh : Prop :=
  ∀ (l : Lcid) (sub : Sub) (p : Bytes) (s : State),
    (sub ≠ 0 ∨ p.length ≠ 20 → exec (.addBearer l sub p) s = .next (s.refused .badField)) ∧
    (p.length = 20 → (s.slot l).active = true → exec (.addBearer l 0 p) s = .next (s.refused .bearerExists)) ∧
    (p.length = 20 → (s.slot l).active = false → acceptCfg p = none →
      exec (.addBearer l 0 p) s = .next (s.refused .configRejected)) ∧
    (p.length = 20 → (s.slot l).active = false → ∀ c, acceptCfg p = some c →
      ∃ v, exec (.addBearer l 0 p) s = .next (s.after l v (s.tags l) [] []) ∧ v.active = true ∧ v.cfg = c ∧ v.Fresh ∧
        v.metrics = ⟨0, 0, 0, 0, 0, 0⟩)

/-- R183: CONFIGURE resets the bearer exactly on a structural change, and otherwise changes `cfg` alone. -/
def Obligations.ConfigureResetsOnStructuralChange : Prop :=
  ∀ (l : Lcid) (p : Bytes) (s : State) (old : Cfg), p.length = 20 → (s.slot l).active = true → old = (s.slot l).cfg →
    (acceptCfg p = none → exec (.configure l 0 p) s = .next (s.refused .configRejected)) ∧
    ∀ c, acceptCfg p = some c →
      ((c.mode ≠ old.mode ∨ c.snw ≠ old.snw ∨ c.liw ≠ old.liw ∨ (c.mode = .am ∧ c.amW ≠ old.amW)) →
        ∃ v, exec (.configure l 0 p) s =
            .next (s.after l v (s.tags l) [] (stopEvents l (s.slot l) (s.tags l))) ∧
          v.active = true ∧ v.cfg = c ∧ v.Fresh ∧ v.metrics = (s.slot l).metrics) ∧
      (c.mode = old.mode → c.snw = old.snw → c.liw = old.liw → (c.mode = .am → c.amW = old.amW) →
        exec (.configure l 0 p) s = .next (s.after l { s.slot l with cfg := c } (s.tags l) [] []))

/-- R184: REESTABLISH stops every running timer, resets the protocol state, keeps `cfg`, `metrics` and the tags; and a
TIMER_EXPIRY from before it is then ignored. -/
def Obligations.ReestablishResetsAndDisarmsTimers : Prop :=
  ∀ (l : Lcid) (sub : Sub) (imm : Imm) (s : State),
    (sub ≠ 0 ∨ imm ≠ 0 → exec (.reestablish l sub imm) s = .next (s.refused .badField)) ∧
    ((s.slot l).active = false → exec (.reestablish l 0 0) s = .next (s.refused .noBearer)) ∧
    ((s.slot l).active = true → ∃ v, exec (.reestablish l 0 0) s = .next (s.after l v (s.tags l) [] (stopEvents l (s.slot l) (s.tags l))) ∧
      v.active = true ∧ v.cfg = (s.slot l).cfg ∧ v.Fresh ∧ v.metrics = (s.slot l).metrics ∧
      ∀ (t : State) (k : Sub) (g : Imm), exec (.reestablish l 0 0) s = .next t → k.toNat ≤ 2 →
        exec (.timerExpiry l k g) t = .next (t.answer []))

/-- R185: DEL_BEARER stops every running timer, keeps the tags and makes the slot inactive, whatever the unspecified fields
become (log 5); a second one is refused, and the transport commands find no bearer. -/
def Obligations.DelBearerEndsTheBearer : Prop :=
  ∀ (l : Lcid) (sub : Sub) (imm : Imm) (s : State),
    (sub ≠ 0 ∨ imm ≠ 0 → exec (.delBearer l sub imm) s = .next (s.refused .badField)) ∧
    ((s.slot l).active = false → exec (.delBearer l 0 0) s = .next (s.refused .noBearer)) ∧
    ((s.slot l).active = true → ∃ v t, exec (.delBearer l 0 0) s = .next t ∧
      t = ({ s with freeCount := s.freeCount + 1 } : State).after l v (s.tags l) []
        (stopEvents l (s.slot l) (s.tags l)) ∧
      v.active = false ∧ exec (.delBearer l 0 0) t = .next (t.refused .noBearer) ∧
      ∀ (b g : Imm) (p : Bytes) (k : Sub), k.toNat ≤ 2 →
        exec (.readPdu l 0 b) t = .next (t.answer []) ∧ exec (.writePdu l 0 p) t = .next (t.answer []) ∧
        exec (.getBufferState l 0 0) t = .next (t.answer [0, 0, 0, 0]) ∧
        exec (.timerExpiry l k g) t = .next (t.answer []))

/-- R352, R106: the transport commands never refuse once their header fields pass, READ_PDU and WRITE_PDU are refused where SUB
is not 0, and on an inactive slot they do nothing. GET_BUFFER_STATE and TIMER_EXPIRY with bad fields are in BufferStateValue and
ExpiryActsOnlyWhenCurrent. -/
def Obligations.TransportCommandsAreInfallible : Prop :=
  ∀ (l : Lcid) (b g : Imm) (p : Bytes) (k : Sub) (s : State),
    (k ≠ 0 →
      exec (.readPdu l k b) s = .next (s.refused .badField) ∧ exec (.writePdu l k p) s = .next (s.refused .badField)) ∧
    (k.toNat ≤ 2 →
      (∀ i ∈ [Instr.readPdu l 0 b, .writePdu l 0 p, .getBufferState l 0 0, .timerExpiry l k g],
        ∃ t r, exec i s = .next t ∧ t.responses = s.responses ++ [r] ∧ r.code = .ok) ∧
      ((s.slot l).active = false →
        exec (.readPdu l 0 b) s = .next (s.answer []) ∧
        exec (.getBufferState l 0 0) s = .next (s.answer [0, 0, 0, 0]) ∧
        exec (.writePdu l 0 p) s = .next (s.answer []) ∧
        exec (.timerExpiry l k g) s = .next (s.answer [])))

/-! ## The SDU queue and the buffer state -/

/-- R211: WRITE_SDU appends the SDU to the queue and counts it; its checks come in the order size, bearer, queue. -/
def Obligations.WriteSduAppends : Prop :=
  ∀ (l : Lcid) (p : Bytes) (s : State) (v : Slot), v = s.slot l →
    (∀ sub : Sub, sub ≠ 0 → exec (.writeSdu l sub p) s = .next (s.refused .badField)) ∧
    ((p.length = 0 ∨ s.params.maxSduBytes < p.length) → exec (.writeSdu l 0 p) s = .next (s.refused .sduSize)) ∧
    (1 ≤ p.length → p.length ≤ s.params.maxSduBytes →
      (v.active = false → exec (.writeSdu l 0 p) s = .next (s.refused .noBearer)) ∧
      (v.active = true → s.params.qSdu ≤ v.txq.length → exec (.writeSdu l 0 p) s = .next (s.refused .queueFull)) ∧
      (v.active = true → v.txq.length < s.params.qSdu →
        exec (.writeSdu l 0 p) s =
          .next (s.after l
            { v with
              txq := v.txq ++ [⟨p, 0⟩]
              metrics := { v.metrics with numTxSdus := v.metrics.numTxSdus + 1 } } (s.tags l) [] [])))

/-- R212, R213, R283: the value of GET_BUFFER_STATE on an inactive slot, a UM bearer and an AM bearer. -/
def Obligations.BufferStateValue : Prop :=
  ∀ (l : Lcid) (sub : Sub) (imm : Imm) (s : State) (v : Slot), v = s.slot l →
    (sub ≠ 0 ∨ imm ≠ 0 → exec (.getBufferState l sub imm) s = .next (s.refused .badField)) ∧
    ∃ r, exec (.getBufferState l 0 0) s = .next (s.answer r) ∧ r.length = 4 ∧
      (v.active = false → u32be r 0 = 0) ∧
      (v.active = true → v.cfg.mode = .um →
        u32be r 0 = min (if v.txq = [] then 0
          else v.cfg.h0 + liBytes v.cfg.liw (v.txq.length - 1) + (v.txq.map fun q => q.bytes.length - q.off).sum)
            4294967295) ∧
      (v.active = true → v.cfg.mode = .am →
        u32be r 0 = min
          ((if v.statusTriggered = true ∧ v.running.prohibit = false then (packStatus (buildStatus s.params v 65535)).length
              else 0) +
            (v.rb.map fun e =>
              if e.2.pending = [] then 0
              else if e.2.pending = [(0, e.2.data.length)] then
                2 + liBytes v.cfg.liw e.2.bounds.length + e.2.data.length
              else (e.2.pending.map fun i =>
                4 + liBytes v.cfg.liw (e.2.bounds.filter fun b => i.1 < b && b < i.2).length + (i.2 - i.1)).sum).sum +
            (if v.stalled = true ∨ v.txq = [] then 0
              else 2 + liBytes v.cfg.liw (v.txq.length - 1) + (v.txq.map fun q => q.bytes.length - q.off).sum))
          4294967295)

/-- R215, R216, R210: a UM READ_PDU sends the next bytes of the queue, each once and in order, in one PDU within the budget
that unpacks to VT_US and to the framing of those SDUs, filled as far as R215 lets it; or nothing at all. -/
def Obligations.UmReadSegmentsTheQueue : Prop :=
  ∀ (l : Lcid) (b : Imm) (s : State) (v : Slot), v = s.slot l → v.active = true → v.cfg.mode = .um → v.Inv →
    v.QueueOk s.params →
    ((v.txq = [] ∨ b.toNat ≤ v.cfg.h0) → exec (.readPdu l 0 b) s = .next (s.answer [])) ∧
    (v.txq ≠ [] → v.cfg.h0 < b.toNat →
      ∃ pdu h n q',
        exec (.readPdu l 0 b) s =
          .next (s.after l
            { v with
              txq := q'
              vtUs := (v.vtUs + 1) % v.n
              metrics := { v.metrics with numTxPdus := v.metrics.numTxPdus + 1 } } (s.tags l) pdu []) ∧
        pdu.length ≤ b.toNat ∧ unpackHdr s.params v.cfg.fmt v.cfg.liw pdu = some (h, n) ∧ h.sn = v.vtUs ∧
        pdu.drop n ++ queueBytes q' = queueBytes v.txq ∧
        BuiltFrom s.params v.cfg.liw b.toNat v.cfg.h0 Config.maxPayload v.txq q' h.fi h.lis (pdu.drop n))

/-- R217: on a UM bearer, a READ_PDU with the reported budget drains the queue, and the report is 0 exactly when every
READ_PDU returns nothing. -/
def Obligations.UmBufferStateIsConsistent : Prop :=
  ∀ (l : Lcid) (s : State) (v : Slot), v = s.slot l → v.active = true → v.cfg.mode = .um → v.QueueOk s.params →
    (∀ b : Nat, v.txq ≠ [] → (∀ q ∈ v.txq.dropLast, q.bytes.length - q.off ≤ v.cfg.liw.max) →
      v.txq.length - 1 ≤ s.params.maxLi → b ≤ 65535 →
      exec (.getBufferState l 0 0) s = .next (s.answer (put32 b)) →
      ∃ pdu t, exec (.readPdu l 0 (BitVec.ofNat 16 b)) s = .next t ∧
        t.responses = s.responses ++ [⟨.ok, pdu, []⟩] ∧ pdu.length = b ∧ (t.slot l).txq = [] ∧
        exec (.getBufferState l 0 0) t = .next (t.answer (put32 0))) ∧
    (exec (.getBufferState l 0 0) s = .next (s.answer (put32 0)) ↔
      ∀ b : Imm, exec (.readPdu l 0 b) s = .next (s.answer []))

/-- R284: on an AM bearer the report is 0 exactly when every READ_PDU returns nothing, and a READ_PDU with the reported budget
returns a PDU. -/
def Obligations.AmBufferStateIsConsistent : Prop :=
  ∀ (l : Lcid) (s : State) (v : Slot), v = s.slot l → v.active = true → v.cfg.mode = .am → v.Inv → v.Shapes s.params →
    (exec (.getBufferState l 0 0) s = .next (s.answer (put32 0)) ↔
      ∀ b : Imm, exec (.readPdu l 0 b) s = .next (s.answer [])) ∧
    ∀ b : Nat, 0 < b → b ≤ 4294967295 → exec (.getBufferState l 0 0) s = .next (s.answer (put32 b)) →
      ∃ t r, exec (.readPdu l 0 (BitVec.ofNat 16 (min b 65535))) s = .next t ∧ t.responses = s.responses ++ [r] ∧
        r.result ≠ []

/-! ## Receiving on a UM bearer -/

/-- R158, R315, R354: a received PDU that is malformed, inconsistent or out of context has one effect, its DROP event. An AM piece
inside the window is inconsistent where it ends its PDU at another length than the one known, or where a byte or a boundary would
lie at or beyond the known length. -/
def Obligations.MalformedPduOnlyDrops : Prop :=
  ∀ (l : Lcid) (pdu : Bytes) (s : State) (v : Slot), v = s.slot l → v.active = true →
    ((v.cfg.mode = .um ∧ unpackHdr s.params v.cfg.fmt v.cfg.liw pdu = none) ∨
      (v.cfg.mode = .am ∧ pdu = []) ∨
      (v.cfg.mode = .am ∧ wireBit pdu 0 = true ∧ unpackHdr s.params .amd v.cfg.liw pdu = none) ∨
      (v.cfg.mode = .am ∧ wireBit pdu 0 = true ∧ ∃ h n, unpackHdr s.params .amd v.cfg.liw pdu = some (h, n) ∧
        inside v.n h.sn v.vrR v.amW = true ∧
        (Contradicts ((mapGet h.sn v.rxa).getD AmEntry.empty) (if h.rf then h.so else 0) (!h.rf || h.lsf) h (pdu.drop n) ∨
          merge ((mapGet h.sn v.rxa).getD AmEntry.empty) (pieceOf h (pdu.length - n)) h (pdu.drop n) = none)) →
      exec (.writePdu l 0 pdu) s = .next (s.after l v (s.tags l) [] [.drop l .malformedHeader])) ∧
    (v.cfg.mode = .am → pdu ≠ [] → wireBit pdu 0 = false →
      (∀ st, unpackStatus s.params pdu = some st →
        ¬ (rel v.n st.ack v.vtA ≤ rel v.n v.vtS v.vtA) ∨
          ∃ k ∈ st.nacks, ¬ (rel v.n k.sn v.vtA < rel v.n st.ack v.vtA)) →
      exec (.writePdu l 0 pdu) s = .next (s.after l v (s.tags l) [] [.drop l .malformedStatusPdu]))

/-- R234, R237, R238: the PDU that a UM bearer without a gap expects is passed to reassembly at once, with any FI and LIs. Every
SDU it completes is delivered in order and counted; a continuation is joined to what is held for its SN and discarded where nothing
is; and what grows beyond MAX_SDU_BYTES is discarded. A PDU that holds one whole SDU delivers it. -/
def Obligations.UmInOrderPduIsDelivered : Prop :=
  ∀ (l : Lcid) (pdu : Bytes) (s : State) (v : Slot) (h : Hdr) (n : Nat), v = s.slot l → v.active = true →
    v.cfg.mode = .um → v.Inv → unpackHdr s.params v.cfg.fmt v.cfg.liw pdu = some (h, n) → v.vrUr = v.vrUh → h.sn = v.vrUr →
    ∃ (rsm : Rsm) (sdus : List Bytes),
      exec (.writePdu l 0 pdu) s =
        .next (s.after l
          { v with
            vrUr := (v.vrUr + 1) % v.n
            vrUh := (v.vrUr + 1) % v.n
            rsm := rsm
            metrics :=
              { v.metrics with
                numRxPdus := v.metrics.numRxPdus + 1
                numRxSdus := v.metrics.numRxSdus + BitVec.ofNat 32 sdus.length } }
          (s.tags l) [] (sdus.map (.deliverSdu l))) ∧
      (rsm, sdus) = reassemble s.params v.n h.sn ⟨h.fi, boundsOf h.lis, pdu.drop n⟩ v.rsm ∧
      (h.lis = [] → OneElement s.params v.n h.sn h.fi (pdu.drop n) v.rsm rsm sdus)

/-- R234, R235, R233, R361: where no gap is open, the first PDU beyond a gap is held, moves VR_UH past it, and starts the
reordering timer against the new VR_UH. Whatever is open, a PDU that is neither held nor behind VR_UR is inserted; an SN outside
the window moves VR_UH past it; VR_UR goes to the lower edge of the window if that has passed it, counting what was not received
as lost, and on to the first SN not held; every held PDU it passes goes to reassembly once and in order; and then the timer is
stopped where its zone is filled or has left the window, and started against VR_UH where a gap is open and it does not run. -/
def Obligations.UmReceptionMovesTheWindow : Prop :=
  ∀ (l : Lcid) (pdu : Bytes) (s : State) (v : Slot) (h : Hdr) (n : Nat), v = s.slot l → v.active = true →
    v.cfg.mode = .um → v.Inv → unpackHdr s.params v.cfg.fmt v.cfg.liw pdu = some (h, n) →
    (∀ j, v.vrUr = v.vrUh → 1 ≤ j → j < v.cfg.umW → h.sn = (v.vrUh + j) % v.n →
      exec (.writePdu l 0 pdu) s =
        .next (s.after l
          { v with
            rxu := [(h.sn, ⟨h.fi, boundsOf h.lis, pdu.drop n⟩)]
            vrUh := (h.sn + 1) % v.n
            vrUx := (h.sn + 1) % v.n
            running := { v.running with reord := true }
            metrics := { v.metrics with numRxPdus := v.metrics.numRxPdus + 1 } }
          { s.tags l with reord := (s.tags l).reord + 1 } []
          [.timerStart l .reord ((s.tags l).reord + 1) v.cfg.tReorderingMs])) ∧
    ∀ (rxu : SnMap Body) (uh base low : Nat),
      h.sn ∉ mapKeys v.rxu →
      ¬ (rel v.n h.sn v.umBase < v.cfg.umW ∧ rel v.n h.sn v.umBase < rel v.n v.vrUr v.umBase) →
      rxu = mapPut h.sn ⟨h.fi, boundsOf h.lis, pdu.drop n⟩ v.rxu →
      uh = (if rel v.n h.sn v.umBase < v.cfg.umW then v.vrUh else (h.sn + 1) % v.n) →
      base = rel v.n uh v.cfg.umW →
      low = (if rel v.n v.vrUr base < v.cfg.umW then v.vrUr else base) →
      ∃ (m ur : Nat) (rsm : Rsm) (sdus : List Bytes) (stop start : Bool),
        ur = (low + m) % v.n ∧ (∀ j, j < m → (low + j) % v.n ∈ mapKeys rxu) ∧ ur ∉ mapKeys rxu ∧
        (rsm, sdus) = reassembleAll s.params v.n (fun sn => mapGet sn rxu) (snInterval v.n v.vrUr ur) v.rsm ∧
        (stop = true ↔ v.running.reord = true ∧
          (rel v.n v.vrUx base ≤ rel v.n ur base ∨ (v.cfg.umW ≤ rel v.n v.vrUx base ∧ v.vrUx ≠ uh))) ∧
        (start = true ↔ (v.running.reord = false ∨ stop = true) ∧ rel v.n ur base < rel v.n uh base) ∧
        exec (.writePdu l 0 pdu) s =
          .next (s.after l
            { v with
              vrUr := ur
              vrUh := uh
              vrUx := if start then uh else v.vrUx
              rxu := rxu.filter fun e => rel v.n ur v.vrUr ≤ rel v.n e.1 v.vrUr
              rsm := rsm
              running := { v.running with reord := start || (v.running.reord && !stop) }
              metrics :=
                { v.metrics with
                  numRxPdus := v.metrics.numRxPdus + 1
                  numRxSdus := v.metrics.numRxSdus + BitVec.ofNat 32 sdus.length
                  numLostPdus := v.metrics.numLostPdus + BitVec.ofNat 32
                    ((snInterval v.n v.vrUr low).filter fun sn => !(mapKeys rxu).contains sn).length } }
            (if start then { s.tags l with reord := (s.tags l).reord + 1 } else s.tags l) []
            (sdus.map (.deliverSdu l) ++ (if stop then [.timerStop l .reord (s.tags l).reord] else []) ++
              if start then [.timerStart l .reord ((s.tags l).reord + 1) v.cfg.tReorderingMs] else []))

/-- R239: a UM PDU whose SN is held, or lies in `[VR_UH - UM_W, VR_UR)`, only counts as received; and so does a second copy of
any PDU right after the first. -/
def Obligations.UmRepeatedPduOnlyCounts : Prop :=
  ∀ (l : Lcid) (pdu : Bytes) (s : State) (v : Slot) (h : Hdr) (n : Nat), v = s.slot l → v.active = true →
    v.cfg.mode = .um → v.Inv → unpackHdr s.params v.cfg.fmt v.cfg.liw pdu = some (h, n) →
    ((h.sn ∈ mapKeys v.rxu ∨
        ∃ j, j < rel v.n v.vrUr v.umBase ∧ j < v.cfg.umW ∧ h.sn = (v.umBase + j) % v.n) →
      exec (.writePdu l 0 pdu) s =
        .next (s.after l
          { v with metrics := { v.metrics with numRxPdus := v.metrics.numRxPdus + 1 } } (s.tags l) [] [])) ∧
    ∀ t, exec (.writePdu l 0 pdu) s = .next t →
      exec (.writePdu l 0 pdu) t =
        .next (t.after l
          { t.slot l with
            metrics := { (t.slot l).metrics with numRxPdus := (t.slot l).metrics.numRxPdus + 1 } } (t.tags l) [] [])

/-- R241, R236: a current UM reordering expiry moves VR_UR to the first SN at or after VR_UX that has not been received, feeds
every received PDU below it to reassembly once and in order, counts every missing SN below VR_UX as lost, and starts the timer
again exactly when a gap remains. -/
def Obligations.UmExpiryForcesLoss : Prop :=
  ∀ (l : Lcid) (s : State) (v : Slot), v = s.slot l → v.active = true → v.cfg.mode = .um → v.Inv →
    v.running.reord = true →
    ∃ (m : Nat) (rsm : Rsm) (sdus : List Bytes),
      (∀ j, j < m → (v.vrUx + j) % v.n ∈ mapKeys v.rxu) ∧ (v.vrUx + m) % v.n ∉ mapKeys v.rxu ∧
      (rsm, sdus) =
        reassembleAll s.params v.n (fun sn => mapGet sn v.rxu) (snInterval v.n v.vrUr ((v.vrUx + m) % v.n)) v.rsm ∧
      exec (.timerExpiry l 0 (s.tags l).reord) s =
        .next (s.after l
          { v with
            vrUr := (v.vrUx + m) % v.n
            vrUx := if (v.vrUx + m) % v.n = v.vrUh then v.vrUx else v.vrUh
            rxu := v.rxu.filter fun e => rel v.n v.vrUx v.vrUr + m ≤ rel v.n e.1 v.vrUr
            rsm := rsm
            running := { v.running with reord := decide ((v.vrUx + m) % v.n ≠ v.vrUh) }
            metrics :=
              { v.metrics with
                numRxSdus := v.metrics.numRxSdus + BitVec.ofNat 32 sdus.length
                numLostPdus := v.metrics.numLostPdus + BitVec.ofNat 32
                  ((snInterval v.n v.vrUr v.vrUx).filter fun sn => !(mapKeys v.rxu).contains sn).length } }
          (if (v.vrUx + m) % v.n = v.vrUh then s.tags l else { s.tags l with reord := (s.tags l).reord + 1 }) []
          (sdus.map (.deliverSdu l) ++ if (v.vrUx + m) % v.n = v.vrUh then []
            else [.timerStart l .reord ((s.tags l).reord + 1) v.cfg.tReorderingMs]))

/-- R240, for PDUs that arrive in order: a PDU read from one UM bearer and written to another in step with it delivers exactly
the SDUs that left the sender's queue, and keeps the two in step. -/
def Obligations.UmTransferStaysInStep : Prop :=
  ∀ (l j : Lcid) (b : Imm) (s : State), l ≠ j → UmInStep s.params (s.slot l) (s.slot j) →
    ∃ pdu t, exec (.readPdu l 0 b) s = .next t ∧ t.responses = s.responses ++ [⟨.ok, pdu, []⟩] ∧
      (pdu = [] → t = s.answer []) ∧
      (pdu ≠ [] → ∃ u sent, exec (.writePdu j 0 pdu) t = .next u ∧ UmInStep s.params (u.slot l) (u.slot j) ∧
        u.responses = t.responses ++ [⟨.ok, [], sent.map (.deliverSdu j)⟩] ∧
        (s.slot l).txq.map TxSdu.bytes = sent ++ (u.slot l).txq.map TxSdu.bytes)

/-! ## AM transmit -/

/-- R262, R325, R326: a triggered status goes first. The PDU is a valid status within the budget, the trigger is cleared and
the prohibit timer started. -/
def Obligations.AmStatusIsSentFirst : Prop :=
  ∀ (l : Lcid) (b : Imm) (s : State) (v : Slot), v = s.slot l → v.active = true → v.cfg.mode = .am → v.Inv → v.Shapes s.params →
    v.statusTriggered = true → v.running.prohibit = false → 2 ≤ b.toNat →
    ∃ pdu, unpackStatus s.params pdu = some (buildStatus s.params v b.toNat) ∧ pdu.length ≤ b.toNat ∧
      exec (.readPdu l 0 b) s =
        .next (s.after l
          { v with
            statusTriggered := false
            running := { v.running with prohibit := true }
            metrics := { v.metrics with numTxPdus := v.metrics.numTxPdus + 1 } }
          { s.tags l with prohibit := (s.tags l).prohibit + 1 } pdu
          [.timerStart l .prohibit ((s.tags l).prohibit + 1) v.cfg.tStatusProhibitMs])

/-- R262, R263, R269, R270, R215: a budget below 2 gives nothing. With no status due, and nothing to retransmit that fits the
budget, an AM READ_PDU whose window is open sends the next SDUs of the queue under SN VT_S, framed and filled as R215 says, keeps
the PDU in the retransmission buffer, and polls exactly on the conditions of R270; and it gives nothing where the window is
stalled, the queue is empty, or the budget holds no data. -/
def Obligations.AmNewPduEntersTheBuffer : Prop :=
  ∀ (l : Lcid) (b : Imm) (s : State) (v : Slot) (g : PerTimer (BitVec 16)), v = s.slot l → g = s.tags l →
    v.active = true → v.cfg.mode = .am → v.Inv → v.Shapes s.params →
    (b.toNat < 2 → exec (.readPdu l 0 b) s = .next (s.answer [])) ∧
    ((v.statusTriggered = false ∨ v.running.prohibit = true) → v.NoRetx b.toNat →
      ((v.amW ≤ rel v.n v.vtS v.vtA ∨ v.txq = [] ∨ b.toNat ≤ 2) → exec (.readPdu l 0 b) s = .next (s.answer [])) ∧
      (rel v.n v.vtS v.vtA < v.amW → v.txq ≠ [] → 2 < b.toNat →
        ∃ pdu h n q' cp cb u,
          cp = min (v.pduWithoutPoll.toNat + 1) 4294967295 ∧
          cb = min (v.byteWithoutPoll.toNat + (pdu.drop n).length) 4294967295 ∧
          pdu.length ≤ b.toNat ∧ unpackHdr s.params .amd v.cfg.liw pdu = some (h, n) ∧ h.sn = v.vtS ∧ h.rf = false ∧
          pdu.drop n ++ queueBytes q' = queueBytes v.txq ∧
          BuiltFrom s.params v.cfg.liw b.toNat 2 Config.maxAmData v.txq q' h.fi h.lis (pdu.drop n) ∧
          (h.p = true ↔ ({ v with txq := q', vtS := (v.vtS + 1) % v.n } : Slot).PollDue cp cb) ∧
          u =
            { v with
              txq := q'
              vtS := (v.vtS + 1) % v.n
              rb := mapPut v.vtS ⟨h.fi, boundsOf h.lis, pdu.drop n, h.p, 0, [], false⟩ v.rb
              pduWithoutPoll := BitVec.ofNat 32 cp
              byteWithoutPoll := BitVec.ofNat 32 cb
              metrics := { v.metrics with numTxPdus := v.metrics.numTxPdus + 1 } } ∧
          exec (.readPdu l 0 b) s =
            .next (s.after l (if h.p then u.polled else u) (if h.p then { g with pollretx := g.pollretx + 1 } else g) pdu
              (if h.p then [.timerStart l .pollretx (g.pollretx + 1) v.cfg.tPollRetransmitMs] else []))))

/-- R261, R285: a stalled AM bearer sends no new data: READ_PDU leaves the queue, VT_S and the keys of the retransmission buffer
as they are. -/
def Obligations.StalledBearerSendsNoNewData : Prop :=
  ∀ (l : Lcid) (b : Imm) (s t : State), (s.slot l).active = true → (s.slot l).cfg.mode = .am → (s.slot l).Inv →
    (s.slot l).amW ≤ rel (s.slot l).n (s.slot l).vtS (s.slot l).vtA → exec (.readPdu l 0 b) s = .next t →
    (t.slot l).txq = (s.slot l).txq ∧ (t.slot l).vtS = (s.slot l).vtS ∧
      mapKeys (t.slot l).rb = mapKeys (s.slot l).rb

/-- R265, R266, R267, R270: with no status due, an AM READ_PDU retransmits from the lowest SN with pending bytes: the whole PDU
where all of it is pending and it fits the budget, else the longest segment from the start of the first pending interval that
fits. It carries the bytes first sent; its FI and LIs are those the original PDU implies for that byte range; exactly those bytes
leave `pending`; and it polls exactly on the conditions of R270, after that. -/
def Obligations.RetransmissionIsExact : Prop :=
  ∀ (l : Lcid) (b : Imm) (s : State) (v : Slot) (g : PerTimer (BitVec 16)) (sn : Nat) (e : RetxEntry) (a z : Nat)
    (more : RangeSet), v = s.slot l → g = s.tags l → v.active = true → v.cfg.mode = .am → v.Inv → v.Shapes s.params →
    (v.statusTriggered = false ∨ v.running.prohibit = true) → v.FirstPending sn e → e.pending = (a, z) :: more →
    (e.WholeFits v.cfg.liw b.toNat ∨ 5 ≤ b.toNat) →
    ∃ pdu h n m pend u,
      pdu.length ≤ b.toNat ∧ unpackHdr s.params .amd v.cfg.liw pdu = some (h, n) ∧ h.sn = sn ∧
      pdu.drop n = (e.data.drop a).take m ∧ 1 ≤ m ∧ m ≤ z - a ∧
      (h.rf = false ↔ e.WholeFits v.cfg.liw b.toNat) ∧
      (h.rf = false → a = 0 ∧ m = e.data.length) ∧
      (h.rf = true → h.so = a ∧ (h.lsf = true ↔ a + m = e.data.length) ∧
        (m = z - a ∨
          b.toNat < 4 + liBytes v.cfg.liw (e.bounds.filter fun x => a < x && x < a + m + 1).length + (m + 1))) ∧
      (fi1 h.fi = true ↔ if a = 0 then fi1 e.fi = true else a ∉ e.bounds) ∧
      (fi0 h.fi = true ↔ if a + m = e.data.length then fi0 e.fi = true else a + m ∉ e.bounds) ∧
      (boundsOf h.lis).map (a + ·) = e.bounds.filter (fun x => a < x && x < a + m) ∧
      rangeWf pend = true ∧
      (∀ x, rangeHas x pend = true ↔ rangeHas x e.pending = true ∧ ¬ (a ≤ x ∧ x < a + m)) ∧
      u =
        { v with
          rb := mapPut sn { e with pending := pend } v.rb
          metrics :=
            { v.metrics with
              numTxPdus := v.metrics.numTxPdus + 1
              numRetxPdus := v.metrics.numRetxPdus + 1 } } ∧
      (h.p = true ↔ u.PollDue v.pduWithoutPoll.toNat v.byteWithoutPoll.toNat) ∧
      exec (.readPdu l 0 b) s =
        .next (s.after l (if h.p then u.polled else u) (if h.p then { g with pollretx := g.pollretx + 1 } else g) pdu
          (if h.p then [.timerStart l .pollretx (g.pollretx + 1) v.cfg.tPollRetransmitMs] else []))

/-- R267, R314: segments of a PDU that together cover its data field, received in any order and with any overlap, rebuild the
data field, its boundaries and its FI. -/
def Obligations.SegmentsRebuildThePdu : Prop :=
  ∀ (pm : Params) (liw : LiWidth) (e : RetxEntry) (segs : List (Nat × Nat)), e.Shape pm liw →
    (∀ i ∈ segs, 1 ≤ i.2 ∧ i.1 + i.2 ≤ e.data.length) →
    (∀ x, x < e.data.length → ∃ i ∈ segs, i.1 ≤ x ∧ x < i.1 + i.2) →
    ∃ r, mergeSegments e segs AmEntry.empty = some r ∧ r.complete = true ∧ r.body = ⟨e.fi, e.bounds, e.data⟩

/-- R273, R275, R277, R285: an accepted status frees exactly the entries below ACK_SN without a NACK, moves VT_A to the lowest SN
left or to VT_S, notifies exactly the SNs that it makes dead, each once and in rising order from the old VT_A, and then stops the
poll timer exactly when it covers POLL_SN. -/
def Obligations.AcknowledgementFreesEntries : Prop :=
  ∀ (l : Lcid) (pdu : Bytes) (s : State) (v : Slot) (st : Status), v = s.slot l → v.active = true → v.cfg.mode = .am →
    v.Inv → wireBit pdu 0 = false → unpackStatus s.params pdu = some st → inContext v.n v.vtA v.vtS st = true →
    ∃ (rb : SnMap RetxEntry) (vtA : Nat) (dead : List Nat), exec (.writePdu l 0 pdu) s =
        .next (s.after l
          { v with
            rb := rb
            vtA := vtA
            running :=
              { v.running with pollretx := v.running.pollretx && !before v.n v.pollSn st.ack v.vtA }
            metrics := { v.metrics with numRxPdus := v.metrics.numRxPdus + 1 } }
          (s.tags l) []
          (dead.map (.notifyMaxRetx l) ++
            if v.running.pollretx && before v.n v.pollSn st.ack v.vtA then
              [.timerStop l .pollretx (s.tags l).pollretx] else [])) ∧
      (∀ k, k ∈ mapKeys rb ↔ k ∈ mapKeys v.rb ∧
        (before v.n k st.ack v.vtA = true → ∃ q ∈ st.nacks, q.sn = k)) ∧
      (∀ k, before v.n k st.ack v.vtA = false → mapGet k rb = mapGet k v.rb) ∧
      (rb = [] → vtA = v.vtS) ∧
      (rb ≠ [] → vtA ∈ mapKeys rb ∧ ∀ k ∈ mapKeys rb, rel v.n vtA v.vtA ≤ rel v.n k v.vtA) ∧
      (∀ k, k ∈ dead ↔
        ∃ e e', mapGet k v.rb = some e ∧ mapGet k rb = some e' ∧ e.dead = false ∧ e'.dead = true) ∧
      dead.Pairwise fun j k => rel v.n j v.vtA < rel v.n k v.vtA

/-- R274, R276, R277: what an accepted status with an effective NACK of `sn` does to its entry: a dead entry stays, a new
consideration counts and may kill it with NOTIFY_MAX_RETX, and otherwise exactly the NACKed bytes join `pending`. NACKs of `sn` that
ask for no byte of it leave its entry as it is, and notify nothing. -/
def Obligations.NackMarksTheBytes : Prop :=
  ∀ (l : Lcid) (pdu : Bytes) (s : State) (v : Slot) (st : Status) (sn : Nat) (e : RetxEntry), v = s.slot l →
    v.active = true → v.cfg.mode = .am → v.Inv → wireBit pdu 0 = false → unpackStatus s.params pdu = some st →
    inContext v.n v.vtA v.vtS st = true → mapGet sn v.rb = some e →
    ((∃ x < e.data.length, ∃ k ∈ st.nacks, k.sn = sn ∧ k.asks x = true) →
      ∃ t e' evs, exec (.writePdu l 0 pdu) s = .next t ∧ t.responses = s.responses ++ [⟨.ok, [], evs⟩] ∧
        mapGet sn (t.slot l).rb = some e' ∧
        e' = { e with retxCount := e'.retxCount, pending := e'.pending, dead := e'.dead } ∧
        (e.dead = true → e' = e ∧ .notifyMaxRetx l sn ∉ evs) ∧
        (e.dead = false → e.pending = [] → v.cfg.maxRetxThreshold.toNat < e.retxCount.toNat + 1 →
          e' = { e with dead := true } ∧ .notifyMaxRetx l sn ∈ evs) ∧
        (e.dead = false → (e.pending = [] → e.retxCount.toNat + 1 ≤ v.cfg.maxRetxThreshold.toNat) →
          .notifyMaxRetx l sn ∉ evs ∧ e'.dead = false ∧
          e'.retxCount.toNat = e.retxCount.toNat + (if e.pending = [] then 1 else 0) ∧
          ∀ x, rangeHas x e'.pending = true ↔
            rangeHas x e.pending = true ∨ (x < e.data.length ∧ ∃ k ∈ st.nacks, k.sn = sn ∧ k.asks x = true))) ∧
    ((∃ k ∈ st.nacks, k.sn = sn) → (∀ x < e.data.length, ∀ k ∈ st.nacks, k.sn = sn → k.asks x = false) →
      ∃ t evs, exec (.writePdu l 0 pdu) s = .next t ∧ t.responses = s.responses ++ [⟨.ok, [], evs⟩] ∧
        mapGet sn (t.slot l).rb = some e ∧ .notifyMaxRetx l sn ∉ evs)

/-- R277, R285: an entry that is dead stays dead for as long as its SN is in the buffer, and is never notified again. -/
def Obligations.MaxRetxIsNotifiedOnce : Prop :=
  ∀ (i : Instr) (l : Lcid) (s t : State) (r : Response) (sn : Nat) (e e' : RetxEntry), exec i s = .next t →
    t.responses = s.responses ++ [r] → (s.slot l).active = true → (t.slot l).active = true →
    (s.slot l).cfg.mode = .am → (s.slot l).Inv → mapGet sn (s.slot l).rb = some e → e.dead = true →
    .notifyMaxRetx l sn ∉ r.events ∧ (mapGet sn (t.slot l).rb = some e' → e' = e)

/-! ## AM receive -/

/-- R312, R317, R318, R237, R238: the whole PDU that an AM bearer without a gap expects is passed to reassembly at once, with any FI
and LIs, and its P bit triggers a status. What reassembly delivers and holds is as UmInOrderPduIsDelivered says. -/
def Obligations.AmInOrderPduIsDelivered : Prop :=
  ∀ (l : Lcid) (pdu : Bytes) (s : State) (v : Slot) (h : Hdr) (n : Nat), v = s.slot l → v.active = true →
    v.cfg.mode = .am → v.Inv → unpackHdr s.params .amd v.cfg.liw pdu = some (h, n) → h.rf = false → v.vrR = v.vrH →
    h.sn = v.vrR →
    ∃ (rsm : Rsm) (sdus : List Bytes),
      exec (.writePdu l 0 pdu) s =
        .next (s.after l
          { v with
            vrR := (v.vrR + 1) % v.n
            vrH := (v.vrR + 1) % v.n
            statusTriggered := v.statusTriggered || h.p
            rsm := rsm
            metrics :=
              { v.metrics with
                numRxPdus := v.metrics.numRxPdus + 1
                numRxSdus := v.metrics.numRxSdus + BitVec.ofNat 32 sdus.length } }
          (s.tags l) [] (sdus.map (.deliverSdu l))) ∧
      (rsm, sdus) = reassemble s.params v.n h.sn ⟨h.fi, boundsOf h.lis, pdu.drop n⟩ v.rsm ∧
      (h.lis = [] → OneElement s.params v.n h.sn h.fi (pdu.drop n) v.rsm rsm sdus)

/-- R312, R314, R317, R318, R319: where no gap is open, the first whole PDU beyond a gap is held, moves VR_H past it and starts
the reordering timer against the new VR_H. Whatever is open, a whole PDU or segment inside the window that brings a byte not held
and contradicts nothing is merged into the entry of its SN; VR_H moves past an SN not below it; VR_R goes on over the SNs that are
complete, which are delivered once and in order; and then the timer is stopped where VR_X has left `(VR_R, VR_MR]`, and started
against VR_H where SNs are missing and it does not run. -/
def Obligations.AmReceptionMergesAndAdvances : Prop :=
  ∀ (l : Lcid) (pdu : Bytes) (s : State) (v : Slot) (h : Hdr) (n : Nat), v = s.slot l → v.active = true →
    v.cfg.mode = .am → v.Inv → unpackHdr s.params .amd v.cfg.liw pdu = some (h, n) →
    (∀ j, h.rf = false → v.vrR = v.vrH → 1 ≤ j → j < v.amW → h.sn = (v.vrR + j) % v.n →
      ∃ r, r.complete = true ∧ r.body = ⟨h.fi, boundsOf h.lis, pdu.drop n⟩ ∧
        exec (.writePdu l 0 pdu) s =
          .next (s.after l
            { v with
              rxa := [(h.sn, r)]
              vrH := (h.sn + 1) % v.n
              vrX := (h.sn + 1) % v.n
              statusTriggered := v.statusTriggered || h.p
              running := { v.running with reord := true }
              metrics := { v.metrics with numRxPdus := v.metrics.numRxPdus + 1 } }
            { s.tags l with reord := (s.tags l).reord + 1 } []
            [.timerStart l .reord ((s.tags l).reord + 1) v.cfg.tReorderingMs])) ∧
    ∀ (old : AmEntry) (so : Nat) (last : Bool) (vh : Nat), v.Shapes s.params →
      rel v.n h.sn v.vrR < v.amW → old = (mapGet h.sn v.rxa).getD AmEntry.empty →
      so = (if h.rf then h.so else 0) → last = (!h.rf || h.lsf) →
      ¬ Contradicts old so last h (pdu.drop n) →
      (∃ x, so ≤ x ∧ x < so + (pdu.drop n).length ∧ rangeHas x old.rcvd = false) →
      vh = (if rel v.n v.vrH v.vrR ≤ rel v.n h.sn v.vrR then (h.sn + 1) % v.n else v.vrH) →
      ∃ (r : AmEntry) (rxa : SnMap AmEntry) (m vr : Nat) (rsm : Rsm) (sdus : List Bytes) (stop start : Bool),
        MergedFrom old r so last h (pdu.drop n) ∧ r.Shape ∧
        (r.complete = true ↔ ∃ len, r.len = some len ∧ ∀ x, x < len → rangeHas x r.rcvd = true) ∧
        rxa = mapPut h.sn r v.rxa ∧
        vr = (v.vrR + m) % v.n ∧
        (∀ j, j < m → ({ v with rxa := rxa } : Slot).rxComplete ((v.vrR + j) % v.n) = true) ∧
        ({ v with rxa := rxa } : Slot).rxComplete vr = false ∧
        (rsm, sdus) =
          reassembleAll s.params v.n (fun sn => (mapGet sn rxa).map AmEntry.body) (snInterval v.n v.vrR vr) v.rsm ∧
        (stop = true ↔ v.running.reord = true ∧ (v.vrX = vr ∨ v.amW < rel v.n v.vrX vr)) ∧
        (start = true ↔ (v.running.reord = false ∨ stop = true) ∧ vh ≠ vr) ∧
        exec (.writePdu l 0 pdu) s =
          .next (s.after l
            { v with
              vrR := vr
              vrH := vh
              vrX := if start then vh else v.vrX
              rxa := rxa.filter fun e => rel v.n vr v.vrR ≤ rel v.n e.1 v.vrR
              statusTriggered := v.statusTriggered || h.p
              rsm := rsm
              running := { v.running with reord := start || (v.running.reord && !stop) }
              metrics :=
                { v.metrics with
                  numRxPdus := v.metrics.numRxPdus + 1
                  numRxSdus := v.metrics.numRxSdus + BitVec.ofNat 32 sdus.length } }
            (if start then { s.tags l with reord := (s.tags l).reord + 1 } else s.tags l) []
            (sdus.map (.deliverSdu l) ++ (if stop then [.timerStop l .reord (s.tags l).reord] else []) ++
              if start then [.timerStart l .reord ((s.tags l).reord + 1) v.cfg.tReorderingMs] else []))

/-- R313, R316, R321: an AM data PDU outside the receive window, or one whose every byte is held already, only counts as received
and honours its P bit. -/
def Obligations.AmRepeatedPduOnlyCounts : Prop :=
  ∀ (l : Lcid) (pdu : Bytes) (s : State) (v : Slot) (h : Hdr) (n : Nat), v = s.slot l → v.active = true →
    v.cfg.mode = .am → unpackHdr s.params .amd v.cfg.liw pdu = some (h, n) →
    (v.amW ≤ rel v.n h.sn v.vrR ∨
      ∃ old, mapGet h.sn v.rxa = some old ∧
        (∀ x, x < pdu.length - n → rangeHas ((if h.rf then h.so else 0) + x) old.rcvd = true) ∧
        rangeWf old.rcvd = true ∧ ¬ Contradicts old (if h.rf then h.so else 0) (!h.rf || h.lsf) h (pdu.drop n)) →
    exec (.writePdu l 0 pdu) s =
      .next (s.after l
        { v with
          statusTriggered := v.statusTriggered || h.p
          metrics := { v.metrics with numRxPdus := v.metrics.numRxPdus + 1 } } (s.tags l) [] [])

/-- R163, R325: every status that RLCW builds is a valid record within the budget, and its own unpack succeeds. -/
def Obligations.StatusGeneratorIsValid : Prop :=
  ∀ (pm : Params) (v : Slot) (b : Nat), v.Inv → v.Shapes pm → v.cfg.mode = .am → 2 ≤ b →
    (buildStatus pm v b).valid pm = true ∧ (packStatus (buildStatus pm v b)).length ≤ b ∧
      unpackStatus pm (packStatus (buildStatus pm v b)) = some (buildStatus pm v b)

/-- R324: what one SN needs is one record without SO where nothing of it is held, none where it is complete, and else one record
for each gap, rising and never adjacent, which together ask for exactly the bytes that are missing (to the end, where its length is
unknown). The status lists all the records of the SNs from VR_R up to ACK_SN, in order. ACK_SN is in `[VR_R, VR_H]`, and it is VR_H
unless the records of SN ACK_SN would exceed MAX_NACKS or the budget. -/
def Obligations.StatusReportsEverySn : Prop :=
  ∀ (pm : Params) (v : Slot), v.Inv → v.Shapes pm → v.cfg.mode = .am →
    (∀ sn, sn < v.n →
      (mapGet sn v.rxa = none → nacksOf v.rxa sn = [⟨sn, false, 0, 0⟩]) ∧
      ∀ r, mapGet sn v.rxa = some r →
        (nacksOf v.rxa sn = [] ↔ r.complete = true) ∧
        (∀ k ∈ nacksOf v.rxa sn, k.sn = sn ∧ k.hasSo = true ∧ k.soStart ≤ k.soEnd) ∧
        (nacksOf v.rxa sn).Pairwise (fun j k => j.soEnd + 1 < k.soStart) ∧
        (r.complete = false → ∀ x, x < r.len.getD Config.maxAmData →
          (rangeHas x r.rcvd = false ↔ ∃ k ∈ nacksOf v.rxa sn, k.asks x = true))) ∧
    ∀ (b : Nat) (st : Status), 2 ≤ b → st = buildStatus pm v b →
      rel v.n st.ack v.vrR ≤ rel v.n v.vrH v.vrR ∧
      st.nacks = (snInterval v.n v.vrR st.ack).flatMap (nacksOf v.rxa) ∧
      (st.ack ≠ v.vrH →
        nacksOf v.rxa st.ack ≠ [] ∧
          (pm.maxNacks < st.nacks.length + (nacksOf v.rxa st.ack).length ∨
            b < statusLen (st.nacks ++ nacksOf v.rxa st.ack)))

/-! ## The codecs -/

/-- R156, and of what unpacks the conditions 3 to 8 of R95 as R151 tests them: at most MAX_LI LIs, none 0 (both in
`Hdr.valid`), which leave the last element a byte, and a data field within the AMD limits. -/
def Obligations.HeaderRoundTrip : Prop :=
  ∀ (pm : Params) (fmt : Fmt) (liw : LiWidth),
    (∀ (h : Hdr) (d : Bytes), h.valid pm fmt liw = true → h.lis.sum < d.length →
      (fmt = .amd → d.length ≤ Config.maxAmData ∧ (h.rf = true → h.so + d.length ≤ Config.maxAmData)) →
      unpackHdr pm fmt liw (packHdr fmt liw h ++ d) = some (h, (packHdr fmt liw h).length)) ∧
    ∀ (pdu : Bytes) (h : Hdr) (n : Nat), unpackHdr pm fmt liw pdu = some (h, n) →
      h.valid pm fmt liw = true ∧ h.lis.sum < (pdu.drop n).length ∧
      (fmt = .amd → (pdu.drop n).length ≤ Config.maxAmData ∧
        (h.rf = true → h.so + (pdu.drop n).length ≤ Config.maxAmData)) ∧
      (packHdr fmt liw h ++ pdu.drop n).length = pdu.length ∧
      ∀ p, p < 8 * pdu.length → ¬ (fmt = .umd10 ∧ p < 3) →
        ¬ (liw = .w11 ∧ h.lis.length % 2 = 1 ∧ 8 * n ≤ p + 4 ∧ p < 8 * n) →
        wireBit (packHdr fmt liw h ++ pdu.drop n) p = wireBit pdu p

/-- R159. -/
def Obligations.StatusRoundTrip : Prop :=
  ∀ pm : Params,
  (∀ s : Status, s.valid pm = true → unpackStatus pm (packStatus s) = some s) ∧
    ∀ (b : Bytes) (s : Status), unpackStatus pm b = some s → b.length = statusLen s.nacks →
      (∀ p, 15 + 12 * s.nacks.length + 30 * (s.nacks.filter fun k => k.hasSo).length ≤ p → p < 8 * b.length →
        wireBit b p = false) →
      s.valid pm = true ∧ packStatus s = b

/-- R155, R157, R106, R105: HDR_PACK and HDR_UNPACK are refused where LCID is not 0 or SUB names no format. Else HDR_PACK of a valid
record answers the packed header and the data, and a payload too short for its record, reserved flag bits, and an invalid record
are refused; HDR_UNPACK of a packed PDU, whatever its R1 and LI padding bits are, answers the record and the header length, and a
PDU that does not unpack is refused. -/
def Obligations.HdrCommandsRoundTrip : Prop :=
  (∀ (l : Lcid) (sub : Sub) (p : Bytes) (s : State), l ≠ 0 ∨ sub.toNat % 4 = 3 ∨ 8 ≤ sub.toNat →
    exec (.hdrPack l sub p) s = .next (s.refused .badField) ∧
      exec (.hdrUnpack l sub p) s = .next (s.refused .badField)) ∧
  ∀ (sub : Sub) (fmt : Fmt) (liw : LiWidth) (h : Hdr) (d p : Bytes) (s : State),
    (sub, fmt, liw) ∈ [((0 : Sub), Fmt.umd5, LiWidth.w11), (1, .umd10, .w11), (2, .amd, .w11), (4, .umd5, .w15),
      (5, .umd10, .w15), (6, .amd, .w15)] → s.params.Legal →
    (h.valid s.params fmt liw = true →
      exec (.hdrPack 0 sub (putHrec h ++ d)) s = .next (s.answer (packHdr fmt liw h ++ d))) ∧
    (p.length < 6 ∨ p.length < 6 + 2 * u8 p 5 ∨ 32 ≤ u8 p 2 →
      exec (.hdrPack 0 sub p) s = .next (s.refused .badField)) ∧
    (h.valid s.params fmt liw = false → h.sn < 65536 → h.so < 65536 → h.lis.length < 256 → (∀ li ∈ h.lis, li < 65536) →
      exec (.hdrPack 0 sub (putHrec h ++ d)) s = .next (s.refused .badField)) ∧
    (h.valid s.params fmt liw = true → h.lis.sum < d.length →
      (fmt = .amd → d.length ≤ Config.maxAmData ∧ (h.rf = true → h.so + d.length ≤ Config.maxAmData)) →
      p.length = (packHdr fmt liw h ++ d).length →
      (∀ x, x < 8 * p.length → ¬ (fmt = .umd10 ∧ x < 3) →
        ¬ (liw = .w11 ∧ h.lis.length % 2 = 1 ∧ 8 * (packHdr fmt liw h).length ≤ x + 4 ∧
          x < 8 * (packHdr fmt liw h).length) →
        wireBit p x = wireBit (packHdr fmt liw h ++ d) x) →
      exec (.hdrUnpack 0 sub p) s = .next (s.answer (putHrec h ++ put16 (packHdr fmt liw h).length))) ∧
    (unpackHdr s.params fmt liw p = none → exec (.hdrUnpack 0 sub p) s = .next (s.refused .malformedHeader))

/-- R161, R162, R106: STATUS_PACK and STATUS_UNPACK are refused where LCID or SUB is not 0. Else STATUS_PACK of a valid record
answers the packed status, and a payload of another length than its record, reserved flag bits, and an invalid record are refused;
STATUS_UNPACK of a packed status, whatever its padding bits and the octets after them are, answers the record, and bytes that do not
unpack are refused. -/
def Obligations.StatusCommandsRoundTrip : Prop :=
  (∀ (l : Lcid) (sub : Sub) (p : Bytes) (s : State), l ≠ 0 ∨ sub ≠ 0 →
    exec (.statusPack l sub p) s = .next (s.refused .badField) ∧
      exec (.statusUnpack l sub p) s = .next (s.refused .badField)) ∧
  ∀ (st : Status) (b : Bytes) (s : State), s.params.Legal →
    (st.valid s.params = true → exec (.statusPack 0 0 (putSrec st)) s = .next (s.answer (packStatus st))) ∧
    (b.length ≠ 4 + 7 * u16be b 2 ∨ (∃ j < u16be b 2, 2 ≤ u8 b (4 + 7 * j + 2)) →
      exec (.statusPack 0 0 b) s = .next (s.refused .badField)) ∧
    (st.valid s.params = false → st.ack < 65536 → st.nacks.length < 65536 →
      (∀ k ∈ st.nacks, k.sn < 65536 ∧ k.soStart < 65536 ∧ k.soEnd < 65536) →
      exec (.statusPack 0 0 (putSrec st)) s = .next (s.refused .badField)) ∧
    (st.valid s.params = true → (packStatus st).length ≤ b.length →
      (∀ x, x < 15 + 12 * st.nacks.length + 30 * (st.nacks.filter fun k => k.hasSo).length →
        wireBit b x = wireBit (packStatus st) x) →
      exec (.statusUnpack 0 0 b) s = .next (s.answer (putSrec st))) ∧
    (unpackStatus s.params b = none → exec (.statusUnpack 0 0 b) s = .next (s.refused .malformedStatus))

/-- R164, R106: the verdict of STATUS_CHECK, by membership in the transmit window; and its refusals. -/
def Obligations.StatusCheckClassifies : Prop :=
  ∀ (vtA vtS : Nat) (b : Bytes) (s : State), vtA < 65536 → vtS < 65536 →
    (vtA < 1024 → vtS < 1024 → rel 1024 vtS vtA ≤ 512 →
      ∃ c : Nat, c ≤ 3 ∧ exec (.statusCheck 0 0 (put16 vtA ++ put16 vtS ++ b)) s = .next (s.answer [BitVec.ofNat 8 c]) ∧
        (c = 1 ↔ unpackStatus s.params b = none) ∧
        ∀ st, unpackStatus s.params b = some st →
          (c = 2 ↔ ¬ ∃ j ≤ rel 1024 vtS vtA, st.ack = (vtA + j) % 1024) ∧
          (c = 0 ↔ (∃ j ≤ rel 1024 vtS vtA, st.ack = (vtA + j) % 1024) ∧
            ∀ k ∈ st.nacks, ∃ j < rel 1024 st.ack vtA, k.sn = (vtA + j) % 1024)) ∧
    (¬ (vtA < 1024 ∧ vtS < 1024 ∧ rel 1024 vtS vtA ≤ 512) →
      exec (.statusCheck 0 0 (put16 vtA ++ put16 vtS ++ b)) s = .next (s.refused .badField)) ∧
    (b.length < 4 → exec (.statusCheck 0 0 b) s = .next (s.refused .badField)) ∧
    ∀ (l : Lcid) (sub : Sub), l ≠ 0 ∨ sub ≠ 0 → exec (.statusCheck l sub b) s = .next (s.refused .badField)

/-! ## The sequence-number validator -/

/-- R132 to R135: the four SN commands answer their questions about positions on the circle of `2^w` SNs, and refuse a payload
that fails their checks. -/
def Obligations.SnCommandsAnswer : Prop :=
  (∀ (l : Lcid) (p : Bytes) (s : State), l ≠ 0 ∨ p.length ≠ 14 →
    ∀ i ∈ [Instr.snInwin l p, .snInrange l p, .snRel l p, .snBefore l p], exec i s = .next (s.refused .badField)) ∧
  ∀ (p : Bytes) (s : State) (w base bound sn : Nat), p.length = 14 → w = u8 p 0 → base = u32be p 2 →
    bound = u32be p 6 → sn = u32be p 10 →
    (w ∈ [5, 10, 12, 16, 18] → u8 p 1 = 0 → base < 2 ^ w → sn < 2 ^ w →
      (bound ≤ 2 ^ w → ∃ a : Bool, exec (.snInwin 0 p) s = .next (s.answer (put8 a.toNat)) ∧
        (a = true ↔ ∃ k < bound, sn = (base + k) % 2 ^ w)) ∧
      (bound < 2 ^ w → ∃ a : Bool, exec (.snInrange 0 p) s = .next (s.answer (put8 a.toNat)) ∧
        (a = true ↔ ∃ k, sn = (base + k) % 2 ^ w ∧ ∃ j, k ≤ j ∧ j < 2 ^ w ∧ bound = (base + j) % 2 ^ w)) ∧
      (bound = 0 → ∃ d < 2 ^ w, exec (.snRel 0 p) s = .next (s.answer (put32 d)) ∧ sn = (base + d) % 2 ^ w) ∧
      (bound < 2 ^ w → ∃ a : Bool, exec (.snBefore 0 p) s = .next (s.answer (put8 a.toNat)) ∧
        (a = true ↔ ∃ k, sn = (base + k) % 2 ^ w ∧ ∃ j, k < j ∧ j < 2 ^ w ∧ bound = (base + j) % 2 ^ w))) ∧
    (w ∉ [5, 10, 12, 16, 18] ∨ u8 p 1 ≠ 0 ∨ 2 ^ w ≤ base ∨ 2 ^ w ≤ sn →
      ∀ i ∈ [Instr.snInwin 0 p, .snInrange 0 p, .snRel 0 p, .snBefore 0 p], exec i s = .next (s.refused .badField)) ∧
    (2 ^ w < bound → exec (.snInwin 0 p) s = .next (s.refused .badField)) ∧
    (2 ^ w ≤ bound → exec (.snInrange 0 p) s = .next (s.refused .badField) ∧
      exec (.snBefore 0 p) s = .next (s.refused .badField)) ∧
    (bound ≠ 0 → exec (.snRel 0 p) s = .next (s.refused .badField))

/-- R130, R131: the laws of modular SN arithmetic. -/
def Obligations.SnArithmeticLaws : Prop :=
  (∀ w n : Nat, n = 2 ^ w →
    modN n (n - 1 + 1) = 0 ∧
    ∀ x b : Nat, x < n → b < n →
      rel n x b < n ∧ (rel n x b = 0 ↔ x = b) ∧
      (∀ k, k < n → rel n (modN n (b + k)) b = k) ∧
      (∀ win, inside n x b win = true ↔ ∃ k < win, x = modN n (b + k)) ∧
      inside n x b 0 = false ∧ inside n x b n = true ∧
      (∀ hi, hi < n → insideClosed n x b hi = inside n x b (rel n hi b + 1)) ∧
      before n x x b = false ∧ (x ≠ b → before n b x b = true) ∧
      (∀ y, y < n → x ≠ y → before n x y b = !before n y x b) ∧
      ∀ y z, y < n → z < n → before n x y b = true → before n y z b = true → before n x z b = true) ∧
    ∃ w x y b b' : Nat, x < 2 ^ w ∧ y < 2 ^ w ∧ b < 2 ^ w ∧ b' < 2 ^ w ∧ before (2 ^ w) x y b ≠ before (2 ^ w) x y b'

/-! ## Timers -/

/-- R363, R280: an expiry acts only when its slot is active, its timer runs and its tag is current; a kind above 2 is refused; a
current PROHIBIT expiry only clears its own bit. -/
def Obligations.ExpiryActsOnlyWhenCurrent : Prop :=
  ∀ (l : Lcid) (sub : Sub) (g : Imm) (s : State) (v : Slot), v = s.slot l →
    (3 ≤ sub.toNat → exec (.timerExpiry l sub g) s = .next (s.refused .badField)) ∧
    (∀ k, timerKindOf sub = some k → (v.active = false ∨ v.running.get k = false ∨ g ≠ (s.tags l).get k) →
      exec (.timerExpiry l sub g) s = .next (s.answer [])) ∧
    (v.active = true → v.running.prohibit = true →
      exec (.timerExpiry l 1 (s.tags l).prohibit) s =
        .next (s.after l { v with running := { v.running with prohibit := false } } (s.tags l) [] []))

/-- R320: a current AM reordering expiry triggers a status, moves nothing, and starts the timer again against VR_H exactly when
some SN of `[VR_X, VR_H)` is not completely received. -/
def Obligations.AmReorderingExpiryTriggersStatus : Prop :=
  ∀ (l : Lcid) (s : State) (v : Slot), v = s.slot l → v.active = true → v.cfg.mode = .am → v.Inv →
    v.running.reord = true →
    ((∃ j < rel v.n v.vrH v.vrX, v.rxComplete ((v.vrX + j) % v.n) = false) →
      exec (.timerExpiry l 0 (s.tags l).reord) s =
        .next (s.after l { v with vrX := v.vrH, statusTriggered := true }
          { s.tags l with reord := (s.tags l).reord + 1 } []
          [.timerStart l .reord ((s.tags l).reord + 1) v.cfg.tReorderingMs])) ∧
    ((∀ j < rel v.n v.vrH v.vrX, v.rxComplete ((v.vrX + j) % v.n) = true) →
      exec (.timerExpiry l 0 (s.tags l).reord) s =
        .next (s.after l
          { v with statusTriggered := true, running := { v.running with reord := false } } (s.tags l) [] []))

/-- R279: a current poll-retransmit expiry asks for a poll, and when nothing else can be sent marks the whole PDU of the highest SN
not dead for retransmission. -/
def Obligations.PollExpiryRetransmitsTheHighestSn : Prop :=
  ∀ (l : Lcid) (s : State) (v : Slot) (idle : Prop), v = s.slot l → v.active = true → v.cfg.mode = .am → v.Inv →
    v.Shapes s.params → v.running.pollretx = true →
    idle = (v.vtS ≠ v.vtA ∧
      ((v.txq = [] ∧ ∀ e ∈ v.rb, e.2.pending = []) ∨ v.amW ≤ rel v.n v.vtS v.vtA)) →
    (¬ idle ∨ (∀ e ∈ v.rb, e.2.dead = true) →
      exec (.timerExpiry l 2 (s.tags l).pollretx) s =
        .next (s.after l
          { v with pollPending := true, running := { v.running with pollretx := false } } (s.tags l) [] [])) ∧
    ∀ sn e, idle → mapGet sn v.rb = some e → e.dead = false →
      (∀ k ∈ v.rb, k.2.dead = false → rel v.n k.1 v.vtA ≤ rel v.n sn v.vtA) →
      ∃ e' evs, exec (.timerExpiry l 2 (s.tags l).pollretx) s =
          .next (s.after l
            { v with
              pollPending := true
              rb := mapPut sn e' v.rb
              running := { v.running with pollretx := false } } (s.tags l) [] evs) ∧
        (e.pending ≠ [] → evs = [] ∧ e' = { e with pending := [(0, e.data.length)] }) ∧
        (e.pending = [] → e.retxCount.toNat + 1 ≤ v.cfg.maxRetxThreshold.toNat → evs = [] ∧
          e' = { e with retxCount := e.retxCount + 1, pending := [(0, e.data.length)] }) ∧
        (e.pending = [] → v.cfg.maxRetxThreshold.toNat < e.retxCount.toNat + 1 →
          evs = [.notifyMaxRetx l sn] ∧ e' = { e with dead := true })

/-- R30, R361, R362: whatever command runs, a bearer's shadow bit is 1 exactly when its last request to the host was a start, no
accepted expiry having come between; and its starts carry consecutive tags, the last of which is the tag held. -/
def Obligations.TimerBitsFollowTheRequests : Prop :=
  ∀ (i : Instr) (s t : State) (r : Response) (l : Lcid) (k : TimerKind), exec i s = .next t →
    t.responses = s.responses ++ [r] →
    startTags l k r.events =
      (List.range (startTags l k r.events).length).map (fun m => (s.tags l).get k + 1 + BitVec.ofNat 16 m) ∧
    (t.tags l).get k = (s.tags l).get k + BitVec.ofNat 16 (startTags l k r.events).length ∧
    ((s.slot l).active = true → (t.slot l).active = true →
      ((∀ sub, timerKindOf sub = some k → i ≠ .timerExpiry l sub ((s.tags l).get k)) →
        (t.slot l).running.get k = timerAfter l k ((s.slot l).running.get k) r.events) ∧
      (∀ sub, timerKindOf sub = some k → i = .timerExpiry l sub ((s.tags l).get k) →
        (t.slot l).running.get k = timerAfter l k false r.events))

/-- R322: the status trigger of an active bearer is set only by a reordering expiry or a received poll, and cleared only by sending
a status, by REESTABLISH or by CONFIGURE. -/
def Obligations.StatusTriggerHasItsCauses : Prop :=
  ∀ (i : Instr) (s t : State) (r : Response) (l : Lcid), exec i s = .next t → t.responses = s.responses ++ [r] →
    (s.slot l).active = true → (t.slot l).active = true →
    ((s.slot l).statusTriggered = false → (t.slot l).statusTriggered = true →
      i = .timerExpiry l 0 (s.tags l).reord ∨
        ∃ pdu h n, i = .writePdu l 0 pdu ∧ unpackHdr s.params .amd (s.slot l).cfg.liw pdu = some (h, n) ∧ h.p = true) ∧
    ((s.slot l).statusTriggered = true → (t.slot l).statusTriggered = false →
      (∃ b, i = .readPdu l 0 b ∧ r.result = packStatus (buildStatus s.params (s.slot l) b.toNat)) ∨ i = .reestablish l 0 0 ∨
        ∃ p c, i = .configure l 0 p ∧ acceptCfg p = some c ∧ structuralChange (s.slot l).cfg c = true)

/-! ## Invariants of the machine -/

/-- R380 with R36, R11 and R23 to R29: the state after reset meets both invariants, whatever the parameters. The model's choice
(log 7): `State.reset` takes the values that R6 gives as defaults, and they fit the fields that carry them. -/
def Obligations.ResetMeetsTheInvariants : Prop :=
  (∀ pm : Params, (State.resetOf pm).Inv ∧ (State.resetOf pm).Shapes) ∧
    State.reset = State.resetOf ⟨128, 512, 128, 8192⟩ ∧ State.reset.params.Legal

/-- R36, R22, R34, R11: every step keeps the invariant of the SN variables, windows, buffers and timers. -/
def Obligations.EveryStepKeepsInv : Prop :=
  ∀ s t : State, s.Inv → step s = .next t → t.Inv

/-- R23, R26, R28, R29: every step keeps the shapes of the queue, the buffers and the reassembly buffer. -/
def Obligations.EveryStepKeepsShapes : Prop :=
  ∀ s t : State, s.Shapes → step s = .next t → t.Shapes

/-- R74, R389: a command touches only the slot its LCID names, and commands on different slots commute: run in either order
they give the same bearers and the same two responses. -/
def Obligations.CommandsOnOtherBearersCommute : Prop :=
  ∀ (i j : Instr) (s : State), i.lcid ≠ j.lcid →
    ∃ a b t u ri rj, exec i s = .next a ∧ exec j a = .next t ∧ exec j s = .next b ∧ exec i b = .next u ∧
      (∀ l : Lcid, l ≠ i.lcid → a.slot l = s.slot l ∧ a.tags l = s.tags l) ∧ t.SameBearers u ∧
      t.responses = s.responses ++ [ri, rj] ∧ u.responses = s.responses ++ [rj, ri]

/-- R21, R391: what the unspecified fields of inactive slots hold can never be observed: two states that differ in nothing
else step to two such states. -/
def Obligations.InactiveContentsAreUnobservable : Prop :=
  ∀ s s' t : State, s.Indistinguishable s' → step s = .next t → ∃ t', step s' = .next t' ∧ t.Indistinguishable t'

/-- R102, R104, R350, R360: the bytes of a response and of each event, field by field, with the numbers of the codes, events, timer
kinds and drop reasons; and a response whose lengths fit their fields can be read back from its bytes. -/
def Obligations.ResponseBytesAreUnambiguous : Prop :=
  (∀ c ∈ [(Code.ok, (0 : Byte)), (.invalidOpcode, 1), (.badField, 2), (.noBearer, 3), (.bearerExists, 4), (.configRejected, 5),
      (.queueFull, 6), (.malformedHeader, 7), (.malformedStatus, 8), (.sduSize, 9)],
    ∀ (b : Bytes) (evs : List Event), b.length < 65536 → evs.length < 65536 →
      (⟨c.1, b, evs⟩ : Response).bytes =
        [c.2, BitVec.ofNat 8 (b.length / 256), BitVec.ofNat 8 (b.length % 256)] ++ b ++
          [BitVec.ofNat 8 (evs.length / 256), BitVec.ofNat 8 (evs.length % 256)] ++ evs.flatMap Event.bytes) ∧
  (∀ (l : Lcid) (b : Bytes), b.length < 65536 →
    (Event.deliverSdu l b).bytes =
      [1, l.setWidth 8, BitVec.ofNat 8 (b.length / 256), BitVec.ofNat 8 (b.length % 256)] ++ b) ∧
  (∀ (l : Lcid) (sn : Nat), sn < 65536 →
    (Event.notifyMaxRetx l sn).bytes = [2, l.setWidth 8, BitVec.ofNat 8 (sn / 256), BitVec.ofNat 8 (sn % 256)]) ∧
  (∀ k ∈ [(TimerKind.reord, (0 : Byte)), (.prohibit, 1), (.pollretx, 2)], ∀ (l : Lcid) (g ms : BitVec 16),
    (Event.timerStart l k.1 g ms).bytes =
      [3, l.setWidth 8, k.2, g.extractLsb' 8 8, g.extractLsb' 0 8, ms.extractLsb' 8 8, ms.extractLsb' 0 8] ∧
    (Event.timerStop l k.1 g).bytes = [4, l.setWidth 8, k.2, g.extractLsb' 8 8, g.extractLsb' 0 8]) ∧
  (∀ c ∈ [(DropReason.malformedHeader, (1 : Byte)), (.malformedStatusPdu, 2)], ∀ l : Lcid,
    (Event.drop l c.1).bytes = [5, l.setWidth 8, c.2]) ∧
  ∀ (r r' : Response) (x y : Bytes), r.Fits → r'.Fits → r.bytes ++ x = r'.bytes ++ y → r = r' ∧ x = y
end

