-- ==== Sys2Proof/Laws/Bits.lean ====
section
/-! SUPPORT. Reading and writing wire bits and command integers (00_scope.md R9). -/

namespace Sys2Proof.Machine

/-! ## One bit -/

theorem getLsbD_putBit (b : Byte) {i j : Nat} (v : Bool) (hi : i < 8) (hj : j < 8) :
    (putBit b i v).getLsbD j = if j = i then v else b.getLsbD j := by
  unfold putBit
  cases v
  · simp only [Bool.false_eq_true, if_false, BitVec.getLsbD_and, BitVec.getLsbD_not, BitVec.getLsbD_twoPow]
    by_cases h : j = i
    · simp [h, hi]
    · simp [h, Ne.symm h, hj]
  · simp only [if_true, BitVec.getLsbD_or, BitVec.getLsbD_twoPow]
    by_cases h : j = i
    · simp [h, hi]
    · simp [h, Ne.symm h]

@[simp] theorem length_setWireBit (buf : Bytes) (p : Nat) (v : Bool) : (setWireBit buf p v).length = buf.length := by
  simp [setWireBit]

/-- Writing one wire bit changes that bit alone. -/
theorem wireBit_setWireBit (buf : Bytes) {p : Nat} (v : Bool) (hp : p < 8 * buf.length) (q : Nat) :
    wireBit (setWireBit buf p v) q = if q = p then v else wireBit buf q := by
  have hb : p / 8 < buf.length := by omega
  unfold wireBit setWireBit
  rw [List.getD_eq_getElem?_getD, List.getD_eq_getElem?_getD, List.getElem?_modify]
  by_cases he : p / 8 = q / 8
  · have hq : q / 8 < buf.length := by omega
    simp only [if_pos he, List.getElem?_eq_getElem hq, Option.map_eq_map, Option.map_some, Option.getD_some]
    rw [getLsbD_putBit _ v (by omega) (by omega)]
    by_cases h : q = p
    · simp [h]
    · rw [if_neg h, if_neg (by omega)]
  · rw [if_neg (show ¬ q = p by rintro rfl; exact he rfl)]
    simp [he]

@[simp] theorem wireBit_nil (q : Nat) : wireBit [] q = false := by simp [wireBit]

/-- The wire bits of two strings joined. -/
theorem wireBit_append (a b : Bytes) (q : Nat) :
    wireBit (a ++ b) q = if q < 8 * a.length then wireBit a q else wireBit b (q - 8 * a.length) := by
  unfold wireBit
  by_cases h : q < 8 * a.length
  · rw [if_pos h, List.getD_append _ _ _ _ (by omega)]
  · rw [if_neg h, List.getD_append_right _ _ _ _ (by omega)]
    rw [show (q - 8 * a.length) / 8 = q / 8 - a.length by omega, show (q - 8 * a.length) % 8 = q % 8 by omega]

/-- A string of zero bytes has no wire bit set. -/
@[simp] theorem wireBit_replicate_zero (n q : Nat) : wireBit (List.replicate n (0 : Byte)) q = false := by
  unfold wireBit
  rw [List.getD_eq_getElem?_getD, List.getElem?_replicate]
  split <;> simp

/-- A wire bit past the end reads 0. -/
theorem wireBit_of_le {buf : Bytes} {q : Nat} (h : 8 * buf.length ≤ q) : wireBit buf q = false := by
  unfold wireBit
  rw [List.getD_eq_default _ _ (by omega)]; simp

/-- Byte strings of one length with the same wire bits are equal. -/
theorem eq_of_wireBit {a b : Bytes} (hl : a.length = b.length) (h : ∀ q < 8 * a.length, wireBit a q = wireBit b q) :
    a = b := by
  apply List.ext_getElem hl
  intro i h1 h2
  apply BitVec.eq_of_getLsbD_eq
  intro j hj
  have := h (8 * i + (7 - j)) (by omega)
  unfold wireBit at this
  rw [show (8 * i + (7 - j)) / 8 = i by omega, show 7 - (8 * i + (7 - j)) % 8 = j by omega] at this
  simpa [List.getD_eq_getElem?_getD, h1, h2] using this

/-! ## Fields -/

@[simp] theorem length_wr (buf : Bytes) (p : Nat) : ∀ (n v : Nat), (wr buf p n v).length = buf.length
  | 0, _ => rfl
  | n + 1, v => by rw [wr, length_setWireBit, length_wr buf p n]

/-- Writing a field sets its bits, the most significant first, and no other. -/
theorem wireBit_wr (buf : Bytes) (p : Nat) : ∀ {n : Nat} (v : Nat), p + n ≤ 8 * buf.length → ∀ q,
    wireBit (wr buf p n v) q = if p ≤ q ∧ q < p + n then v.testBit (p + n - 1 - q) else wireBit buf q
  | 0, v, _, q => by rw [wr, if_neg (by omega)]
  | n + 1, v, h, q => by
    rw [wr, wireBit_setWireBit _ _ (by rw [length_wr]; omega), wireBit_wr buf p (v / 2) (by omega)]
    by_cases h1 : q = p + n
    · rw [if_pos h1, if_pos (by omega), show p + (n + 1) - 1 - q = 0 by omega, Nat.testBit_zero]
      rcases Nat.mod_two_eq_zero_or_one v with e | e <;> simp [e]
    · rw [if_neg h1]
      by_cases h2 : p ≤ q ∧ q < p + n
      · rw [if_pos h2, if_pos (by omega), Nat.testBit_div_two]
        congr 1; omega
      · rw [if_neg h2, if_neg (by omega)]

theorem rd_lt (buf : Bytes) (p : Nat) : ∀ n, rd buf p n < 2 ^ n
  | 0 => by simp [rd]
  | n + 1 => by
    have := rd_lt buf p n
    rw [rd, Nat.pow_succ]
    cases wireBit buf (p + n) <;> simp <;> omega

/-- The bits of a field read, by place value. -/
theorem testBit_rd (buf : Bytes) (p : Nat) : ∀ {n i : Nat}, i < n → (rd buf p n).testBit i = wireBit buf (p + n - 1 - i)
  | n + 1, 0, _ => by
    rw [rd, Nat.testBit_zero, show p + (n + 1) - 1 - 0 = p + n by omega]
    cases wireBit buf (p + n) <;> simp
  | n + 1, i + 1, h => by
    rw [Nat.testBit_succ, rd]
    have : (2 * rd buf p n + (wireBit buf (p + n)).toNat) / 2 = rd buf p n := by
      cases wireBit buf (p + n)
      · simp
      · simp; omega
    rw [this, testBit_rd buf p (by omega)]
    congr 1; omega

/-- A field's value depends on its own bits alone. -/
theorem rd_congr {a b : Bytes} {p : Nat} : ∀ {n : Nat}, (∀ q, p ≤ q → q < p + n → wireBit a q = wireBit b q) →
    rd a p n = rd b p n
  | 0, _ => rfl
  | n + 1, h => by
    rw [rd, rd, rd_congr fun q h1 h2 => h q h1 (by omega), h (p + n) (by omega) (by omega)]

/-- A field read after it is written gives the value written. -/
theorem rd_wr_same (buf : Bytes) (p : Nat) {n v : Nat} (h : p + n ≤ 8 * buf.length) (hv : v < 2 ^ n) :
    rd (wr buf p n v) p n = v := by
  apply Nat.eq_of_testBit_eq
  intro i
  by_cases hi : i < n
  · rw [testBit_rd _ _ hi, wireBit_wr _ _ _ h, if_pos (by omega)]
    congr 1; omega
  · rw [Nat.testBit_lt_two_pow (Nat.lt_of_lt_of_le (rd_lt _ _ _) (Nat.pow_le_pow_right (by omega) (by omega))),
      Nat.testBit_lt_two_pow (Nat.lt_of_lt_of_le hv (Nat.pow_le_pow_right (by omega) (by omega)))]

/-- A field read is not changed by a write beside it. -/
theorem rd_wr_other (buf : Bytes) {p q m n : Nat} (v : Nat) (h : p + n ≤ 8 * buf.length) (hd : q + m ≤ p ∨ p + n ≤ q) :
    rd (wr buf p n v) q m = rd buf q m :=
  rd_congr fun x h1 h2 => by rw [wireBit_wr _ _ _ h, if_neg (by omega)]

/-- A one-bit field is its wire bit. -/
theorem rd_one (buf : Bytes) (p : Nat) : rd buf p 1 = (wireBit buf p).toNat := by simp [rd]

/-- Writing the bits that a string holds already changes nothing. -/
theorem wr_rd (buf : Bytes) (p n : Nat) (h : p + n ≤ 8 * buf.length) : wr buf p n (rd buf p n) = buf := by
  apply eq_of_wireBit (by simp)
  intro q _
  rw [wireBit_wr _ _ _ h]
  split
  · rw [testBit_rd _ _ (by omega)]; congr 1; omega
  · rfl

/-! ## Command integers -/

@[simp] theorem length_put8 (n : Nat) : (put8 n).length = 1 := rfl
@[simp] theorem length_put16 (n : Nat) : (put16 n).length = 2 := rfl
@[simp] theorem length_put32 (n : Nat) : (put32 n).length = 4 := rfl

/-- A big-endian u16 reads back modulo 2^16. -/
theorem u16be_put16 (n : Nat) (rest : Bytes) : u16be (put16 n ++ rest) 0 = n % 65536 := by
  simp [u16be, u8, put16]; omega

/-- A big-endian u32 reads back modulo 2^32. -/
theorem u32be_put32 (n : Nat) (rest : Bytes) : u32be (put32 n ++ rest) 0 = n % 4294967296 := by
  simp [u32be, u8, put32]; omega

theorem u8_put8 (n : Nat) (rest : Bytes) : u8 (put8 n ++ rest) 0 = n % 256 := by simp [u8, put8]

/-- A byte read past a prefix. -/
theorem u8_append_right (a b : Bytes) (i : Nat) : u8 (a ++ b) (a.length + i) = u8 b i := by
  unfold u8
  rw [List.getD_append_right _ _ _ _ (by omega), Nat.add_sub_cancel_left]

theorem u16be_append_right (a b : Bytes) (i : Nat) : u16be (a ++ b) (a.length + i) = u16be b i := by
  simp only [u16be, Nat.add_assoc, u8_append_right]

theorem u32be_append_right (a b : Bytes) (i : Nat) : u32be (a ++ b) (a.length + i) = u32be b i := by
  simp only [u32be, Nat.add_assoc, u8_append_right]

theorem u8_lt (b : Bytes) (i : Nat) : u8 b i < 256 := (b.getD i 0).isLt
theorem u16be_lt (b : Bytes) (i : Nat) : u16be b i < 65536 := by
  have := u8_lt b i; have := u8_lt b (i + 1); unfold u16be; omega
theorem u32be_lt (b : Bytes) (i : Nat) : u32be b i < 4294967296 := by
  have := u8_lt b i; have := u8_lt b (i + 1); have := u8_lt b (i + 2); have := u8_lt b (i + 3); unfold u32be; omega

end Sys2Proof.Machine
end

