-- ==== Sys2Proof/Laws/Codec.lean ====
section
/-! SUPPORT. Lengths of what the codec packs, boundaries and LIs, and the elements of a data field (41_codec.md R150 to
R153). -/

namespace Sys2Proof.Machine

/-! ## Lengths -/

@[simp] theorem length_packLis (liw : LiWidth) : ∀ (pos : Nat) (lis : List Nat) (buf : Bytes),
    (packLis liw pos lis buf).length = buf.length
  | _, [], _ => rfl
  | pos, li :: rest, buf => by rw [packLis, length_packLis liw _ rest]; simp

@[simp] theorem length_packFixed (fmt : Fmt) (h : Hdr) (buf : Bytes) : (packFixed fmt h buf).length = buf.length := by
  cases fmt
  · simp [packFixed]
  · simp [packFixed]
  · simp only [packFixed]; split <;> simp

/-- The length of a packed header, R89. -/
@[simp] theorem length_packHdr (fmt : Fmt) (liw : LiWidth) (h : Hdr) :
    (packHdr fmt liw h).length = fixedLen fmt h.rf + liBytes liw h.lis.length := by
  simp [packHdr]

@[simp] theorem length_packNacks : ∀ (pos : Nat) (ks : List Nack) (buf : Bytes),
    (packNacks pos ks buf).length = buf.length
  | _, [], _ => rfl
  | pos, k :: rest, buf => by
    rw [packNacks]
    split
    · rw [length_packNacks _ rest]; simp
    · rw [length_packNacks _ rest]; simp

/-- The length of a packed status, R91. -/
@[simp] theorem length_packStatus (s : Status) : (packStatus s).length = statusLen s.nacks := by simp [packStatus]

theorem fixedLen_pos (fmt : Fmt) (rf : Bool) : 1 ≤ fixedLen fmt rf := by cases fmt <;> cases rf <;> decide

/-- `li_bytes` grows with the number of LIs. -/
theorem liBytes_mono (liw : LiWidth) {j k : Nat} (h : j ≤ k) : liBytes liw j ≤ liBytes liw k := by
  cases liw <;> simp only [liBytes] <;> omega

/-- The extension part and its padding fill whole octets, R84 and R85. -/
theorem liBytes_bits (liw : LiWidth) (k : Nat) :
    8 * liBytes liw k = k * (1 + liw.bits) + if liw = .w11 ∧ k % 2 = 1 then 4 else 0 := by
  cases liw
  · simp only [liBytes, LiWidth.bits, true_and]
    split <;> omega
  · simp [liBytes, LiWidth.bits]; omega

/-! ## Writing the LI chain -/

/-- The chain leaves every bit before its start as it was. -/
theorem wireBit_packLis_lt (liw : LiWidth) : ∀ {pos : Nat} {lis : List Nat} {buf : Bytes},
    pos + lis.length * (1 + liw.bits) ≤ 8 * buf.length → ∀ q < pos, wireBit (packLis liw pos lis buf) q = wireBit buf q
  | _, [], _, _, _, _ => rfl
  | pos, li :: rest, buf, h, q, hq => by
    simp only [List.length_cons, Nat.add_mul, Nat.one_mul] at h
    rw [packLis, wireBit_packLis_lt liw (by rw [length_wr, length_wr]; omega) q (by omega)]
    rw [wireBit_wr _ _ _ (by rw [length_wr]; omega), if_neg (by omega), wireBit_wr _ _ _ (by omega), if_neg (by omega)]

/-! ## Boundaries and LIs, R152 -/

@[simp] theorem length_boundsFrom : ∀ (b : Nat) (lis : List Nat), (boundsFrom b lis).length = lis.length
  | _, [] => rfl
  | b, li :: lis => by simp [boundsFrom, length_boundsFrom]

@[simp] theorem length_boundsOf (lis : List Nat) : (boundsOf lis).length = lis.length := length_boundsFrom 0 lis

@[simp] theorem length_lisFrom : ∀ (p : Nat) (bs : List Nat), (lisFrom p bs).length = bs.length
  | _, [] => rfl
  | p, b :: bs => by simp [lisFrom, length_lisFrom]

@[simp] theorem length_lisOf (bs : List Nat) : (lisOf bs).length = bs.length := length_lisFrom 0 bs

theorem lisFrom_boundsFrom : ∀ (b : Nat) (lis : List Nat), lisFrom b (boundsFrom b lis) = lis
  | _, [] => rfl
  | b, li :: lis => by rw [boundsFrom, lisFrom, lisFrom_boundsFrom]; simp

/-- The LIs of the boundaries of LIs are those LIs. -/
@[simp] theorem lisOf_boundsOf (lis : List Nat) : lisOf (boundsOf lis) = lis := lisFrom_boundsFrom 0 lis

theorem boundsFrom_lisFrom : ∀ {p : Nat} {bs : List Nat}, (∀ b ∈ bs, p ≤ b) → bs.Pairwise (· < ·) →
    boundsFrom p (lisFrom p bs) = bs
  | _, [], _, _ => rfl
  | p, b :: bs, h, hp => by
    rw [List.pairwise_cons] at hp
    have hb := h b (by simp)
    rw [lisFrom, boundsFrom, show p + (b - p) = b by omega,
      boundsFrom_lisFrom (fun c hc => Nat.le_of_lt (hp.1 c hc)) hp.2]

/-- The boundaries of the LIs of rising boundaries are those boundaries. -/
theorem boundsOf_lisOf {bs : List Nat} (hp : bs.Pairwise (· < ·)) : boundsOf (lisOf bs) = bs :=
  boundsFrom_lisFrom (fun _ _ => Nat.zero_le _) hp

theorem mem_boundsFrom : ∀ {p b : Nat} {lis : List Nat}, (∀ li ∈ lis, 1 ≤ li) → b ∈ boundsFrom p lis →
    p < b ∧ b ≤ p + lis.sum
  | p, b, li :: lis, h, hb => by
    have hli := h li (by simp)
    rcases List.mem_cons.mp hb with rfl | hb
    · simp; omega
    · have := mem_boundsFrom (fun x hx => h x (by simp [hx])) hb
      simp; omega

/-- The boundaries of positive LIs rise. -/
theorem pairwise_boundsFrom : ∀ {p : Nat} {lis : List Nat}, (∀ li ∈ lis, 1 ≤ li) → (boundsFrom p lis).Pairwise (· < ·)
  | _, [], _ => List.Pairwise.nil
  | p, li :: lis, h => by
    have ht : ∀ x ∈ lis, 1 ≤ x := fun x hx => h x (by simp [hx])
    rw [boundsFrom, List.pairwise_cons]
    exact ⟨fun b hb => (mem_boundsFrom ht hb).1, pairwise_boundsFrom ht⟩

/-! ## Elements -/

/-- The elements of a data field, joined, are the data field. -/
theorem flatten_splitFrom : ∀ (p : Nat) (d : Bytes) (bs : List Nat), (splitFrom p d bs).flatten = d
  | _, d, [] => by simp [splitFrom]
  | p, d, b :: bs => by rw [splitFrom, List.flatten_cons, flatten_splitFrom b _ bs, List.take_append_drop]

@[simp] theorem flatten_splitData (d : Bytes) (bs : List Nat) : (splitData d bs).flatten = d := flatten_splitFrom 0 d bs

@[simp] theorem length_splitFrom : ∀ (p : Nat) (d : Bytes) (bs : List Nat), (splitFrom p d bs).length = bs.length + 1
  | _, _, [] => rfl
  | p, d, b :: bs => by rw [splitFrom, List.length_cons, length_splitFrom b _ bs, List.length_cons]

/-- Splitting the joined elements at the boundaries of their lengths gives the elements back. -/
theorem splitFrom_flatten : ∀ (p : Nat) (es : List Bytes) (e : Bytes),
    splitFrom p ((es ++ [e]).flatten) (boundsFrom p (es.map List.length)) = es ++ [e]
  | _, [], e => by simp [boundsFrom, splitFrom]
  | p, x :: es, e => by
    have h : p + x.length - p = x.length := by omega
    simp only [List.map_cons, boundsFrom, splitFrom, List.cons_append, List.flatten_cons, h, List.take_left', List.drop_left']
    rw [splitFrom_flatten]

end Sys2Proof.Machine
end

