-- ==== Sys2Proof/Laws/Decode.lean ====
section
/-! SUPPORT. The fields of a header word read back (30_encoding.md R100, R101). -/

namespace Sys2Proof

@[simp] theorem hdrOpc_mkHeader (o : BitVec 6) (l : Lcid) (k : Sub) (m : Imm) : hdrOpc (mkHeader o l k m) = o := by
  apply BitVec.eq_of_getLsbD_eq
  intro i hi
  simp only [hdrOpc, mkHeader, BitVec.getLsbD_extractLsb', BitVec.getLsbD_append]
  have h1 : ¬ 26 + i < 16 := by omega
  have h2 : ¬ 26 + i - 16 < 5 := by omega
  have h3 : ¬ 26 + i - 16 - 5 < 5 := by omega
  simp [hi, h1, h2, h3, show 26 + i - 16 - 5 - 5 = i by omega]

@[simp] theorem hdrLcid_mkHeader (o : BitVec 6) (l : Lcid) (k : Sub) (m : Imm) : hdrLcid (mkHeader o l k m) = l := by
  apply BitVec.eq_of_getLsbD_eq
  intro i hi
  simp only [hdrLcid, mkHeader, BitVec.getLsbD_extractLsb', BitVec.getLsbD_append]
  have h1 : ¬ 21 + i < 16 := by omega
  have h2 : ¬ 21 + i - 16 < 5 := by omega
  have h3 : 21 + i - 16 - 5 < 5 := by omega
  simp [hi, h1, h2, show 21 + i - 16 - 5 = i by omega]

@[simp] theorem hdrSub_mkHeader (o : BitVec 6) (l : Lcid) (k : Sub) (m : Imm) : hdrSub (mkHeader o l k m) = k := by
  apply BitVec.eq_of_getLsbD_eq
  intro i hi
  simp only [hdrSub, mkHeader, BitVec.getLsbD_extractLsb', BitVec.getLsbD_append]
  have h1 : ¬ 16 + i < 16 := by omega
  have h2 : 16 + i - 16 < 5 := by omega
  simp [hi, h1, show 16 + i - 16 = i by omega]

@[simp] theorem hdrImm_mkHeader (o : BitVec 6) (l : Lcid) (k : Sub) (m : Imm) : hdrImm (mkHeader o l k m) = m := by
  apply BitVec.eq_of_getLsbD_eq
  intro i hi
  simp only [hdrImm, mkHeader, BitVec.getLsbD_extractLsb', BitVec.getLsbD_append]
  simp [hi]

/-- A command whose opcode carries no payload announces none. -/
theorem plen_mkHeader_none (o : BitVec 6) (l : Lcid) (k : Sub) (m : Imm) (h : opcHasPayload o.toNat = false) :
    plen (mkHeader o l k m) = 0 := by
  simp [plen, h]

/-- A command whose opcode carries a payload announces its length. -/
theorem plen_mkHeader_payload (o : BitVec 6) (l : Lcid) (k : Sub) (p : Bytes) (h : opcHasPayload o.toNat = true)
    (hp : p.length < 65536) : plen (mkHeader o l k (BitVec.ofNat 16 p.length)) = p.length := by
  simp [plen, h, Nat.mod_eq_of_lt hp]

/-- Four bytes make a header word whose bytes they are (R64). -/
theorem headerBytes_join (h : Header) :
    h.extractLsb' 24 8 ++ h.extractLsb' 16 8 ++ h.extractLsb' 8 8 ++ h.extractLsb' 0 8 = h := by
  apply BitVec.eq_of_getLsbD_eq
  intro i hi
  simp only [BitVec.getLsbD_append, BitVec.getLsbD_extractLsb']
  by_cases h1 : i < 8
  · simp [h1]
  · by_cases h2 : i - 8 < 8
    · simp [h1, h2, show 8 + (i - 8) = i by omega]
    · by_cases h3 : i - 8 - 8 < 8
      · simp [h1, h2, h3, show 16 + (i - 8 - 8) = i by omega]
      · simp [h1, h2, h3, show i - 8 - 8 - 8 < 8 by omega, show 24 + (i - 8 - 8 - 8) = i by omega]

end Sys2Proof
end

