-- ==== Sys2Proof/Laws/Maps.lean ====
section
/-! SUPPORT. The buffers: SN-keyed maps. Every operation keeps the canonical form (log 17). -/

namespace Sys2Proof.Machine

variable {α : Type}

@[simp] theorem mapGet_nil (k : Nat) : mapGet k ([] : SnMap α) = none := rfl

/-- The canonical form, without the Bool. -/
theorem mapWf_iff {m : SnMap α} : mapWf m = true ↔ (mapKeys m).Pairwise (· < ·) := decide_eq_true_iff

theorem mapWf_nil : mapWf ([] : SnMap α) = true := rfl

theorem mapWf_cons {k : Nat} {a : α} {m : SnMap α} :
    mapWf ((k, a) :: m) = true ↔ (∀ j ∈ mapKeys m, k < j) ∧ mapWf m = true := by
  simp only [mapWf_iff, mapKeys, List.map_cons, List.pairwise_cons]

/-- `k` is a key exactly when it has an entry. -/
theorem mem_mapKeys {k : Nat} : ∀ {m : SnMap α}, k ∈ mapKeys m ↔ ∃ a, mapGet k m = some a
  | [] => by simp [mapKeys]
  | (j, b) :: m => by
    have ih := mem_mapKeys (k := k) (m := m)
    rw [mapKeys] at *
    by_cases h : j = k
    · simp [mapGet, h]
    · simp [mapGet, h, ih, Ne.symm h]

theorem mapHas_iff {k : Nat} {m : SnMap α} : mapHas k m = true ↔ k ∈ mapKeys m := by
  rw [mem_mapKeys, mapHas, Option.isSome_iff_exists]

theorem mapGet_eq_none {k : Nat} {m : SnMap α} : mapGet k m = none ↔ k ∉ mapKeys m := by
  rw [mem_mapKeys]; cases mapGet k m <;> simp

/-- An entry of the list is what reading its key gives. -/
theorem mapGet_of_mem {k : Nat} {a : α} : ∀ {m : SnMap α}, mapWf m = true → (k, a) ∈ m → mapGet k m = some a
  | (j, b) :: m, hw, h => by
    rw [mapWf_cons] at hw
    rcases List.mem_cons.mp h with h | h
    · cases h; simp [mapGet]
    · have hj : j < k := hw.1 k (List.mem_map_of_mem (f := Prod.fst) h)
      simp [mapGet, Nat.ne_of_lt hj, mapGet_of_mem hw.2 h]

/-- What reading a key gives is an entry of the list. -/
theorem mem_of_mapGet {k : Nat} {a : α} : ∀ {m : SnMap α}, mapGet k m = some a → (k, a) ∈ m
  | (j, b) :: m, h => by
    by_cases e : j = k
    · simp [mapGet, e] at h; simp [e, h]
    · simp only [mapGet, e, if_false] at h
      exact List.mem_cons_of_mem _ (mem_of_mapGet h)

/-- Reading after a write: the new value at the key written, the old one elsewhere. -/
theorem mapGet_mapPut (k j : Nat) (a : α) : ∀ {m : SnMap α}, mapWf m = true →
    mapGet j (mapPut k a m) = if j = k then some a else mapGet j m
  | [], _ => by
    by_cases h : j = k
    · simp [mapPut, mapGet, h]
    · simp [mapPut, mapGet, h, Ne.symm h]
  | (i, b) :: m, hw => by
    rw [mapWf_cons] at hw
    have ih := mapGet_mapPut k j a hw.2
    unfold mapPut
    split
    · by_cases h : j = k
      · simp [mapGet, h]
      · simp [mapGet, h, Ne.symm h]
    · split
      · rename_i h1 h2
        subst h2
        by_cases h : j = k
        · simp [mapGet, h]
        · simp [mapGet, h, Ne.symm h]
      · rename_i h1 h2
        simp only [mapGet, ih]
        by_cases h : i = j
        · have : j ≠ k := by omega
          simp [h, this]
        · simp [h]

/-- The keys after a write. -/
theorem mem_mapKeys_mapPut {k j : Nat} {a : α} {m : SnMap α} (hw : mapWf m = true) :
    j ∈ mapKeys (mapPut k a m) ↔ j = k ∨ j ∈ mapKeys m := by
  rw [mem_mapKeys, mapGet_mapPut k j a hw]
  by_cases h : j = k
  · simp [h]
  · simp [h, mem_mapKeys]

/-- A write keeps the canonical form. -/
theorem mapWf_mapPut (k : Nat) (a : α) : ∀ {m : SnMap α}, mapWf m = true → mapWf (mapPut k a m) = true
  | [], _ => by simp [mapPut, mapWf, mapKeys]
  | (i, b) :: m, hw => by
    have hw' := mapWf_cons.mp hw
    unfold mapPut
    split
    · rename_i h
      refine mapWf_cons.mpr ⟨fun j hj => ?_, hw⟩
      rcases List.mem_cons.mp hj with rfl | hj
      · exact h
      · exact Nat.lt_trans h (hw'.1 j hj)
    · split
      · rename_i h1 h2
        subst h2
        exact mapWf_cons.mpr hw'
      · rename_i h1 h2
        refine mapWf_cons.mpr ⟨fun j hj => ?_, mapWf_mapPut k a hw'.2⟩
        rcases (mem_mapKeys_mapPut hw'.2).mp hj with rfl | hj
        · omega
        · exact hw'.1 j hj

/-- Reading after a removal. -/
theorem mapGet_mapDel (k j : Nat) : ∀ (m : SnMap α), mapGet j (mapDel k m) = if j = k then none else mapGet j m
  | [] => by simp [mapDel]
  | (i, b) :: m => by
    have ih := mapGet_mapDel k j m
    rw [mapDel] at *
    by_cases h : i = k
    · subst h
      simp only [List.filter_cons, bne_self_eq_false, Bool.false_eq_true, if_false, ih, mapGet]
      by_cases hj : j = i
      · simp [hj]
      · simp [hj, Ne.symm hj]
    · simp only [List.filter_cons, bne_iff_ne.mpr h, if_true, mapGet, ih]
      by_cases hj : i = j
      · subst hj; simp [h]
      · simp [hj]

theorem mem_mapKeys_mapDel {k j : Nat} {m : SnMap α} : j ∈ mapKeys (mapDel k m) ↔ j ≠ k ∧ j ∈ mapKeys m := by
  rw [mem_mapKeys, mapGet_mapDel]
  by_cases h : j = k
  · simp [h]
  · simp [h, mem_mapKeys]

/-- A removal keeps the canonical form. -/
theorem mapWf_mapDel (k : Nat) {m : SnMap α} (hw : mapWf m = true) : mapWf (mapDel k m) = true := by
  rw [mapWf_iff] at *
  exact hw.sublist ((List.filter_sublist).map _)

/-- Two maps in canonical form that read the same are the same list. -/
theorem mapWf_ext : ∀ {m q : SnMap α}, mapWf m = true → mapWf q = true → (∀ k, mapGet k m = mapGet k q) → m = q
  | [], [], _, _, _ => rfl
  | [], (j, b) :: q, _, _, h => by have := h j; simp [mapGet] at this
  | (i, a) :: m, [], _, _, h => by have := h i; simp [mapGet] at this
  | (i, a) :: m, (j, b) :: q, hm, hq, h => by
    have hm' := mapWf_cons.mp hm
    have hq' := mapWf_cons.mp hq
    have hij : i = j := by
      rcases Nat.lt_trichotomy i j with hlt | rfl | hlt
      · have h1 := h i
        simp only [mapGet, if_true] at h1
        rw [if_neg (by omega)] at h1
        have := hq'.1 i (mem_mapKeys.mpr ⟨a, h1.symm⟩)
        omega
      · rfl
      · have h1 := h j
        simp only [mapGet, if_true] at h1
        rw [if_neg (by omega)] at h1
        have := hm'.1 j (mem_mapKeys.mpr ⟨b, h1⟩)
        omega
    subst hij
    have hab : a = b := by have := h i; simpa [mapGet] using this
    subst hab
    rw [mapWf_ext hm'.2 hq'.2 fun k => ?_]
    have hk := h k
    simp only [mapGet] at hk
    by_cases e : i = k
    · subst e
      rw [mapGet_eq_none.mpr fun c => Nat.lt_irrefl _ (hm'.1 i c), mapGet_eq_none.mpr fun c => Nat.lt_irrefl _ (hq'.1 i c)]
    · simpa [e] using hk

/-- What `leastBy` answers: a member with the least measure, and nothing only for the empty list. -/
theorem leastBy_spec (f : Nat → Nat) : ∀ (ks : List Nat),
    (leastBy f ks = none ∧ ks = []) ∨ ∃ k ∈ ks, leastBy f ks = some k ∧ ∀ j ∈ ks, f k ≤ f j
  | [] => .inl ⟨rfl, rfl⟩
  | k :: ks => by
    right
    rcases leastBy_spec f ks with ⟨h, rfl⟩ | ⟨j, hj, h, hmin⟩
    · exact ⟨k, by simp, by simp [leastBy], by simp⟩
    · rw [leastBy, h]
      by_cases hlt : f j < f k
      · exact ⟨j, by simp [hj], by simp [hlt], fun i hi => by
          rcases List.mem_cons.mp hi with rfl | hi
          · omega
          · exact hmin i hi⟩
      · exact ⟨k, by simp, by simp [hlt], fun i hi => by
          rcases List.mem_cons.mp hi with rfl | hi
          · omega
          · have := hmin i hi; omega⟩

/-- What `greatestBy` answers. -/
theorem greatestBy_spec (f : Nat → Nat) : ∀ (ks : List Nat),
    (greatestBy f ks = none ∧ ks = []) ∨ ∃ k ∈ ks, greatestBy f ks = some k ∧ ∀ j ∈ ks, f j ≤ f k
  | [] => .inl ⟨rfl, rfl⟩
  | k :: ks => by
    right
    rcases greatestBy_spec f ks with ⟨h, rfl⟩ | ⟨j, hj, h, hmax⟩
    · exact ⟨k, by simp, by simp [greatestBy], by simp⟩
    · rw [greatestBy, h]
      by_cases hlt : f k < f j
      · exact ⟨j, by simp [hj], by simp [hlt], fun i hi => by
          rcases List.mem_cons.mp hi with rfl | hi
          · omega
          · exact hmax i hi⟩
      · exact ⟨k, by simp, by simp [hlt], fun i hi => by
          rcases List.mem_cons.mp hi with rfl | hi
          · omega
          · have := hmax i hi; omega⟩

end Sys2Proof.Machine
end

