-- ==== Sys2Proof/Laws/State.lean ====
section
/-! SUPPORT. What each update of the state and of a command's work leaves in each field. -/

namespace Sys2Proof.Machine

/-! ## Timers' records -/

@[simp] theorem PerTimer.get_set_same {α : Type} (t : PerTimer α) (k : TimerKind) (v : α) : (t.set k v).get k = v := by
  cases k <;> rfl

@[simp] theorem PerTimer.get_set_other {α : Type} (t : PerTimer α) {k j : TimerKind} (v : α) (h : j ≠ k) :
    (t.set k v).get j = t.get j := by
  cases k <;> cases j <;> first | rfl | exact absurd rfl h

@[simp] theorem PerTimer.set_get {α : Type} (t : PerTimer α) (k : TimerKind) : t.set k (t.get k) = t := by
  cases k <;> rfl

/-! ## Slots and tags of the state -/

@[simp] theorem slot_setSlot_same (s : State) (l : Lcid) (v : Slot) : (s.setSlot l v).slot l = v := by
  simp [State.slot, State.setSlot]

theorem slot_setSlot_other (s : State) {l j : Lcid} (v : Slot) (h : j ≠ l) : (s.setSlot l v).slot j = s.slot j := by
  have hn : l.toNat ≠ j.toNat := fun e => h (BitVec.eq_of_toNat_eq e.symm)
  simp [State.slot, State.setSlot, hn]

@[simp] theorem tags_setSlot (s : State) (l j : Lcid) (v : Slot) : (s.setSlot l v).tags j = s.tags j := rfl
@[simp] theorem input_setSlot (s : State) (l : Lcid) (v : Slot) : (s.setSlot l v).input = s.input := rfl
@[simp] theorem responses_setSlot (s : State) (l : Lcid) (v : Slot) : (s.setSlot l v).responses = s.responses := rfl
@[simp] theorem freeCount_setSlot (s : State) (l : Lcid) (v : Slot) : (s.setSlot l v).freeCount = s.freeCount := rfl
@[simp] theorem gen_setSlot (s : State) (l : Lcid) (v : Slot) : (s.setSlot l v).gen = s.gen := rfl
@[simp] theorem params_setSlot (s : State) (l : Lcid) (v : Slot) : (s.setSlot l v).params = s.params := rfl

@[simp] theorem tags_setTags_same (s : State) (l : Lcid) (g : PerTimer (BitVec 16)) : (s.setTags l g).tags l = g := by
  simp [State.tags, State.setTags]

theorem tags_setTags_other (s : State) {l j : Lcid} (g : PerTimer (BitVec 16)) (h : j ≠ l) :
    (s.setTags l g).tags j = s.tags j := by
  have hn : l.toNat ≠ j.toNat := fun e => h (BitVec.eq_of_toNat_eq e.symm)
  simp [State.tags, State.setTags, hn]

@[simp] theorem slot_setTags (s : State) (l j : Lcid) (g : PerTimer (BitVec 16)) : (s.setTags l g).slot j = s.slot j := rfl
@[simp] theorem input_setTags (s : State) (l : Lcid) (g : PerTimer (BitVec 16)) : (s.setTags l g).input = s.input := rfl
@[simp] theorem responses_setTags (s : State) (l : Lcid) (g : PerTimer (BitVec 16)) :
    (s.setTags l g).responses = s.responses := rfl
@[simp] theorem freeCount_setTags (s : State) (l : Lcid) (g : PerTimer (BitVec 16)) :
    (s.setTags l g).freeCount = s.freeCount := rfl
@[simp] theorem slots_setTags (s : State) (l : Lcid) (g : PerTimer (BitVec 16)) : (s.setTags l g).slots = s.slots := rfl
@[simp] theorem params_setTags (s : State) (l : Lcid) (g : PerTimer (BitVec 16)) : (s.setTags l g).params = s.params := rfl

/-- Writing a slot back changes nothing. -/
@[simp] theorem setSlot_self (s : State) (l : Lcid) : s.setSlot l (s.slot l) = s := by
  cases s; simp [State.slot, State.setSlot]

/-- Writing the tags back changes nothing. -/
@[simp] theorem setTags_self (s : State) (l : Lcid) : s.setTags l (s.tags l) = s := by
  cases s; simp [State.tags, State.setTags]

/-! ## Responses -/

@[simp] theorem slot_respond (s : State) (r : Response) (l : Lcid) : (s.respond r).slot l = s.slot l := rfl
@[simp] theorem tags_respond (s : State) (r : Response) (l : Lcid) : (s.respond r).tags l = s.tags l := rfl
@[simp] theorem input_respond (s : State) (r : Response) : (s.respond r).input = s.input := rfl
@[simp] theorem freeCount_respond (s : State) (r : Response) : (s.respond r).freeCount = s.freeCount := rfl
@[simp] theorem gen_respond (s : State) (r : Response) : (s.respond r).gen = s.gen := rfl
@[simp] theorem params_respond (s : State) (r : Response) : (s.respond r).params = s.params := rfl
@[simp] theorem responses_respond (s : State) (r : Response) : (s.respond r).responses = s.responses ++ [r] := rfl

@[simp] theorem slot_withInput (s : State) (b : Bytes) (l : Lcid) : ({ s with input := b } : State).slot l = s.slot l := rfl
@[simp] theorem tags_withInput (s : State) (b : Bytes) (l : Lcid) : ({ s with input := b } : State).tags l = s.tags l := rfl
@[simp] theorem slot_withFreeCount (s : State) (n : Nat) (l : Lcid) :
    ({ s with freeCount := n } : State).slot l = s.slot l := rfl
@[simp] theorem tags_withFreeCount (s : State) (n : Nat) (l : Lcid) :
    ({ s with freeCount := n } : State).tags l = s.tags l := rfl
@[simp] theorem params_withInput (s : State) (b : Bytes) : ({ s with input := b } : State).params = s.params := rfl
@[simp] theorem params_withFreeCount (s : State) (n : Nat) : ({ s with freeCount := n } : State).params = s.params := rfl

/-! ## Reset -/

@[simp] theorem params_resetOf (pm : Params) : (State.resetOf pm).params = pm := rfl
@[simp] theorem params_reset : State.reset.params = Config.defaultParams := rfl
@[simp] theorem input_resetOf (pm : Params) : (State.resetOf pm).input = [] := rfl
@[simp] theorem responses_resetOf (pm : Params) : (State.resetOf pm).responses = [] := rfl
@[simp] theorem slot_resetOf (pm : Params) (l : Lcid) : (State.resetOf pm).slot l = Slot.blank := by
  simp [State.slot, State.resetOf]
@[simp] theorem tags_resetOf (pm : Params) (l : Lcid) : (State.resetOf pm).tags l = ⟨0, 0, 0⟩ := by
  simp [State.tags, State.resetOf]

/-! ## The state after a command on one slot -/

section After

variable (s : State) (l : Lcid) (v : Slot) (g : PerTimer (BitVec 16)) (r : Bytes) (evs : List Event)

@[simp] theorem slot_after_same : (s.after l v g r evs).slot l = v := by simp [State.after]
@[simp] theorem tags_after_same : (s.after l v g r evs).tags l = g := by simp [State.after]
@[simp] theorem input_after : (s.after l v g r evs).input = s.input := rfl
@[simp] theorem freeCount_after : (s.after l v g r evs).freeCount = s.freeCount := rfl
@[simp] theorem params_after : (s.after l v g r evs).params = s.params := rfl
@[simp] theorem responses_after : (s.after l v g r evs).responses = s.responses ++ [⟨.ok, r, evs⟩] := rfl

theorem slot_after_other {j : Lcid} (h : j ≠ l) : (s.after l v g r evs).slot j = s.slot j := by
  simp [State.after, slot_setSlot_other s v h]

theorem tags_after_other {j : Lcid} (h : j ≠ l) : (s.after l v g r evs).tags j = s.tags j := by
  rw [State.after, tags_respond, tags_setTags_other _ g h, tags_setSlot]

/-- A command that left its slot and tags as they were, with no event, only answered. -/
theorem after_self : s.after l (s.slot l) (s.tags l) r [] = s.answer r := by
  rw [State.after, setSlot_self, setTags_self]; rfl

end After

/-! ## A command's work -/

section WorkFields

variable (w : Work) (f : Slot → Slot) (ev : Event) (k : TimerKind) (d : DropReason)

@[simp] theorem lcid_upd : (w.upd f).lcid = w.lcid := rfl
@[simp] theorem params_upd : (w.upd f).params = w.params := rfl
@[simp] theorem slot_upd : (w.upd f).slot = f w.slot := rfl
@[simp] theorem tags_upd : (w.upd f).tags = w.tags := rfl
@[simp] theorem events_upd : (w.upd f).events = w.events := rfl
@[simp] theorem lcid_emit : (w.emit ev).lcid = w.lcid := rfl
@[simp] theorem params_emit : (w.emit ev).params = w.params := rfl
@[simp] theorem slot_emit : (w.emit ev).slot = w.slot := rfl
@[simp] theorem tags_emit : (w.emit ev).tags = w.tags := rfl
@[simp] theorem events_emit : (w.emit ev).events = w.events ++ [ev] := rfl
@[simp] theorem lcid_drop : (w.drop d).lcid = w.lcid := rfl
@[simp] theorem params_drop : (w.drop d).params = w.params := rfl
@[simp] theorem slot_drop : (w.drop d).slot = w.slot := rfl
@[simp] theorem tags_drop : (w.drop d).tags = w.tags := rfl
@[simp] theorem events_drop : (w.drop d).events = w.events ++ [.drop w.lcid d] := rfl
@[simp] theorem lcid_startTimer : (w.startTimer k).lcid = w.lcid := rfl
@[simp] theorem params_startTimer : (w.startTimer k).params = w.params := rfl
@[simp] theorem slot_startTimer : (w.startTimer k).slot = { w.slot with running := w.slot.running.set k true } := rfl
@[simp] theorem tags_startTimer : (w.startTimer k).tags = w.tags.set k (w.tags.get k + 1) := rfl
@[simp] theorem events_startTimer :
    (w.startTimer k).events = w.events ++ [.timerStart w.lcid k (w.tags.get k + 1) (w.slot.cfg.duration k)] := rfl
@[simp] theorem lcid_stopTimer : (w.stopTimer k).lcid = w.lcid := rfl
@[simp] theorem params_stopTimer : (w.stopTimer k).params = w.params := rfl
@[simp] theorem slot_stopTimer : (w.stopTimer k).slot = { w.slot with running := w.slot.running.set k false } := rfl
@[simp] theorem tags_stopTimer : (w.stopTimer k).tags = w.tags := rfl
@[simp] theorem events_stopTimer :
    (w.stopTimer k).events = w.events ++ [.timerStop w.lcid k (w.tags.get k)] := rfl

end WorkFields

@[simp] theorem lcid_enter (s : State) (l : Lcid) : (s.enter l).lcid = l := rfl
@[simp] theorem params_enter (s : State) (l : Lcid) : (s.enter l).params = s.params := rfl
@[simp] theorem slot_enter (s : State) (l : Lcid) : (s.enter l).slot = s.slot l := rfl
@[simp] theorem tags_enter (s : State) (l : Lcid) : (s.enter l).tags = s.tags l := rfl
@[simp] theorem events_enter (s : State) (l : Lcid) : (s.enter l).events = [] := rfl

end Sys2Proof.Machine
end

