-- ==== Sys2Proof/Laws/Ops.lean ====
section
/-! SUPPORT. What the shared operations of the commands can answer, said once. -/

namespace Sys2Proof.Machine

/-- A check either passes on to what follows it, or refuses with its code and changes nothing. -/
theorem require_cases (ok : Bool) (c : Code) (s : State) (k : Next) :
    (ok = true ∧ require ok c s k = k) ∨ (ok = false ∧ require ok c s k = .next (s.refused c)) := by
  cases ok
  · exact .inr ⟨rfl, rfl⟩
  · exact .inl ⟨rfl, rfl⟩

@[simp] theorem require_true (c : Code) (s : State) (k : Next) : require true c s k = k := rfl
@[simp] theorem require_false (c : Code) (s : State) (k : Next) : require false c s k = .next (s.refused c) := rfl

/-- A slot check by the activity of the slot. -/
theorem requireActive_cases (l : Lcid) (s : State) (k : Next) :
    ((s.slot l).active = true ∧ requireActive l s k = k) ∨
      ((s.slot l).active = false ∧ requireActive l s k = .next (s.refused .noBearer)) :=
  require_cases _ _ s k

theorem raise_eq (s : State) (c : Code) : raise s c = .next (s.refused c) := rfl

theorem finish_eq (s : State) (r : Bytes) : finish s r = .next (s.answer r) := rfl

/-- The end of a command's work is one response and the slot and tags of the work; every other slot is as it was. -/
theorem commit_eq (s : State) (w : Work) (r : Bytes) :
    commit s w r = .next (s.after w.lcid w.slot w.tags r w.events) := rfl

/-- `StopTimer` where the timer runs: the bit is 0 after it, and there is one event exactly when it was 1. -/
theorem stopIfRunning_eq (w : Work) (k : TimerKind) :
    w.stopIfRunning k =
      { w with
        slot := { w.slot with running := w.slot.running.set k false }
        events := w.events ++ if w.slot.running.get k then [.timerStop w.lcid k (w.tags.get k)] else [] } := by
  unfold Work.stopIfRunning
  cases h : w.slot.running.get k
  · have : w.slot.running.set k false = w.slot.running := by rw [← h]; simp
    simp [this]
  · rfl

/-- `stop_all_timers`, R190: every bit is 0 after it, the tags are kept, and the events are those of `stopEvents`. -/
theorem stopAllTimers_eq (w : Work) :
    w.stopAllTimers =
      { w with
        slot := { w.slot with running := ⟨false, false, false⟩ }
        events := w.events ++ stopEvents w.lcid w.slot w.tags } := by
  simp [Work.stopAllTimers, stopIfRunning_eq, stopEvents, PerTimer.get, PerTimer.set]
  rfl

/-- `init_entity` leaves every field that R189 names at the value R189 gives it. -/
theorem initEntity_fresh (v : Slot) : (initEntity v).Fresh := by
  have running : ∀ k : TimerKind, (initEntity v).running.get k = false := fun k => by cases k <;> rfl
  simpa [Slot.Fresh, initEntity] using running

@[simp] theorem initEntity_active (v : Slot) : (initEntity v).active = v.active := rfl
@[simp] theorem initEntity_cfg (v : Slot) : (initEntity v).cfg = v.cfg := rfl
@[simp] theorem initEntity_metrics (v : Slot) : (initEntity v).metrics = v.metrics := rfl

/-- `init_entity` does not read what it overwrites: slots that agree on `active`, `cfg` and `metrics` become equal. -/
theorem initEntity_congr {v u : Slot} (ha : v.active = u.active) (hc : v.cfg = u.cfg) (hm : v.metrics = u.metrics) :
    initEntity v = initEntity u := by
  simp [initEntity, ha, hc, hm]

end Sys2Proof.Machine
end

