-- ==== Sys2Proof/Laws/Reassembly.lean ====
section
/-! SUPPORT. Reassembly, R237 and R238, in the terms of the statements: everything it delivers and leaves. -/

namespace Sys2Proof.Machine

/-- What R237 leaves of a command's work: the buffer `rsm`, and `sdus` delivered and counted. -/
def Work.reassembled (w : Work) (rsm : Rsm) (sdus : List Bytes) : Work :=
  { w with
    slot :=
      { w.slot with
        rsm := rsm
        metrics := { w.slot.metrics with numRxSdus := w.slot.metrics.numRxSdus + BitVec.ofNat 32 sdus.length } }
    events := w.events ++ sdus.map (.deliverSdu w.lcid) }

/-- The work after elements of a PDU: `part` is held and `sdus` have been delivered. -/
def Work.fed (w : Work) (part : Option Bytes) (sdus : List Bytes) : Work :=
  w.reassembled { w.slot.rsm with part := part } sdus

/-- What comes later decides what is held, and the deliveries follow one another. -/
theorem fed_fed (w : Work) (p q : Option Bytes) (a b : List Bytes) : (w.fed p a).fed q b = w.fed q (a ++ b) := by
  simp [Work.fed, Work.reassembled, BitVec.ofNat_add, BitVec.add_assoc]

/-- Replacing the held part delivers nothing. -/
theorem setPart_eq (w : Work) (p : Option Bytes) : w.setPart p = w.fed p [] := by
  simp [Work.setPart, Work.fed, Work.reassembled, Work.upd]

/-- Holding what is held already, and delivering nothing, changes nothing. -/
theorem fed_self (w : Work) : w.fed w.slot.rsm.part [] = w := by
  simp [Work.fed, Work.reassembled]

/-- A delivery that leaves nothing held. -/
theorem deliver_eq (w : Work) (b : Bytes) : ((w.emit (.deliverSdu w.lcid b)).countRxSdu).fed none [] = w.fed none [b] := by
  simp [Work.fed, Work.reassembled, Work.upd, Work.emit, Work.countRxSdu]

/-- One element through the reassembly buffer: its content `c` is discarded, held, or delivered. -/
theorem feedElems_cons (fi : BitVec 2) (first : Bool) (e : Bytes) (rest : List Bytes) (w : Work) (c : Option Bytes)
    (hc : c = (if !first || !fi1 fi then some e else w.slot.rsm.part.map (· ++ e)).filter
      fun b => decide (b.length ≤ w.params.maxSduBytes)) :
    feedElems fi first (e :: rest) w =
      feedElems fi false rest (if rest = [] ∧ fi0 fi = true then w.fed c [] else w.fed none c.toList) := by
  rw [feedElems]
  split
  · rename_i h
    rw [h] at hc
    have hp : w.slot.rsm.part = none := by
      split at h
      · cases h
      · simpa using h
    subst hc
    have : w.fed none [] = w := hp ▸ fed_self w
    simp [this]
  · rename_i b h
    rw [h] at hc
    by_cases hl : w.params.maxSduBytes < b.length
    · have : ¬ b.length ≤ w.params.maxSduBytes := by omega
      simp [hl, hc, Option.filter, this, setPart_eq]
    · have : b.length ≤ w.params.maxSduBytes := by omega
      rw [if_neg hl]
      cases rest <;> cases fi0 fi <;> simp [hc, Option.filter, this, deliver_eq, setPart_eq]

/-- Every element of a PDU through the reassembly buffer, from the contents that `contents` gives them. -/
theorem feedElems_eq (fi : BitVec 2) (pm : Params) : ∀ (first : Bool) (e : Bytes) (rest : List Bytes) (w : Work)
    (cs : List (Option Bytes)), w.params = pm → cs = contents pm w.slot.rsm.part (first && fi1 fi) (e :: rest) →
    feedElems fi first (e :: rest) w =
      w.fed (if fi0 fi then cs.getLast?.join else none) ((if fi0 fi then cs.dropLast else cs).filterMap id)
  | first, e, [], w, cs, hp, h => by
    rw [feedElems_cons fi first e [] w _ rfl, feedElems]
    subst h hp
    cases first <;> cases fi1 fi <;> cases fi0 fi <;> simp [contents]
    all_goals (generalize Option.filter _ _ = c; cases c <;> rfl)
  | first, e, e' :: rest, w, cs, hp, h => by
    rw [feedElems_cons fi first e (e' :: rest) w _ rfl, if_neg (by simp)]
    have hc : cs = (if !first || !fi1 fi then some e else w.slot.rsm.part.map (· ++ e)).filter
        (fun b => decide (b.length ≤ w.params.maxSduBytes)) :: contents pm none false (e' :: rest) := by
      subst h hp
      cases first <;> cases fi1 fi <;> rfl
    generalize Option.filter _ _ = c at hc ⊢
    rw [feedElems_eq fi pm false e' rest (w.fed none c.toList) _ hp rfl, fed_fed]
    have hn : contents pm none false (e' :: rest) ≠ [] := by simp [contents]
    simp only [Bool.false_and]
    subst hc
    have hs : contents pm (w.fed none c.toList).slot.rsm.part false (e' :: rest) = contents pm none false (e' :: rest) := rfl
    rw [hs]
    generalize contents pm none false (e' :: rest) = ds at hn
    cases ds with
    | nil => exact absurd rfl hn
    | cons d ds => cases c <;> cases fi0 fi <;> simp

/-- `rsm_feed`, R237, in the terms of the statements. -/
theorem rsmFeed_eq (sn : Nat) (p : Body) (w : Work) :
    rsmFeed sn p w =
      w.reassembled (reassemble w.params w.slot.n sn p w.slot.rsm).1 (reassemble w.params w.slot.n sn p w.slot.rsm).2 := by
  obtain ⟨e, rest, he⟩ : ∃ e rest, splitData p.data p.bounds = e :: rest := by
    unfold splitData
    cases p.bounds <;> exact ⟨_, _, rfl⟩
  have hw : (if w.slot.rsm.part.isSome && w.slot.rsm.next != sn then w.setPart none else w) =
      w.fed (if w.slot.rsm.next = sn then w.slot.rsm.part else none) [] := by
    by_cases hn : w.slot.rsm.next = sn
    · simp [hn, fed_self]
    · cases hp : w.slot.rsm.part
      · have := fed_self w
        rw [hp] at this
        simp [hn, this]
      · simp [hn, setPart_eq]
  unfold rsmFeed reassemble
  rw [hw, he]
  dsimp only
  rw [feedElems_eq p.fi w.params true e rest (w.fed _ []) _ rfl rfl, fed_fed]
  simp only [Bool.true_and, List.nil_append]
  have hh : (w.fed (if w.slot.rsm.next = sn then w.slot.rsm.part else none) []).slot.rsm.part =
    if w.slot.rsm.next = sn then w.slot.rsm.part else none := rfl
  rw [hh]
  generalize contents w.params _ (fi1 p.fi) (e :: rest) = cs
  generalize (if fi0 p.fi then cs.getLast?.join else none) = part
  cases part <;> rfl

/-- The PDUs of a list of SNs through reassembly, one after another. -/
theorem reassembleAll_eq (look : Nat → Option Body) (sns : List Nat) (w : Work) :
    sns.foldl (fun w sn => match look sn with
      | some p => rsmFeed sn p w
      | none => w) w =
      w.reassembled (reassembleAll w.params w.slot.n look sns w.slot.rsm).1
        (reassembleAll w.params w.slot.n look sns w.slot.rsm).2 := by
  induction sns generalizing w with
  | nil => simp [reassembleAll, Work.reassembled]
  | cons sn sns ih =>
    rw [List.foldl_cons, ih, reassembleAll]
    cases look sn with
    | none => rfl
    | some p =>
      simp only [rsmFeed_eq]
      simp [Work.reassembled, BitVec.ofNat_add, BitVec.add_assoc]
      exact ⟨⟨rfl, rfl⟩, rfl⟩
end Sys2Proof.Machine
end

