-- ==== Sys2Proof/Laws/Frames.lean ====
section
/-! SUPPORT. Everything that each shared procedure of the bearer rules can change, said once. -/

namespace Sys2Proof.Machine

/-! ## Reassembly -/

/-- The work `w'` is the work `w` after reassembly: only `RSM`, `num_rx_sdus` and DELIVER_SDU events may differ. -/
def FedFrom (w w' : Work) : Prop :=
  ∃ (rsm : Rsm) (n : BitVec 32) (sdus : List Bytes), w' =
    { w with
      slot := { w.slot with rsm := rsm, metrics := { w.slot.metrics with numRxSdus := n } }
      events := w.events ++ sdus.map (.deliverSdu w.lcid) }

/-- `rsm_feed`, R237, changes nothing but the reassembly buffer, its counter, and what it delivers. -/
theorem rsmFeed_frame (sn : Nat) (p : Body) (w : Work) : FedFrom w (rsmFeed sn p w) := ⟨_, _, _, rsmFeed_eq sn p w⟩

/-! ## UM receive -/

/-- The work `w'` is the work `w` after `VR_UR` has moved: only `VR_UR`, `RXU`, `RSM`, two counters and DELIVER_SDU events may
differ. -/
def PassedFrom (w w' : Work) : Prop :=
  ∃ (vrUr : Nat) (rxu : SnMap Body) (rsm : Rsm) (n m : BitVec 32) (sdus : List Bytes), w' =
    { w with
      slot :=
        { w.slot with
          vrUr := vrUr, rxu := rxu, rsm := rsm
          metrics := { w.slot.metrics with numRxSdus := n, numLostPdus := m } }
      events := w.events ++ sdus.map (.deliverSdu w.lcid) }

theorem PassedFrom.refl (w : Work) : PassedFrom w w :=
  ⟨w.slot.vrUr, w.slot.rxu, w.slot.rsm, w.slot.metrics.numRxSdus, w.slot.metrics.numLostPdus, [], by simp⟩

theorem PassedFrom.trans {w u v : Work} (h : PassedFrom w u) (k : PassedFrom u v) : PassedFrom w v := by
  obtain ⟨a, b, c, n, m, d, rfl⟩ := h
  obtain ⟨a', b', c', n', m', d', rfl⟩ := k
  exact ⟨a', b', c', n', m', d ++ d', by simp⟩

theorem umPass_frame (w : Work) (sn : Nat) : PassedFrom w (umPass w sn) := by
  unfold umPass
  simp only
  split
  · rename_i p _
    obtain ⟨r, n, d, h⟩ := rsmFeed_frame sn p w
    rw [h]
    exact ⟨_, _, r, n, w.slot.metrics.numLostPdus, d, rfl⟩
  · exact ⟨_, w.slot.rxu, w.slot.rsm, w.slot.metrics.numRxSdus, _, [], by
      simp only [Work.upd, Work.countLostPdu, List.map_nil, List.append_nil]; rfl⟩

/-- `um_advance`, R233. -/
theorem umAdvance_frame (stop : Nat) (w : Work) : PassedFrom w (umAdvance stop w) := by
  unfold umAdvance
  generalize snInterval w.slot.n w.slot.vrUr stop = sns
  induction sns generalizing w with
  | nil => exact .refl w
  | cons sn sns ih => rw [List.foldl_cons]; exact (umPass_frame w sn).trans (ih _)

/-- The work `w'` is the work `w` after reordering-timer requests: only the timer's bit, tag and zone end (`VR_UX` or `VR_X`) may
differ, and its TIMER_START and TIMER_STOP events are the only new ones. -/
def ReorderedFrom (w w' : Work) : Prop :=
  ∃ (vrUx vrX : Nat) (b : Bool) (g : BitVec 16) (evs : List Event), w' =
    { w with
      slot := { w.slot with vrUx := vrUx, vrX := vrX, running := { w.slot.running with reord := b } }
      tags := { w.tags with reord := g }
      events := w.events ++ evs } ∧
    ∀ ev ∈ evs, (∃ g, ev = .timerStop w.lcid .reord g) ∨ ∃ g, ev = .timerStart w.lcid .reord g w.slot.cfg.tReorderingMs

theorem ReorderedFrom.refl (w : Work) : ReorderedFrom w w :=
  ⟨w.slot.vrUx, w.slot.vrX, w.slot.running.reord, w.tags.reord, [], by simp, by simp⟩

theorem ReorderedFrom.trans {w u v : Work} (h : ReorderedFrom w u) (k : ReorderedFrom u v) : ReorderedFrom w v := by
  obtain ⟨a, x, b, g, d, rfl, hd⟩ := h
  obtain ⟨a', x', b', g', d', rfl, hd'⟩ := k
  refine ⟨a', x', b', g', d ++ d', by simp, fun ev hev => ?_⟩
  rcases List.mem_append.mp hev with h | h
  · exact hd ev h
  · exact hd' ev h

theorem reorderedFrom_stop (w : Work) : ReorderedFrom w (w.stopTimer .reord) :=
  ⟨w.slot.vrUx, w.slot.vrX, false, w.tags.reord, [.timerStop w.lcid .reord w.tags.reord], rfl, by simp⟩

theorem reorderedFrom_umStart (w : Work) : ReorderedFrom w (umStartReord w) :=
  ⟨w.slot.vrUh, w.slot.vrX, true, w.tags.reord + 1,
    [.timerStart w.lcid .reord (w.tags.reord + 1) w.slot.cfg.tReorderingMs], rfl, by simp⟩

theorem reorderedFrom_amStart (w : Work) : ReorderedFrom w (amStartReord w) :=
  ⟨w.slot.vrUx, w.slot.vrH, true, w.tags.reord + 1,
    [.timerStart w.lcid .reord (w.tags.reord + 1) w.slot.cfg.tReorderingMs], rfl, by simp⟩

/-- `um_timers`, R235. -/
theorem umTimers_frame (w : Work) : ReorderedFrom w (umTimers w) := by
  have h1 : ReorderedFrom w (if w.slot.running.reord && umTimerObsolete w.slot then w.stopTimer .reord else w) := by
    split
    · exact reorderedFrom_stop w
    · exact .refl w
  unfold umTimers
  simp only
  generalize (if w.slot.running.reord && umTimerObsolete w.slot then w.stopTimer .reord else w) = u at h1 ⊢
  split
  · exact h1.trans (reorderedFrom_umStart u)
  · exact h1

/-- `am_timers`, R319. -/
theorem amTimers_frame (w : Work) : ReorderedFrom w (amTimers w) := by
  have h1 : ReorderedFrom w (if w.slot.running.reord && amTimerObsolete w.slot then w.stopTimer .reord else w) := by
    split
    · exact reorderedFrom_stop w
    · exact .refl w
  unfold amTimers
  simp only
  generalize (if w.slot.running.reord && amTimerObsolete w.slot then w.stopTimer .reord else w) = u at h1 ⊢
  split
  · exact h1.trans (reorderedFrom_amStart u)
  · exact h1

/-! ## AM receive -/

/-- `am_advance`, R318, changes nothing but `VR_R`, `RXA`, `RSM`, its counter, and what it delivers. -/
theorem amAdvanceLoop_frame : ∀ (fuel : Nat) (w : Work), ∃ (vrR : Nat) (rxa : SnMap AmEntry) (rsm : Rsm) (n : BitVec 32) (sdus : List Bytes),
    amAdvanceLoop fuel w =
    { w with
      slot :=
        { w.slot with
          vrR := vrR, rxa := rxa, rsm := rsm, metrics := { w.slot.metrics with numRxSdus := n } }
      events := w.events ++ sdus.map (.deliverSdu w.lcid) }
  | 0, w => ⟨w.slot.vrR, w.slot.rxa, w.slot.rsm, w.slot.metrics.numRxSdus, [], by simp [amAdvanceLoop]⟩
  | fuel + 1, w => by
    rw [amAdvanceLoop]
    split
    · exact ⟨w.slot.vrR, w.slot.rxa, w.slot.rsm, w.slot.metrics.numRxSdus, [], by simp⟩
    · rename_i r _
      split
      · obtain ⟨s, n, d, h⟩ := rsmFeed_frame w.slot.vrR r.body w
        rw [h]
        obtain ⟨a, b, c, m, d', h'⟩ := amAdvanceLoop_frame fuel (Work.upd
          { w with
            slot := { w.slot with rsm := s, metrics := { w.slot.metrics with numRxSdus := n } }
            events := w.events ++ d.map (.deliverSdu w.lcid) }
          fun s => { s with rxa := mapDel s.vrR s.rxa, vrR := modN s.n (s.vrR + 1) })
        exact ⟨a, b, c, m, d ++ d', by simp only; rw [h']; simp [Work.upd]⟩
      · exact ⟨w.slot.vrR, w.slot.rxa, w.slot.rsm, w.slot.metrics.numRxSdus, [], by simp⟩

/-! ## AM transmit -/

/-- `poll_decide`, R270: either P is 0 and only the counters may differ, or P is 1, the counters and the pending poll are cleared,
`POLL_SN` is the highest SN sent, and the poll timer is started. -/
theorem pollDecide_cases (new : Bool) (nbytes : Nat) (w : Work) :
    (pollDue (pollCount new nbytes w.slot) = false ∧
      pollDecide new nbytes w = (false, { w with slot := pollCount new nbytes w.slot })) ∨
    (pollDue (pollCount new nbytes w.slot) = true ∧
      pollDecide new nbytes w =
        (true,
          { w with
            slot :=
              { w.slot with
                pduWithoutPoll := 0, byteWithoutPoll := 0, pollPending := false
                pollSn := rel w.slot.n w.slot.vtS 1
                running := { w.slot.running with pollretx := true } }
            tags := { w.tags with pollretx := w.tags.pollretx + 1 }
            events := w.events ++
              [.timerStart w.lcid .pollretx (w.tags.pollretx + 1) w.slot.cfg.tPollRetransmitMs] })) := by
  unfold pollDecide
  cases h : pollDue (pollCount new nbytes w.slot)
  · left; refine ⟨rfl, ?_⟩; simp [Work.upd, h]
  · right; refine ⟨rfl, ?_⟩
    cases new <;> simp [Work.upd, pollCount, Work.startTimer, Work.emit, PerTimer.get, PerTimer.set, Cfg.duration,
      Slot.n] <;> simp_all [pollCount]

/-- `consider_for_retx`, R276, changes nothing but the entry of its SN, and emits at most its NOTIFY_MAX_RETX. -/
theorem considerForRetx_frame (sn : Nat) (rg : RangeSet) (w : Work) :
    considerForRetx sn rg w = w ∨ ∃ (e e' : RetxEntry) (evs : List Event), mapGet sn w.slot.rb = some e ∧ e.dead = false ∧
      e' = { e with retxCount := e'.retxCount, pending := e'.pending, dead := e'.dead } ∧
      (evs = [] ∨ (evs = [.notifyMaxRetx w.lcid sn] ∧ e' = { e with dead := true })) ∧
      considerForRetx sn rg w =
        { w with slot := { w.slot with rb := mapPut sn e' w.slot.rb }, events := w.events ++ evs } := by
  unfold considerForRetx
  split
  · exact .inl rfl
  · rename_i e he
    split
    · exact .inl rfl
    · rename_i hd
      right
      have hd : e.dead = false := by simpa using hd
      split
      · split
        · exact ⟨e, { e with dead := true }, _, he, hd, rfl, .inr ⟨rfl, rfl⟩, rfl⟩
        · exact ⟨e, { e with retxCount := e.retxCount + 1, pending := rangeUnion e.pending rg }, [], he, hd, rfl, .inl rfl,
            by simp [Work.upd]⟩
      · exact ⟨e, { e with pending := rangeUnion e.pending rg }, [], he, hd, rfl, .inl rfl, by simp [Work.upd]⟩

/-- One SN of a status, R273, changes nothing but the retransmission buffer. -/
theorem statusStep_frame (nacks : List Nack) (w : Work) (sn : Nat) : ∃ (rb : SnMap RetxEntry) (dead : List Nat),
    statusStep nacks w sn =
    { w with slot := { w.slot with rb := rb }, events := w.events ++ dead.map (.notifyMaxRetx w.lcid) } := by
  unfold statusStep
  split
  · exact ⟨w.slot.rb, [], by simp⟩
  · simp only
    split
    · exact ⟨_, [], by simp [Work.upd]; rfl⟩
    · split
      · exact ⟨w.slot.rb, [], by simp⟩
      · rename_i e _ _ _
        rcases considerForRetx_frame sn (nackRanges e.data.length (nacks.filter fun k => k.sn == sn)) w with
          h | ⟨_, e', evs, -, -, -, hev, h⟩
        · exact ⟨w.slot.rb, [], by rw [h]; simp⟩
        · rcases hev with rfl | ⟨rfl, -⟩
          · exact ⟨_, [], by rw [h]; simp; rfl⟩
          · exact ⟨_, [sn], by rw [h]; simp; rfl⟩

/-- `handle_status`, R273, changes nothing but the retransmission buffer, `VT_A` and the poll timer's bit. -/
theorem handleStatus_frame (st : Status) (w : Work) : ∃ (rb : SnMap RetxEntry) (vtA : Nat) (b : Bool) (dead : List Nat),
    handleStatus st w =
    { w with
      slot := { w.slot with rb := rb, vtA := vtA, running := { w.slot.running with pollretx := b } }
      events := w.events ++ dead.map (.notifyMaxRetx w.lcid) ++
        if w.slot.running.pollretx && before w.slot.n w.slot.pollSn st.ack w.slot.vtA then
          [.timerStop w.lcid .pollretx w.tags.pollretx] else [] } := by
  have hfold : ∀ (sns : List Nat) (w : Work), ∃ (rb : SnMap RetxEntry) (dead : List Nat),
      sns.foldl (statusStep st.nacks) w =
      { w with slot := { w.slot with rb := rb }, events := w.events ++ dead.map (.notifyMaxRetx w.lcid) } := by
    intro sns
    induction sns with
    | nil => intro w; exact ⟨w.slot.rb, [], by simp⟩
    | cons sn sns ih =>
      intro w
      obtain ⟨rb, d, h⟩ := statusStep_frame st.nacks w sn
      obtain ⟨rb', d', h'⟩ := ih (statusStep st.nacks w sn)
      exact ⟨rb', d ++ d', by rw [List.foldl_cons, h', h]; simp⟩
  obtain ⟨rb, d, h⟩ := hfold (snInterval w.slot.n w.slot.vtA st.ack) w
  refine ⟨rb, nextVtA w.slot.n w.slot.vtA w.slot.vtS rb,
    if w.slot.running.pollretx && before w.slot.n w.slot.pollSn st.ack w.slot.vtA then false
    else w.slot.running.pollretx, d, ?_⟩
  unfold handleStatus
  simp only [h, Work.upd]
  by_cases hc : (w.slot.running.pollretx && before w.slot.n w.slot.pollSn st.ack w.slot.vtA) = true
  · simp only [if_pos hc]; rfl
  · simp only [if_neg hc, List.append_nil]

end Sys2Proof.Machine
end

