-- ==== Sys2Proof/Laws/Ranges.lean ====
section
/-! SUPPORT. Range sets (00_scope.md R11): what each operation holds, and that it keeps the canonical form. -/

namespace Sys2Proof.Machine

@[simp] theorem rangeHas_nil (x : Nat) : rangeHas x [] = false := rfl

theorem rangeHas_cons (x a b : Nat) (r : RangeSet) :
    rangeHas x ((a, b) :: r) = ((decide (a ≤ x) && decide (x < b)) || rangeHas x r) := rfl

theorem rangeHas_append (x : Nat) (r q : RangeSet) : rangeHas x (r ++ q) = (rangeHas x r || rangeHas x q) := by
  simp [rangeHas]

@[simp] theorem rangeWfFrom_nil (lo : Nat) : rangeWfFrom lo [] = true := rfl

theorem rangeWfFrom_cons (lo a b : Nat) (r : RangeSet) :
    rangeWfFrom lo ((a, b) :: r) = true ↔ lo ≤ a ∧ a < b ∧ rangeWfFrom (b + 1) r = true := by
  simp [rangeWfFrom, and_assoc]

/-- The canonical form from an offset is one from any lower offset. -/
theorem rangeWfFrom_mono {lo hi : Nat} (h : lo ≤ hi) : ∀ {r : RangeSet}, rangeWfFrom hi r = true → rangeWfFrom lo r = true
  | [], _ => rfl
  | (a, b) :: r, hw => by
    rw [rangeWfFrom_cons] at *
    exact ⟨by omega, hw.2⟩

/-- A canonical set from `lo` holds no offset below `lo`. -/
theorem le_of_rangeHas {x : Nat} : ∀ {lo : Nat} {r : RangeSet}, rangeWfFrom lo r = true → rangeHas x r = true → lo ≤ x
  | lo, (a, b) :: r, hw, h => by
    rw [rangeWfFrom_cons] at hw
    rw [rangeHas_cons] at h
    simp only [Bool.or_eq_true, Bool.and_eq_true, decide_eq_true_eq] at h
    rcases h with h | h
    · omega
    · have := le_of_rangeHas hw.2.2 h; omega

/-! ## Union -/

/-- The union with an interval holds what either holds. -/
theorem rangeHas_rangeAdd (x : Nat) : ∀ (s e : Nat) (r : RangeSet),
    rangeHas x (rangeAdd s e r) = (rangeHas x r || (decide (s ≤ x) && decide (x < e)))
  | s, e, [] => by
    unfold rangeAdd
    split
    · simp [rangeHas_cons]
    · simp; omega
  | s, e, (a, b) :: r => by
    unfold rangeAdd
    split
    · rw [show (decide (s ≤ x) && decide (x < e)) = false by simp; omega, Bool.or_false]
    · split
      · rw [rangeHas_cons x s e, Bool.or_comm]
      · split
        · rw [rangeHas_cons, rangeHas_cons, rangeHas_rangeAdd x s e r, Bool.or_assoc]
        · rw [rangeHas_rangeAdd x _ _ r, rangeHas_cons]
          rw [Bool.eq_iff_iff]
          simp only [Bool.or_eq_true, Bool.and_eq_true, decide_eq_true_eq]
          constructor
          · rintro (h | h)
            · exact .inl (.inr h)
            · by_cases hs : s ≤ x ∧ x < e
              · exact .inr hs
              · left; left; omega
          · rintro ((h | h) | h)
            · right; omega
            · exact .inl h
            · right; omega

/-- The union with an interval keeps the canonical form. -/
theorem rangeWfFrom_rangeAdd : ∀ {lo s : Nat} (e : Nat) {r : RangeSet}, rangeWfFrom lo r = true → lo ≤ s →
    rangeWfFrom lo (rangeAdd s e r) = true
  | lo, s, e, [], _, hs => by
    unfold rangeAdd
    split
    · rw [rangeWfFrom_cons]; exact ⟨hs, by assumption, rfl⟩
    · rfl
  | lo, s, e, (a, b) :: r, hw, hs => by
    have hw' := (rangeWfFrom_cons _ _ _ _).mp hw
    unfold rangeAdd
    split
    · exact hw
    · split
      · rw [rangeWfFrom_cons, rangeWfFrom_cons]; exact ⟨hs, by omega, by omega, hw'.2.1, hw'.2.2⟩
      · split
        · rw [rangeWfFrom_cons]
          exact ⟨hw'.1, hw'.2.1, rangeWfFrom_rangeAdd e hw'.2.2 (by omega)⟩
        · exact rangeWfFrom_rangeAdd _ (rangeWfFrom_mono (by omega) hw'.2.2) (by omega)

theorem rangeWf_rangeAdd (s e : Nat) {r : RangeSet} (h : rangeWf r = true) : rangeWf (rangeAdd s e r) = true :=
  rangeWfFrom_rangeAdd e h (Nat.zero_le _)

/-- The union of two sets holds what either holds. -/
theorem rangeHas_rangeUnion (x : Nat) : ∀ (q r : RangeSet), rangeHas x (rangeUnion r q) = (rangeHas x r || rangeHas x q)
  | [], r => by simp [rangeUnion]
  | (a, b) :: q, r => by
    have := rangeHas_rangeUnion x q (rangeAdd a b r)
    rw [rangeUnion] at *
    rw [List.foldl_cons, this, rangeHas_rangeAdd, rangeHas_cons, Bool.or_assoc]

theorem rangeWf_rangeUnion : ∀ (q : RangeSet) {r : RangeSet}, rangeWf r = true → rangeWf (rangeUnion r q) = true
  | [], _, h => h
  | (a, b) :: q, _, h => rangeWf_rangeUnion q (rangeWf_rangeAdd a b h)

/-! ## Difference -/

/-- The difference with an interval holds what the set holds outside it. -/
theorem rangeHas_rangeSub (x s e : Nat) : ∀ (r : RangeSet),
    rangeHas x (rangeSub s e r) = (rangeHas x r && !(decide (s ≤ x) && decide (x < e)))
  | [] => by simp [rangeSub]
  | (a, b) :: r => by
    have ih := rangeHas_rangeSub x s e r
    rw [rangeSub, rangeHas_append, rangeHas_append, ih, rangeHas_cons]
    have h1 : rangeHas x (if a < min b s then [(a, min b s)] else []) =
        (decide (a ≤ x) && decide (x < b) && decide (x < s)) := by
      split
      · rw [rangeHas_cons, rangeHas_nil, Bool.or_false, Bool.eq_iff_iff]
        simp only [Bool.and_eq_true, decide_eq_true_eq]; omega
      · rw [rangeHas_nil, eq_comm, Bool.eq_false_iff]
        simp only [ne_eq, Bool.and_eq_true, decide_eq_true_eq]; omega
    have h2 : rangeHas x (if max a e < b then [(max a e, b)] else []) =
        (decide (a ≤ x) && decide (x < b) && decide (e ≤ x)) := by
      split
      · rw [rangeHas_cons, rangeHas_nil, Bool.or_false, Bool.eq_iff_iff]
        simp only [Bool.and_eq_true, decide_eq_true_eq]; omega
      · rw [rangeHas_nil, eq_comm, Bool.eq_false_iff]
        simp only [ne_eq, Bool.and_eq_true, decide_eq_true_eq]; omega
    rw [h1, h2, Bool.eq_iff_iff]
    simp only [Bool.or_eq_true, Bool.and_eq_true, decide_eq_true_eq, Bool.not_eq_true', Bool.and_eq_false_iff,
      decide_eq_false_iff_not]
    constructor
    · rintro ((h | h) | h)
      · exact ⟨.inl h.1, by omega⟩
      · exact ⟨.inl h.1, by omega⟩
      · exact ⟨.inr h.1, h.2⟩
    · rintro ⟨h | h, h'⟩
      · rcases h' with h' | h'
        · exact .inl (.inl ⟨h, by omega⟩)
        · exact .inl (.inr ⟨h, by omega⟩)
      · exact .inr ⟨h, h'⟩

/-- The difference with a non-empty interval keeps the canonical form. -/
theorem rangeWfFrom_rangeSub {s e : Nat} (hse : s < e) : ∀ {lo : Nat} {r : RangeSet}, rangeWfFrom lo r = true →
    rangeWfFrom lo (rangeSub s e r) = true
  | _, [], _ => rfl
  | lo, (a, b) :: r, hw => by
    rw [rangeWfFrom_cons] at hw
    have ih := rangeWfFrom_rangeSub hse hw.2.2
    have ih' : rangeWfFrom lo (rangeSub s e r) = true := rangeWfFrom_mono (by omega) ih
    rw [rangeSub]
    split <;> split
    · simp only [List.cons_append, List.nil_append, rangeWfFrom_cons]
      exact ⟨hw.1, by omega, by omega, by omega, ih⟩
    · simp only [List.cons_append, List.nil_append, rangeWfFrom_cons]
      exact ⟨hw.1, by omega, rangeWfFrom_mono (by omega) ih⟩
    · simp only [List.cons_append, List.nil_append, rangeWfFrom_cons]
      exact ⟨by omega, by omega, ih⟩
    · simpa using ih'

theorem rangeWf_rangeSub {s e : Nat} (hse : s < e) {r : RangeSet} (h : rangeWf r = true) :
    rangeWf (rangeSub s e r) = true :=
  rangeWfFrom_rangeSub hse h

/-! ## Inclusion and equality -/

/-- In canonical form, an interval is included exactly when every offset of it is held. -/
theorem rangeIncl_iff {s e : Nat} : ∀ {lo : Nat} {r : RangeSet}, rangeWfFrom lo r = true →
    (rangeIncl s e r = true ↔ ∀ x, s ≤ x → x < e → rangeHas x r = true)
  | _, [], _ => by
    simp only [rangeIncl, List.any_nil, Bool.or_false, decide_eq_true_eq, rangeHas_nil, Bool.false_eq_true]
    constructor
    · intro h x h1 h2; omega
    · intro h; by_contra c; exact h s (le_refl _) (by omega)
  | lo, (a, b) :: r, hw => by
    rw [rangeWfFrom_cons] at hw
    have ih := rangeIncl_iff (s := s) (e := e) hw.2.2
    have hunf : rangeIncl s e ((a, b) :: r) = true ↔ (a ≤ s ∧ e ≤ b) ∨ rangeIncl s e r = true := by
      simp only [rangeIncl, List.any_cons, Bool.or_eq_true, Bool.and_eq_true, decide_eq_true_eq]
      tauto
    rw [hunf, ih]
    simp only [rangeHas_cons, Bool.or_eq_true, Bool.and_eq_true, decide_eq_true_eq]
    constructor
    · rintro (h | h) x h1 h2
      · left; omega
      · exact .inr (h x h1 h2)
    · intro h
      by_cases hes : e ≤ s
      · right; intro x h1 h2; omega
      · by_cases hin : a ≤ s ∧ s < b
        · left
          refine ⟨hin.1, ?_⟩
          by_contra c
          rcases h b (by omega) (by omega) with h' | h'
          · omega
          · have := le_of_rangeHas hw.2.2 h'; omega
        · right
          have hs : b + 1 ≤ s := by
            rcases h s (le_refl _) (by omega) with h' | h'
            · exact absurd h' hin
            · exact le_of_rangeHas hw.2.2 h'
          intro x h1 h2
          rcases h x h1 h2 with h' | h'
          · omega
          · exact h'

/-- Two sets in canonical form that hold the same offsets are the same list. -/
theorem rangeWf_ext : ∀ {lo : Nat} {r q : RangeSet}, rangeWfFrom lo r = true → rangeWfFrom lo q = true →
    (∀ x, rangeHas x r = rangeHas x q) → r = q
  | _, [], [], _, _, _ => rfl
  | _, [], (a, b) :: q, _, hq, h => by
    rw [rangeWfFrom_cons] at hq
    have := h a; simp [rangeHas_cons, hq.2.1] at this
  | _, (a, b) :: r, [], hr, _, h => by
    rw [rangeWfFrom_cons] at hr
    have := h a; simp [rangeHas_cons, hr.2.1] at this
  | lo, (a, b) :: r, (c, d) :: q, hr, hq, h => by
    rw [rangeWfFrom_cons] at hr hq
    have key : ∀ x, ((a ≤ x ∧ x < b) ∨ rangeHas x r = true) ↔ ((c ≤ x ∧ x < d) ∨ rangeHas x q = true) := by
      intro x
      have := h x
      rw [rangeHas_cons, rangeHas_cons, Bool.eq_iff_iff] at this
      simpa only [Bool.or_eq_true, Bool.and_eq_true, decide_eq_true_eq] using this
    have lowr : ∀ x, rangeHas x r = true → b + 1 ≤ x := fun x hx => le_of_rangeHas hr.2.2 hx
    have lowq : ∀ x, rangeHas x q = true → d + 1 ≤ x := fun x hx => le_of_rangeHas hq.2.2 hx
    have hac : a = c := by
      have h1 : c ≤ a := by
        rcases (key a).mp (.inl ⟨le_refl _, hr.2.1⟩) with h' | h'
        · omega
        · have := lowq a h'; omega
      have h2 : a ≤ c := by
        rcases (key c).mpr (.inl ⟨le_refl _, hq.2.1⟩) with h' | h'
        · omega
        · have := lowr c h'; omega
      omega
    subst hac
    have hbd : b = d := by
      rcases Nat.lt_trichotomy b d with hlt | he | hlt
      · rcases (key b).mpr (.inl ⟨by omega, hlt⟩) with h' | h'
        · omega
        · have := lowr b h'; omega
      · exact he
      · rcases (key d).mp (.inl ⟨by omega, hlt⟩) with h' | h'
        · omega
        · have := lowq d h'; omega
    subst hbd
    rw [rangeWf_ext hr.2.2 hq.2.2 fun x => ?_]
    rw [Bool.eq_iff_iff]
    constructor
    · intro hx
      rcases (key x).mp (.inr hx) with h' | h'
      · have := lowr x hx; omega
      · exact h'
    · intro hx
      rcases (key x).mpr (.inr hx) with h' | h'
      · have := lowq x hx; omega
      · exact h'

/-! ## Gaps -/

/-- An offset from `p` on and within the length is missing exactly when one of the gaps has it. -/
theorem rangeGaps_spec (len : Option Nat) {x : Nat} (hx : ∀ n, len = some n → x < n) : ∀ {p : Nat} {r : RangeSet},
    rangeWfFrom p r = true → p ≤ x →
    (rangeHas x r = false ↔ ∃ g ∈ rangeGaps len p r, g.1 ≤ x ∧ ∀ z, g.2 = some z → x < z)
  | p, [], _, hp => by
    cases len with
    | none => simp [rangeGaps, hp]
    | some n => have := hx n rfl; simp [rangeGaps, hp, this, Nat.lt_of_le_of_lt hp this]
  | p, (a, b) :: r, hw, hp => by
    rw [rangeWfFrom_cons] at hw
    have hz : ∃ z, (x < z ↔ x < a) ∧ rangeGaps len p ((a, b) :: r) =
        (if p < z then [(p, some z)] else []) ++ rangeGaps len b r := by
      cases len with
      | none => exact ⟨a, Iff.rfl, rfl⟩
      | some n => exact ⟨min a n, by have := hx n rfl; omega, rfl⟩
    obtain ⟨z, hz1, hz2⟩ := hz
    rw [hz2, rangeHas_cons]
    have hhead : (∃ g ∈ (if p < z then [(p, some z)] else [] : List (Nat × Option Nat)),
        g.1 ≤ x ∧ ∀ y, g.2 = some y → x < y) ↔ x < a := by
      rw [← hz1]
      split
      · simp [hp]
      · simp; omega
    simp only [List.mem_append, or_and_right, exists_or]
    rw [hhead]
    by_cases hxb : x < b
    · have htail : ¬ ∃ g ∈ rangeGaps len b r, g.1 ≤ x ∧ ∀ z, g.2 = some z → x < z := by
        have hge : ∀ {q : Nat} {r : RangeSet}, rangeWfFrom (q + 1) r = true → ∀ g ∈ rangeGaps len q r, q ≤ g.1 := by
          intro q r
          induction r generalizing q with
          | nil =>
            intro _ g hg
            cases len with
            | none => simp [rangeGaps] at hg; simp [hg]
            | some n =>
              simp only [rangeGaps] at hg
              split at hg <;> simp at hg
              simp [hg]
          | cons i r ih =>
            intro hw g hg
            obtain ⟨c, d⟩ := i
            rw [rangeWfFrom_cons] at hw
            simp only [rangeGaps, List.mem_append] at hg
            rcases hg with hg | hg
            · split at hg <;> simp at hg <;> simp [hg]
            · have := ih hw.2.2 g hg; omega
        rintro ⟨g, hg, h1, -⟩
        have := hge hw.2.2 g hg
        omega
      have hr : rangeHas x r = false := by
        rw [Bool.eq_false_iff]
        intro c
        have := le_of_rangeHas hw.2.2 c; omega
      simp only [hr, Bool.or_false, Bool.and_eq_false_iff, decide_eq_false_iff_not, htail, or_false]
      omega
    · have ih := rangeGaps_spec len hx (p := b) (r := r) (rangeWfFrom_mono (by omega) hw.2.2) (by omega)
      rw [← ih]
      simp only [Bool.or_eq_false_iff, Bool.and_eq_false_iff, decide_eq_false_iff_not]
      constructor
      · intro h; exact .inr h.2
      · rintro (h | h)
        · omega
        · exact ⟨.inr hxb, h⟩

end Sys2Proof.Machine
end

