-- ==== Sys2Proof/Laws/Merge.lean ====
section
/-! SUPPORT. When the segment merge fails, R314 and R315, in the terms of the statements. -/

namespace Sys2Proof.Machine

/-- A boundary set with one more boundary. -/
theorem mem_bsetAdd (x b : Nat) : ∀ s : List Nat, x ∈ bsetAdd b s ↔ x = b ∨ x ∈ s
  | [] => by simp [bsetAdd]
  | c :: cs => by
    rw [bsetAdd]
    split
    · exact List.mem_cons
    · split
      · rename_i h
        simp [h]
      · rw [List.mem_cons, mem_bsetAdd x b cs, List.mem_cons, or_left_comm]

/-- A boundary set with those of a list. -/
theorem mem_bsetUnion (x : Nat) (bs : List Nat) : ∀ s : List Nat, x ∈ bsetUnion s bs ↔ x ∈ s ∨ x ∈ bs := by
  induction bs with
  | nil => intro s; simp [bsetUnion]
  | cons b bs ih =>
    intro s
    have := ih (bsetAdd b s)
    simp only [bsetUnion, List.foldl_cons] at this ⊢
    rw [this, mem_bsetAdd, List.mem_cons, or_assoc, or_left_comm]

/-- The boundaries that R314 adds for a piece are those it reveals. -/
theorem mem_pieceBounds (pc : Piece) (h : Hdr) (d : Bytes) (hl : pc.len = d.length) (b : Nat) :
    b ∈ pieceBounds pc h ↔ Reveals pc.so pc.last h d b := by
  unfold pieceBounds Reveals
  rw [List.mem_append, List.mem_append, or_assoc, hl]
  refine or_congr_right (or_congr ?_ ?_)
  · cases fi1 h.fi <;> by_cases hs : 0 < pc.so <;> simp [hs]
  · cases fi0 h.fi <;> cases pc.last <;> simp

/-- Some offset of a canonical range set is `len` or more. -/
theorem rangeReaches_iff (len : Nat) {r : RangeSet} (hw : rangeWf r = true) :
    rangeReaches r len = true ↔ ∃ x, len ≤ x ∧ rangeHas x r = true := by
  have pos : ∀ {lo : Nat} {r : RangeSet}, rangeWfFrom lo r = true → ∀ i ∈ r, i.1 < i.2 := by
    intro lo r
    induction r generalizing lo with
    | nil => simp
    | cons i r ih =>
      intro h j hj
      rw [rangeWfFrom_cons] at h
      rcases List.mem_cons.mp hj with rfl | hj
      · exact h.2.1
      · exact ih h.2.2 j hj
  simp only [rangeReaches, rangeHas, List.any_eq_true, Bool.and_eq_true, decide_eq_true_eq]
  constructor
  · rintro ⟨i, hi, hlt⟩
    have := pos hw i hi
    exact ⟨i.2 - 1, by omega, i, hi, by omega, by omega⟩
  · rintro ⟨x, hx, i, hi, _, h2⟩
    exact ⟨i, hi, by omega⟩

/-- An entry is inconsistent exactly where it holds a byte or a boundary at or beyond its known length. -/
theorem consistent_eq_false_iff {r : AmEntry} (hw : rangeWf r.rcvd = true) : r.consistent = false ↔
    ∃ len, r.len = some len ∧ ((∃ x, len ≤ x ∧ rangeHas x r.rcvd = true) ∨ ∃ b, len ≤ b ∧ b ∈ r.bset) := by
  unfold AmEntry.consistent
  cases h : r.len with
  | none => simp
  | some len =>
    simp only [Option.some.injEq, exists_eq_left', ← rangeReaches_iff len hw, Bool.and_eq_false_iff, Bool.not_eq_false',
      List.all_eq_false, decide_eq_true_eq, Nat.not_lt]
    exact or_congr_right ⟨fun ⟨b, hb, hl⟩ => ⟨b, hl, hb⟩, fun ⟨b, hl, hb⟩ => ⟨b, hb, hl⟩⟩

/-- `merge` fails exactly on a piece that contradicts the entry, R315. -/
theorem merge_eq_none_iff (old : AmEntry) (pc : Piece) (h : Hdr) (d : Bytes) (hl : pc.len = d.length)
    (hw : rangeWf old.rcvd = true) : merge old pc h d = none ↔ Contradicts old pc.so pc.last h d := by
  have hc := consistent_eq_false_iff (r := mergeRaw old pc h d) (rangeWf_rangeAdd pc.so (pc.so + pc.len) hw)
  simp only [mergeRaw, rangeHas_rangeAdd, mem_bsetUnion, mem_pieceBounds pc h d hl, hl, Bool.or_eq_true, Bool.and_eq_true,
    decide_eq_true_eq] at hc
  unfold merge Contradicts
  rw [hl]
  by_cases hk : pc.last = true ∧ old.len ≠ none ∧ old.len ≠ some (pc.so + d.length)
  · rw [if_pos hk]
    obtain ⟨h1, h2, h3⟩ := hk
    obtain ⟨len, hlen⟩ := Option.ne_none_iff_exists'.mp h2
    exact iff_of_true rfl (.inl ⟨h1, len, hlen, fun e => h3 (e ▸ hlen)⟩)
  · rw [if_neg hk]
    have hn : ¬ (pc.last = true ∧ ∃ len, old.len = some len ∧ len ≠ pc.so + d.length) := by
      rintro ⟨h1, len, h2, h3⟩
      exact hk ⟨h1, by simp [h2], by simpa [h2] using h3⟩
    rw [or_iff_right hn, ← hc]
    simp only [mergeRaw, hl]
    split <;> simp_all

end Sys2Proof.Machine
end

