-- ==== Sys2Proof/Laws/PerInstr.lean ====
section
/-! SUPPORT. Statements made of each command as syntax, one lemma per constructor of `Instr`. -/

namespace Sys2Proof.Laws.PayloadLength

/-- The header word of a well-formed command announces exactly its payload (R100, R101). -/
def Statement (i : Instr) : Prop := i.wf = true → plen i.header = i.payload.length

theorem nop (l : Lcid) (k : Sub) (m : Imm) : Statement (.nop l k m) := fun _ => plen_mkHeader_none _ _ _ _ rfl

theorem addBearer (l : Lcid) (k : Sub) (p : Bytes) : Statement (.addBearer l k p) :=
  fun h => plen_mkHeader_payload _ _ _ p rfl (of_decide_eq_true h)

theorem configure (l : Lcid) (k : Sub) (p : Bytes) : Statement (.configure l k p) :=
  fun h => plen_mkHeader_payload _ _ _ p rfl (of_decide_eq_true h)

theorem delBearer (l : Lcid) (k : Sub) (m : Imm) : Statement (.delBearer l k m) := fun _ => plen_mkHeader_none _ _ _ _ rfl

theorem reestablish (l : Lcid) (k : Sub) (m : Imm) : Statement (.reestablish l k m) := fun _ => plen_mkHeader_none _ _ _ _ rfl

theorem getMetrics (l : Lcid) (k : Sub) (m : Imm) : Statement (.getMetrics l k m) := fun _ => plen_mkHeader_none _ _ _ _ rfl

theorem getState (l : Lcid) (k : Sub) (m : Imm) : Statement (.getState l k m) := fun _ => plen_mkHeader_none _ _ _ _ rfl

theorem writeSdu (l : Lcid) (k : Sub) (p : Bytes) : Statement (.writeSdu l k p) :=
  fun h => plen_mkHeader_payload _ _ _ p rfl (of_decide_eq_true h)

theorem getBufferState (l : Lcid) (k : Sub) (m : Imm) : Statement (.getBufferState l k m) := fun _ => plen_mkHeader_none _ _ _ _ rfl

theorem readPdu (l : Lcid) (k : Sub) (m : Imm) : Statement (.readPdu l k m) := fun _ => plen_mkHeader_none _ _ _ _ rfl

theorem writePdu (l : Lcid) (k : Sub) (p : Bytes) : Statement (.writePdu l k p) :=
  fun h => plen_mkHeader_payload _ _ _ p rfl (of_decide_eq_true h)

theorem timerExpiry (l : Lcid) (k : Sub) (m : Imm) : Statement (.timerExpiry l k m) := fun _ => plen_mkHeader_none _ _ _ _ rfl

theorem snInwin (l : Lcid) (p : Bytes) : Statement (.snInwin l p) := fun h => plen_mkHeader_payload _ _ _ p rfl (of_decide_eq_true h)

theorem snInrange (l : Lcid) (p : Bytes) : Statement (.snInrange l p) := fun h => plen_mkHeader_payload _ _ _ p rfl (of_decide_eq_true h)

theorem snRel (l : Lcid) (p : Bytes) : Statement (.snRel l p) := fun h => plen_mkHeader_payload _ _ _ p rfl (of_decide_eq_true h)

theorem snBefore (l : Lcid) (p : Bytes) : Statement (.snBefore l p) := fun h => plen_mkHeader_payload _ _ _ p rfl (of_decide_eq_true h)

theorem hdrPack (l : Lcid) (k : Sub) (p : Bytes) : Statement (.hdrPack l k p) :=
  fun h => plen_mkHeader_payload _ _ _ p rfl (of_decide_eq_true h)

theorem hdrUnpack (l : Lcid) (k : Sub) (p : Bytes) : Statement (.hdrUnpack l k p) :=
  fun h => plen_mkHeader_payload _ _ _ p rfl (of_decide_eq_true h)

theorem statusPack (l : Lcid) (k : Sub) (p : Bytes) : Statement (.statusPack l k p) :=
  fun h => plen_mkHeader_payload _ _ _ p rfl (of_decide_eq_true h)

theorem statusUnpack (l : Lcid) (k : Sub) (p : Bytes) : Statement (.statusUnpack l k p) :=
  fun h => plen_mkHeader_payload _ _ _ p rfl (of_decide_eq_true h)

theorem statusCheck (l : Lcid) (k : Sub) (p : Bytes) : Statement (.statusCheck l k p) :=
  fun h => plen_mkHeader_payload _ _ _ p rfl (of_decide_eq_true h)

end Sys2Proof.Laws.PayloadLength
end

