-- ==== Sys2Proof/Laws/SnArith.lean ====
section
/-! SUPPORT. Positions on the circle of SNs (00_scope.md R10; 40_sn_arith.md R130). -/

namespace Sys2Proof.Machine

theorem rel_lt_of_pos {n : Nat} (h : 0 < n) (x b : Nat) : rel n x b < n := Nat.mod_lt _ h

/-- `rel` of two SNs without a remainder: the distance is taken directly or through the wrap. -/
theorem rel_eq_ite {n x b : Nat} (hx : x < n) (hb : b < n) : rel n x b = if b ≤ x then x - b else x + n - b := by
  unfold rel
  rw [Nat.mod_eq_of_lt hb]
  split
  · rw [show x + (n - b) = (x - b) + n by omega, Nat.add_mod_right, Nat.mod_eq_of_lt (by omega)]
  · rw [show x + (n - b) = x + n - b by omega, Nat.mod_eq_of_lt (by omega)]

@[simp] theorem rel_self {n b : Nat} (hb : b < n) : rel n b b = 0 := by simp [rel_eq_ite hb hb]

/-- The SN at distance `rel x b` after `b` is `x`. -/
theorem add_rel_mod {n x b : Nat} (hx : x < n) (hb : b < n) : (b + rel n x b) % n = x := by
  rw [rel_eq_ite hx hb]
  split
  · rw [show b + (x - b) = x by omega, Nat.mod_eq_of_lt hx]
  · rw [show b + (x + n - b) = x + n by omega, Nat.add_mod_right, Nat.mod_eq_of_lt hx]

/-- The distance of the SN `k` places after `b` is `k`. -/
theorem rel_of_add {n b k : Nat} (hb : b < n) (hk : k < n) : rel n ((b + k) % n) b = k := by
  have hn : 0 < n := by omega
  rw [rel_eq_ite (Nat.mod_lt _ hn) hb]
  by_cases h : b + k < n
  · rw [Nat.mod_eq_of_lt h]; simp
  · rw [show b + k = (b + k - n) + n by omega, Nat.add_mod_right, Nat.mod_eq_of_lt (by omega)]
    split <;> omega

/-- Equal distances from one base are equal SNs. -/
theorem rel_inj {n x y b : Nat} (hx : x < n) (hy : y < n) (hb : b < n) (h : rel n x b = rel n y b) : x = y := by
  rw [← add_rel_mod hx hb, ← add_rel_mod hy hb, h]

/-- `rel` reads its first SN modulo `n`. -/
theorem rel_mod_left (n x b : Nat) : rel n (x % n) b = rel n x b := by
  unfold rel; rw [Nat.mod_add_mod]

/-- Moving the base: the distance from `b` splits at an SN between. -/
theorem rel_add_rel {n x y b : Nat} (hx : x < n) (hy : y < n) (hb : b < n) (h : rel n y b ≤ rel n x b) :
    rel n x y = rel n x b - rel n y b := by
  rw [rel_eq_ite hx hb, rel_eq_ite hy hb] at *
  rw [rel_eq_ite hx hy]
  split_ifs at * <;> omega

theorem length_snRun (n a : Nat) : ∀ k, (snRun n a k).length = k
  | 0 => rfl
  | k + 1 => by simp [snRun, length_snRun n _ k]

/-- The SNs of a run: those up to `k - 1` places after `a`. -/
theorem mem_snRun {n : Nat} : ∀ {k a x : Nat}, a < n → k ≤ n → (x ∈ snRun n a k ↔ ∃ j < k, x = (a + j) % n)
  | 0, a, x, _, _ => by simp [snRun]
  | k + 1, a, x, ha, hk => by
    have hn : 0 < n := by omega
    rw [snRun, List.mem_cons, mem_snRun (a := modN n (a + 1)) (Nat.mod_lt _ hn) (by omega)]
    constructor
    · rintro (rfl | ⟨j, hj, rfl⟩)
      · exact ⟨0, by omega, by rw [Nat.add_zero, Nat.mod_eq_of_lt ha]⟩
      · exact ⟨j + 1, by omega, by rw [modN, Nat.mod_add_mod]; congr 1; omega⟩
    · rintro ⟨j, hj, rfl⟩
      cases j with
      | zero => left; rw [Nat.add_zero, Nat.mod_eq_of_lt ha]
      | succ j => right; exact ⟨j, by omega, by rw [modN, Nat.mod_add_mod]; congr 1; omega⟩

/-- The SNs of `[a, b)`: those before `b` counted from `a` (R10). -/
theorem mem_snInterval {n a b x : Nat} (ha : a < n) (hx : x < n) :
    x ∈ snInterval n a b ↔ rel n x a < rel n b a := by
  have hn : 0 < n := by omega
  rw [snInterval, mem_snRun ha (Nat.le_of_lt (rel_lt_of_pos hn b a))]
  constructor
  · rintro ⟨j, hj, rfl⟩
    rw [rel_of_add ha (Nat.lt_trans hj (rel_lt_of_pos hn b a))]; exact hj
  · intro h
    exact ⟨_, h, (add_rel_mod hx ha).symm⟩

/-- Every SN of an interval is an SN. -/
theorem lt_of_mem_snInterval {n a b x : Nat} (ha : a < n) (h : x ∈ snInterval n a b) : x < n := by
  have hn : 0 < n := by omega
  rw [snInterval, mem_snRun ha (Nat.le_of_lt (rel_lt_of_pos hn b a))] at h
  obtain ⟨j, -, rfl⟩ := h
  exact Nat.mod_lt _ hn

/-- Where the skip stops: at most `fuel` places on, every SN before it passes, and it stops at a failing SN if it did not run
out. -/
theorem snSkip_spec (n : Nat) (p : Nat → Bool) : ∀ (fuel t : Nat), t < n →
    ∃ m ≤ fuel, snSkip n p fuel t = (t + m) % n ∧ (∀ j < m, p ((t + j) % n) = true) ∧
      (m < fuel → p ((t + m) % n) = false)
  | 0, t, ht => ⟨0, le_refl _, by simp [snSkip, Nat.mod_eq_of_lt ht], by simp, by simp⟩
  | fuel + 1, t, ht => by
    have hn : 0 < n := by omega
    rw [snSkip]
    cases hp : p t
    · exact ⟨0, by omega, by simp [Nat.mod_eq_of_lt ht], by simp, fun _ => by simp [Nat.mod_eq_of_lt ht, hp]⟩
    · obtain ⟨m, hm, he, hall, hstop⟩ := snSkip_spec n p fuel ((t + 1) % n) (Nat.mod_lt _ hn)
      have hs : ∀ j, ((t + 1) % n + j) % n = (t + (j + 1)) % n := fun j => by
        rw [Nat.mod_add_mod]; congr 1; omega
      refine ⟨m + 1, by omega, by rw [← hs, ← he]; rfl, fun j hj => ?_, fun h => ?_⟩
      · cases j with
        | zero => simpa [Nat.mod_eq_of_lt ht] using hp
        | succ j => rw [← hs]; exact hall j (by omega)
      · rw [← hs]; exact hstop (by omega)

end Sys2Proof.Machine
end

