-- ==== Sys2Proof/Machine/Assembler.lean ====
section
/-! DEFINITION. The assembler: a line of text to the bytes of its command, operand sugar, and the pseudo-instructions
(30_encoding.md R113, R114; log 18). -/

namespace Sys2Proof.Machine

/-! ## Tokens and numbers -/

/-- A separator of a line: a space, a comma, or a curly bracket (character 123 or 125). -/
def asmSep (c : Char) : Bool := c == ' ' || c == ',' || c.toNat == 123 || c.toNat == 125

/-- The token being read joined to those read. -/
def asmFlush (acc : List Char × List String) : List String :=
  if acc.1.isEmpty then acc.2 else String.ofList acc.1 :: acc.2

/-- The tokens of a line. -/
def asmTokens (line : String) : List String :=
  asmFlush <| line.toList.foldr (fun c acc => if asmSep c then ([], asmFlush acc) else (c :: acc.1, acc.2)) ([], [])

/-- A digit of base 16. -/
def asmDigit (c : Char) : Option Nat :=
  if '0' ≤ c ∧ c ≤ '9' then some (c.toNat - 48)
  else if 'A' ≤ c ∧ c ≤ 'F' then some (c.toNat - 55)
  else if 'a' ≤ c ∧ c ≤ 'f' then some (c.toNat - 87)
  else none

/-- The digits of a number, the most significant first, after those worth `acc`. -/
def asmDigits (base acc : Nat) : List Char → Option Nat
  | [] => some acc
  | c :: cs => (asmDigit c).bind fun d => if d < base then asmDigits base (acc * base + d) cs else none

/-- A number below `bound`: decimal unless prefixed `0x` (R113). -/
def asmNumber (bound : Nat) (t : String) : Option Nat :=
  let value := match t.toList with
    | [] => none
    | '0' :: 'x' :: c :: cs => asmDigits 16 0 (c :: cs)
    | cs => asmDigits 10 0 cs
  value.bind fun v => if v < bound then some v else none

/-- Hex bytes without separators. -/
def asmHex : List Char → Option Bytes
  | [] => some []
  | a :: b :: cs => do
    let x ← asmDigit a
    let y ← asmDigit b
    let rest ← asmHex cs
    return BitVec.ofNat 8 (16 * x + y) :: rest
  | _ => none

/-- The hex bytes of a list of tokens. -/
def asmBytes (ts : List String) : Option Bytes := asmHex (ts.flatMap String.toList)

/-! ## Options -/

/-- A token `key=value` as its key and value. -/
def asmOption (t : String) : Option (String × String) :=
  match t.toList.dropWhile (· != '=') with
  | [] => none
  | _ :: v => some (String.ofList (t.toList.takeWhile (· != '=')), String.ofList v)

/-- The value of option `key`, a number below `bound`, or `dflt` where the line does not have it. -/
def asmGet (key : String) (bound dflt : Nat) (ts : List String) : Option Nat :=
  match (ts.filterMap asmOption).find? fun o => o.1 == key with
  | none => some dflt
  | some o => asmNumber bound o.2

/-- The options of a line are all among `keys`. -/
def asmKnown (keys : List String) (ts : List String) : Bool :=
  ts.all fun t => match asmOption t with
    | none => false
    | some o => keys.contains o.1

/-! ## Lines -/

/-- The OPC of a mnemonic, and the SUB that the opcode map fixes for it or 0 (R105). -/
def asmOpcode : String → Option (BitVec 6 × Nat)
  | "NOP" => some (0x00, 0)
  | "ADD_BEARER" => some (0x01, 0)
  | "CONFIGURE" => some (0x02, 0)
  | "DEL_BEARER" => some (0x03, 0)
  | "REESTABLISH" => some (0x04, 0)
  | "GET_METRICS" => some (0x05, 0)
  | "GET_STATE" => some (0x06, 0)
  | "WRITE_SDU" => some (0x08, 0)
  | "GET_BUFFER_STATE" => some (0x09, 0)
  | "READ_PDU" => some (0x0A, 0)
  | "WRITE_PDU" => some (0x0B, 0)
  | "TIMER_EXPIRY" => some (0x0C, 0)
  | "SN_INWIN" => some (0x10, 0)
  | "SN_INRANGE" => some (0x10, 1)
  | "SN_REL" => some (0x10, 2)
  | "SN_BEFORE" => some (0x10, 3)
  | "HDR_PACK" => some (0x11, 0)
  | "HDR_UNPACK" => some (0x12, 0)
  | "STATUS_PACK" => some (0x13, 0)
  | "STATUS_UNPACK" => some (0x14, 0)
  | "STATUS_CHECK" => some (0x15, 0)
  | _ => none

/-- The bytes of a command from its header fields and payload. -/
def asmWord (opc : BitVec 6) (lcid sub imm : Nat) (payload : Bytes) : Bytes :=
  headerBytes (mkHeader opc (BitVec.ofNat 5 lcid) (BitVec.ofNat 5 sub) (BitVec.ofNat 16 imm)) ++ payload

/-- The bytes of a command without operand sugar: `MNEMONIC [lcid=..] [sub=..] [imm=..] [payload=..]` (R113). The hex bytes
of `payload` go on to the end of the line. A field left out is 0, but for a SUB that the mnemonic fixes and an IMM that is
the payload length. -/
def asmGeneral (opc : BitVec 6) (sub : Nat) (ts : List String) : Option Bytes := do
  let opts := ts.takeWhile fun t => (asmOption t).map Prod.fst != some "payload"
  let payload ← match ts.drop opts.length with
    | [] => some []
    | t :: rest => asmBytes (((asmOption t).map Prod.snd).getD "" :: rest)
  let l ← asmGet "lcid" 32 0 opts
  let k ← asmGet "sub" 32 sub opts
  let imm ← asmGet "imm" 65536 payload.length opts
  if asmKnown ["lcid", "sub", "imm"] opts && decide (payload.length < 65536) then
    return asmWord opc l k imm payload
  else none

/-- The configuration block of `MODE, snw=.. [..]` (R107, R113). -/
def asmBlock : List String → Option Bytes
  | mode :: ts => do
    let m ← match mode with
      | "UM" => some 0
      | "AM" => some 1
      | _ => none
    let snw ← asmGet "snw" 256 0 ts
    let liw ← asmGet "liw" 256 0 ts
    let maxRetx ← asmGet "max_retx" 256 0 ts
    let tReord ← asmGet "t_reordering" 65536 0 ts
    let tProhibit ← asmGet "t_status_prohibit" 65536 0 ts
    let tPoll ← asmGet "t_poll_retransmit" 65536 0 ts
    let pollPdu ← asmGet "poll_pdu" 65536 0 ts
    let pollByte ← asmGet "poll_byte" 4294967296 0 ts
    let amW ← asmGet "am_w" 65536 0 ts
    if asmKnown ["snw", "liw", "max_retx", "t_reordering", "t_status_prohibit", "t_poll_retransmit", "poll_pdu",
        "poll_byte", "am_w"] ts && ts.any (fun t => (asmOption t).map Prod.fst == some "snw") then
      return put8 m ++ put8 snw ++ put8 liw ++ put8 maxRetx ++ put16 tReord ++ put16 tProhibit ++ put16 tPoll ++
        put16 pollPdu ++ put32 pollByte ++ put16 amW ++ put16 0
    else none
  | [] => none

/-- The SUB of a timer kind's name (R113, R360). -/
def asmTimer : String → Option Nat
  | "REORD" => some 0
  | "PROHIBIT" => some 1
  | "POLLRETX" => some 2
  | _ => none

/-- A line with operand sugar for bearer `l`, R113. -/
def asmSugar (mnemonic : String) (l : Nat) (ts : List String) : Option Bytes :=
  match mnemonic, ts with
  | "READ_PDU", [budget] => (asmNumber 65536 budget).map fun b => asmWord 0x0A l 0 b []
  | "TIMER_EXPIRY", [kind, gen] => do
    let k ← asmTimer kind
    let g ← asmNumber 65536 gen
    return asmWord 0x0C l k g []
  | "WRITE_SDU", ts => (asmBytes ts).bind fun p => if p.length < 65536 then some (asmWord 0x08 l 0 p.length p) else none
  | "WRITE_PDU", ts => (asmBytes ts).bind fun p => if p.length < 65536 then some (asmWord 0x0B l 0 p.length p) else none
  | "ADD_BEARER", ts => (asmBlock ts).map fun p => asmWord 0x01 l 0 p.length p
  | "CONFIGURE", ts => (asmBlock ts).map fun p => asmWord 0x02 l 0 p.length p
  | "RESET_BEARER", ts => (asmBlock ts).map fun p => asmWord 0x03 l 0 0 [] ++ asmWord 0x01 l 0 p.length p
  | m, [] => (asmOpcode m).bind fun o => if o.1 = 0x00 ∨ o.1 = 0x10 then none else some (asmWord o.1 l o.2 0 [])
  | _, _ => none

/-- SN_INRXWIN: SN_INWIN with the reordering window `2^(w-1)`, R114. -/
def asmInRxWin (w base sn : Nat) : Bytes :=
  let p := put8 w ++ put8 0 ++ put32 base ++ put32 (2 ^ (w - 1)) ++ put32 sn
  asmWord 0x10 0 0 p.length p

/-- The bytes of a line: one command, or the commands of a pseudo-instruction (R113, R114). -/
def assemble (line : String) : Option Bytes :=
  match asmTokens line with
  | ["SN_INRXWIN", w, base, sn] => do
    let w ← asmNumber 33 w
    let b ← asmNumber 4294967296 base
    let x ← asmNumber 4294967296 sn
    return asmInRxWin w b x
  | m :: t :: ts =>
    match asmNumber 32 t with
    | some l => asmSugar m l ts
    | none => (asmOpcode m).bind fun o => asmGeneral o.1 o.2 (t :: ts)
  | [m] => (asmOpcode m).bind fun o => asmGeneral o.1 o.2 []
  | [] => none

/-- DRAIN, R114: the host repeats READ_PDU until the result is empty. It is a host loop and not a command; `fuel` is how many
times the host is ready to repeat it. -/
def drain (l : Lcid) (budget : Imm) : Nat → State → Next
  | 0, s => .next s
  | fuel + 1, s =>
    match exec (.readPdu l 0 budget) s with
    | .next t => if (t.responses.getLast?.map Response.result) = some [] then .next t else drain l budget fuel t
    | o => o

end Sys2Proof.Machine
end

