-- ==== Sys2Proof/Tests/Harness.lean ====
section
/-! SUPPORT. Small states for the tests. -/

namespace Sys2Proof.Tests

open Sys2Proof.Machine

/-! ## Helpers -/

/-- The code and the result of a response. -/
structure Answer where
  code : Code
  result : Bytes
  deriving DecidableEq, Repr

/-- The state a meaning answered. -/
def outcome : Next → State
  | .next t => t
  | _ => State.reset

/-- A meaning whose outcome is not the reset state answered that outcome. -/
theorem next_of_outcome {o : Next} {t : State} (h : outcome o = t) (ht : t ≠ State.reset) : o = .next t := by
  cases o with
  | next u => exact congrArg _ h
  | fault r => exact absurd h.symm ht
  | refused r => exact absurd h.symm ht

/-- The state after a few commands. -/
def run (s : State) (is : List Instr) : State := is.foldl (fun s i => outcome (exec i s)) s

/-- The response to the last of a few commands that run from reset. -/
def answerTo (is : List Instr) (i : Instr) : Option Response := (outcome (exec i (run State.reset is))).responses.getLast?

/-- The code and result of a command on reset. -/
def stateless (i : Instr) : Option Answer := (answerTo [] i).map fun r => ⟨r.code, r.result⟩

/-- A configuration block: mode, snw, max_retx and am_window_size, and the timers of the P2 configuration. -/
def block (mode snw maxRetx amW : BitVec 8) : Bytes :=
  [mode, snw, 0, maxRetx, 0, 0x23, 0, 0x0A, 0, 0x2D, 0, 0, 0, 0, 0, 0, 0, amW, 0, 0]

/-- The parameters that R6 gives as defaults. -/
abbrev std : Params := Config.defaultParams

/-- The configuration of section 2, T-U1. -/
def umBlock : Bytes := [0x00, 0x0A] ++ List.replicate 18 0

/-- The P2 configuration of section 0. -/
def amBlock : Bytes := [0x01, 0x0A, 0x00, 0x04, 0x00, 0x23, 0x00, 0x0A, 0x00, 0x2D] ++ List.replicate 10 0

/-! ## States -/

/-- Bearer 1: UM, 5-bit SNs. -/
def um : State := run State.reset [.addBearer 1 0 (block 0 5 0 0)]

/-- Bearer 1 with two SDUs queued. -/
def umQueued : State := run um [.writeSdu 1 0 [1, 2, 3], .writeSdu 1 0 [4, 5]]

/-- Bearer 1 after SN 2 has arrived first: SNs 0 and 1 are missing and the reordering timer runs. -/
def umGap : State := run um [.writePdu 1 0 [0x02, 0xAA]]

/-- Bearer 2: AM, max_retx 1, a window of 2 SNs. -/
def am : State := run State.reset [.addBearer 2 0 (block 1 10 1 2)]

/-- Bearer 2 with two SDUs queued. -/
def amQueued : State := run am [.writeSdu 2 0 [1, 2, 3, 4], .writeSdu 2 0 [5, 6, 7, 8]]

/-- Bearer 2 with SNs 0 and 1 sent: the window is full, and SN 1 polled. -/
def amSent : State := run amQueued [.readPdu 2 0 6, .readPdu 2 0 100]

/-- A status: ACK_SN 2, NACK_SN 0. Bits 0 000 0000000010 1, 0000000000 0 0, 00000. -/
def nack0 : Bytes := [0x00, 0x0A, 0x00, 0x00]

/-- Bearer 2 after the peer has NACKed SN 0 and acknowledged SN 1. -/
def amNacked : State := run amSent [.writePdu 2 0 nack0]

/-- Bearer 2 after SN 0 has been retransmitted. -/
def amResent : State := run amNacked [.readPdu 2 0 100]

/-- Bearer 2 after SN 0 has been NACKed again, beyond max_retx. -/
def amDead : State := run amResent [.writePdu 2 0 nack0]

/-- Bearer 2 after SN 1 has arrived first, with a poll. -/
def amGap : State := run am [.writePdu 2 0 [0xA0, 0x01, 0x55]]

/-- Bearer 2 after the byte at offset 2 of SN 0 has arrived. -/
def amPart : State := run am [.writePdu 2 0 [0xC0, 0x00, 0x00, 0x02, 0x77]]

/-- Bearer 2 after its status has been sent: the prohibit timer runs. -/
def amReported : State := run amGap [.readPdu 2 0 2]

/-- Bearer 3: AM, the P2 configuration, after SNs 1 and 3 have arrived: SN 2 is missing in `[VR_X, VR_H)`. -/
def amGaps : State :=
  run State.reset [.addBearer 3 0 amBlock, .writePdu 3 0 [0x80, 0x01, 0x55], .writePdu 3 0 [0x80, 0x03, 0x55]]

/-- Bearer 3 after one PDU with a poll, with an SDU queued again. -/
def amBusy : State :=
  run State.reset [.addBearer 3 0 amBlock, .writeSdu 3 0 [1], .readPdu 3 0 3, .writeSdu 3 0 [2]]

/-- Bearer 2 after the poll timer has expired and one byte of SN 1 has been retransmitted with a poll. -/
def amHalfResent : State := run amSent [.timerExpiry 2 2 1, .readPdu 2 0 5]

/-- Bearer 2 after the poll timer has expired and SN 1 has been retransmitted with a poll. -/
def amWholeResent : State := run amSent [.timerExpiry 2 2 1, .readPdu 2 0 9]

/-- A status: ACK_SN 1, NACK_SN 0. Bits 0 000 0000000001 1, 0000000000 0 0, 00000. -/
def nackFirst : Bytes := [0x00, 0x06, 0x00, 0x00]

/-- A status: ACK_SN 1, NACK_SN 0 twice, for its first byte and for its third. -/
def nackHoles : Bytes := packStatus ⟨1, [⟨0, true, 0, 0⟩, ⟨0, true, 2, 2⟩]⟩

/-- Bearer 3: AM, the P2 configuration, after SN 0 with the bytes of `sdu` has been sent and answered with `status`, and an SDU of
one byte queued. -/
def amAnswered (sdu status : Bytes) : State :=
  run State.reset [.addBearer 3 0 amBlock, .writeSdu 3 0 sdu, .readPdu 3 0 100, .writePdu 3 0 status, .writeSdu 3 0 [9]]

/-- Bearer 1 after SN 1 has arrived first: filling SN 0 closes the gap. -/
def umHole : State := run um [.writePdu 1 0 [0x01, 0xAA]]

/-! ## What the states have in common -/

/-- Bearer `l` is active in mode `m`, meets the invariant, and has the shapes the spec gives it. -/
def Ready (s : State) (l : Lcid) (m : Mode) : Prop :=
  (s.slot l).active = true ∧ (s.slot l).cfg.mode = m ∧ (s.slot l).Inv ∧ (s.slot l).Shapes s.params

/-- `Ready`, computed: who the bearer is, its invariant by sending and receiving side, and its shapes. -/
def isReady (s : State) (l : Lcid) (m : Mode) : Bool :=
  let v := s.slot l
  let sends := decide (v.CfgLegal ∧ v.SnBounded ∧ v.Canonical) && decide v.AmTxInv
  let receives := decide v.UmRxInv && decide v.AmRxInv
  (v.active && decide (v.cfg.mode = m)) && ((sends && receives) && decide (v.Shapes s.params))

theorem ready_of {s : State} {l : Lcid} {m : Mode} (h : isReady s l m = true) : Ready s l m := by
  simpa only [isReady, Ready, Slot.Inv, Bool.and_eq_true, decide_eq_true_eq, and_assoc] using h

/-- The bearers that the witnesses are about. -/
inductive Subject where
  | um | umQueued | umGap | umHole
  | am | amQueued | amSent | amNacked | amResent | amDead | amGap | amPart | amHalfResent | amWholeResent
  | amGaps | amBusy | amTiny | amOpen | amHoles
  deriving DecidableEq, Repr

def Subject.state : Subject → State
  | .um => Tests.um
  | .umQueued => Tests.umQueued
  | .umGap => Tests.umGap
  | .umHole => Tests.umHole
  | .am => Tests.am
  | .amQueued => Tests.amQueued
  | .amSent => Tests.amSent
  | .amNacked => Tests.amNacked
  | .amResent => Tests.amResent
  | .amDead => Tests.amDead
  | .amGap => Tests.amGap
  | .amPart => Tests.amPart
  | .amHalfResent => Tests.amHalfResent
  | .amWholeResent => Tests.amWholeResent
  | .amGaps => Tests.amGaps
  | .amBusy => Tests.amBusy
  | .amTiny => amAnswered [1] nackFirst
  | .amOpen => amAnswered [1, 2, 3, 4] nackFirst
  | .amHoles => amAnswered [1, 2, 3, 4] nackHoles

def Subject.mode : Subject → Mode
  | .um | .umQueued | .umGap | .umHole => .um
  | _ => .am

def Subject.lcid : Subject → Lcid
  | .um | .umQueued | .umGap | .umHole => 1
  | .amGaps | .amBusy | .amTiny | .amOpen | .amHoles => 3
  | _ => 2

def subjects : List Subject :=
  [.um, .umQueued, .umGap, .umHole, .am, .amQueued, .amSent, .amNacked, .amResent, .amDead, .amGap, .amPart, .amHalfResent,
    .amWholeResent, .amGaps, .amBusy, .amTiny, .amOpen, .amHoles]

theorem subjects_ready : ∀ x ∈ subjects, isReady x.state x.lcid x.mode = true := by decide +kernel

/-- Each of these bearers meets the invariant and has the shapes the spec gives it. -/
theorem Subject.ready (x : Subject) : Ready x.state x.lcid x.mode :=
  ready_of (subjects_ready x (by cases x <;> decide))

end Sys2Proof.Tests
end

