-- ==== Sys2Proof/Tests/Bearer.lean ====
section
/-! SUPPORT. Tests of the system, lifecycle and transport commands against 95_test_vectors.md. -/

namespace Sys2Proof.Tests

open Sys2Proof.Machine

/-- Lean finishes checking all that stands before a type: this one keeps the theorems of the tests from waiting all at once. -/
inductive BearerFence where
  | fence

theorem test_nop : stateless (.nop 0 0 0) = some ⟨.ok, []⟩ ∧ stateless (.nop 0 0 1) = some ⟨.badField, []⟩ := by
  decide +kernel

theorem test_add_bearer :
    stateless (.addBearer 1 0 umBlock) = some ⟨.ok, []⟩ ∧
      answerTo [.addBearer 1 0 umBlock] (.addBearer 1 0 umBlock) = some ⟨.bearerExists, [], []⟩ ∧
      stateless (.addBearer 1 0 (block 1 5 4 0)) = some ⟨.configRejected, []⟩ := by decide +kernel

/-- A change of SN width stops the reordering timer. -/
theorem test_configure :
    answerTo [.addBearer 2 0 umBlock, .writePdu 2 0 [0x00, 0x02, 0xA2]] (.configure 2 0 (block 0 5 0 0)) =
      some ⟨.ok, [], [.timerStop 2 .reord 1]⟩ := by decide +kernel

theorem test_del_bearer : (outcome (exec (.delBearer 1 0 0) (run State.reset [.addBearer 1 0 umBlock]))).responses =
    [⟨.ok, [], []⟩, ⟨.ok, [], []⟩] := by rfl

theorem test_reestablish :
    answerTo [.addBearer 2 0 umBlock, .writePdu 2 0 [0x00, 0x02, 0xA2]] (.reestablish 2 0 0) =
      some ⟨.ok, [], [.timerStop 2 .reord 1]⟩ := by decide +kernel

/-- T-R3, row 7. -/
theorem test_get_metrics :
    answerTo [.addBearer 2 0 umBlock, .writePdu 2 0 [0x00, 0x00, 0xA0], .writePdu 2 0 [0x00, 0x02, 0xA2],
        .timerExpiry 2 0 1] (.getMetrics 2 0 0) =
      some ⟨.ok, put32 0 ++ put32 2 ++ put32 0 ++ put32 2 ++ put32 1 ++ put32 0, []⟩ := by decide +kernel

/-- T-A1, row 5. -/
theorem test_get_state :
    answerTo [.addBearer 4 0 amBlock, .writeSdu 4 0 [0x11, 0x22], .readPdu 4 0 10] (.getState 4 0 0) =
      some ⟨.ok, [0x01, 0x0A, 0x0B, 0x10, 0x00, 0x01] ++ List.replicate 15 0 ++ [0x01] ++ List.replicate 18 0, []⟩ := by
  decide +kernel

theorem test_write_sdu :
    stateless (.writeSdu 1 0 [1]) = some ⟨.noBearer, []⟩ ∧ stateless (.writeSdu 1 0 []) = some ⟨.sduSize, []⟩ := by
  decide +kernel

/-- T-U1, row 4. -/
theorem test_get_buffer_state :
    answerTo [.addBearer 1 0 umBlock, .writeSdu 1 0 [1, 2, 3], .writeSdu 1 0 [0xB0, 0xB1]] (.getBufferState 1 0 0) =
      some ⟨.ok, [0, 0, 0, 9], []⟩ := by decide +kernel

/-- T-U1, row 5. -/
theorem test_read_pdu_um :
    answerTo [.addBearer 1 0 umBlock, .writeSdu 1 0 [1, 2, 3], .writeSdu 1 0 [0xB0, 0xB1]] (.readPdu 1 0 8) =
      some ⟨.ok, [0x0C, 0x00, 0x00, 0x30, 1, 2, 3, 0xB0], []⟩ := by decide +kernel

/-- T-A1, row 4. -/
theorem test_read_pdu_am :
    answerTo [.addBearer 4 0 amBlock, .writeSdu 4 0 [0x11, 0x22]] (.readPdu 4 0 10) =
      some ⟨.ok, [0xA0, 0x00, 0x11, 0x22], [.timerStart 4 .pollretx 1 45]⟩ := by decide +kernel

/-- T-R3, row 3. -/
theorem test_write_pdu_um :
    answerTo [.addBearer 2 0 ([0x00, 0x0A, 0, 0, 0, 0x23] ++ List.replicate 14 0),
        .writePdu 2 0 [0x00, 0x00, 0xA0]] (.writePdu 2 0 [0x00, 0x02, 0xA2]) =
      some ⟨.ok, [], [.timerStart 2 .reord 1 35]⟩ := by decide +kernel

/-- V3: a malformed status is dropped. -/
theorem test_write_pdu_am :
    answerTo [.addBearer 4 0 amBlock] (.writePdu 4 0 [0x0B, 0x77, 0x6D, 0xD6, 0xE5, 0x6F, 0x56, 0xF8]) =
      some ⟨.ok, [], [.drop 4 .malformedStatusPdu]⟩ := by decide +kernel

/-- T-R3, row 5. -/
theorem test_timer_expiry :
    answerTo [.addBearer 2 0 umBlock, .writePdu 2 0 [0x00, 0x00, 0xA0], .writePdu 2 0 [0x00, 0x02, 0xA2]]
      (.timerExpiry 2 0 1) = some ⟨.ok, [], [.deliverSdu 2 [0xA2]]⟩ := by decide +kernel

end Sys2Proof.Tests
end

