-- ==== Sys2Proof/Tests/Codec.lean ====
section
/-! SUPPORT. Tests of the validator and codec commands against 95_test_vectors.md. -/

namespace Sys2Proof.Tests

open Sys2Proof.Machine

/-- Lean finishes checking all that stands before a type: this one keeps the theorems of the tests from waiting all at once. -/
inductive CodecFence where
  | fence

/-- Section 3.1. -/
theorem test_sn_commands :
    stateless (.snInwin 0 [0x0A, 0, 0, 0, 0x01, 0x25, 0, 0, 0x02, 0x00, 0, 0, 0x03, 0x24]) = some ⟨.ok, [1]⟩ ∧
      stateless (.snInwin 0 [0x0A, 0, 0, 0, 0x01, 0x25, 0, 0, 0x02, 0x00, 0, 0, 0x03, 0x25]) = some ⟨.ok, [0]⟩ ∧
      stateless (.snInrange 0 [0x0A, 0, 0, 0, 0x01, 0x25, 0, 0, 0x03, 0x25, 0, 0, 0x03, 0x25]) = some ⟨.ok, [1]⟩ ∧
      stateless (.snInrange 0 [0x0A, 0, 0, 0, 0x01, 0x25, 0, 0, 0x03, 0x25, 0, 0, 0x03, 0x26]) = some ⟨.ok, [0]⟩ ∧
      stateless (.snRel 0 [0x0A, 0, 0, 0, 0x01, 0x25, 0, 0, 0, 0, 0, 0, 0, 0xCD]) = some ⟨.ok, [0, 0, 0x03, 0xA8]⟩ ∧
      stateless (.snBefore 0 [0x0A, 0, 0, 0, 0x03, 0xE8, 0, 0, 0, 3, 0, 0, 0x03, 0xFC]) = some ⟨.ok, [1]⟩ ∧
      stateless (.snBefore 0 [0x0A, 0, 0, 0, 0, 5, 0, 0, 0, 5, 0, 0, 0, 7]) = some ⟨.ok, [0]⟩ := by decide +kernel

/-- T-C1 and section 3.2. -/
theorem test_hdr_pack :
    stateless (.hdrPack 0 1 [0x02, 0xA5, 0x01, 0, 0, 0, 0xAB]) = some ⟨.ok, [0x0A, 0xA5, 0xAB]⟩ ∧
      stateless (.hdrPack 0 2 [0x00, 0x02, 0x17, 0x03, 0xE8, 0x00, 0x66]) = some ⟨.ok, [0xD8, 0x02, 0x83, 0xE8, 0x66]⟩ := by
  decide +kernel

/-- T-C1 and T-C3. -/
theorem test_hdr_unpack :
    stateless (.hdrUnpack 0 1 [0x0A, 0xA5, 0xAB]) = some ⟨.ok, [0x02, 0xA5, 0x01, 0, 0, 0, 0, 2]⟩ ∧
      stateless (.hdrUnpack 0 0 [0x25, 0x41, 0x42]) = some ⟨.malformedHeader, []⟩ := by decide +kernel

/-- V1 and T-S1. -/
theorem test_status_pack :
    stateless (.statusPack 0 0 [0x00, 0x1E, 0, 0]) = some ⟨.ok, [0x00, 0x78]⟩ ∧
      stateless (.statusPack 0 0 [0x00, 0x0C, 0x00, 0x02, 0x00, 0x08, 0, 0, 0, 0, 0, 0x00, 0x0A, 0, 0, 0, 0, 0]) =
        some ⟨.ok, [0x00, 0x32, 0x04, 0x40, 0x50]⟩ := by decide +kernel

/-- V1 and V3. -/
theorem test_status_unpack :
    stateless (.statusUnpack 0 0 [0x00, 0x78]) = some ⟨.ok, [0x00, 0x1E, 0, 0]⟩ ∧
      stateless (.statusUnpack 0 0 [0x0B, 0x77, 0x6D, 0xD6, 0xE5, 0x6F, 0x56, 0xF8]) = some ⟨.malformedStatus, []⟩ := by
  decide +kernel

/-- V4. -/
theorem test_status_check :
    stateless (.statusCheck 0 0 [0x01, 0x25, 0x03, 0x25, 0x0C, 0x94]) = some ⟨.ok, [0]⟩ ∧
      stateless (.statusCheck 0 0 [0x01, 0x25, 0x03, 0x25, 0x0C, 0x98]) = some ⟨.ok, [2]⟩ := by decide +kernel

end Sys2Proof.Tests
end

