-- ==== Sys2Proof/Tests/Slice0.lean ====
section
/-! SUPPORT. Tests: the well-formedness checks, and commands and responses written out as words. -/

namespace Sys2Proof.Tests

open Sys2Proof.Machine

/-- Lean finishes checking all that stands before a type: this one keeps the theorems of the tests from waiting all at once. -/
inductive Slice0Fence where
  | fence

/-! ## Well-formedness -/

/-- Each constructor with a payload refuses one that IMM cannot announce. -/
theorem test_wf_long_payload : ∀ p : Bytes, p.length = 65536 → ∀ i ∈
    [Instr.addBearer 1 0 p, .configure 1 0 p, .writeSdu 1 0 p, .writePdu 1 0 p, .snInwin 0 p, .snInrange 0 p, .snRel 0 p,
      .snBefore 0 p, .hdrPack 0 0 p, .hdrUnpack 0 0 p, .statusPack 0 0 p, .statusUnpack 0 0 p, .statusCheck 0 0 p],
    i.wf = false := by
  intro p h
  simp [Instr.wf, Instr.payload, h]

theorem test_wf_longest_payload : (Instr.writeSdu 1 0 (List.replicate 65535 0)).wf = true := by
  simp only [Instr.wf, Instr.payload, List.length_replicate]
  rfl

/-! ## Decoding: header words from R100 and R105, written out field by field -/

/-- OPC 0 to 6: bits 31..26 the opcode, 25..21 LCID 1 (or 2), 20..16 SUB, 15..0 IMM. -/
theorem test_decode_lifecycle :
    decodeTableWord 32 0b000000_00000_00000_0000000000000000 = some (.nop 0 0 0) ∧
      decodeTableWord 32 0b000001_00001_00000_0000000000000000 = some (.addBearer 1 0 []) ∧
      decodeTableWord 48 0xBEEF_08400002 = some (.configure 2 0 [0xEF, 0xBE]) ∧
      decodeTableWord 32 0b000011_11111_00000_0000000000000000 = some (.delBearer 31 0 0) ∧
      decodeTableWord 32 0b000100_00001_00001_0000000000000011 = some (.reestablish 1 1 3) ∧
      decodeTableWord 32 0b000101_00001_00000_1000000000000000 = some (.getMetrics 1 0 0x8000) ∧
      decodeTableWord 32 0b000110_10000_00000_0000000000000000 = some (.getState 16 0 0) := by decide +kernel

/-- OPC 8 to 12. -/
theorem test_decode_transport :
    decodeTableWord 40 0xAB_20200001 = some (.writeSdu 1 0 [0xAB]) ∧
      decodeTableWord 32 0b001001_00001_00000_0000000000000000 = some (.getBufferState 1 0 0) ∧
      decodeTableWord 32 0b001010_00001_00000_0000000000001000 = some (.readPdu 1 0 8) ∧
      decodeTableWord 56 0xA20200_2C400003 = some (.writePdu 2 0 [0x00, 0x02, 0xA2]) ∧
      decodeTableWord 32 0b001100_00010_00001_0000000000000001 = some (.timerExpiry 2 1 1) := by decide +kernel

/-- OPC 0x10 to 0x15. -/
theorem test_decode_validator_and_codec :
    decodeTableWord 40 0x0A_40000001 = some (.snInwin 0 [0x0A]) ∧
      decodeTableWord 40 0x0A_40010001 = some (.snInrange 0 [0x0A]) ∧
      decodeTableWord 40 0x0A_40020001 = some (.snRel 0 [0x0A]) ∧
      decodeTableWord 40 0x0A_40030001 = some (.snBefore 0 [0x0A]) ∧
      decodeTableWord 40 0x02_44010001 = some (.hdrPack 0 1 [0x02]) ∧
      decodeTableWord 56 0x424125_48000003 = some (.hdrUnpack 0 0 [0x25, 0x41, 0x42]) ∧
      decodeTableWord 64 0x00001E00_4C000004 = some (.statusPack 0 0 [0x00, 0x1E, 0x00, 0x00]) ∧
      decodeTableWord 48 0x7800_50000002 = some (.statusUnpack 0 0 [0x00, 0x78]) ∧
      decodeTableWord 48 0x2501_54000002 = some (.statusCheck 0 0 [0x01, 0x25]) := by decide +kernel

theorem test_decode_reserved :
    decodeTableWord 32 0x1C000000 = none ∧ decodeTableWord 32 0x34000000 = none ∧ decodeTableWord 32 0x58000000 = none ∧
      decodeTableWord 32 0xFC000000 = none ∧ decodeTableWord 32 0x40040000 = none := by decide +kernel

/-- Section 0.1, rows 1 and 2: a reserved opcode is answered, and the stream goes on behind it. -/
theorem test_step_reserved :
    outcome (step { State.reset with input := [0x1C, 0x00, 0x00, 0x00, 0x00] }) =
      { State.reset with input := [0x00], responses := [⟨.invalidOpcode, [], []⟩] } := by decide +kernel

/-- Section 0.1: response bytes of rows 2 and 5. -/
theorem test_response_bytes :
    (⟨.invalidOpcode, [], []⟩ : Response).bytes = [0x01, 0x00, 0x00, 0x00, 0x00] ∧
      (⟨.ok, [], [.timerStart 2 .reord 1 35]⟩ : Response).bytes =
        [0x00, 0x00, 0x00, 0x00, 0x01, 0x03, 0x02, 0x00, 0x00, 0x01, 0x00, 0x23] := by decide +kernel

theorem test_fetch : outcome (step (State.reset.withFetchWord 40 0xAB20200001)) =
    outcome (exec (.writeSdu 1 0 [0xAB]) State.reset) := by decide +kernel

/-! ## The assembler, R113 and R114 -/

theorem test_assemble :
    assemble "ADD_BEARER 2, UM, snw=10, t_reordering=35" =
        some ([0x04, 0x40, 0x00, 0x14, 0x00, 0x0A, 0x00, 0x00, 0x00, 0x23] ++ List.replicate 14 0) ∧
      assemble "READ_PDU 1, 8" = some [0x28, 0x20, 0x00, 0x08] ∧
      assemble "TIMER_EXPIRY 2, REORD, 1" = some [0x30, 0x40, 0x00, 0x01] := by decide +kernel

end Sys2Proof.Tests
end

