-- ==== Sys2Proof/Tests/WitnessCodec.lean ====
section
/-! SUPPORT. For each obligation about the codecs, the validator and the whole machine: concrete values that meet its
hypotheses. -/

namespace Sys2Proof.Tests

open Sys2Proof.Machine

/-- Lean finishes checking all that stands before a type: this one keeps the theorems of the tests from waiting all at once. -/
inductive WitnessCodecFence where
  | fence

/-- A header with one LI. -/
def hdr1 : Hdr := ⟨5, 0, false, false, false, 0, [1]⟩

/-- An AMD segment that ends at the last offset a segment can have. -/
def hdrSeg : Hdr := ⟨1023, 3, true, true, true, 32766, []⟩

/-- A header with an LI, a segment at the last offset, and a PDU that unpacks with R1 bits and LI padding set. -/
theorem wit_HeaderRoundTrip :
    (hdr1.valid std .umd5 .w11 = true ∧ hdr1.lis.sum < [0xAA, 0xBB].length) ∧
      (hdrSeg.valid std .amd .w15 = true ∧ hdrSeg.lis.sum < [0x66].length ∧ [0x66].length ≤ Config.maxAmData ∧
        hdrSeg.so + [0x66].length ≤ Config.maxAmData) ∧
      unpackHdr std .umd10 .w11 [0xE4, 0x05, 0x00, 0x1F, 0xAA, 0xBB] = some (hdr1, 4) := by decide +kernel

/-- The status of `nack0`. -/
def status0 : Status := ⟨2, [⟨0, false, 0, 0⟩]⟩

theorem wit_StatusRoundTrip :
    (⟨2, [⟨0, true, 1, 0x7FFF⟩]⟩ : Status).valid std = true ∧ unpackStatus std nack0 = some status0 ∧
      nack0.length = statusLen status0.nacks ∧
      ∀ p, 15 + 12 * 1 + 30 * 0 ≤ p → p < 8 * nack0.length → wireBit nack0 p = false := by
  refine ⟨by decide +kernel, by decide +kernel, by decide +kernel, fun p h1 h2 => ?_⟩
  have : ∀ q < 32, 27 ≤ q → wireBit nack0 q = false := by decide +kernel
  exact this p h2 h1

/-- LCID 1, SUB 3, 7 and 8. Then a valid record; payloads one byte short of a record, one byte short of its LI, and with flag bit 5
set; an invalid record for each of an SN too wide and an LI of 0; a PDU with every R1 and padding bit set; and one that does not
unpack (T-C3). -/
theorem wit_HdrCommandsRoundTrip :
    ((1 : Lcid) ≠ 0 ∧ (∀ k ∈ [3, 7], (BitVec.ofNat 5 k).toNat % 4 = 3) ∧ 8 ≤ (8 : Sub).toNat) ∧ std.Legal ∧
      (hdr1.valid std .umd10 .w11 = true ∧ hdr1.lis.sum < [0xAA, 0xBB].length) ∧
      (hdrSeg.valid std .amd .w15 = true ∧ hdrSeg.so + [0x66].length ≤ Config.maxAmData) ∧
      (([0, 5, 0, 0, 0] : Bytes).length < 6 ∧ ([0, 5, 0, 0, 0, 1, 0] : Bytes).length < 6 + 2 * u8 [0, 5, 0, 0, 0, 1, 0] 5 ∧
        32 ≤ u8 [0, 5, 0x20, 0, 0, 0] 2) ∧
      (({ hdr1 with sn := 1024 } : Hdr).valid std .umd10 .w11 = false ∧
        ({ hdr1 with lis := [0] } : Hdr).valid std .umd10 .w11 = false) ∧
      ([0xE4, 0x05, 0x00, 0x1F, 0xAA, 0xBB].length = (packHdr .umd10 .w11 hdr1 ++ [0xAA, 0xBB]).length ∧
        ∀ x < 48, ¬ x < 3 → ¬ (8 * (packHdr .umd10 .w11 hdr1).length ≤ x + 4 ∧ x < 8 * (packHdr .umd10 .w11 hdr1).length) →
          wireBit [0xE4, 0x05, 0x00, 0x1F, 0xAA, 0xBB] x = wireBit (packHdr .umd10 .w11 hdr1 ++ [0xAA, 0xBB]) x) ∧
      unpackHdr std .umd5 .w11 [0x25, 0x41, 0x42] = none := by decide +kernel

/-- LCID 1 and SUB 1. Then a valid record; payloads a byte short, a byte long, and with flag bit 1 set; an invalid record; a status
with its padding set and two octets behind it; and bytes that do not unpack. -/
theorem wit_StatusCommandsRoundTrip :
    ((1 : Lcid) ≠ 0 ∧ (1 : Sub) ≠ 0) ∧ std.Legal ∧ status0.valid std = true ∧
      ((∀ b ∈ [[0, 2, 0], [0, 2, 0, 0, 0], [0, 2, 0, 1, 0, 0, 0, 0, 0, 0]], b.length ≠ 4 + 7 * u16be b 2) ∧
        ∃ j < u16be [0, 2, 0, 1, 0, 0, 2, 0, 0, 0, 0] 2, 2 ≤ u8 [0, 2, 0, 1, 0, 0, 2, 0, 0, 0, 0] (4 + 7 * j + 2)) ∧
      ((⟨1024, []⟩ : Status).valid std = false ∧ 1024 < 65536 ∧ ([] : List Nack).length < 65536) ∧
      ((packStatus status0).length ≤ [0x00, 0x0A, 0x00, 0x1F, 0xFF, 0xFF].length ∧
        ∀ x < 15 + 12 * 1 + 30 * 0, wireBit [0x00, 0x0A, 0x00, 0x1F, 0xFF, 0xFF] x = wireBit (packStatus status0) x) ∧
      unpackStatus std [0x0B, 0x77, 0x6D, 0xD6, 0xE5, 0x6F, 0x56, 0xF8] = none := by decide +kernel

/-- The widest window, at 293 and at 0; a window one too wide; SNs out of range; 3 bytes; LCID 1 and SUB 1. -/
theorem wit_StatusCheckClassifies :
    (293 < 1024 ∧ 805 < 1024 ∧ rel 1024 805 293 ≤ 512) ∧ rel 1024 512 0 ≤ 512 ∧
      ¬ (293 < 1024 ∧ 806 < 1024 ∧ rel 1024 806 293 ≤ 512) ∧ ¬ (1024 < 1024 ∧ 0 < 1024 ∧ rel 1024 0 1024 ≤ 512) ∧
      unpackStatus std [0x0C, 0x94] = some ⟨805, []⟩ ∧ unpackStatus std [0xFF] = none ∧ ([0, 0, 0] : Bytes).length < 4 ∧
      (1 : Lcid) ≠ 0 ∧ (1 : Sub) ≠ 0 := by decide +kernel

/-- Payloads with `w`, `bound` and SNs at the edges of what each command accepts. -/
theorem wit_SnCommandsAnswer :
    ((1 : Lcid) ≠ 0 ∨ (List.replicate 14 0 : Bytes).length ≠ 14) ∧
      (∀ q ∈ [put8 5 ++ put8 0 ++ put32 0 ++ put32 0 ++ put32 31, put8 5 ++ put8 0 ++ put32 31 ++ put32 31 ++ put32 0,
          put8 18 ++ put8 0 ++ put32 262143 ++ put32 262144 ++ put32 262143],
        q.length = 14 ∧ u8 q 0 ∈ [5, 10, 12, 16, 18] ∧ u8 q 1 = 0 ∧ u32be q 2 < 2 ^ u8 q 0 ∧ u32be q 10 < 2 ^ u8 q 0 ∧
          u32be q 6 ≤ 2 ^ u8 q 0) ∧
      (∀ q ∈ [put8 7 ++ put8 0 ++ put32 0 ++ put32 0 ++ put32 0, put8 5 ++ put8 1 ++ put32 0 ++ put32 0 ++ put32 0,
          put8 5 ++ put8 0 ++ put32 32 ++ put32 0 ++ put32 0, put8 5 ++ put8 0 ++ put32 0 ++ put32 0 ++ put32 32],
        q.length = 14 ∧ (u8 q 0 ∉ [5, 10, 12, 16, 18] ∨ u8 q 1 ≠ 0 ∨ 2 ^ u8 q 0 ≤ u32be q 2 ∨ 2 ^ u8 q 0 ≤ u32be q 10)) ∧
      (2 ^ 5 < 33 ∧ (2 ^ 5 ≤ 32) ∧ (1 ≠ 0)) := by decide +kernel

theorem wit_SnArithmeticLaws : 1024 = 2 ^ 10 ∧ 1023 < 1024 ∧ (3 : Nat) ≠ 1023 := by decide

theorem wit_ResponseBytesAreUnambiguous :
    ([] : Bytes).length < 65536 ∧ (65535 : Nat) < 65536 ∧
    (⟨.ok, [1], [.deliverSdu 1 [2], .notifyMaxRetx 2 1023, .drop 3 .malformedHeader]⟩ : Response).Fits := by
  refine ⟨by decide, by decide, by decide, by decide, fun ev h => ?_⟩
  simp only [List.mem_cons, List.not_mem_nil, or_false] at h
  rcases h with rfl | rfl | rfl <;> simp

/-! ## The whole machine -/

/-- Bearer 2 of `amDead` is the only active one. -/
theorem amDead_all (l : Lcid) (h : (amDead.slot l).active = true) :
    (amDead.slot l).Inv ∧ (amDead.slot l).Shapes amDead.params := by
  have : ∀ l : Lcid, (amDead.slot l).active = true → l = 2 := by decide +kernel
  rw [this l h]
  exact Subject.amDead.ready.2.2

/-- A state that meets the invariant, and a step from it. -/
theorem wit_EveryStepKeepsInv :
    ({ amDead with input := [0, 0, 0, 0] } : State).Inv ∧
      (decode ({ amDead with input := [0, 0, 0, 0] } : State).input).isSome = true :=
  ⟨fun l h => (amDead_all l h).1, by decide +kernel⟩

theorem wit_EveryStepKeepsShapes :
    ({ amDead with input := [0, 0, 0, 0] } : State).Shapes ∧
      (decode ({ amDead with input := [0, 0, 0, 0] } : State).input).isSome = true :=
  ⟨fun l h => (amDead_all l h).2, by decide +kernel⟩

theorem wit_CommandsOnOtherBearersCommute :
    (Instr.writeSdu 1 0 [1]).lcid ≠ (Instr.delBearer 2 0 0).lcid := by decide

/-- Two states that differ in what an inactive slot holds. -/
theorem wit_InactiveContentsAreUnobservable :
    State.Indistinguishable um (um.setSlot 5 { um.slot 5 with vtS := 7 }) ∧
      (um.setSlot 5 { um.slot 5 with vtS := 7 }).slot 5 ≠ um.slot 5 := by
  refine ⟨⟨⟨rfl, rfl, ?_⟩, rfl, rfl, rfl⟩, ?_⟩ <;> decide +kernel

/-- REORD is started by the first PDU beyond a gap, and is stopped by its own current expiry. -/
theorem wit_TimerBitsFollowTheRequests :
    ((um.slot 1).active = true ∧ (umGap.slot 1).active = true ∧
        outcome (exec (.writePdu 1 0 [0x02, 0xAA]) um) = umGap ∧
        umGap.responses = um.responses ++ [⟨.ok, [], [.timerStart 1 .reord 1 35]⟩]) ∧
      timerKindOf 0 = some .reord ∧ (umGap.tags 1).get .reord = 1 := by decide +kernel

/-- A received poll sets the trigger, and sending the status clears it. -/
theorem wit_StatusTriggerHasItsCauses :
    (outcome (exec (.writePdu 2 0 [0xA0, 0x01, 0x55]) am) = amGap ∧ (am.slot 2).active = true ∧
        (am.slot 2).statusTriggered = false ∧ (amGap.slot 2).statusTriggered = true) ∧
      ((run amGap [.readPdu 2 0 2]).slot 2).active = true ∧
      ((run amGap [.readPdu 2 0 2]).slot 2).statusTriggered = false := by decide +kernel

end Sys2Proof.Tests
end

