-- ==== Sys2Proof/Tests/WitnessReceive.lean ====
section
/-! SUPPORT. For each obligation about reception: concrete states and PDUs that meet its hypotheses, one for each clause. -/

namespace Sys2Proof.Tests

open Sys2Proof.Machine

/-- Lean finishes checking all that stands before a type: this one keeps the theorems of the tests from waiting all at once. -/
inductive WitnessReceiveFence where
  | fence

/-! ## Pieces -/

/-- The reception entry that a PDU with header `h` meets. -/
def entryOf (v : Slot) (h : Hdr) : AmEntry := (mapGet h.sn v.rxa).getD AmEntry.empty

/-- A PDU with header `h` and data field `d` contradicts what is held of its SN. -/
def contradicts (v : Slot) (h : Hdr) (d : Bytes) : Prop :=
  Contradicts (entryOf v h) (if h.rf then h.so else 0) (!h.rf || h.lsf) h d

/-- `contradicts`, computed for entries in canonical form. -/
theorem contradicts_iff {v : Slot} {h : Hdr} {d : Bytes} (hw : rangeWf (entryOf v h).rcvd = true) :
    contradicts v h d ↔ merge (entryOf v h) ⟨if h.rf then h.so else 0, d.length, !h.rf || h.lsf⟩ h d = none :=
  (merge_eq_none_iff (entryOf v h) ⟨if h.rf then h.so else 0, d.length, !h.rf || h.lsf⟩ h d rfl hw).symm

/-- Bearer 2 after the last byte of SN 0, at offset 3, has arrived: its length is known to be 4. -/
def amLast : State := run am [.writePdu 2 0 [0xC0, 0x00, 0x80, 0x03, 0x88]]

/-- PDUs of SN 0 that contradict `amLast`, with header and header length: a whole PDU of 3 bytes, a last segment that ends at 5, a
segment with the byte at offset 4, and one of 4 bytes with a boundary behind them. -/
def contradicting : List (Bytes × Hdr × Nat) :=
  [([0x80, 0x00, 1, 2, 3], ⟨0, 0, false, false, false, 0, []⟩, 2),
    ([0xC0, 0x00, 0x80, 0x04, 1], ⟨0, 0, true, false, true, 4, []⟩, 4),
    ([0xC8, 0x00, 0x00, 0x04, 1], ⟨0, 1, true, false, false, 4, []⟩, 4),
    ([0xC0, 0x00, 0x00, 0x00, 1, 2, 3, 4], ⟨0, 0, true, false, false, 0, []⟩, 4)]

/-- Each of these PDUs unpacks, lies in the window, and contradicts what is held. -/
theorem amLast_contradicted : Ready amLast 2 .am ∧ ∀ x ∈ contradicting, wireBit x.1 0 = true ∧
    unpackHdr amLast.params .amd (amLast.slot 2).cfg.liw x.1 = some x.2 ∧
    inside (amLast.slot 2).n x.2.1.sn (amLast.slot 2).vrR (amLast.slot 2).amW = true ∧
    contradicts (amLast.slot 2) x.2.1 (x.1.drop x.2.2) := by
  have h : ∀ x ∈ contradicting, wireBit x.1 0 = true ∧
      unpackHdr amLast.params .amd (amLast.slot 2).cfg.liw x.1 = some x.2 ∧
      inside (amLast.slot 2).n x.2.1.sn (amLast.slot 2).vrR (amLast.slot 2).amW = true ∧
      rangeWf (entryOf (amLast.slot 2) x.2.1).rcvd = true ∧
      merge (entryOf (amLast.slot 2) x.2.1) ⟨if x.2.1.rf then x.2.1.so else 0, (x.1.drop x.2.2).length, !x.2.1.rf || x.2.1.lsf⟩
        x.2.1 (x.1.drop x.2.2) = none := by decide +kernel
  refine ⟨ready_of (by decide +kernel), fun x hx => ?_⟩
  obtain ⟨hb, hu, hi, hw, hm⟩ := h x hx
  exact ⟨hb, hu, hi, (contradicts_iff hw).mpr hm⟩

/-! ## UM -/

/-- No header, no byte, a cut header, a PDU that contradicts what is held, a malformed status (V3), an ACK_SN beyond VT_S, and a
NACK_SN beyond ACK_SN. More PDUs that contradict what is held are in `amLast_contradicted`. -/
theorem wit_MalformedPduOnlyDrops :
    (Ready um 1 .um ∧ Ready amPart 2 .am ∧ Ready amSent 2 .am) ∧
      unpackHdr um.params (um.slot 1).cfg.fmt (um.slot 1).cfg.liw [] = none ∧
      (wireBit [0x80] 0 = true ∧ unpackHdr amPart.params .amd (amPart.slot 2).cfg.liw [0x80] = none) ∧
      (wireBit [0x80, 0x00, 0x55] 0 = true ∧
        unpackHdr amPart.params .amd (amPart.slot 2).cfg.liw [0x80, 0x00, 0x55] =
          some (⟨0, 0, false, false, false, 0, []⟩, 2) ∧
        inside (amPart.slot 2).n 0 (amPart.slot 2).vrR (amPart.slot 2).amW = true ∧
        merge ((mapGet 0 (amPart.slot 2).rxa).getD AmEntry.empty) (pieceOf ⟨0, 0, false, false, false, 0, []⟩ 1)
          ⟨0, 0, false, false, false, 0, []⟩ [0x55] = none) ∧
      (wireBit [0x0B, 0x77, 0x6D, 0xD6, 0xE5, 0x6F, 0x56, 0xF8] 0 = false ∧
        unpackStatus amPart.params [0x0B, 0x77, 0x6D, 0xD6, 0xE5, 0x6F, 0x56, 0xF8] = none) ∧
      (unpackStatus amPart.params [0x00, 0x04] = some ⟨1, []⟩ ∧
        ¬ (rel (amPart.slot 2).n 1 (amPart.slot 2).vtA ≤ rel (amPart.slot 2).n (amPart.slot 2).vtS (amPart.slot 2).vtA)) ∧
      unpackStatus amSent.params [0x00, 0x07, 0xFF, 0x80] = some ⟨1, [⟨1023, false, 0, 0⟩]⟩ ∧
      ¬ (rel (amSent.slot 2).n 1023 (amSent.slot 2).vtA < rel (amSent.slot 2).n 1 (amSent.slot 2).vtA) :=
  ⟨⟨Subject.um.ready, Subject.amPart.ready, Subject.amSent.ready⟩, by decide +kernel⟩

/-- Bearer 1 holds one byte of an SDU that goes on at SN 1, the SN it expects. -/
def umPart : State := run um [.writePdu 1 0 [0x40, 1]]

/-- The same, but what is held goes on at SN 5. -/
def umStale : State := umPart.setSlot 1 { umPart.slot 1 with rsm := ⟨some [1], 5⟩ }

/-- The same as `umPart`, with an SDU limit that one byte more exceeds. -/
def umFull : State := { umPart with params := { std with maxSduBytes := 1 } }

/-- Nothing held, a part held for the SN, a part held for another SN, and a part that another byte makes too long; each with the
continuation that ends its SDU and with the one that does not. Then the whole SDU, the first piece, and a PDU of two elements. -/
theorem wit_UmInOrderPduIsDelivered :
    ((Ready um 1 .um ∧ Ready umPart 1 .um) ∧ Ready umStale 1 .um ∧ Ready umFull 1 .um) ∧
      (∀ s ∈ [umPart, umStale, umFull], ∀ fi ∈ [2, 3], (s.slot 1).vrUr = (s.slot 1).vrUh ∧ 1 = (s.slot 1).vrUr ∧
        (s.slot 1).rsm.part = some [1] ∧
        unpackHdr s.params (s.slot 1).cfg.fmt (s.slot 1).cfg.liw [BitVec.ofNat 8 (64 * fi + 1), 2] =
          some (⟨1, BitVec.ofNat 2 fi, false, false, false, 0, []⟩, 1)) ∧
      ((umPart.slot 1).rsm.next = 1 ∧ (umStale.slot 1).rsm.next ≠ 1 ∧ (umFull.slot 1).rsm.next = 1 ∧
        umFull.params.maxSduBytes < ([1] ++ [2] : Bytes).length ∧ ([1] ++ [2] : Bytes).length ≤ umPart.params.maxSduBytes) ∧
      (∀ fi ∈ [0, 1, 2, 3], (um.slot 1).vrUr = (um.slot 1).vrUh ∧ 0 = (um.slot 1).vrUr ∧ (um.slot 1).rsm.part = none ∧
        unpackHdr um.params (um.slot 1).cfg.fmt (um.slot 1).cfg.liw [BitVec.ofNat 8 (64 * fi), 0xAA] =
          some (⟨0, BitVec.ofNat 2 fi, false, false, false, 0, []⟩, 1)) ∧
      unpackHdr umPart.params (umPart.slot 1).cfg.fmt (umPart.slot 1).cfg.liw [0xA1, 0x00, 0x10, 2, 3] =
        some (⟨1, 2, false, false, false, 0, [1]⟩, 3) :=
  ⟨⟨⟨Subject.um.ready, ready_of (by decide +kernel)⟩, ready_of (by decide +kernel), ready_of (by decide +kernel)⟩,
    by decide +kernel⟩

/-- What the model delivers and holds on those PDUs, by R237 and R238. -/
theorem test_reassembly :
    (∀ x ∈ [(umPart, 2, [[1, 2]], none), (umPart, 3, [], some [1, 2]), (umStale, 2, [], none), (umStale, 3, [], none),
        (umFull, 2, [], none), (umFull, 3, [], none)],
      let t := outcome (exec (.writePdu 1 0 [BitVec.ofNat 8 (64 * x.2.1 + 1), 2]) x.1)
      t.responses.getLast? = some ⟨.ok, [], x.2.2.1.map (.deliverSdu 1)⟩ ∧ (t.slot 1).rsm.part = x.2.2.2) ∧
      (outcome (exec (.writePdu 1 0 [0xA1, 0x00, 0x10, 2, 3]) umPart)).responses.getLast? =
        some ⟨.ok, [], [.deliverSdu 1 [1, 2], .deliverSdu 1 [3]]⟩ := by decide +kernel

/-- The header of a UM PDU with SN `sn` and one whole SDU. -/
def umHdr (sn : Nat) : Hdr := ⟨sn, 0, false, false, false, 0, []⟩

/-- The two premises of the general clause: the SN is not held, and is not behind VR_UR in the window. -/
def inserted (v : Slot) (sn : Nat) : Bool :=
  decide (sn ∉ mapKeys v.rxu ∧ ¬ (rel v.n sn v.umBase < v.cfg.umW ∧ rel v.n sn v.umBase < rel v.n v.vrUr v.umBase))

/-- The nearest and the farthest SN that leave a first gap. Then, with SNs 0 and 1 or SN 0 missing: the SN that closes the gap in
front of a held one, one of two missing ones, and an SN so far on that VR_UR is pushed over lost ones. -/
theorem wit_UmReceptionMovesTheWindow :
    (Ready um 1 .um ∧ Ready umGap 1 .um ∧ Ready umHole 1 .um) ∧ (um.slot 1).vrUr = (um.slot 1).vrUh ∧
      (∀ j ∈ [1, 15], j < (um.slot 1).cfg.umW ∧ j = ((um.slot 1).vrUh + j) % (um.slot 1).n ∧
        unpackHdr um.params (um.slot 1).cfg.fmt (um.slot 1).cfg.liw [BitVec.ofNat 8 j, 0xAA] = some (umHdr j, 1)) ∧
      (unpackHdr umHole.params (umHole.slot 1).cfg.fmt (umHole.slot 1).cfg.liw [0x00, 0xAA] = some (umHdr 0, 1) ∧
        inserted (umHole.slot 1) 0 = true ∧ mapKeys (umHole.slot 1).rxu = [1] ∧ (umHole.slot 1).vrUr = 0) ∧
      (inserted (umGap.slot 1) 0 = true ∧ mapKeys (umGap.slot 1).rxu = [2] ∧ (umGap.slot 1).vrUr = 0) ∧
      unpackHdr umGap.params (umGap.slot 1).cfg.fmt (umGap.slot 1).cfg.liw [0x12, 0xAA] = some (umHdr 18, 1) ∧
      inserted (umGap.slot 1) 18 = true ∧
      (umGap.slot 1).cfg.umW ≤ rel (umGap.slot 1).n (umGap.slot 1).vrUr (rel (umGap.slot 1).n 19 (umGap.slot 1).cfg.umW) :=
  ⟨⟨Subject.um.ready, Subject.umGap.ready, Subject.umHole.ready⟩, by decide +kernel⟩

/-- An SN that is held, and the two ends of `[VR_UH - UM_W, VR_UR)`. -/
theorem wit_UmRepeatedPduOnlyCounts :
    (Ready umGap 1 .um ∧ Ready um 1 .um) ∧
      (unpackHdr umGap.params (umGap.slot 1).cfg.fmt (umGap.slot 1).cfg.liw [0x02, 0xAA] = some (umHdr 2, 1) ∧
        2 ∈ mapKeys (umGap.slot 1).rxu) ∧
      (unpackHdr um.params (um.slot 1).cfg.fmt (um.slot 1).cfg.liw [0x10, 0xAA] = some (umHdr 16, 1) ∧
        0 < rel (um.slot 1).n (um.slot 1).vrUr (um.slot 1).umBase ∧ 16 = ((um.slot 1).umBase + 0) % (um.slot 1).n) ∧
      unpackHdr um.params (um.slot 1).cfg.fmt (um.slot 1).cfg.liw [0x1F, 0xAA] = some (umHdr 31, 1) ∧
      15 < rel (um.slot 1).n (um.slot 1).vrUr (um.slot 1).umBase ∧ 31 = ((um.slot 1).umBase + 15) % (um.slot 1).n :=
  ⟨⟨Subject.umGap.ready, Subject.um.ready⟩, by decide +kernel⟩

theorem wit_UmExpiryForcesLoss : Ready umGap 1 .um ∧ (umGap.slot 1).running.reord = true :=
  ⟨Subject.umGap.ready, by decide +kernel⟩

/-! ## AM -/

/-- As `WitnessReceiveFence`. -/
inductive WitnessAmReceiveFence where
  | fence

/-- The header of a whole AM PDU with SN `sn`, poll bit `p` and one whole SDU. -/
def amHdr (sn : Nat) (p : Bool) : Hdr := ⟨sn, 0, false, p, false, 0, []⟩

/-- Bearer 2 holds one byte of an SDU that goes on at SN 1, the SN it expects. -/
def amHeld : State := run am [.writePdu 2 0 [0x88, 0x00, 1]]

/-- The same, but what is held goes on at SN 5. -/
def amStale : State := amHeld.setSlot 2 { amHeld.slot 2 with rsm := ⟨some [1], 5⟩ }

/-- The same as `amHeld`, with an SDU limit that one byte more exceeds. -/
def amFull : State := { amHeld with params := { std with maxSduBytes := 1 } }

/-- Nothing held, a part held for the SN, a part held for another SN, and a part that another byte makes too long; each with the
continuation that ends its SDU and with the one that does not. -/
theorem wit_AmInOrderPduIsDelivered :
    ((Ready am 2 .am ∧ Ready amHeld 2 .am) ∧ Ready amStale 2 .am ∧ Ready amFull 2 .am) ∧
      (unpackHdr am.params .amd (am.slot 2).cfg.liw [0xA0, 0x00, 0x55] = some (amHdr 0 true, 2) ∧
        (am.slot 2).vrR = (am.slot 2).vrH ∧ 0 = (am.slot 2).vrR ∧ (am.slot 2).rsm.part = none) ∧
      (∀ s ∈ [amHeld, amStale, amFull], ∀ fi ∈ [2, 3], (s.slot 2).vrR = (s.slot 2).vrH ∧ 1 = (s.slot 2).vrR ∧
        (s.slot 2).rsm.part = some [1] ∧
        unpackHdr s.params .amd (s.slot 2).cfg.liw [BitVec.ofNat 8 (0x80 + 8 * fi), 1, 2] =
          some (⟨1, BitVec.ofNat 2 fi, false, false, false, 0, []⟩, 2)) ∧
      (amHeld.slot 2).rsm.next = 1 ∧ (amStale.slot 2).rsm.next ≠ 1 ∧
      amFull.params.maxSduBytes < ([1] ++ [2] : Bytes).length ∧ ([1] ++ [2] : Bytes).length ≤ amHeld.params.maxSduBytes :=
  ⟨⟨⟨Subject.am.ready, ready_of (by decide +kernel)⟩, ready_of (by decide +kernel), ready_of (by decide +kernel)⟩,
    by decide +kernel⟩

/-- The premises of the general clause, for a PDU with header `h` and data field `d`: its SN is in the window, it contradicts
nothing that is held, and it brings a byte that is not. -/
def merges (v : Slot) (h : Hdr) (d : Bytes) : Bool :=
  let so := if h.rf then h.so else 0
  decide (rel v.n h.sn v.vrR < v.amW) && rangeWf (entryOf v h).rcvd &&
    (merge (entryOf v h) ⟨so, d.length, !h.rf || h.lsf⟩ h d).isSome &&
    (List.range d.length).any fun x => !rangeHas (so + x) (entryOf v h).rcvd

/-- `merges` says so in the terms of the statement. -/
theorem merges_spec {v : Slot} {h : Hdr} {d : Bytes} (hm : merges v h d = true) :
    rel v.n h.sn v.vrR < v.amW ∧ ¬ contradicts v h d ∧
      ∃ x, (if h.rf then h.so else 0) ≤ x ∧ x < (if h.rf then h.so else 0) + d.length ∧
        rangeHas x (entryOf v h).rcvd = false := by
  simp only [merges, Bool.and_eq_true, decide_eq_true_eq, List.any_eq_true, List.mem_range, Bool.not_eq_true'] at hm
  obtain ⟨⟨⟨hr, hw⟩, hs⟩, x, hx, hn⟩ := hm
  refine ⟨hr, fun hc => ?_, _, Nat.le_add_right _ x, by omega, hn⟩
  rw [(contradicts_iff hw).mp hc] at hs
  cases hs

/-- The last SN of a window of 2. Then: a whole PDU that closes a gap in front of a held one, one that leaves another gap behind it,
a segment merged into what is held of its SN, and the last segment, which tells the length. -/
theorem wit_AmReceptionMergesAndAdvances :
    (Ready am 2 .am ∧ Ready amGap 2 .am ∧ Ready amGaps 3 .am ∧ Ready amPart 2 .am) ∧
      (unpackHdr am.params .amd (am.slot 2).cfg.liw [0xA0, 0x01, 0x55] = some (amHdr 1 true, 2) ∧
        (am.slot 2).vrR = (am.slot 2).vrH ∧ 1 < (am.slot 2).amW ∧ 1 = ((am.slot 2).vrR + 1) % (am.slot 2).n) ∧
      (unpackHdr amGap.params .amd (amGap.slot 2).cfg.liw [0x80, 0x00, 0x55] = some (amHdr 0 false, 2) ∧
        merges (amGap.slot 2) (amHdr 0 false) [0x55] = true ∧ (amGap.slot 2).rxComplete 1 = true ∧
        (amGap.slot 2).vrX = 2) ∧
      (merges (amGaps.slot 3) (amHdr 0 false) [0x55] = true ∧ (amGaps.slot 3).rxComplete 1 = true ∧
        (amGaps.slot 3).rxComplete 2 = false ∧ (amGaps.slot 3).vrX = 2) ∧
      (unpackHdr amPart.params .amd (amPart.slot 2).cfg.liw [0xC0, 0x00, 0x00, 0x00, 0x55, 0x66] =
          some (⟨0, 0, true, false, false, 0, []⟩, 4) ∧
        merges (amPart.slot 2) ⟨0, 0, true, false, false, 0, []⟩ [0x55, 0x66] = true) ∧
      unpackHdr amPart.params .amd (amPart.slot 2).cfg.liw [0xC0, 0x00, 0x80, 0x03, 0x88] =
        some (⟨0, 0, true, false, true, 3, []⟩, 4) ∧
      merges (amPart.slot 2) ⟨0, 0, true, false, true, 3, []⟩ [0x88] = true :=
  ⟨⟨Subject.am.ready, Subject.amGap.ready, Subject.amGaps.ready, Subject.amPart.ready⟩, by decide +kernel⟩

/-- The first SN beyond a window of 2, and a second copy of a PDU that is held. -/
theorem wit_AmRepeatedPduOnlyCounts :
    Ready amGap 2 .am ∧
      (unpackHdr amGap.params .amd (amGap.slot 2).cfg.liw [0x80, 0x02, 0x55] = some (amHdr 2 false, 2) ∧
        (amGap.slot 2).amW ≤ rel (amGap.slot 2).n 2 (amGap.slot 2).vrR) ∧
      unpackHdr amGap.params .amd (amGap.slot 2).cfg.liw [0xA0, 0x01, 0x55] = some (amHdr 1 true, 2) ∧
      mapGet 1 (amGap.slot 2).rxa = some ⟨[(0, 0x55)], [(0, 1)], [], some 1, some false, some false⟩ ∧
      (∀ x, x < 3 - 2 → rangeHas (0 + x) [(0, 1)] = true) ∧ rangeWf [(0, 1)] = true ∧
      ¬ contradicts (amGap.slot 2) (amHdr 1 true) [0x55] := by
  refine ⟨Subject.amGap.ready, by decide +kernel, by decide +kernel, by decide +kernel, by decide +kernel, by decide +kernel, ?_⟩
  rw [contradicts_iff (by decide +kernel)]
  decide +kernel

theorem wit_StatusGeneratorIsValid : Ready amGap 2 .am ∧ 2 ≤ 2 := ⟨Subject.amGap.ready, by decide⟩

/-- `amGaps` under parameters that admit one NACK record. -/
def amGapsFew : State := { amGaps with params := { std with maxNacks := 1 } }

/-- SNs of which nothing, one byte and all has arrived; a status with all its records, one cut by the budget, and one that names as
many records as MAX_NACKS lets it. -/
theorem wit_StatusReportsEverySn :
    (Ready amGap 2 .am ∧ Ready amPart 2 .am ∧ Ready amGaps 3 .am ∧ Ready amGapsFew 3 .am) ∧
      (mapGet 0 (amGap.slot 2).rxa = none ∧ (mapGet 1 (amGap.slot 2).rxa).map AmEntry.complete = some true ∧
        (mapGet 0 (amPart.slot 2).rxa).map AmEntry.complete = some false ∧
        ((mapGet 0 (amPart.slot 2).rxa).map AmEntry.len = some none)) ∧
      ((buildStatus std (amGaps.slot 3) 100).ack = 4 ∧ (amGaps.slot 3).vrH = 4 ∧
        (buildStatus std (amGaps.slot 3) 2).ack = 0 ∧ (buildStatus std (amGaps.slot 3) 4).ack = 2) ∧
      (buildStatus amGapsFew.params (amGapsFew.slot 3) 100).ack = 2 :=
  ⟨⟨Subject.amGap.ready, Subject.amPart.ready, Subject.amGaps.ready, ready_of (by decide +kernel)⟩, by decide +kernel⟩

end Sys2Proof.Tests
end

