-- ==== Sys2Proof/Tests/WitnessSystem.lean ====
section
/-! SUPPORT. For each obligation about the command stream, the lifecycle commands and the codecs: concrete values that meet
its hypotheses, one for each clause, at the boundaries of its ranges. -/

namespace Sys2Proof.Tests

open Sys2Proof.Machine

/-- Lean finishes checking all that stands before a type: this one keeps the theorems of the tests from waiting all at once. -/
inductive WitnessSystemFence where
  | fence

/-! ## The stream -/

/-- No byte, three bytes, and a header that announces one byte with none behind it. -/
theorem wit_StepWaitsForAWholeCommand :
    State.reset.input.length < 4 ∧ ({ State.reset with input := [0, 0, 0] } : State).input.length < 4 ∧
      ([] : Bytes).length < plen 0x20200001#32 := by decide +kernel

theorem wit_StepRunsTheDecodedCommand :
    (Instr.writeSdu 1 0 [0xAB]).wf = true ∧
      (({ State.reset with input := [0x20, 0x20, 0x00, 0x01, 0xAB, 0x00] } : State).input =
        encode (.writeSdu 1 0 [0xAB]) ++ [0x00]) ∧
      (decode [0x28, 0x20, 0x00, 0x08, 0x00]).map (fun r => (r.1.toOption, r.2)) =
        some (some (.readPdu 1 0 8), [0x00]) := by decide +kernel

/-- OPC 0x07, 0x0D, 0x0F, 0x16 and 0x3F; SN SUB 4 and 31. -/
theorem wit_ReservedOpcodesAreRefused :
    (∀ x ∈ [0x1C000000, 0x34000000, 0x3C000000, 0x58000000, 0xFC000000], ∃ h, h = BitVec.ofNat 32 x ∧
      ([] : Bytes).length = plen h ∧
        ((hdrOpc h).toNat = 0x07 ∨ (0x0D ≤ (hdrOpc h).toNat ∧ (hdrOpc h).toNat ≤ 0x0F) ∨ 0x16 ≤ (hdrOpc h).toNat)) ∧
    ∀ x ∈ [0x40040001, 0x401F0001], ∃ h, h = BitVec.ofNat 32 x ∧
      ([0] : Bytes).length = plen h ∧ (hdrOpc h).toNat = 0x10 ∧ 4 ≤ (hdrSub h).toNat := by
  simp only [exists_eq_left]
  decide +kernel

theorem wit_DecodeAndEncodeAgree :
    (Instr.snBefore 31 [7]).wf = true ∧
      (decode [0x43, 0xE3, 0x00, 0x01, 0x07]).map (fun r => (r.1.toOption, r.2)) = some (some (.snBefore 31 [7]), []) := by
  decide +kernel

/-- A command that is refused. -/
theorem wit_EveryCommandAnswersOnceAndRefusesAtomically :
    (answerTo [] (.getState 1 0 0)).map Response.code = some .noBearer := by decide +kernel

theorem wit_ReadOnlyCommandsAreIdempotent : (Instr.getState 1 0 0).readOnly = true := by decide

theorem wit_NopAnswersOk : (31 : Lcid) ≠ 0 ∨ (0 : Sub) ≠ 0 ∨ (0 : Imm) ≠ 0 := by decide

/-! ## Lifecycle -/

/-- As `WitnessSystemFence`. -/
inductive WitnessLifecycleFence where
  | fence

/-- SUB 1, IMM 1, payloads of 19 and 21 bytes, an inactive slot, SDUs of 1 and 8192 bytes. -/
theorem wit_UpperCommandsCheckFieldsThenBearer :
    ((1 : Sub) ≠ 0 ∨ (0 : Imm) ≠ 0) ∧ ((0 : Sub) ≠ 0 ∨ (1 : Imm) ≠ 0) ∧
      ((0 : Sub) ≠ 0 ∨ (List.replicate 19 0 : Bytes).length ≠ 20) ∧
      ((0 : Sub) ≠ 0 ∨ (List.replicate 21 0 : Bytes).length ≠ 20) ∧ (State.reset.slot 0).active = false ∧
      umBlock.length = 20 ∧ 1 ≤ ([7] : Bytes).length ∧ (List.replicate 8192 0 : Bytes).length ≤ State.reset.params.maxSduBytes := by
  simp only [List.length_replicate]
  decide +kernel

theorem wit_GetMetricsReportsTheCounters : (um.slot 1).active = true := by decide +kernel

theorem wit_GetStateReportsTheBearer : (Ready umGap 1 .um ∧ umGap.params.Legal) ∧ Ready amGap 2 .am ∧ amGap.params.Legal :=
  ⟨⟨Subject.umGap.ready, by decide +kernel⟩, Subject.amGap.ready, by decide +kernel⟩

/-- Accepted blocks at am_window_size 1, 255 and 0; refused ones for the mode, the widths and the threshold. -/
theorem wit_ConfigurationBlockAcceptance :
    (∀ b ∈ [block 0 5 0 0, block 0 10 0 0, block 1 10 1 1, block 1 10 255 255, block 1 10 1 0],
      b.length = 20 ∧ (acceptCfg b).isSome = true) ∧
    ∀ b ∈ [block 2 10 1 0, block 0 6 0 0, block 1 5 1 0, block 1 10 0 0], b.length = 20 ∧ acceptCfg b = none := by
  decide +kernel

theorem wit_AddBearerStartsFresh :
    ((1 : Sub) ≠ 0 ∨ umBlock.length ≠ 20) ∧ umBlock.length = 20 ∧ (um.slot 1).active = true ∧ (um.slot 2).active = false ∧
      (block 1 10 0 0).length = 20 ∧ acceptCfg (block 1 10 0 0) = none ∧ (acceptCfg umBlock).isSome = true := by
  decide +kernel

/-- A refused block, a change of width, a change of mode, a change of window, and a change of no structural field. -/
theorem wit_ConfigureResetsOnStructuralChange :
    (block 1 10 0 0).length = 20 ∧ (am.slot 2).active = true ∧ acceptCfg (block 1 10 0 0) = none ∧
      (∃ c, acceptCfg (block 0 10 0 0) = some c ∧ c.snw ≠ (um.slot 1).cfg.snw) ∧
      (∃ c, acceptCfg (block 0 10 0 0) = some c ∧ c.mode ≠ (am.slot 2).cfg.mode) ∧
      (∃ c, acceptCfg (block 1 10 1 3) = some c ∧ c.mode = .am ∧ c.amW ≠ (am.slot 2).cfg.amW) ∧
      ∃ c, acceptCfg (block 1 10 2 2) = some c ∧ c.mode = (am.slot 2).cfg.mode ∧ c.snw = (am.slot 2).cfg.snw ∧
        c.liw = (am.slot 2).cfg.liw ∧ (c.mode = .am → c.amW = (am.slot 2).cfg.amW) := by
  refine ⟨by decide +kernel, by decide +kernel, by decide +kernel, ⟨(acceptCfg (block 0 10 0 0)).get (by decide +kernel), ?_⟩,
    ⟨(acceptCfg (block 0 10 0 0)).get (by decide +kernel), ?_⟩, ⟨(acceptCfg (block 1 10 1 3)).get (by decide +kernel), ?_⟩,
    (acceptCfg (block 1 10 2 2)).get (by decide +kernel), ?_⟩ <;> decide +kernel

/-- A bearer with a running timer, an inactive slot, and timer kind 2. -/
theorem wit_ReestablishResetsAndDisarmsTimers :
    ((0 : Sub) ≠ 0 ∨ (1 : Imm) ≠ 0) ∧ (umGap.slot 2).active = false ∧ (umGap.slot 1).active = true ∧
      (umGap.slot 1).running.reord = true ∧ (2 : Sub).toNat ≤ 2 := by decide +kernel

theorem wit_DelBearerEndsTheBearer :
    ((1 : Sub) ≠ 0 ∨ (0 : Imm) ≠ 0) ∧ (umGap.slot 2).active = false ∧ (umGap.slot 1).active = true := by decide +kernel

/-- SUB 1 and 31 for a PDU command, timer kind 2, and an inactive slot. -/
theorem wit_TransportCommandsAreInfallible :
    ((1 : Sub) ≠ 0 ∧ (31 : Sub) ≠ 0) ∧ (2 : Sub).toNat ≤ 2 ∧ (State.reset.slot 31).active = false := by decide +kernel

end Sys2Proof.Tests
end

