-- ==== Sys2Proof/Tests/WitnessTransmit.lean ====
section
/-! SUPPORT. For each obligation about the SDU queue, transmission, acknowledgement and the timers: concrete states and
operands that meet its hypotheses, one for each clause. -/

namespace Sys2Proof.Tests

open Sys2Proof.Machine

/-- Lean finishes checking all that stands before a type: this one keeps the theorems of the tests from waiting all at once. -/
inductive WitnessTransmitFence where
  | fence

/-- Bearer 2 with `n` SDUs of one byte queued. -/
def amWithQueue (n : Nat) : State := am.setSlot 2 { am.slot 2 with txq := List.replicate n ⟨[1], 0⟩ }

/-- SUB 1; SDUs of 0, 1, 8192 and 8193 bytes; an inactive slot; a queue of 127 and of 128. -/
theorem wit_WriteSduAppends :
    (1 : Sub) ≠ 0 ∧ ([] : Bytes).length = 0 ∧ am.params.maxSduBytes < (List.replicate 8193 0 : Bytes).length ∧
      1 ≤ ([0] : Bytes).length ∧
      (1 ≤ (List.replicate 8192 0 : Bytes).length ∧ (List.replicate 8192 0 : Bytes).length ≤ am.params.maxSduBytes) ∧
      (am.slot 0).active = false ∧
      (((amWithQueue 128).slot 2).active = true ∧ am.params.qSdu ≤ ((amWithQueue 128).slot 2).txq.length) ∧
      ((amWithQueue 127).slot 2).active = true ∧ ((amWithQueue 127).slot 2).txq.length < am.params.qSdu := by
  simp only [List.length_replicate]
  decide +kernel

theorem wit_BufferStateValue :
    ((1 : Sub) ≠ 0 ∨ (0 : Imm) ≠ 0) ∧ (um.slot 2).active = false ∧ Ready umQueued 1 .um ∧ Ready amNacked 2 .am :=
  ⟨by decide, by decide +kernel, Subject.umQueued.ready, Subject.amNacked.ready⟩

/-- An empty queue, the largest budget that gives nothing, and the smallest that gives a PDU. -/
theorem wit_UmReadSegmentsTheQueue :
    (Ready um 1 .um ∧ Ready umQueued 1 .um) ∧ (um.slot 1).txq = [] ∧ (1 : Imm).toNat ≤ (umQueued.slot 1).cfg.h0 ∧
      (umQueued.slot 1).txq ≠ [] ∧ (umQueued.slot 1).cfg.h0 < (2 : Imm).toNat :=
  ⟨⟨Subject.um.ready, Subject.umQueued.ready⟩, by decide +kernel⟩

theorem wit_UmBufferStateIsConsistent :
    Ready umQueued 1 .um ∧
      ((umQueued.slot 1).txq ≠ [] ∧
        (∀ q ∈ (umQueued.slot 1).txq.dropLast, q.bytes.length - q.off ≤ (umQueued.slot 1).cfg.liw.max) ∧
        (umQueued.slot 1).txq.length - 1 ≤ umQueued.params.maxLi ∧ 8 ≤ 65535) ∧
      exec (.getBufferState 1 0 0) umQueued = .next (umQueued.answer (put32 8)) :=
  ⟨Subject.umQueued.ready, by decide +kernel, next_of_outcome (by decide +kernel) (by decide +kernel)⟩

theorem wit_AmBufferStateIsConsistent :
    Ready amQueued 2 .am ∧ exec (.getBufferState 2 0 0) amQueued = .next (amQueued.answer (put32 12)) :=
  ⟨Subject.amQueued.ready, next_of_outcome (by decide +kernel) (by decide +kernel)⟩

/-- Bearer 5 beside bearer 1, fresh; and after the first byte of the first SDU has been transferred. -/
def linked : State := run umQueued [.addBearer 5 0 (block 0 5 0 0)]

def linkedInSdu : State := run linked [.readPdu 1 0 2, .writePdu 5 0 [0x40, 1]]

theorem linked_inStep : UmInStep linked.params (linked.slot 1) (linked.slot 5) := by
  unfold UmInStep
  rw [show (linked.slot 1).txq = [⟨[1, 2, 3], 0⟩, ⟨[4, 5], 0⟩] by decide +kernel]
  decide +kernel

theorem linkedInSdu_inStep : UmInStep linkedInSdu.params (linkedInSdu.slot 1) (linkedInSdu.slot 5) := by
  unfold UmInStep
  rw [show (linkedInSdu.slot 1).txq = [⟨[1, 2, 3], 1⟩, ⟨[4, 5], 0⟩] by decide +kernel]
  decide +kernel

theorem wit_UmTransferStaysInStep :
    (1 : Lcid) ≠ 5 ∧ UmInStep linked.params (linked.slot 1) (linked.slot 5) ∧
      UmInStep linkedInSdu.params (linkedInSdu.slot 1) (linkedInSdu.slot 5) :=
  ⟨by decide, linked_inStep, linkedInSdu_inStep⟩

/-! ## AM transmit -/

/-- As `WitnessTransmitFence`. -/
inductive WitnessAmFence where
  | fence

/-- The smallest budget that carries a status. -/
theorem wit_AmStatusIsSentFirst :
    Ready amGap 2 .am ∧ (amGap.slot 2).statusTriggered = true ∧ (amGap.slot 2).running.prohibit = false ∧
      2 ≤ (2 : Imm).toNat :=
  ⟨Subject.amGap.ready, by decide +kernel⟩

/-- The whole PDU of SN 0 is pending in `amOpen`, and four bytes are too few for it and for a segment. -/
theorem amOpen_noRetx (b : Nat) (h : b < 5) : (Subject.amOpen.state.slot 3).NoRetx b :=
  .inr ⟨0, ⟨0, [], [1, 2, 3, 4], true, 1, [(0, 4)], false⟩, by unfold Slot.FirstPending; decide +kernel,
    fun w => by have := w.2; simp only [liBytes, List.length_nil, List.length_cons] at this; omega, h⟩

/-- A budget of 1; a stalled window, an empty queue and a budget of 2; the smallest budget that carries new data; and, where four
bytes are pending, the budgets that carry new data but no retransmission. -/
theorem wit_AmNewPduEntersTheBuffer :
    (Ready am 2 .am ∧ Ready amQueued 2 .am ∧ Ready amSent 2 .am ∧ Ready Subject.amOpen.state 3 .am) ∧ (1 : Imm).toNat < 2 ∧
      (∀ x ∈ [am, amQueued, amSent], (x.slot 2).statusTriggered = false ∧ ∀ e ∈ (x.slot 2).rb, e.2.pending = []) ∧
      ((am.slot 2).txq = [] ∧ (amSent.slot 2).amW ≤ rel (amSent.slot 2).n (amSent.slot 2).vtS (amSent.slot 2).vtA) ∧
      (rel (amQueued.slot 2).n (amQueued.slot 2).vtS (amQueued.slot 2).vtA < (amQueued.slot 2).amW ∧
        (amQueued.slot 2).txq ≠ [] ∧ (2 : Imm).toNat ≤ 2 ∧ 2 < (3 : Imm).toNat) ∧
      ((Subject.amOpen.state.slot 3).NoRetx (3 : Imm).toNat ∧ (Subject.amOpen.state.slot 3).NoRetx (4 : Imm).toNat) ∧
      (Subject.amOpen.state.slot 3).statusTriggered = false ∧ (Subject.amOpen.state.slot 3).txq ≠ [] ∧
      rel (Subject.amOpen.state.slot 3).n (Subject.amOpen.state.slot 3).vtS (Subject.amOpen.state.slot 3).vtA <
        (Subject.amOpen.state.slot 3).amW :=
  ⟨⟨Subject.am.ready, Subject.amQueued.ready, Subject.amSent.ready, Subject.amOpen.ready⟩, by decide, by decide +kernel,
    by decide +kernel, by decide +kernel, ⟨amOpen_noRetx _ (by decide), amOpen_noRetx _ (by decide)⟩, by decide +kernel⟩

theorem wit_StalledBearerSendsNoNewData :
    Ready amSent 2 .am ∧ (amSent.slot 2).amW ≤ rel (amSent.slot 2).n (amSent.slot 2).vtS (amSent.slot 2).vtA ∧
      exec (.readPdu 2 0 100) amSent = .next (run amSent [.readPdu 2 0 100]) :=
  ⟨Subject.amSent.ready, by decide +kernel, next_of_outcome rfl (by decide +kernel)⟩

/-- `e` is the first entry of bearer `l` with pending bytes, no status is due, and the budget carries all of it or a segment. -/
def retransmits (s : State) (l : Lcid) (e : RetxEntry) (b : Imm) : Prop :=
  (s.slot l).statusTriggered = false ∧ (s.slot l).FirstPending 0 e ∧ (e.WholeFits (s.slot l).cfg.liw b.toNat ∨ 5 ≤ b.toNat)

/-- A PDU of one byte with the smallest budget that carries it, one of four with the smallest that carries it and the smallest that
carries a segment, and a PDU of which two bytes are pending apart. -/
theorem wit_RetransmissionIsExact :
    (Ready Subject.amTiny.state 3 .am ∧ Ready Subject.amOpen.state 3 .am ∧ Ready Subject.amHoles.state 3 .am) ∧
      retransmits Subject.amTiny.state 3 ⟨0, [], [1], true, 1, [(0, 1)], false⟩ 3 ∧
      retransmits Subject.amOpen.state 3 ⟨0, [], [1, 2, 3, 4], true, 1, [(0, 4)], false⟩ 6 ∧
      retransmits Subject.amOpen.state 3 ⟨0, [], [1, 2, 3, 4], true, 1, [(0, 4)], false⟩ 5 ∧
      retransmits Subject.amHoles.state 3 ⟨0, [], [1, 2, 3, 4], true, 1, [(0, 1), (2, 3)], false⟩ 5 := by
  refine ⟨⟨Subject.amTiny.ready, Subject.amOpen.ready, Subject.amHoles.ready⟩, ?_⟩
  unfold retransmits Slot.FirstPending
  decide +kernel

/-- An SDU boundary inside the PDU, and two segments that overlap, the later first. -/
theorem wit_SegmentsRebuildThePdu :
    RetxEntry.Shape std .w11 ⟨0, [2], [1, 2, 3, 4], false, 0, [], false⟩ ∧
      (∀ i ∈ [(1, 3), (0, 2)], 1 ≤ i.2 ∧ i.1 + i.2 ≤ 4) ∧ ∀ x, x < 4 → ∃ i ∈ [(1, 3), (0, 2)], i.1 ≤ x ∧ x < i.1 + i.2 := by
  decide +kernel

/-- A status with a NACK, and one without; and a status that makes SN 0 dead. -/
theorem wit_AcknowledgementFreesEntries :
    Ready amSent 2 .am ∧
      (wireBit nack0 0 = false ∧ unpackStatus amSent.params nack0 = some ⟨2, [⟨0, false, 0, 0⟩]⟩ ∧
        inContext (amSent.slot 2).n (amSent.slot 2).vtA (amSent.slot 2).vtS ⟨2, [⟨0, false, 0, 0⟩]⟩ = true) ∧
      unpackStatus amSent.params [0x00, 0x08] = some ⟨2, []⟩ ∧
      inContext (amSent.slot 2).n (amSent.slot 2).vtA (amSent.slot 2).vtS ⟨2, []⟩ = true ∧
      Ready amResent 2 .am ∧ unpackStatus amResent.params nack0 = some ⟨2, [⟨0, false, 0, 0⟩]⟩ ∧
      inContext (amResent.slot 2).n (amResent.slot 2).vtA (amResent.slot 2).vtS ⟨2, [⟨0, false, 0, 0⟩]⟩ = true ∧
      (mapGet 0 (amResent.slot 2).rb).map RetxEntry.dead = some false ∧
      (mapGet 0 ((run amResent [.writePdu 2 0 nack0]).slot 2).rb).map RetxEntry.dead = some true :=
  ⟨Subject.amSent.ready, by decide +kernel, by decide +kernel, by decide +kernel, Subject.amResent.ready, by decide +kernel⟩

/-- A status: ACK_SN 2, NACK_SN 0 from offset 4 on, where the four bytes of SN 0 have ended. -/
def nackBeyond : Bytes := packStatus ⟨2, [⟨0, true, 4, 0x7FFF⟩]⟩

/-- SN 0 with nothing pending and considerations left, with bytes pending, at the threshold, and dead; each NACKed whole, and NACKed
beyond its bytes. -/
theorem wit_NackMarksTheBytes :
    (∀ s ∈ [amSent, amNacked, amResent, amDead], unpackStatus s.params nackBeyond = some ⟨2, [⟨0, true, 4, 0x7FFF⟩]⟩ ∧
        inContext (s.slot 2).n (s.slot 2).vtA (s.slot 2).vtS ⟨2, [⟨0, true, 4, 0x7FFF⟩]⟩ = true) ∧
      (wireBit nackBeyond 0 = false ∧ (∃ k ∈ [(⟨0, true, 4, 0x7FFF⟩ : Nack)], k.sn = 0) ∧
        ∀ x < 4, ∀ k ∈ [(⟨0, true, 4, 0x7FFF⟩ : Nack)], k.sn = 0 → k.asks x = false) ∧
      (Ready amSent 2 .am ∧ Ready amNacked 2 .am ∧ Ready amResent 2 .am ∧ Ready amDead 2 .am) ∧
      (∀ s ∈ [amSent, amNacked, amResent, amDead], unpackStatus s.params nack0 = some ⟨2, [⟨0, false, 0, 0⟩]⟩ ∧
        inContext (s.slot 2).n (s.slot 2).vtA (s.slot 2).vtS ⟨2, [⟨0, false, 0, 0⟩]⟩ = true) ∧
      (mapGet 0 (amSent.slot 2).rb = some ⟨0, [], [1, 2, 3, 4], false, 0, [], false⟩ ∧
        mapGet 0 (amNacked.slot 2).rb = some ⟨0, [], [1, 2, 3, 4], false, 1, [(0, 4)], false⟩ ∧
        mapGet 0 (amResent.slot 2).rb = some ⟨0, [], [1, 2, 3, 4], false, 1, [], false⟩ ∧
        mapGet 0 (amDead.slot 2).rb = some ⟨0, [], [1, 2, 3, 4], false, 1, [], true⟩ ∧
        (amSent.slot 2).cfg.maxRetxThreshold = 1) ∧
      wireBit nack0 0 = false ∧ ∃ x < 4, ∃ k ∈ [(⟨0, false, 0, 0⟩ : Nack)], k.sn = 0 ∧ k.asks x = true :=
  ⟨by decide +kernel, by decide +kernel, ⟨Subject.amSent.ready, Subject.amNacked.ready, Subject.amResent.ready, Subject.amDead.ready⟩, by decide +kernel⟩

/-- Another NACK of the dead SN. -/
theorem wit_MaxRetxIsNotifiedOnce :
    exec (.writePdu 2 0 nack0) amDead = .next (run amDead [.writePdu 2 0 nack0]) ∧
      (run amDead [.writePdu 2 0 nack0]).responses = amDead.responses ++ [⟨.ok, [], []⟩] ∧ Ready amDead 2 .am ∧
      ((run amDead [.writePdu 2 0 nack0]).slot 2).active = true ∧
      mapGet 0 (amDead.slot 2).rb = some ⟨0, [], [1, 2, 3, 4], false, 1, [], true⟩ ∧
      (mapGet 0 ((run amDead [.writePdu 2 0 nack0]).slot 2).rb).isSome = true :=
  ⟨next_of_outcome rfl (by decide +kernel), by decide +kernel, Subject.amDead.ready, by decide +kernel⟩

/-! ## Timers -/

/-- As `WitnessTransmitFence`. -/
inductive WitnessTimerFence where
  | fence

/-- Kind 3; an inactive slot, an idle timer, a stale tag; and a running prohibit timer. -/
theorem wit_ExpiryActsOnlyWhenCurrent :
    3 ≤ (3 : Sub).toNat ∧ timerKindOf 2 = some .pollretx ∧ (am.slot 0).active = false ∧
      (am.slot 2).running.get .pollretx = false ∧ (2 : Imm) ≠ (amSent.tags 2).get .pollretx ∧
      (amReported.slot 2).active = true ∧ (amReported.slot 2).running.prohibit = true := by decide +kernel

/-- SN 2 missing in `[VR_X, VR_H) = [2, 4)`, and an empty zone. -/
theorem wit_AmReorderingExpiryTriggersStatus :
    (Ready amGaps 3 .am ∧ Ready amGap 2 .am) ∧
      ((amGaps.slot 3).running.reord = true ∧ ∃ j < rel (amGaps.slot 3).n (amGaps.slot 3).vrH (amGaps.slot 3).vrX,
        (amGaps.slot 3).rxComplete (((amGaps.slot 3).vrX + j) % (amGaps.slot 3).n) = false) ∧
      (amGap.slot 2).running.reord = true ∧
      ∀ j < rel (amGap.slot 2).n (amGap.slot 2).vrH (amGap.slot 2).vrX,
        (amGap.slot 2).rxComplete (((amGap.slot 2).vrX + j) % (amGap.slot 2).n) = true :=
  ⟨⟨Subject.amGaps.ready, Subject.amGap.ready⟩, by decide +kernel⟩

/-- A bearer that can still send; and one that cannot, whose highest SN has nothing pending, has bytes pending, and is at the
threshold. -/
theorem wit_PollExpiryRetransmitsTheHighestSn :
    (Ready amBusy 3 .am ∧ (Ready amSent 2 .am ∧ Ready amHalfResent 2 .am) ∧ Ready amWholeResent 2 .am) ∧
      ((amBusy.slot 3).running.pollretx = true ∧ (amBusy.slot 3).txq ≠ [] ∧
        ¬ (amBusy.slot 3).amW ≤ rel (amBusy.slot 3).n (amBusy.slot 3).vtS (amBusy.slot 3).vtA) ∧
      (∀ s ∈ [amSent, amHalfResent, amWholeResent], (s.slot 2).running.pollretx = true ∧ (s.slot 2).vtS ≠ (s.slot 2).vtA ∧
        (s.slot 2).amW ≤ rel (s.slot 2).n (s.slot 2).vtS (s.slot 2).vtA ∧
        ∀ k ∈ (s.slot 2).rb, k.2.dead = false → rel (s.slot 2).n k.1 (s.slot 2).vtA ≤ rel (s.slot 2).n 1 (s.slot 2).vtA) ∧
      mapGet 1 (amSent.slot 2).rb = some ⟨0, [], [5, 6, 7, 8], true, 0, [], false⟩ ∧
      mapGet 1 (amHalfResent.slot 2).rb = some ⟨0, [], [5, 6, 7, 8], true, 1, [(1, 4)], false⟩ ∧
      mapGet 1 (amWholeResent.slot 2).rb = some ⟨0, [], [5, 6, 7, 8], true, 1, [], false⟩ :=
  ⟨⟨Subject.amBusy.ready, ⟨Subject.amSent.ready, Subject.amHalfResent.ready⟩, Subject.amWholeResent.ready⟩,
    by decide +kernel⟩

end Sys2Proof.Tests
end

section
/-! PROOFS. What each command can answer, said once: an answer alone, or the work it leaves on its slot. -/

namespace Sys2Proof.Machine

/-! ## Accepted commands -/

/-- Command `i` passes its checks in state `s` and leaves the work `w` on its slot. The commands that change no slot never do
(R67). -/
inductive Accepted (s : State) : Instr → Work → Prop
  | addBearer {l : Lcid} {p : Bytes} {c : Cfg} : p.length = 20 → (s.slot l).active = false → acceptCfg p = some c →
      Accepted s (.addBearer l 0 p) ((s.enter l).upd (addedSlot c))
  | configure {l : Lcid} {p : Bytes} {c : Cfg} : p.length = 20 → (s.slot l).active = true → acceptCfg p = some c →
      Accepted s (.configure l 0 p) (reconfigure c (s.enter l))
  | delBearer {l : Lcid} : (s.slot l).active = true →
      Accepted s (.delBearer l 0 0) ((s.enter l).stopAllTimers.upd fun _ => deletedSlot s.freeCount)
  | reestablish {l : Lcid} : (s.slot l).active = true →
      Accepted s (.reestablish l 0 0) ((s.enter l).stopAllTimers.upd initEntity)
  | writeSdu {l : Lcid} {p : Bytes} : (s.slot l).active = true → 1 ≤ p.length → p.length ≤ s.params.maxSduBytes →
      (s.slot l).txq.length < s.params.qSdu →
      Accepted s (.writeSdu l 0 p) ((s.enter l).upd fun v => { v with txq := v.txq ++ [⟨p, 0⟩] }).countTxSdu
  | readPdu {l : Lcid} {b : Imm} : (s.slot l).active = true → Accepted s (.readPdu l 0 b) (readPdu b.toNat (s.enter l)).2
  | writePdu {l : Lcid} {p : Bytes} : (s.slot l).active = true → Accepted s (.writePdu l 0 p) (writePdu p (s.enter l))
  | timerExpiry {l : Lcid} {sub : Sub} {k : TimerKind} : timerKindOf sub = some k → (s.slot l).active = true →
      (s.slot l).running.get k = true →
      Accepted s (.timerExpiry l sub ((s.tags l).get k)) (expire k (s.enter l))

/-- The answer of a command that leaves every slot and tag as it was: one response without an event. -/
def Answers (s : State) (x : Next) : Prop := ∃ r : Response, r.events = [] ∧ x = .next (s.respond r)

/-- The answer of a command that leaves the work `w` on its slot. Only DEL_BEARER draws a free slot content. -/
def Leaves (s : State) (w : Work) (x : Next) : Prop :=
  ∃ (free : Nat) (result : Bytes),
    x = .next (({ s with freeCount := free } : State).after w.lcid w.slot w.tags result w.events)

theorem answers_raise (s : State) (c : Code) : Answers s (raise s c) := ⟨_, rfl, rfl⟩

theorem answers_finish (s : State) (b : Bytes) : Answers s (finish s b) := ⟨_, rfl, rfl⟩

theorem answers_require {s : State} {ok : Bool} {c : Code} {x : Next} (h : ok = true → Answers s x) :
    Answers s (require ok c s x) := by
  cases ok
  · exact answers_raise s c
  · exact h rfl

theorem leaves_commit (s : State) (w : Work) (result : Bytes) : Leaves s w (commit s w result) :=
  ⟨s.freeCount, result, rfl⟩

/-- A command that answers alone, or is accepted and leaves its work. -/
def Outcomes (s : State) (i : Instr) (x : Next) : Prop :=
  ((∀ w, ¬ Accepted s i w) ∧ Answers s x) ∨ ∃ w, Accepted s i w ∧ Leaves s w x

theorem outcomes_require {s : State} {i : Instr} {ok : Bool} {c : Code} {x : Next} (passes : ∀ w, Accepted s i w → ok = true)
    (h : ok = true → Outcomes s i x) : Outcomes s i (require ok c s x) := by
  cases ok
  · exact .inl ⟨fun w hw => Bool.false_ne_true (passes w hw), answers_raise s c⟩
  · exact h rfl


section

variable (s : State) (l : Lcid) (sub : Sub) (imm : Imm) (p : Bytes)

theorem outcomes_addBearer : Outcomes s (.addBearer l sub p) (execAddBearer l sub p s) := by
  refine outcomes_require (fun _ hw => by cases hw; simp [*]) fun hf =>
    outcomes_require (fun _ hw => by cases hw; simp [*]) fun ha => ?_
  obtain ⟨rfl, hp⟩ : sub = 0 ∧ p.length = 20 := by simpa using hf
  cases hc : acceptCfg p with
  | none => exact .inl ⟨fun _ hw => by cases hw; simp_all, answers_raise s _⟩
  | some c => exact .inr ⟨_, .addBearer hp (by simpa using ha) hc, leaves_commit s _ _⟩

theorem outcomes_configure : Outcomes s (.configure l sub p) (execConfigure l sub p s) := by
  refine outcomes_require (fun _ hw => by cases hw; simp [*]) fun hf =>
    outcomes_require (fun _ hw => by cases hw; simp [*]) fun ha => ?_
  obtain ⟨rfl, hp⟩ : sub = 0 ∧ p.length = 20 := by simpa using hf
  cases hc : acceptCfg p with
  | none => exact .inl ⟨fun _ hw => by cases hw; simp_all, answers_raise s _⟩
  | some c => exact .inr ⟨_, .configure hp ha hc, leaves_commit s _ _⟩

theorem outcomes_delBearer : Outcomes s (.delBearer l sub imm) (execDelBearer l sub imm s) := by
  refine outcomes_require (fun _ hw => by cases hw; simp [*]) fun hf =>
    outcomes_require (fun _ hw => by cases hw; simp [*]) fun ha => ?_
  obtain ⟨rfl, rfl⟩ : sub = 0 ∧ imm = 0 := by simpa using hf
  exact .inr ⟨_, .delBearer ha, s.freeCount + 1, [], rfl⟩

theorem outcomes_reestablish : Outcomes s (.reestablish l sub imm) (execReestablish l sub imm s) := by
  refine outcomes_require (fun _ hw => by cases hw; simp [*]) fun hf =>
    outcomes_require (fun _ hw => by cases hw; simp [*]) fun ha => ?_
  obtain ⟨rfl, rfl⟩ : sub = 0 ∧ imm = 0 := by simpa using hf
  exact .inr ⟨_, .reestablish ha, leaves_commit s _ _⟩

theorem outcomes_writeSdu : Outcomes s (.writeSdu l sub p) (execWriteSdu l sub p s) := by
  refine outcomes_require (fun _ hw => by cases hw; simp [*]) fun hf =>
    outcomes_require (fun _ hw => by cases hw; simp [*]) fun hl =>
    outcomes_require (fun _ hw => by cases hw; simp [*]) fun ha =>
    outcomes_require (fun _ hw => by cases hw; simp [*]) fun hq => ?_
  obtain rfl : sub = 0 := by simpa using hf
  obtain ⟨h1, h2⟩ : 1 ≤ p.length ∧ p.length ≤ s.params.maxSduBytes := by simpa using hl
  exact .inr ⟨_, .writeSdu ha h1 h2 (by simpa using hq), leaves_commit s _ _⟩

theorem outcomes_readPdu : Outcomes s (.readPdu l sub imm) (execReadPdu l sub imm s) := by
  refine outcomes_require (fun _ hw => by cases hw; simp [*]) fun hf => ?_
  obtain rfl : sub = 0 := by simpa using hf
  cases ha : (s.slot l).active
  · exact .inl ⟨fun _ hw => by cases hw; simp_all, answers_finish s _⟩
  · exact .inr ⟨_, .readPdu ha, leaves_commit s _ _⟩

theorem outcomes_writePdu : Outcomes s (.writePdu l sub p) (execWritePdu l sub p s) := by
  refine outcomes_require (fun _ hw => by cases hw; simp [*]) fun hf => ?_
  obtain rfl : sub = 0 := by simpa using hf
  cases ha : (s.slot l).active
  · exact .inl ⟨fun _ hw => by cases hw; simp_all, answers_finish s _⟩
  · exact .inr ⟨_, .writePdu ha, leaves_commit s _ _⟩

theorem outcomes_timerExpiry : Outcomes s (.timerExpiry l sub imm) (execTimerExpiry l sub imm s) := by
  unfold execTimerExpiry
  cases hk : timerKindOf sub with
  | none => exact .inl ⟨fun _ hw => by cases hw; simp_all, answers_raise s _⟩
  | some k =>
    dsimp only
    split
    · rename_i h
      obtain ⟨⟨ha, hr⟩, rfl⟩ : ((s.slot l).active = true ∧ (s.slot l).running.get k = true) ∧ imm = (s.tags l).get k := by
        simpa [expiryCurrent] using h
      exact .inr ⟨_, .timerExpiry hk ha hr, leaves_commit s _ _⟩
    · rename_i h
      exact .inl ⟨fun w hw => by cases hw; simp_all [expiryCurrent], answers_finish s _⟩

theorem answers_snCommand (boundOk : Bool) (result : Bytes) : Answers s (snCommand l p s boundOk result) :=
  answers_require fun _ => answers_require fun _ => answers_require fun _ => answers_finish s _

theorem answers_hdrPack : Answers s (execHdrPack l sub p s) := by
  refine answers_require fun _ => ?_
  split
  · exact answers_raise s _
  · split
    · exact answers_raise s _
    · exact answers_require fun _ => answers_finish s _

theorem answers_hdrUnpack : Answers s (execHdrUnpack l sub p s) := by
  refine answers_require fun _ => ?_
  split
  · exact answers_raise s _
  · split
    · exact answers_raise s _
    · exact answers_finish s _

theorem answers_statusPack : Answers s (execStatusPack l sub p s) := by
  refine answers_require fun _ => ?_
  split
  · exact answers_raise s _
  · exact answers_require fun _ => answers_finish s _

theorem answers_statusUnpack : Answers s (execStatusUnpack l sub p s) := by
  refine answers_require fun _ => ?_
  split
  · exact answers_raise s _
  · exact answers_finish s _

end

/-- A command without side effect (R67) is answered and no more. -/
theorem answers_of_readOnly {i : Instr} (s : State) (h : i.readOnly = true) : Answers s (exec i s) := by
  cases i with
  | nop | getBufferState => exact answers_require fun _ => answers_finish s _
  | getMetrics | getState => exact answers_require fun _ => answers_require fun _ => answers_finish s _
  | snInwin l p | snInrange l p | snRel l p | snBefore l p => exact answers_snCommand s l p _ _
  | hdrPack l fmt p => exact answers_hdrPack s l fmt p
  | hdrUnpack l fmt p => exact answers_hdrUnpack s l fmt p
  | statusPack l sub p => exact answers_statusPack s l sub p
  | statusUnpack l sub p => exact answers_statusUnpack s l sub p
  | statusCheck => exact answers_require fun _ => answers_require fun _ => answers_require fun _ => answers_finish s _
  | addBearer | configure | delBearer | reestablish | writeSdu | readPdu | writePdu | timerExpiry => cases h

theorem not_accepted_of_readOnly {i : Instr} {s : State} (h : i.readOnly = true) (w : Work) : ¬ Accepted s i w := by
  rintro ⟨⟩ <;> cases h

/-- Everything that a command can do: it is answered and no more, or it is accepted and leaves its work. -/
theorem exec_outcomes (i : Instr) (s : State) : Outcomes s i (exec i s) := by
  by_cases h : i.readOnly = true
  · exact .inl ⟨not_accepted_of_readOnly h, answers_of_readOnly s h⟩
  cases i with
  | addBearer l sub p => exact outcomes_addBearer s l sub p
  | configure l sub p => exact outcomes_configure s l sub p
  | delBearer l sub imm => exact outcomes_delBearer s l sub imm
  | reestablish l sub imm => exact outcomes_reestablish s l sub imm
  | writeSdu l sub p => exact outcomes_writeSdu s l sub p
  | readPdu l sub budget => exact outcomes_readPdu s l sub budget
  | writePdu l sub p => exact outcomes_writePdu s l sub p
  | timerExpiry l sub gen => exact outcomes_timerExpiry s l sub gen
  | nop | getMetrics | getState | getBufferState | snInwin | snInrange | snRel | snBefore | hdrPack | hdrUnpack | statusPack |
    statusUnpack | statusCheck => exact absurd rfl h

/-- Everything that a step can do: it waits; or it takes command bytes and either answers alone, or runs an accepted command. -/
theorem step_outcomes (s : State) :
    step s = .next s ∨ ∃ rest : Bytes, Answers { s with input := rest } (step s) ∨
      ∃ i w, Accepted { s with input := rest } i w ∧ Leaves { s with input := rest } w (step s) := by
  unfold step
  split
  · exact .inl rfl
  · rename_i h payload rest _
    refine .inr ⟨rest, ?_⟩
    split
    · rename_i i _
      rcases exec_outcomes i { s with input := rest } with ⟨-, ha⟩ | ⟨w, hw, hl⟩
      · exact .inl ha
      · exact .inr ⟨i, w, hw, hl⟩
    · rename_i e _
      cases e <;> exact .inl (answers_raise _ _)

/-! ## Properties that every accepted command keeps -/

/-- The slot that a command works on is the only one it writes, so a property of every active slot is kept by every step when
every accepted command keeps it on its own slot. -/
theorem step_keeps {P : Params → Slot → Prop}
    (keeps : ∀ (s : State) (i : Instr) (w : Work), Accepted s i w →
      ((s.slot w.lcid).active = true → P s.params (s.slot w.lcid)) → w.slot.active = true → P s.params w.slot)
    {s t : State} (h : ∀ l, (s.slot l).active = true → P s.params (s.slot l)) (hstep : step s = .next t) :
    ∀ l, (t.slot l).active = true → P t.params (t.slot l) := by
  rcases step_outcomes s with hw | ⟨rest, ⟨r, -, hr⟩ | ⟨i, w, hw, free, result, hr⟩⟩
  · cases hstep.symm.trans hw
    exact h
  · cases hstep.symm.trans hr
    exact h
  · cases hstep.symm.trans hr
    intro l
    by_cases hl : l = w.lcid
    · subst hl
      rw [slot_after_same]
      exact keeps { s with input := rest } i w hw (h w.lcid)
    · rw [slot_after_other _ _ _ _ _ _ hl]
      exact h l

end Sys2Proof.Machine
end

section
/-! PROOFS. What inactive slots hold cannot be observed (10_state.md R21; 70_reset_and_hazards.md R380, R391): no command reads a
field of an inactive slot. -/

namespace Sys2Proof.Machine

/-! ## What indistinguishable states share -/

section

variable {s s' : State}

theorem State.Indistinguishable.params_eq (h : s.Indistinguishable s') : s.params = s'.params := h.1.1

theorem State.Indistinguishable.active_eq (h : s.Indistinguishable s') (l : Lcid) : (s.slot l).active = (s'.slot l).active := by
  obtain ⟨⟨-, -, hslots⟩, -⟩ := h
  exact (hslots l).1

theorem State.Indistinguishable.slot_eq (h : s.Indistinguishable s') {l : Lcid} (ha : (s.slot l).active = true) :
    s.slot l = s'.slot l := by
  obtain ⟨⟨-, -, hslots⟩, -⟩ := h
  exact (hslots l).2 ha

theorem State.Indistinguishable.tags_eq (h : s.Indistinguishable s') (l : Lcid) : s.tags l = s'.tags l := by
  obtain ⟨⟨-, hgen, -⟩, -⟩ := h
  simp only [State.tags, hgen]

/-- The work of a command starts equal on an active slot. -/
theorem State.Indistinguishable.enter_eq (h : s.Indistinguishable s') {l : Lcid} (ha : (s.slot l).active = true) :
    s.enter l = s'.enter l := by
  rw [State.enter, State.enter, h.params_eq, h.slot_eq ha, h.tags_eq]

/-! ## Updates keep states indistinguishable -/

theorem State.Indistinguishable.withInput (h : s.Indistinguishable s') (b : Bytes) :
    ({ s with input := b } : State).Indistinguishable { s' with input := b } :=
  h.imp id <| And.imp (fun _ => rfl) id

theorem State.Indistinguishable.withFreeCount (h : s.Indistinguishable s') (n : Nat) :
    ({ s with freeCount := n } : State).Indistinguishable { s' with freeCount := n } :=
  h.imp id <| And.imp id <| And.imp id fun _ => rfl

theorem State.Indistinguishable.respond (h : s.Indistinguishable s') (r : Response) :
    (s.respond r).Indistinguishable (s'.respond r) :=
  h.imp id <| And.imp id <| And.imp (congrArg (· ++ [r])) id

/-- Storing the same work in both. -/
theorem State.Indistinguishable.store (h : s.Indistinguishable s') (w : Work) : (s.store w).Indistinguishable (s'.store w) := by
  obtain ⟨⟨hp, hg, hs⟩, hrest⟩ := h
  refine ⟨⟨hp, ?_, fun l => ?_⟩, hrest⟩
  · exact congrArg (fun g => g.set w.lcid.toNat w.tags w.lcid.isLt) hg
  · by_cases hl : l = w.lcid
    · subst hl
      simp [State.store]
    · simpa [State.store, slot_setSlot_other _ _ hl] using hs l

end

/-! ## Answers that cannot be told apart -/

/-- Whatever state the answer `x` leads to, the answer `y` leads to one that no command can tell from it. -/
def Alike (x y : Next) : Prop := ∀ t, x = .next t → ∃ t', y = .next t' ∧ t.Indistinguishable t'

section

variable {s s' : State} (h : s.Indistinguishable s')
include h

theorem alike_next : Alike (.next s) (.next s') := by
  rintro t ⟨⟩
  exact ⟨s', rfl, h⟩

theorem alike_raise (c : Code) : Alike (raise s c) (raise s' c) := alike_next (h.respond _)

theorem alike_finish (b : Bytes) : Alike (finish s b) (finish s' b) := alike_next (h.respond _)

theorem alike_commit (w : Work) (b : Bytes) : Alike (commit s w b) (commit s' w b) := alike_next ((h.store w).respond _)

theorem alike_require {ok : Bool} {c : Code} {x y : Next} (hxy : ok = true → Alike x y) :
    Alike (require ok c s x) (require ok c s' y) := by
  cases ok
  · exact alike_raise h c
  · exact hxy rfl

theorem alike_requireActive {l : Lcid} {x y : Next} (hxy : (s.slot l).active = true → Alike x y) :
    Alike (requireActive l s x) (requireActive l s' y) := by
  unfold requireActive
  rw [← h.active_eq l]
  exact alike_require h hxy

/-! ## Each command -/

/-- ADD_BEARER writes every field of the inactive slot it takes. -/
theorem alike_addBearer (l : Lcid) (sub : Sub) (p : Bytes) : Alike (execAddBearer l sub p s) (execAddBearer l sub p s') := by
  unfold execAddBearer
  rw [← h.active_eq l]
  refine alike_require h fun _ => alike_require h fun _ => ?_
  cases acceptCfg p with
  | none => exact alike_raise h _
  | some c =>
    have hw : (s.enter l).upd (addedSlot c) = (s'.enter l).upd (addedSlot c) := by
      simp [Work.upd, State.enter, addedSlot, initEntity, h.params_eq, h.tags_eq l]
    dsimp only
    rw [hw]
    exact alike_commit h _ _

theorem alike_configure (l : Lcid) (sub : Sub) (p : Bytes) : Alike (execConfigure l sub p s) (execConfigure l sub p s') := by
  refine alike_require h fun _ => alike_requireActive h fun ha => ?_
  rw [h.enter_eq ha]
  cases acceptCfg p with
  | none => exact alike_raise h _
  | some c => exact alike_commit h _ _

theorem alike_delBearer (l : Lcid) (sub : Sub) (imm : Imm) :
    Alike (execDelBearer l sub imm s) (execDelBearer l sub imm s') := by
  refine alike_require h fun _ => alike_requireActive h fun ha => ?_
  obtain ⟨-, -, -, hfree⟩ := id h
  rw [h.enter_eq ha, hfree]
  exact alike_commit (h.withFreeCount _) _ _

theorem alike_reestablish (l : Lcid) (sub : Sub) (imm : Imm) :
    Alike (execReestablish l sub imm s) (execReestablish l sub imm s') := by
  refine alike_require h fun _ => alike_requireActive h fun ha => ?_
  rw [h.enter_eq ha]
  exact alike_commit h _ _

theorem alike_getMetrics (l : Lcid) (sub : Sub) (imm : Imm) :
    Alike (execGetMetrics l sub imm s) (execGetMetrics l sub imm s') := by
  refine alike_require h fun _ => alike_requireActive h fun ha => ?_
  rw [h.slot_eq ha]
  exact alike_finish h _

theorem alike_getState (l : Lcid) (sub : Sub) (imm : Imm) :
    Alike (execGetState l sub imm s) (execGetState l sub imm s') := by
  refine alike_require h fun _ => alike_requireActive h fun ha => ?_
  rw [h.slot_eq ha]
  exact alike_finish h _

theorem alike_writeSdu (l : Lcid) (sub : Sub) (p : Bytes) : Alike (execWriteSdu l sub p s) (execWriteSdu l sub p s') := by
  unfold execWriteSdu
  rw [← h.params_eq]
  refine alike_require h fun _ => alike_require h fun _ => alike_requireActive h fun ha => ?_
  rw [← h.slot_eq ha, ← h.enter_eq ha]
  exact alike_require h fun _ => alike_commit h _ _

/-- GET_BUFFER_STATE reads `active` first, and 0 is the value of an inactive slot (R212). -/
theorem bufferState_eq (l : Lcid) : bufferState s.params (s.slot l) = bufferState s'.params (s'.slot l) := by
  cases ha : (s.slot l).active
  · have ha' : (s'.slot l).active = false := by rw [← h.active_eq l, ha]
    simp [bufferState, ha, ha']
  · rw [h.slot_eq ha, h.params_eq]

theorem alike_getBufferState (l : Lcid) (sub : Sub) (imm : Imm) :
    Alike (execGetBufferState l sub imm s) (execGetBufferState l sub imm s') := by
  refine alike_require h fun _ => ?_
  rw [bufferState_eq h l]
  exact alike_finish h _

theorem alike_readPdu (l : Lcid) (sub : Sub) (b : Imm) : Alike (execReadPdu l sub b s) (execReadPdu l sub b s') := by
  refine alike_require h fun _ => ?_
  rw [← h.active_eq l]
  cases ha : (s.slot l).active
  · exact alike_finish h _
  · rw [h.enter_eq ha]
    exact alike_commit h _ _

theorem alike_writePdu (l : Lcid) (sub : Sub) (p : Bytes) : Alike (execWritePdu l sub p s) (execWritePdu l sub p s') := by
  refine alike_require h fun _ => ?_
  rw [← h.active_eq l]
  cases ha : (s.slot l).active
  · exact alike_finish h _
  · rw [h.enter_eq ha]
    exact alike_commit h _ _

/-- An expiry on an inactive slot is stale, whatever its fields hold (R363). -/
theorem alike_timerExpiry (l : Lcid) (sub : Sub) (gen : Imm) :
    Alike (execTimerExpiry l sub gen s) (execTimerExpiry l sub gen s') := by
  unfold execTimerExpiry
  cases timerKindOf sub with
  | none => exact alike_raise h _
  | some k =>
    dsimp only
    cases ha : (s.slot l).active
    · have ha' : (s'.slot l).active = false := by rw [← h.active_eq l, ha]
      simpa [expiryCurrent, ha, ha'] using alike_finish h _
    · rw [h.enter_eq ha]
      split
      · exact alike_commit h _ _
      · exact alike_finish h _

theorem alike_hdrPack (l : Lcid) (fmt : Sub) (p : Bytes) : Alike (execHdrPack l fmt p s) (execHdrPack l fmt p s') := by
  unfold execHdrPack
  rw [← h.params_eq]
  refine alike_require h fun _ => ?_
  cases fmtOf fmt with
  | none => exact alike_raise h _
  | some f =>
    cases parseHrec p with
    | none => exact alike_raise h _
    | some r => exact alike_require h fun _ => alike_finish h _

theorem alike_hdrUnpack (l : Lcid) (fmt : Sub) (p : Bytes) : Alike (execHdrUnpack l fmt p s) (execHdrUnpack l fmt p s') := by
  unfold execHdrUnpack
  rw [← h.params_eq]
  refine alike_require h fun _ => ?_
  cases fmtOf fmt with
  | none => exact alike_raise h _
  | some f =>
    dsimp only
    cases unpackHdr s.params f.1 f.2 p with
    | none => exact alike_raise h _
    | some r => exact alike_finish h _

theorem alike_statusPack (l : Lcid) (sub : Sub) (p : Bytes) : Alike (execStatusPack l sub p s) (execStatusPack l sub p s') := by
  unfold execStatusPack
  rw [← h.params_eq]
  refine alike_require h fun _ => ?_
  cases parseSrec p with
  | none => exact alike_raise h _
  | some st => exact alike_require h fun _ => alike_finish h _

theorem alike_statusUnpack (l : Lcid) (sub : Sub) (p : Bytes) :
    Alike (execStatusUnpack l sub p s) (execStatusUnpack l sub p s') := by
  unfold execStatusUnpack
  rw [← h.params_eq]
  refine alike_require h fun _ => ?_
  cases unpackStatus s.params p with
  | none => exact alike_raise h _
  | some st => exact alike_finish h _

theorem alike_statusCheck (l : Lcid) (sub : Sub) (p : Bytes) :
    Alike (execStatusCheck l sub p s) (execStatusCheck l sub p s') := by
  unfold execStatusCheck
  rw [← h.params_eq]
  exact alike_require h fun _ => alike_require h fun _ => alike_require h fun _ => alike_finish h _

theorem alike_snCommand (l : Lcid) (p : Bytes) (boundOk : Bool) (b : Bytes) :
    Alike (snCommand l p s boundOk b) (snCommand l p s' boundOk b) :=
  alike_require h fun _ => alike_require h fun _ => alike_require h fun _ => alike_finish h _

/-- Every command answers two states that it cannot tell apart alike. -/
theorem alike_exec (i : Instr) : Alike (exec i s) (exec i s') := by
  cases i with
  | nop => exact alike_require h fun _ => alike_finish h _
  | addBearer l sub p => exact alike_addBearer h l sub p
  | configure l sub p => exact alike_configure h l sub p
  | delBearer l sub imm => exact alike_delBearer h l sub imm
  | reestablish l sub imm => exact alike_reestablish h l sub imm
  | getMetrics l sub imm => exact alike_getMetrics h l sub imm
  | getState l sub imm => exact alike_getState h l sub imm
  | writeSdu l sub p => exact alike_writeSdu h l sub p
  | getBufferState l sub imm => exact alike_getBufferState h l sub imm
  | readPdu l sub b => exact alike_readPdu h l sub b
  | writePdu l sub p => exact alike_writePdu h l sub p
  | timerExpiry l sub gen => exact alike_timerExpiry h l sub gen
  | snInwin l p | snInrange l p | snRel l p | snBefore l p => exact alike_snCommand h l p _ _
  | hdrPack l fmt p => exact alike_hdrPack h l fmt p
  | hdrUnpack l fmt p => exact alike_hdrUnpack h l fmt p
  | statusPack l sub p => exact alike_statusPack h l sub p
  | statusUnpack l sub p => exact alike_statusUnpack h l sub p
  | statusCheck l sub p => exact alike_statusCheck h l sub p

/-- So does every step. -/
theorem alike_step : Alike (step s) (step s') := by
  obtain ⟨-, hinput, -, -⟩ := id h
  unfold step
  rw [← hinput]
  cases takeCommand s.input with
  | none => exact alike_next h
  | some c =>
    obtain ⟨hd, payload, rest⟩ := c
    dsimp only
    cases decodeCommand hd payload with
    | ok i => exact alike_exec (h.withInput rest) i
    | error e => cases e <;> exact alike_raise (h.withInput rest) _

end

/-- Settles O59: each command reads an inactive slot's `active` alone, so it answers both states alike. -/
theorem inactiveContentsAreUnobservable : Obligations.InactiveContentsAreUnobservable :=
  fun _ _ t h hstep => alike_step h t hstep

end Sys2Proof.Machine
end

section
/-! PROOFS. The timer shadow bits and tags follow the requests to the host (10_state.md R30; 60_exceptions.md R361, R362). -/

namespace Sys2Proof.Machine

/-! ## The requests among events -/

/-- The event requests nothing of a timer. -/
def Event.quiet : Event → Prop
  | .deliverSdu _ _ | .notifyMaxRetx _ _ | .drop _ _ => True
  | .timerStart _ _ _ _ | .timerStop _ _ _ => False

theorem timerAfter_append (l : Lcid) (k : TimerKind) (ys : List Event) : ∀ (b : Bool) (xs : List Event),
    timerAfter l k b (xs ++ ys) = timerAfter l k (timerAfter l k b xs) ys
  | _, [] => rfl
  | b, ev :: xs => by cases ev <;> exact timerAfter_append l k ys _ xs

theorem startTags_append (l : Lcid) (k : TimerKind) (ys : List Event) : ∀ xs : List Event,
    startTags l k (xs ++ ys) = startTags l k xs ++ startTags l k ys
  | [] => rfl
  | ev :: xs => by
    have ih := startTags_append l k ys xs
    cases ev with
    | timerStart l' k' g ms =>
      rw [List.cons_append, startTags, startTags, ih]
      split <;> rfl
    | deliverSdu | notifyMaxRetx | timerStop | drop => exact ih

theorem timerAfter_of_quiet (l : Lcid) (k : TimerKind) (b : Bool) : ∀ {evs : List Event}, (∀ ev ∈ evs, ev.quiet) →
    timerAfter l k b evs = b
  | [], _ => rfl
  | ev :: evs, h => by
    have hev := h ev List.mem_cons_self
    cases ev with
    | deliverSdu | notifyMaxRetx | drop => exact timerAfter_of_quiet l k b (evs := evs) (List.forall_mem_cons.mp h).2
    | timerStart | timerStop => exact hev.elim

theorem startTags_of_quiet (l : Lcid) (k : TimerKind) : ∀ {evs : List Event}, (∀ ev ∈ evs, ev.quiet) → startTags l k evs = []
  | [], _ => rfl
  | ev :: evs, h => by
    have hev := h ev List.mem_cons_self
    cases ev with
    | deliverSdu | notifyMaxRetx | drop => exact startTags_of_quiet l k (evs := evs) (List.forall_mem_cons.mp h).2
    | timerStart | timerStop => exact hev.elim

theorem quiet_delivers (l : Lcid) (sdus : List Bytes) : ∀ ev ∈ sdus.map (Event.deliverSdu l), ev.quiet := by
  simp [Event.quiet]

theorem quiet_notifies (l : Lcid) (sns : List Nat) : ∀ ev ∈ sns.map (Event.notifyMaxRetx l), ev.quiet := by
  simp [Event.quiet]

/-! ## Bits and tags that follow events -/

/-- The requests among `evs` are of bearer `l` alone. They take its shadow bits from `b` to `b'` and its tags from `g` to `g'`,
and each start carries the tag after the last one. -/
structure TimersFollow (l : Lcid) (evs : List Event) (b b' : PerTimer Bool) (g g' : PerTimer (BitVec 16)) : Prop where
  bits : ∀ k, b'.get k = timerAfter l k (b.get k) evs
  tags : ∀ k, g'.get k = g.get k + BitVec.ofNat 16 (startTags l k evs).length
  starts : ∀ k, startTags l k evs =
    (List.range (startTags l k evs).length).map fun m => g.get k + 1 + BitVec.ofNat 16 m
  other : ∀ j ≠ l, ∀ k, startTags j k evs = [] ∧ ∀ c, timerAfter j k c evs = c

namespace TimersFollow

theorem of_quiet {l : Lcid} {evs : List Event} (h : ∀ ev ∈ evs, ev.quiet) (b : PerTimer Bool) (g : PerTimer (BitVec 16)) :
    TimersFollow l evs b b g g where
  bits k := by rw [timerAfter_of_quiet l k _ h]
  tags k := by simp [startTags_of_quiet l k h]
  starts k := by simp [startTags_of_quiet l k h]
  other j _ k := ⟨startTags_of_quiet j k h, fun c => timerAfter_of_quiet j k c h⟩

theorem append {l : Lcid} {xs ys : List Event} {b₁ b₂ b₃ : PerTimer Bool} {g₁ g₂ g₃ : PerTimer (BitVec 16)}
    (h : TimersFollow l xs b₁ b₂ g₁ g₂) (h' : TimersFollow l ys b₂ b₃ g₂ g₃) :
    TimersFollow l (xs ++ ys) b₁ b₃ g₁ g₃ where
  bits k := by rw [timerAfter_append, ← h.bits, h'.bits]
  tags k := by rw [startTags_append, h'.tags, h.tags, List.length_append, BitVec.ofNat_add, BitVec.add_assoc]
  starts k := by
    have hlater : ∀ m, g₂.get k + 1 + BitVec.ofNat 16 m =
        g₁.get k + 1 + BitVec.ofNat 16 ((startTags l k xs).length + m) := fun m => by
      rw [h.tags, BitVec.ofNat_add]
      ac_rfl
    rw [startTags_append, List.length_append, List.range_add, List.map_append, ← h.starts, List.map_map]
    conv_lhs => rw [h'.starts]
    exact congrArg _ (List.map_congr_left fun m _ => hlater m)
  other j hj k := by
    obtain ⟨hs, ha⟩ := h.other j hj k
    obtain ⟨hs', ha'⟩ := h'.other j hj k
    exact ⟨by rw [startTags_append, hs, hs']; rfl, fun c => by rw [timerAfter_append, ha, ha']⟩

/-- One TIMER_START with the next tag. -/
theorem start (l : Lcid) (k : TimerKind) (ms : BitVec 16) (b : PerTimer Bool) (g : PerTimer (BitVec 16)) :
    TimersFollow l [.timerStart l k (g.get k + 1) ms] b (b.set k true) g (g.set k (g.get k + 1)) where
  bits j := by
    by_cases hj : j = k
    · simp [hj, timerAfter]
    · simp [hj, Ne.symm hj, timerAfter]
  tags j := by
    by_cases hj : j = k
    · simp [hj, startTags]
    · simp [hj, Ne.symm hj, startTags]
  starts j := by
    by_cases hj : j = k
    · simp [hj, startTags]
    · simp [Ne.symm hj, startTags]
  other j hj k := by simp [Ne.symm hj, startTags, timerAfter]

/-- One TIMER_STOP. -/
theorem stop (l : Lcid) (k : TimerKind) (gen : BitVec 16) (b : PerTimer Bool) (g : PerTimer (BitVec 16)) :
    TimersFollow l [.timerStop l k gen] b (b.set k false) g g where
  bits j := by
    by_cases hj : j = k
    · simp [hj, timerAfter]
    · simp [hj, Ne.symm hj, timerAfter]
  tags j := by simp [startTags]
  starts j := by simp [startTags]
  other j hj k := by simp [Ne.symm hj, startTags, timerAfter]

end TimersFollow

/-! ## Work that tracks its requests -/

/-- From the work `w` on, the bits and tags of `w'` follow the events that it has emitted since. -/
def Tracks (w w' : Work) : Prop :=
  w'.lcid = w.lcid ∧ ∃ evs, w'.events = w.events ++ evs ∧
    TimersFollow w.lcid evs w.slot.running w'.slot.running w.tags w'.tags

namespace Tracks

/-- Work whose timers and tags are as they were, and which has requested nothing. -/
theorem of_quiet {w w' : Work} {evs : List Event} (hl : w'.lcid = w.lcid) (hr : w'.slot.running = w.slot.running)
    (ht : w'.tags = w.tags) (hev : w'.events = w.events ++ evs) (hq : ∀ ev ∈ evs, ev.quiet) : Tracks w w' :=
  ⟨hl, evs, hev, by rw [hr, ht]; exact .of_quiet hq _ _⟩

/-- Work with another slot whose timers are as they were. -/
theorem upd {w : Work} {f : Slot → Slot} (hr : (f w.slot).running = w.slot.running) : Tracks w (w.upd f) :=
  .of_quiet (evs := []) rfl hr rfl (by simp) (by simp)

theorem lcid_eq {w w' : Work} (h : Tracks w w') : w'.lcid = w.lcid := h.1

theorem refl (w : Work) : Tracks w w := upd (f := id) rfl

theorem trans {w u v : Work} (h : Tracks w u) (h' : Tracks u v) : Tracks w v := by
  obtain ⟨hl, evs, hev, hf⟩ := h
  obtain ⟨hl', evs', hev', hf'⟩ := h'
  exact ⟨hl'.trans hl, evs ++ evs', by rw [hev', hev, List.append_assoc], hf.append (hl ▸ hf')⟩

/-- From work that has emitted nothing yet. -/
theorem follow {w w' : Work} (h : Tracks w w') (hev : w.events = []) :
    TimersFollow w.lcid w'.events w.slot.running w'.slot.running w.tags w'.tags := by
  obtain ⟨-, evs, hev', hf⟩ := h
  rw [hev', hev]
  exact hf

theorem startTimer (w : Work) (k : TimerKind) : Tracks w (w.startTimer k) := ⟨rfl, _, rfl, .start _ _ _ _ _⟩

theorem stopTimer (w : Work) (k : TimerKind) : Tracks w (w.stopTimer k) := ⟨rfl, _, rfl, .stop _ _ _ _ _⟩

theorem drop (w : Work) (d : DropReason) : Tracks w (w.drop d) :=
  of_quiet rfl rfl rfl rfl fun ev h => by rw [List.mem_singleton.mp h]; trivial

theorem ite {w u v : Work} {c : Prop} [Decidable c] (hu : Tracks w u) (hv : Tracks w v) :
    Tracks w (if c then u else v) := by
  split <;> assumption

theorem stopIfRunning (w : Work) (k : TimerKind) : Tracks w (w.stopIfRunning k) := (stopTimer w k).ite (refl w)

theorem stopAllTimers (w : Work) : Tracks w w.stopAllTimers :=
  ((stopIfRunning w _).trans (stopIfRunning _ _)).trans (stopIfRunning _ _)

/-! ### Reception -/

theorem umAdvance (stop : Nat) (w : Work) : Tracks w (umAdvance stop w) := by
  obtain ⟨_, _, _, _, _, sdus, h⟩ := umAdvance_frame stop w
  rw [h]
  exact of_quiet rfl rfl rfl rfl (quiet_delivers w.lcid sdus)

theorem amAdvance (w : Work) : Tracks w (amAdvance w) := by
  obtain ⟨_, _, _, _, sdus, h⟩ := amAdvanceLoop_frame w.slot.rxa.length w
  rw [Machine.amAdvance, h]
  exact of_quiet rfl rfl rfl rfl (quiet_delivers w.lcid sdus)

theorem umStartReord (w : Work) : Tracks w (umStartReord w) := (upd rfl).trans (startTimer _ _)

theorem amStartReord (w : Work) : Tracks w (amStartReord w) := (upd rfl).trans (startTimer _ _)

theorem umTimers (w : Work) : Tracks w (umTimers w) :=
  ((stopTimer w _).ite (refl w)).trans ((umStartReord _).ite (refl _))

theorem amTimers (w : Work) : Tracks w (amTimers w) :=
  ((stopTimer w _).ite (refl w)).trans ((amStartReord _).ite (refl _))

theorem umInsert (x : Nat) (p : Body) (w : Work) : Tracks w (umInsert x p w) :=
  (upd rfl).trans (((upd rfl).trans ((umAdvance _ _).ite (refl _))).ite (refl _))

theorem umReceive (x : Nat) (p : Body) (w : Work) : Tracks w (umReceive x p w) :=
  (refl w).ite (((umInsert x p w).trans ((umAdvance _ _).ite (refl _))).trans (umTimers _))

theorem umWritePdu (pdu : Bytes) (w : Work) : Tracks w (umWritePdu pdu w) := by
  unfold Machine.umWritePdu
  split
  · exact drop w _
  · exact (upd rfl).trans (umReceive _ _ _)

theorem amCount (p : Bool) (w : Work) : Tracks w (amCount p w) := (upd rfl).trans (upd rfl)

theorem amAccept (x : Nat) (r : AmEntry) (w : Work) : Tracks w (amAccept x r w) := by
  refine (upd ?_).trans (((amAdvance _).ite (refl _)).trans (amTimers _))
  unfold amBumpVrH
  split <;> rfl

theorem amDataReceive (pdu : Bytes) (w : Work) : Tracks w (amDataReceive pdu w) := by
  unfold Machine.amDataReceive
  split
  · exact drop w _
  · refine (amCount _ w).ite ?_
    dsimp only
    split
    · exact drop w _
    · exact (amCount _ w).trans ((refl _).ite (amAccept _ _ _))

/-! ### Transmission -/

theorem pollDecide (new : Bool) (nbytes : Nat) (w : Work) : Tracks w (pollDecide new nbytes w).2 := by
  have hcount : Tracks w (w.upd (pollCount new nbytes)) := upd (by cases new <;> rfl)
  unfold Machine.pollDecide
  dsimp only
  split
  · exact hcount.trans ((upd rfl).trans (startTimer _ _))
  · exact hcount

theorem umRead (budget : Nat) (w : Work) : Tracks w (umRead budget w).2 := by
  unfold Machine.umRead
  dsimp only
  split
  · exact refl w
  · exact (upd rfl).trans (upd rfl)

theorem newPdu {budget : Nat} {w w' : Work} {pdu : Bytes} (h : newPdu budget w = some (pdu, w')) : Tracks w w' := by
  unfold Machine.newPdu at h
  split at h
  · cases h
  · dsimp only at h
    split at h
    · cases h
    · cases h
      exact ((upd rfl).trans (pollDecide _ _ _)).trans (upd rfl)

theorem retxEntry {budget sn : Nat} {e : RetxEntry} {w w' : Work} {pdu : Bytes}
    (h : retxEntry budget sn e w = some (pdu, w')) : Tracks w w' := by
  unfold Machine.retxEntry at h
  dsimp only at h
  split at h
  · cases h
    exact (upd rfl).trans (pollDecide _ _ _)
  · split at h
    · cases h
    · split at h
      · cases h
      · cases h
        exact (upd rfl).trans (pollDecide _ _ _)

theorem retxPdu {budget : Nat} {w w' : Work} {pdu : Bytes} (h : retxPdu budget w = some (pdu, w')) : Tracks w w' := by
  unfold Machine.retxPdu at h
  split at h
  · cases h
  · split at h
    · cases h
    · exact retxEntry h

theorem amRead (budget : Nat) (w : Work) : Tracks w (amRead budget w).2 := by
  unfold Machine.amRead
  split
  · exact ((upd rfl).trans (startTimer _ _)).trans (upd rfl)
  · split
    · rename_i h
      exact ((retxPdu h).trans (upd rfl)).trans (upd rfl)
    · split
      · rename_i h
        exact (newPdu h).trans (upd rfl)
      · exact refl w

theorem considerForRetx (sn : Nat) (rg : RangeSet) (w : Work) : Tracks w (considerForRetx sn rg w) := by
  rcases considerForRetx_frame sn rg w with h | ⟨_, _, evs, -, -, -, hev, h⟩
  · rw [h]
    exact refl w
  · rw [h]
    refine of_quiet rfl rfl rfl rfl (evs := evs) ?_
    rcases hev with rfl | ⟨rfl, -⟩ <;> simp [Event.quiet]

theorem statusStep (nacks : List Nack) (w : Work) (sn : Nat) : Tracks w (statusStep nacks w sn) := by
  obtain ⟨_, dead, h⟩ := statusStep_frame nacks w sn
  rw [h]
  exact of_quiet rfl rfl rfl rfl (quiet_notifies w.lcid dead)

theorem handleStatus (st : Status) (w : Work) : Tracks w (handleStatus st w) := by
  have hfold : ∀ (sns : List Nat) (w : Work), Tracks w (sns.foldl (Machine.statusStep st.nacks) w) := by
    intro sns
    induction sns with
    | nil => exact refl
    | cons sn sns ih => exact fun w => (statusStep _ w sn).trans (ih _)
  exact ((hfold _ w).trans (upd rfl)).trans ((stopTimer _ _).ite (refl _))

theorem amWritePdu (pdu : Bytes) (w : Work) : Tracks w (amWritePdu pdu w) := by
  refine (drop w _).ite ((amDataReceive pdu w).ite ?_)
  unfold statusReceive
  split
  · exact drop w _
  · exact ((upd rfl).trans (handleStatus _ _)).ite (drop w _)

/-! ### Commands on one slot -/

theorem readPdu (budget : Nat) (w : Work) : Tracks w (readPdu budget w).2 := by
  unfold Machine.readPdu
  split
  · exact umRead budget w
  · exact amRead budget w

theorem writePdu (pdu : Bytes) (w : Work) : Tracks w (writePdu pdu w) := by
  unfold Machine.writePdu
  split
  · exact umWritePdu pdu w
  · exact amWritePdu pdu w

theorem reconfigure (c : Cfg) (w : Work) : Tracks w (reconfigure c w) := by
  refine Tracks.ite ((stopAllTimers w).trans (upd ?_)) (upd rfl)
  rw [stopAllTimers_eq]
  rfl

theorem pollRetxExpiry (w : Work) : Tracks w (pollRetxExpiry w) := by
  refine (upd (f := fun s => { s with pollPending := true }) rfl).trans (Tracks.ite ?_ (refl _))
  split
  · exact refl _
  · split
    · exact refl _
    · exact considerForRetx _ _ _

theorem expiryAction (k : TimerKind) (w : Work) : Tracks w (expiryAction k w) := by
  unfold Machine.expiryAction
  split
  · exact ((umAdvance _ _).trans (umAdvance _ _)).trans ((umStartReord _).ite (refl _))
  · exact (upd rfl).trans ((amStartReord _).ite (refl _))
  · exact pollRetxExpiry w
  · exact refl w
  · exact refl w

end Tracks

/-! ## Commands -/

/-- The shadow bits `b` of a bearer with tags `g` as a command's requests find them: a current expiry has cleared its own
(R363). -/
def bitsBefore (i : Instr) (b : PerTimer Bool) (g : PerTimer (BitVec 16)) : PerTimer Bool :=
  match i with
  | .timerExpiry _ sub gen =>
    match timerKindOf sub with
    | some k => if gen = g.get k then b.set k false else b
    | none => b
  | _ => b

/-- An accepted command works on the slot that its LCID names. -/
theorem Accepted.lcid_eq {s : State} {i : Instr} {w : Work} (h : Accepted s i w) : w.lcid = i.lcid := by
  cases h with
  | addBearer | writeSdu => rfl
  | configure => exact (Tracks.reconfigure _ _).lcid_eq
  | delBearer | reestablish => rw [stopAllTimers_eq]; rfl
  | readPdu => exact (Tracks.readPdu _ _).lcid_eq
  | writePdu => exact (Tracks.writePdu _ _).lcid_eq
  | timerExpiry => exact (Tracks.expiryAction _ _).lcid_eq

/-- An accepted command's bits and tags follow its events; the bits where its bearer is active before and after it. -/
theorem Accepted.timersFollow {s : State} {i : Instr} {w : Work} (h : Accepted s i w) : ∃ b,
    TimersFollow i.lcid w.events (bitsBefore i (s.slot i.lcid).running (s.tags i.lcid)) b (s.tags i.lcid) w.tags ∧
      ((s.slot i.lcid).active = true → w.slot.active = true → w.slot.running = b) := by
  cases h with
  | addBearer _ ha => exact ⟨_, .of_quiet (by simp) _ _, fun ha' => absurd ha' (by simp [Instr.lcid, ha])⟩
  | configure => exact ⟨_, (Tracks.reconfigure _ (s.enter _)).follow rfl, fun _ _ => rfl⟩
  | delBearer => exact ⟨_, (Tracks.stopAllTimers (s.enter _)).follow rfl, fun _ ha => by cases ha⟩
  | reestablish => exact ⟨_, (Tracks.stopAllTimers (s.enter _)).follow rfl, fun _ _ => by rw [stopAllTimers_eq]; rfl⟩
  | writeSdu => exact ⟨_, .of_quiet (fun _ hev => by cases hev) _ _, fun _ _ => rfl⟩
  | readPdu => exact ⟨_, (Tracks.readPdu _ (s.enter _)).follow rfl, fun _ _ => rfl⟩
  | writePdu => exact ⟨_, (Tracks.writePdu _ (s.enter _)).follow rfl, fun _ _ => rfl⟩
  | timerExpiry hk =>
    refine ⟨_, ?_, fun _ _ => rfl⟩
    simp only [bitsBefore, hk, Instr.lcid, if_true]
    exact (Tracks.expiryAction _ ((s.enter _).upd _)).follow rfl

/-- A command that is not accepted has no current expiry to clear a bit. -/
theorem bitsBefore_of_not_accepted {s : State} {i : Instr} (h : ∀ w, ¬ Accepted s i w)
    (ha : (s.slot i.lcid).active = true) :
    bitsBefore i (s.slot i.lcid).running (s.tags i.lcid) = (s.slot i.lcid).running := by
  unfold bitsBefore
  split
  · rename_i l sub gen
    split
    · rename_i k hk
      split
      · rename_i hg
        obtain rfl : gen = (s.tags l).get k := hg
        have hr : (s.slot l).running.get k = false := by
          rw [← Bool.not_eq_true]
          exact fun hr => h _ (.timerExpiry hk ha hr)
        exact (congrArg _ hr.symm).trans (PerTimer.set_get _ k)
      · rfl
    · rfl
  · rfl

/-- What every command's response says of the timers of its bearer; those of the others are as they were. -/
theorem exec_timersFollow {i : Instr} {s t : State} {r : Response} (h : exec i s = .next t)
    (hr : t.responses = s.responses ++ [r]) : ∃ b,
    TimersFollow i.lcid r.events (bitsBefore i (s.slot i.lcid).running (s.tags i.lcid)) b (s.tags i.lcid) (t.tags i.lcid) ∧
      ((s.slot i.lcid).active = true → (t.slot i.lcid).active = true → (t.slot i.lcid).running = b) ∧
      ∀ l ≠ i.lcid, t.slot l = s.slot l ∧ t.tags l = s.tags l := by
  rcases exec_outcomes i s with ⟨hno, r', hev, hx⟩ | ⟨w, hw, free, result, hx⟩
  · cases h.symm.trans hx
    obtain rfl : r' = r := by simpa using hr
    rw [hev]
    exact ⟨_, .of_quiet (by simp) _ _, fun ha _ => (bitsBefore_of_not_accepted hno ha).symm, fun _ _ => ⟨rfl, rfl⟩⟩
  · cases h.symm.trans hx
    obtain rfl : ⟨.ok, result, w.events⟩ = r := by simpa using hr
    obtain ⟨b, hf, hb⟩ := hw.timersFollow
    rw [hw.lcid_eq]
    simp only [slot_after_same, tags_after_same]
    exact ⟨b, hf, hb, fun l hl => ⟨slot_after_other _ _ _ _ _ _ hl, tags_after_other _ _ _ _ _ _ hl⟩⟩

/-- A current expiry of `k` has cleared the bit of `k`. -/
theorem get_bitsBefore_expiry {l : Lcid} {sub : Sub} {k : TimerKind} (hk : timerKindOf sub = some k) (b : PerTimer Bool)
    (g : PerTimer (BitVec 16)) : (bitsBefore (.timerExpiry l sub (g.get k)) b g).get k = false := by
  simp [bitsBefore, hk]

/-- Any other command finds the bit of `k` as it was. -/
theorem get_bitsBefore_other {i : Instr} {k : TimerKind} (b : PerTimer Bool) (g : PerTimer (BitVec 16))
    (h : ∀ sub, timerKindOf sub = some k → i ≠ .timerExpiry i.lcid sub (g.get k)) :
    (bitsBefore i b g).get k = b.get k := by
  unfold bitsBefore
  split
  · rename_i l sub gen
    split
    · rename_i k' hk'
      split
      · rename_i hg
        refine PerTimer.get_set_other _ _ ?_
        rintro rfl
        exact h sub hk' (by rw [hg]; rfl)
      · rfl
    · rfl
  · rfl

/-- Settles O53: a bit, a tag and an event of a timer change together, at each request (`Tracks`), so they agree over every
command. -/
theorem timerBitsFollowTheRequests : Obligations.TimerBitsFollowTheRequests := by
  intro i s t r l k h hr
  obtain ⟨b, hf, hb, hother⟩ := exec_timersFollow h hr
  by_cases hl : l = i.lcid
  · subst hl
    refine ⟨hf.starts k, hf.tags k, fun ha ha' => ⟨fun hi => ?_, fun sub hk hi => ?_⟩⟩
    · rw [hb ha ha', hf.bits, get_bitsBefore_other _ _ hi]
    · rw [hb ha ha', hf.bits]
      congr 1
      rw [hi]
      exact get_bitsBefore_expiry hk _ _
  · obtain ⟨hslot, htags⟩ := hother l hl
    obtain ⟨hs, ha⟩ := hf.other l hl k
    rw [hs, ha, ha, hslot, htags]
    refine ⟨rfl, by simp, fun _ _ => ⟨fun _ => rfl, fun sub _ hi => absurd ?_ hl⟩⟩
    rw [hi]
    rfl

end Sys2Proof.Machine
end

section
/-! PROOFS. The shapes of the entries of the buffers (10_state.md R26, R28): what builds an entry gives it its shape. -/

namespace Sys2Proof.Machine

/-! ## Membership in maps after an update -/

theorem mem_mapPut {α : Type} {k : Nat} {a : α} {e : Nat × α} : ∀ {m : SnMap α}, e ∈ mapPut k a m → e = (k, a) ∨ e ∈ m
  | [], h => by simpa [mapPut] using h
  | (j, b) :: m, h => by
    unfold mapPut at h
    split at h
    · exact List.mem_cons.mp h
    · split at h
      · exact (List.mem_cons.mp h).imp_right (List.mem_cons_of_mem _)
      · rcases List.mem_cons.mp h with rfl | h
        · exact .inr List.mem_cons_self
        · exact (mem_mapPut h).imp_right (List.mem_cons_of_mem _)

theorem mem_of_mem_mapDel {α : Type} {k : Nat} {e : Nat × α} {m : SnMap α} (h : e ∈ mapDel k m) : e ∈ m :=
  List.mem_of_mem_filter h

/-- A property of every entry is one of every entry after a write of an entry that has it. -/
theorem forall_mem_mapPut {α : Type} {P : Nat × α → Prop} {k : Nat} {a : α} {m : SnMap α} (h : ∀ e ∈ m, P e)
    (ha : P (k, a)) :
    ∀ e ∈ mapPut k a m, P e := by
  intro e he
  rcases mem_mapPut he with rfl | he
  · exact ha
  · exact h e he

/-! ## Range sets and the bytes held -/

/-- The union with an interval reaches no further than the set and the interval do. -/
theorem le_of_mem_rangeAdd {len : Nat} : ∀ {s e : Nat} {r : RangeSet}, e ≤ len → (∀ i ∈ r, i.2 ≤ len) →
    ∀ i ∈ rangeAdd s e r, i.2 ≤ len
  | s, e, [], he, _ => by
    unfold rangeAdd
    split <;> simp [he]
  | s, e, (a, b) :: r, he, hr => by
    obtain ⟨hb, hr'⟩ := List.forall_mem_cons.mp hr
    unfold rangeAdd
    split
    · exact hr
    · split
      · exact List.forall_mem_cons.mpr ⟨he, hr⟩
      · split
        · exact List.forall_mem_cons.mpr ⟨hb, le_of_mem_rangeAdd he hr'⟩
        · exact le_of_mem_rangeAdd (max_le he hb) hr'

theorem rangeAdd_ne_nil {s e : Nat} (h : s < e) (r : RangeSet) : rangeAdd s e r ≠ [] := by
  intro hnil
  have hs := rangeHas_rangeAdd s s e r
  simp [hnil, h] at hs

/-- The offsets listed are those of the set. -/
theorem mem_rangeOffsets {x : Nat} {r : RangeSet} : x ∈ rangeOffsets r ↔ rangeHas x r = true := by
  simp only [rangeOffsets, rangeHas, List.mem_flatMap, List.mem_range'_1, List.any_eq_true, Bool.and_eq_true, decide_eq_true_eq]
  refine exists_congr fun i => and_congr_right fun _ => and_congr_right fun _ => ?_
  omega

/-- The offsets of a canonical set are listed rising. -/
theorem pairwise_rangeOffsets : ∀ {lo : Nat} {r : RangeSet}, rangeWfFrom lo r = true → (rangeOffsets r).Pairwise (· < ·)
  | _, [], _ => List.Pairwise.nil
  | lo, (a, b) :: r, hw => by
    obtain ⟨-, hab, hr⟩ := (rangeWfFrom_cons _ _ _ _).mp hw
    refine List.pairwise_append.mpr ⟨List.pairwise_lt_range', pairwise_rangeOffsets hr, fun x hx y hy => ?_⟩
    have hxb := (List.mem_range'_1.mp hx).2
    have hby := le_of_rangeHas hr (mem_rangeOffsets.mp hy)
    omega

/-- The offsets of cells. -/
def cellKeys (cells : List Host.Cell) : List Nat := cells.map Prod.fst

theorem cellKeys_cons (c : Host.Cell) (cells : List Host.Cell) : cellKeys (c :: cells) = c.1 :: cellKeys cells := rfl

/-- Putting a cell in before rising cells, where `rest` goes on rising from the cells above it. -/
theorem cellKeys_cellInsert {x : Host.Cell} {held : List Nat} {rest : List Host.Cell → List Host.Cell}
    (hx : ∀ k ∈ held, x.1 < k)
    (hrest : ∀ ys, (cellKeys ys).Pairwise (· < ·) →
      (cellKeys (rest ys)).Pairwise (· < ·) ∧ ∀ k, k ∈ cellKeys (rest ys) ↔ k ∈ held ∨ k ∈ cellKeys ys) :
    ∀ ys, (cellKeys ys).Pairwise (· < ·) →
      (cellKeys (cellInsert x rest ys)).Pairwise (· < ·) ∧
        ∀ k, k ∈ cellKeys (cellInsert x rest ys) ↔ (k = x.1 ∨ k ∈ held) ∨ k ∈ cellKeys ys := by
  have hstop : ∀ ys : List Host.Cell, (cellKeys ys).Pairwise (· < ·) → (∀ k ∈ cellKeys ys, x.1 < k) →
      (cellKeys (x :: rest ys)).Pairwise (· < ·) ∧
        ∀ k, k ∈ cellKeys (x :: rest ys) ↔ (k = x.1 ∨ k ∈ held) ∨ k ∈ cellKeys ys := by
    intro ys hys habove
    obtain ⟨hp, hm⟩ := hrest ys hys
    rw [cellKeys_cons, List.pairwise_cons]
    refine ⟨⟨fun k hk => ?_, hp⟩, fun k => by rw [List.mem_cons, hm, or_assoc]⟩
    rcases (hm k).mp hk with hk | hk
    · exact hx k hk
    · exact habove k hk
  intro ys hys
  induction ys with
  | nil => exact hstop [] hys (by simp [cellKeys])
  | cons y ys ih =>
    obtain ⟨hy, hys'⟩ := List.pairwise_cons.mp hys
    unfold cellInsert
    split
    · rename_i hlt
      obtain ⟨hp, hm⟩ := ih hys'
      rw [cellKeys_cons, List.pairwise_cons]
      refine ⟨⟨fun k hk => ?_, hp⟩, fun k => by rw [List.mem_cons, hm, cellKeys_cons, List.mem_cons, or_left_comm]⟩
      rcases (hm k).mp hk with (rfl | hk) | hk
      · exact hlt
      · exact hlt.trans (hx k hk)
      · exact hy k hk
    · split
      · rename_i heq
        obtain ⟨hp, hm⟩ := hstop ys hys' (heq ▸ hy)
        refine ⟨hp, fun k => (hm k).trans ?_⟩
        rw [cellKeys_cons, List.mem_cons, heq]
        tauto
      · rename_i hlt hne
        refine hstop (y :: ys) hys fun k hk => ?_
        rcases List.mem_cons.mp hk with rfl | hk
        · omega
        · have := hy k hk
          omega

/-- Merging rising cells gives rising cells at the offsets of both. -/
theorem cellKeys_cellMerge : ∀ {held new : List Host.Cell},
    (cellKeys held).Pairwise (· < ·) → (cellKeys new).Pairwise (· < ·) →
    (cellKeys (cellMerge held new)).Pairwise (· < ·) ∧
      ∀ k, k ∈ cellKeys (cellMerge held new) ↔ k ∈ cellKeys held ∨ k ∈ cellKeys new
  | [], new, _, hn => ⟨hn, fun k => by simp [cellMerge, cellKeys]⟩
  | x :: held, new, hh, hn => by
    obtain ⟨hx, hh'⟩ := List.pairwise_cons.mp hh
    obtain ⟨hp, hm⟩ := cellKeys_cellInsert hx (fun ys hys => cellKeys_cellMerge hh' hys) new hn
    exact ⟨hp, fun k => by rw [cellMerge, hm, cellKeys_cons, List.mem_cons]; rfl⟩

theorem cellKeys_cellsOf : ∀ (so : Nat) (d : Bytes), cellKeys (cellsOf so d) = List.range' so d.length
  | _, [] => rfl
  | so, b :: d => by rw [cellsOf, cellKeys_cons, cellKeys_cellsOf, List.length_cons, List.range'_succ]

/-- The cells held stay those of the offsets held when a piece joins both. -/
theorem cellKeys_cellMerge_cellsOf {cells : List Host.Cell} {r : RangeSet} (hw : rangeWf r = true)
    (hc : cellKeys cells = rangeOffsets r) (so : Nat) (d : Bytes) :
    cellKeys (cellMerge cells (cellsOf so d)) = rangeOffsets (rangeAdd so (so + d.length) r) := by
  obtain ⟨hp, hm⟩ := cellKeys_cellMerge (held := cells) (new := cellsOf so d) (hc ▸ pairwise_rangeOffsets hw)
    (cellKeys_cellsOf so d ▸ List.pairwise_lt_range')
  refine hp.eq_of_mem_iff (pairwise_rangeOffsets (rangeWf_rangeAdd _ _ hw)) fun k => ?_
  rw [hm, hc, cellKeys_cellsOf, mem_rangeOffsets, mem_rangeOffsets, rangeHas_rangeAdd]
  simp [List.mem_range'_1]

/-! ## Boundary sets -/

theorem pairwise_bsetAdd (b : Nat) : ∀ {s : List Nat}, s.Pairwise (· < ·) → (bsetAdd b s).Pairwise (· < ·)
  | [], _ => List.pairwise_singleton _ _
  | c :: cs, h => by
    obtain ⟨hc, hcs⟩ := List.pairwise_cons.mp h
    unfold bsetAdd
    split
    · rename_i hlt
      refine List.pairwise_cons.mpr ⟨fun d hd => ?_, h⟩
      rcases List.mem_cons.mp hd with rfl | hd
      · exact hlt
      · exact hlt.trans (hc d hd)
    · split
      · exact h
      · rename_i hlt hne
        refine List.pairwise_cons.mpr ⟨fun d hd => ?_, pairwise_bsetAdd b hcs⟩
        rcases (mem_bsetAdd d b cs).mp hd with rfl | hd
        · omega
        · exact hc d hd

theorem pairwise_bsetUnion (bs : List Nat) : ∀ {s : List Nat}, s.Pairwise (· < ·) → (bsetUnion s bs).Pairwise (· < ·) := by
  induction bs with
  | nil => exact id
  | cons b bs ih => exact fun h => ih (pairwise_bsetAdd b h)

/-- The boundaries of a piece lie above offset 0. -/
theorem pos_of_mem_pieceBounds {pc : Piece} {h : Hdr} {b : Nat} (hl : 0 < pc.len) (hlis : ∀ li ∈ h.lis, 0 < li)
    (hb : b ∈ pieceBounds pc h) : 0 < b := by
  unfold pieceBounds at hb
  rcases List.mem_append.mp hb with hb | hb
  · rcases List.mem_append.mp hb with hb | hb
    · obtain ⟨c, hc, rfl⟩ := List.mem_map.mp hb
      have := (mem_boundsFrom hlis hc).1
      omega
    · split at hb
      · rename_i hso
        simp at hso hb
        omega
      · cases hb
  · split at hb
    · simp at hb
      omega
    · cases hb

/-! ## Reception entries -/

/-- What R28 says of a reception entry, but for holding a byte: what a new, empty entry meets too. -/
structure AmEntry.Held (r : AmEntry) : Prop where
  wf : rangeWf r.rcvd = true
  ends : ∀ i ∈ r.rcvd, i.2 ≤ Config.maxAmData
  len : r.len.getD 0 ≤ Config.maxAmData
  data : cellKeys r.data = rangeOffsets r.rcvd
  rising : r.bset.Pairwise (· < ·)
  pos : ∀ b ∈ r.bset, 0 < b
  consistent : r.consistent = true
  first : rangeHas 0 r.rcvd = true → r.fiFirst ≠ none
  last : r.len ≠ none → r.fiLast ≠ none

theorem AmEntry.shape_iff {r : AmEntry} : r.Shape ↔ r.rcvd ≠ [] ∧ r.Held :=
  ⟨fun ⟨hne, h1, h2, h3, h4, h5, h6, h7, h8, h9⟩ => ⟨hne, h1, h2, h3, h4, h5, h6, h7, h8, h9⟩,
    fun ⟨hne, h1, h2, h3, h4, h5, h6, h7, h8, h9⟩ => ⟨hne, h1, h2, h3, h4, h5, h6, h7, h8, h9⟩⟩

theorem AmEntry.held_empty : AmEntry.empty.Held :=
  ⟨rfl, by simp [empty], Nat.zero_le _, rfl, .nil, by simp [empty], rfl, by simp [empty], by simp [empty]⟩

/-- What a merge that succeeds gives. -/
theorem eq_mergeRaw_of_merge {r r' : AmEntry} {pc : Piece} {h : Hdr} {d : Bytes} (hm : merge r pc h d = some r') :
    r' = mergeRaw r pc h d ∧ r'.consistent = true := by
  unfold merge at hm
  split at hm
  · cases hm
  · dsimp only at hm
    split at hm
    · rename_i hc
      cases hm
      exact ⟨rfl, hc⟩
    · cases hm

/-- A piece within MAX_AM_DATA, merged into an entry, gives an entry of the shape of R28. -/
theorem AmEntry.Held.merge {r r' : AmEntry} (hr : r.Held) {pc : Piece} {h : Hdr} {d : Bytes} (hlen : pc.len = d.length)
    (hpos : 0 < pc.len) (hmax : pc.so + pc.len ≤ Config.maxAmData) (hlis : ∀ li ∈ h.lis, 0 < li)
    (hm : merge r pc h d = some r') : r'.Shape := by
  obtain ⟨rfl, hcons⟩ := eq_mergeRaw_of_merge hm
  refine AmEntry.shape_iff.mpr ⟨rangeAdd_ne_nil (by omega) _, ?_⟩
  refine {
    wf := rangeWf_rangeAdd _ _ hr.wf
    ends := le_of_mem_rangeAdd hmax hr.ends
    len := ?len
    data := by
      simp only [mergeRaw, hlen]
      exact cellKeys_cellMerge_cellsOf hr.wf hr.data _ _
    rising := pairwise_bsetUnion _ hr.rising
    pos := fun b hb => ((mem_bsetUnion _ _ _).mp hb).elim (hr.pos b) (pos_of_mem_pieceBounds hpos hlis)
    consistent := hcons
    first := ?first
    last := ?last }
  case len =>
    have := hr.len
    simp only [mergeRaw]
    split
    · exact hmax
    · exact this
  case first =>
    intro h0
    simp only [mergeRaw]
    split
    · simp
    · rename_i hno
      intro hnone
      simp only [mergeRaw, rangeHas_rangeAdd, Bool.or_eq_true, Bool.and_eq_true, decide_eq_true_eq] at h0
      rcases h0 with h0 | ⟨h0, -⟩
      · exact hr.first h0 hnone
      · exact hno ⟨by omega, hnone⟩
  case last =>
    have := hr.last
    simp only [mergeRaw]
    cases pc.last <;> cases hfl : r.fiLast <;> simp_all

/-! ## Received headers -/

/-- The width of the SN field of a header format, R80. -/
def Fmt.snBits : Fmt → Nat
  | .umd5 => 5
  | .umd10 | .amd => 10

/-- What a received header says when it is accepted, R95: an SN of the format's width, LIs above 0, and a data field that is not
empty and that MAX_AM_DATA bounds on an AM bearer. -/
structure Hdr.Received (fmt : Fmt) (h : Hdr) (dlen : Nat) : Prop where
  sn : h.sn < 2 ^ fmt.snBits
  lis : ∀ li ∈ h.lis, 0 < li
  pos : 0 < dlen
  whole : fmt = .amd → dlen ≤ Config.maxAmData
  segment : fmt = .amd → h.rf = true → h.so + dlen ≤ Config.maxAmData

theorem readFixed_sn_lt (fmt : Fmt) (pdu : Bytes) : (readFixed fmt pdu).1.sn < 2 ^ fmt.snBits := by
  cases fmt <;> exact rd_lt _ _ _

/-- Each refusal of R95 that `unpack_hdr` passes gives one field. -/
theorem received_of_unpackHdr {pm : Params} {fmt : Fmt} {liw : LiWidth} {pdu : Bytes} {h : Hdr} {n : Nat}
    (hu : unpackHdr pm fmt liw pdu = some (h, n)) : h.Received fmt (pdu.drop n).length := by
  have hsn := readFixed_sn_lt fmt pdu
  rw [List.length_drop]
  unfold unpackHdr at hu
  split at hu
  · cases hu
  dsimp only at hu
  split at hu
  · cases hu
  split at hu
  · cases hu
  rename_i lis pos _
  generalize (if liw = .w11 ∧ lis.length % 2 = 1 then pos + 4 else pos) = pos at hu
  split at hu
  · cases hu
  split at hu
  · cases hu
  rename_i hempty
  split at hu
  · cases hu
  rename_i hzero
  split at hu
  · cases hu
  split at hu
  · cases hu
  rename_i hwhole
  split at hu
  · cases hu
  rename_i hsegment
  cases hu
  refine ⟨hsn, fun li hli => ?_, Nat.pos_of_ne_zero hempty, fun hf => ?_, fun hf hrf => ?_⟩
  · refine Nat.pos_of_ne_zero fun h0 => hzero ?_
    exact List.any_eq_true.mpr ⟨li, hli, beq_iff_eq.mpr h0⟩
  · exact not_lt.mp fun hlt => hwhole ⟨hf, hlt⟩
  · exact not_lt.mp fun hlt => hsegment ⟨hf, hrf, hlt⟩

/-- The piece of an accepted header is not empty and lies within MAX_AM_DATA (R312). -/
theorem Hdr.Received.piece_le {h : Hdr} {dlen : Nat} (hr : h.Received .amd dlen) :
    0 < (pieceOf h dlen).len ∧ (pieceOf h dlen).so + (pieceOf h dlen).len ≤ Config.maxAmData := by
  unfold pieceOf
  split
  · rename_i hrf
    exact ⟨hr.pos, hr.segment rfl hrf⟩
  · exact ⟨hr.pos, by simpa using hr.whole rfl⟩

theorem len_pieceOf (h : Hdr) (dlen : Nat) : (pieceOf h dlen).len = dlen := by
  unfold pieceOf
  split <;> rfl

/-! ## New PDUs -/

/-- The elements of a data field under construction, R215: none is empty, there is one more of them than LIs at most, the LI of
every one but the last fits its field, and they fit the cap. -/
structure ElemsFit (pm : Params) (liw : LiWidth) (dcap : Nat) (elems : List Bytes) : Prop where
  pos : ∀ e ∈ elems, 0 < e.length
  count : elems.length ≤ pm.maxLi + 1
  lis : ∀ e ∈ elems.dropLast, e.length ≤ liw.max
  total : (elems.map List.length).sum ≤ dcap

/-- An element of the room that R215 leaves may follow. -/
theorem ElemsFit.append {pm : Params} {liw : LiWidth} {budget h dcap : Nat} {elems : List Bytes}
    (hf : ElemsFit pm liw dcap elems) {e : Bytes} (hpos : 0 < e.length)
    (hroom : e.length ≤ elemRoom pm budget h dcap liw elems) : ElemsFit pm liw dcap (elems ++ [e]) := by
  unfold elemRoom at hroom
  dsimp only at hroom
  split_ifs at hroom with hstop
  · omega
  simp only [Bool.or_eq_true, decide_eq_true_eq, not_or, not_lt] at hstop
  obtain ⟨hlast, hcount⟩ := hstop
  refine ⟨fun x hx => ?_, by simpa using hcount, fun x hx => ?_, ?_⟩
  · rcases List.mem_append.mp hx with hx | hx
    · exact hf.pos x hx
    · rwa [List.mem_singleton.mp hx]
  · rw [List.dropLast_concat] at hx
    rcases List.eq_nil_or_concat elems with rfl | ⟨pre, y, rfl⟩
    · cases hx
    · simp only [List.concat_eq_append, List.getLast?_append, List.getLast?_singleton, Option.some_or, decide_eq_true_eq, not_lt,
        List.mem_append, List.mem_singleton] at hlast hx
      rcases hx with hx | rfl
      · exact hf.lis x (by simpa using hx)
      · exact hlast
  · have := hf.total
    simp only [List.map_append, List.sum_append, List.map_singleton, List.sum_singleton]
    omega

/-- The records of a queue as R23 says, but for how many there are. -/
structure QueueShape (pm : Params) (txq : List TxSdu) : Prop where
  records : ∀ q ∈ txq, q.off < q.bytes.length ∧ q.bytes.length ≤ pm.maxSduBytes
  tail : ∀ q ∈ txq.tail, q.off = 0

theorem QueueShape.of_cons {pm : Params} {q : TxSdu} {txq : List TxSdu} (h : QueueShape pm (q :: txq)) : QueueShape pm txq :=
  ⟨fun x hx => h.records x (List.mem_cons_of_mem _ hx), fun x hx => h.tail x (List.mem_of_mem_tail hx)⟩

/-- The loop of R215 keeps the shape of its elements and of the queue. -/
theorem elemLoop_spec {pm : Params} {liw : LiWidth} (budget h dcap : Nat) : ∀ {txq : List TxSdu} {elems : List Bytes},
    QueueShape pm txq → ElemsFit pm liw dcap elems →
    ElemsFit pm liw dcap (elemLoop pm budget h dcap liw txq elems).1 ∧
      QueueShape pm (elemLoop pm budget h dcap liw txq elems).2.2 ∧
      (elemLoop pm budget h dcap liw txq elems).2.2.length ≤ txq.length
  | [], elems, hq, hf => ⟨hf, hq, le_refl _⟩
  | s :: q, elems, hq, hf => by
    obtain ⟨hoff, hmax⟩ := hq.records s List.mem_cons_self
    have hrem : s.remaining = s.bytes.length - s.off := rfl
    unfold elemLoop
    dsimp only
    split
    · exact ⟨hf, hq, le_refl _⟩
    · rename_i hroom
      have htake : ((s.bytes.drop s.off).take (min s.remaining (elemRoom pm budget h dcap liw elems))).length =
          min s.remaining (elemRoom pm budget h dcap liw elems) := by
        rw [List.length_take, List.length_drop]
        omega
      have hf' := hf.append (e := (s.bytes.drop s.off).take (min s.remaining (elemRoom pm budget h dcap liw elems)))
        (budget := budget) (h := h) (by omega) (by omega)
      split
      · rename_i hpart
        refine ⟨hf', ⟨fun x hx => ?_, hq.tail⟩, le_refl _⟩
        rcases List.mem_cons.mp hx with rfl | hx
        · dsimp only
          omega
        · exact hq.records x (List.mem_cons_of_mem _ hx)
      · obtain ⟨he, hr, hl⟩ := elemLoop_spec budget h dcap hq.of_cons hf'
        exact ⟨he, hr, hl.trans (Nat.le_succ _)⟩

/-- The elements of the loop of R215 begin with those it starts from. -/
theorem prefix_elemLoop (pm : Params) (budget h dcap : Nat) (liw : LiWidth) : ∀ (txq : List TxSdu) (elems : List Bytes),
    elems <+: (elemLoop pm budget h dcap liw txq elems).1
  | [], elems => List.prefix_refl _
  | s :: q, elems => by
    unfold elemLoop
    dsimp only
    split
    · exact List.prefix_refl _
    · split
      · exact List.prefix_append _ _
      · exact (List.prefix_append _ _).trans (prefix_elemLoop pm budget h dcap liw q _)

/-- The first turn of the loop takes an element where there is a budget for a byte. -/
theorem elemLoop_ne_nil {pm : Params} {liw : LiWidth} {budget h dcap : Nat} (s : TxSdu) (q : List TxSdu)
    (hb : h < budget) (hd : 0 < dcap) : (elemLoop pm budget h dcap liw (s :: q) []).1 ≠ [] := by
  have hroom : elemRoom pm budget h dcap liw [] ≠ 0 := by
    have h0 : liBytes liw 0 = 0 := by cases liw <;> rfl
    simp [elemRoom, h0]
    omega
  unfold elemLoop
  dsimp only
  rw [if_neg hroom]
  split
  · simp
  · intro hnil
    have hp := prefix_elemLoop pm budget h dcap liw q
      ([] ++ [(s.bytes.drop s.off).take (min s.remaining (elemRoom pm budget h dcap liw []))])
    rw [hnil] at hp
    simpa using List.prefix_nil.mp hp

/-- What `build_elems` takes from a queue, R215. -/
theorem buildElems_spec {pm : Params} {budget h dcap : Nat} {liw : LiWidth} {txq : List TxSdu} {b : Built}
    (hq : QueueShape pm txq) (hd : 0 < dcap) (hb : buildElems pm budget h dcap liw txq = some b) :
    QueueShape pm b.txq ∧ b.txq.length ≤ txq.length ∧ ∃ elems, ElemsFit pm liw dcap elems ∧ elems ≠ [] ∧
      b.lis = elems.dropLast.map List.length ∧ b.data = elems.flatten := by
  unfold buildElems at hb
  split at hb
  · cases hb
  · rename_i s q
    split_ifs at hb with hbudget
    obtain rfl := Option.some.inj hb
    have hempty : ElemsFit pm liw dcap [] := ⟨by simp, by simp, by simp, by simp⟩
    obtain ⟨he, hr, hl⟩ := elemLoop_spec budget h dcap hq hempty
    exact ⟨hr, hl, _, he, elemLoop_ne_nil s q (not_le.mp hbudget) hd, rfl, rfl⟩

/-- The entry of a new AMD PDU has the shape of R26. -/
theorem shape_of_elemsFit {pm : Params} {liw : LiWidth} {elems : List Bytes} (hf : ElemsFit pm liw Config.maxAmData elems)
    (hne : elems ≠ []) (fi : BitVec 2) (p : Bool) :
    (⟨fi, boundsOf (elems.dropLast.map List.length), elems.flatten, p, 0, [], false⟩ : RetxEntry).Shape pm liw := by
  obtain ⟨pre, e, rfl⟩ := (List.eq_nil_or_concat elems).resolve_left hne
  rw [List.concat_eq_append] at hf ⊢
  have hpos := hf.pos
  have hcount := hf.count
  have hlis := hf.lis
  have htotal := hf.total
  simp only [List.dropLast_concat, List.forall_mem_append, List.forall_mem_singleton, List.length_append, List.length_singleton,
    List.map_append, List.map_singleton, List.sum_append, List.sum_singleton, Nat.add_le_add_iff_right] at hpos hcount hlis htotal
  obtain ⟨hpre, he⟩ := hpos
  have hlen : ((pre ++ [e]).flatten).length = (pre.map List.length).sum + e.length := by simp
  have hli : ∀ li ∈ pre.map List.length, 1 ≤ li := List.forall_mem_map.mpr hpre
  simp only [RetxEntry.Shape, List.dropLast_concat, hlen, lisOf_boundsOf, length_boundsOf, List.length_map]
  refine ⟨by omega, htotal, hcount, pairwise_boundsFrom hli, fun b hb => ?_, List.forall_mem_map.mpr hlis⟩
  have := mem_boundsFrom hli hb
  omega

/-! ## What sending a PDU does -/

/-- A new PDU, R263: the window is open, the PDU's bytes leave the queue under the next SN, the poll is decided, and the entry
joins `RB`. -/
theorem newPdu_cases {budget : Nat} {w w' : Work} {pdu : Bytes} (h : newPdu budget w = some (pdu, w')) :
    w.slot.stalled = false ∧ ∃ (b : Built) (p : Bool),
      buildElems w.params budget 2 Config.maxAmData w.slot.cfg.liw w.slot.txq = some b ∧
      w' = (pollDecide true b.data.length
          (w.upd fun s => { s with txq := b.txq, vtS := modN s.n (s.vtS + 1) })).2.upd
        fun s => { s with rb := mapPut w.slot.vtS ⟨b.fi, boundsOf b.lis, b.data, p, 0, [], false⟩ s.rb } := by
  unfold newPdu at h
  split at h
  · cases h
  · rename_i hst
    dsimp only at h
    split at h
    · cases h
    · rename_i b hb
      cases h
      exact ⟨Bool.eq_false_iff.mpr hst, b, _, hb, rfl⟩

theorem pos_of_largestSeg {liw : LiWidth} {bounds : List Nat} {budget a n : Nat} : ∀ {m : Nat},
    largestSeg liw bounds budget a m = some n → 0 < n
  | 0, h => by cases h
  | m + 1, h => by
    unfold largestSeg at h
    split at h
    · cases h
      exact Nat.succ_pos m
    · exact pos_of_largestSeg h

/-- A retransmission, R265: nothing of the entry is pending after it, or a segment less is; and the poll is decided. -/
theorem retxPdu_cases {budget : Nat} {w w' : Work} {pdu : Bytes} (h : retxPdu budget w = some (pdu, w')) :
    ∃ (sn : Nat) (e : RetxEntry) (pending : RangeSet) (nbytes : Nat), mapGet sn w.slot.rb = some e ∧
      (pending = [] ∨ ∃ a n, 0 < n ∧ pending = rangeSub a (a + n) e.pending) ∧
      w' = (pollDecide false nbytes
        (w.upd fun s => { s with rb := mapPut sn { e with pending := pending } s.rb })).2 := by
  unfold retxPdu at h
  split at h
  · cases h
  · rename_i sn _
    split at h
    · cases h
    · rename_i e hg
      unfold retxEntry at h
      dsimp only at h
      split at h
      · cases h
        exact ⟨sn, e, [], _, hg, .inl rfl, rfl⟩
      · split at h
        · cases h
        · rename_i a z _ _
          split at h
          · cases h
          · rename_i n hn
            cases h
            exact ⟨sn, e, _, _, hg, .inr ⟨a, n, pos_of_largestSeg hn, rfl⟩, rfl⟩

end Sys2Proof.Machine
end

section
/-! PROOFS. Every step keeps the shapes of the queue, the buffers and the reassembly buffer (10_state.md R23, R26, R28, R29). -/

namespace Sys2Proof.Machine

/-! ## The shapes of a bearer, by its mode -/

/-- What every bearer's shapes say: the queue of R23 and the reassembly buffer of R29. -/
structure Slot.CommonShapes (pm : Params) (v : Slot) : Prop where
  count : v.txq.length ≤ pm.qSdu
  queue : QueueShape pm v.txq
  part : (v.rsm.part.getD []).length ≤ pm.maxSduBytes

/-- The shapes of a UM bearer, whose AM state is idle. -/
structure Slot.UmShapes (pm : Params) (v : Slot) : Prop extends v.CommonShapes pm where
  mode : v.cfg.mode = .um
  rb : v.rb = []
  rxa : v.rxa = []
  statusTriggered : v.statusTriggered = false
  pollPending : v.pollPending = false
  prohibit : v.running.prohibit = false
  pollretx : v.running.pollretx = false

/-- The shapes of an AM bearer, whose UM state is idle. -/
structure Slot.AmShapes (pm : Params) (v : Slot) : Prop extends v.CommonShapes pm where
  mode : v.cfg.mode = .am
  rb : ∀ e ∈ v.rb, e.2.Shape pm v.cfg.liw
  rxa : ∀ e ∈ v.rxa, e.2.Shape
  rxu : v.rxu = []
  vtUs : v.vtUs = 0
  vrUr : v.vrUr = 0
  vrUh : v.vrUh = 0

theorem Slot.UmShapes.shapes {pm : Params} {v : Slot} (h : v.UmShapes pm) : v.Shapes pm :=
  ⟨⟨h.count, h.queue.records, h.queue.tail⟩, by simp [h.rb], by simp [h.rxa], h.part,
    fun _ => ⟨h.rb, h.rxa, h.statusTriggered, h.pollPending, h.prohibit, h.pollretx⟩, fun hm => by simp [h.mode] at hm⟩

theorem Slot.AmShapes.shapes {pm : Params} {v : Slot} (h : v.AmShapes pm) : v.Shapes pm :=
  ⟨⟨h.count, h.queue.records, h.queue.tail⟩, h.rb, h.rxa, h.part, fun hm => by simp [h.mode] at hm,
    fun _ => ⟨h.rxu, h.vtUs, h.vrUr, h.vrUh⟩⟩

theorem Slot.Shapes.um {pm : Params} {v : Slot} (h : v.Shapes pm) (mode : v.cfg.mode = .um) : v.UmShapes pm := by
  obtain ⟨⟨count, records, tail⟩, -, -, part, idle, -⟩ := h
  obtain ⟨rb, rxa, statusTriggered, pollPending, prohibit, pollretx⟩ := idle mode
  exact ⟨⟨count, ⟨records, tail⟩, part⟩, mode, rb, rxa, statusTriggered, pollPending, prohibit, pollretx⟩

theorem Slot.Shapes.am {pm : Params} {v : Slot} (h : v.Shapes pm) (mode : v.cfg.mode = .am) : v.AmShapes pm := by
  obtain ⟨⟨count, records, tail⟩, rb, rxa, part, -, idle⟩ := h
  obtain ⟨rxu, vtUs, vrUr, vrUh⟩ := idle mode
  exact ⟨⟨count, ⟨records, tail⟩, part⟩, mode, rb, rxa, rxu, vtUs, vrUr, vrUh⟩

/-- A command's work on a UM bearer of these shapes. -/
def Work.UmShaped (pm : Params) (w : Work) : Prop := w.params = pm ∧ w.slot.UmShapes pm

/-- A command's work on an AM bearer of these shapes. -/
def Work.AmShaped (pm : Params) (w : Work) : Prop := w.params = pm ∧ w.slot.AmShapes pm

theorem shapes_initEntity (pm : Params) (v : Slot) : (initEntity v).Shapes pm := by
  simp [Slot.Shapes, Slot.QueueOk, Slot.OtherModeIdle, initEntity]

/-! ## Reassembly -/

/-- What reassembly holds is never longer than MAX_SDU_BYTES, R238. -/
theorem length_part_reassemble (pm : Params) (n sn : Nat) (p : Body) (rsm : Rsm) :
    ((reassemble pm n sn p rsm).1.part.getD []).length ≤ pm.maxSduBytes := by
  have hcontents : ∀ (held : Option Bytes) (c : Bool) (es : List Bytes), ∀ x ∈ contents pm held c es,
      (x.getD []).length ≤ pm.maxSduBytes := by
    intro held c es x hx
    cases es with
    | nil => cases hx
    | cons e es =>
      obtain ⟨y, -, rfl⟩ := List.mem_map.mp hx
      cases y with
      | none => exact Nat.zero_le _
      | some b => by_cases hb : b.length ≤ pm.maxSduBytes <;> simp [Option.filter, hb]
  unfold reassemble
  dsimp only
  split
  · have h := hcontents (if rsm.next = sn then rsm.part else none) (fi1 p.fi) (splitData p.data p.bounds)
    revert h
    generalize contents pm _ _ _ = cs
    intro h
    cases hl : cs.getLast? with
    | none => exact Nat.zero_le _
    | some x => exact h x (List.mem_of_getLast? hl)
  · exact Nat.zero_le _

theorem umShaped_rsmFeed {pm : Params} {w : Work} (h : w.UmShaped pm) (sn : Nat) (p : Body) : (rsmFeed sn p w).UmShaped pm := by
  obtain ⟨rfl, h⟩ := h
  rw [rsmFeed_eq]
  exact ⟨rfl, { h with part := length_part_reassemble _ _ _ _ _ }⟩

theorem amShaped_rsmFeed {pm : Params} {w : Work} (h : w.AmShaped pm) (sn : Nat) (p : Body) : (rsmFeed sn p w).AmShaped pm := by
  obtain ⟨rfl, h⟩ := h
  rw [rsmFeed_eq]
  exact ⟨rfl, { h with part := length_part_reassemble _ _ _ _ _ }⟩

/-! ## UM -/

section

variable {pm : Params} {w : Work}

theorem umShaped_umPass (h : w.UmShaped pm) (sn : Nat) : (umPass w sn).UmShaped pm := by
  unfold umPass
  dsimp only
  split
  · rename_i p _
    obtain ⟨hp, h⟩ := umShaped_rsmFeed h sn p
    exact ⟨hp, { h with }⟩
  · obtain ⟨hp, h⟩ := h
    exact ⟨hp, { h with }⟩

theorem umShaped_umAdvance (h : w.UmShaped pm) (stop : Nat) : (umAdvance stop w).UmShaped pm :=
  List.foldlRecOn _ _ h fun _ hw sn _ => umShaped_umPass hw sn

theorem umShaped_upd (h : w.UmShaped pm) {f : Slot → Slot} (hf : w.slot.UmShapes pm → (f w.slot).UmShapes pm) :
    (w.upd f).UmShaped pm :=
  h.imp id hf

theorem umShaped_drop (h : w.UmShaped pm) (d : DropReason) : (w.drop d).UmShaped pm := h

/-- Requests of the reordering timer touch no shape. -/
theorem umShaped_of_reordered {w' : Work} (h : w.UmShaped pm) (hr : ReorderedFrom w w') : w'.UmShaped pm := by
  obtain ⟨_, _, _, _, _, rfl, -⟩ := hr
  exact h.imp id fun hs => { hs with }

theorem umShaped_umInsert (h : w.UmShaped pm) (x : Nat) (p : Body) : (umInsert x p w).UmShaped pm := by
  have hput : (w.upd fun s => { s with rxu := mapPut x p s.rxu }).UmShaped pm := umShaped_upd h fun hs => { hs with }
  unfold umInsert
  dsimp only
  split
  · have hmove := umShaped_upd hput (f := fun s => { s with vrUh := modN s.n (x + 1) }) fun hs => { hs with }
    split
    · exact umShaped_umAdvance hmove _
    · exact hmove
  · exact hput

theorem umShaped_umReceive (h : w.UmShaped pm) (x : Nat) (p : Body) : (umReceive x p w).UmShaped pm := by
  unfold umReceive
  split
  · exact h
  · have hin := umShaped_umInsert h x p
    refine umShaped_of_reordered ?_ (umTimers_frame _)
    split
    · exact umShaped_umAdvance hin _
    · exact hin

theorem umShaped_umWritePdu (h : w.UmShaped pm) (pdu : Bytes) : (umWritePdu pdu w).UmShaped pm := by
  unfold umWritePdu
  split
  · exact umShaped_drop h _
  · exact umShaped_umReceive (umShaped_upd h fun hs => { hs with }) _ _

theorem umShaped_umReordExpiry (h : w.UmShaped pm) : (umReordExpiry w).UmShaped pm := by
  have hadv := umShaped_umAdvance (umShaped_umAdvance h w.slot.vrUx) (umGap (umAdvance w.slot.vrUx w).slot)
  unfold umReordExpiry
  dsimp only
  split
  · exact umShaped_of_reordered hadv (reorderedFrom_umStart _)
  · exact hadv

/-- What is left of a queue that `build_elems` has taken a PDU from has its shape. -/
theorem commonShapes_of_buildElems {v : Slot} {budget h dcap : Nat} {b : Built} (hv : v.CommonShapes pm) (hd : 0 < dcap)
    (hb : buildElems pm budget h dcap v.cfg.liw v.txq = some b) : ({ v with txq := b.txq } : Slot).CommonShapes pm := by
  obtain ⟨hq, hl, -⟩ := buildElems_spec hv.queue hd hb
  exact ⟨hl.trans hv.count, hq, hv.part⟩

theorem umShaped_umRead (h : w.UmShaped pm) (budget : Nat) : (umRead budget w).2.UmShaped pm := by
  obtain ⟨rfl, h⟩ := h
  unfold umRead
  dsimp only
  split
  · exact ⟨rfl, h⟩
  · rename_i b hb
    have hc := commonShapes_of_buildElems h.toCommonShapes (by decide) hb
    exact ⟨rfl, { hc, h with }⟩

/-! ## AM receive -/

theorem amShaped_upd (h : w.AmShaped pm) {f : Slot → Slot} (hf : w.slot.AmShapes pm → (f w.slot).AmShapes pm) :
    (w.upd f).AmShaped pm :=
  h.imp id hf

theorem amShaped_drop (h : w.AmShaped pm) (d : DropReason) : (w.drop d).AmShaped pm := h

theorem amShaped_stopTimer (h : w.AmShaped pm) (k : TimerKind) : (w.stopTimer k).AmShaped pm :=
  h.imp id fun hs => { hs with }

/-- Requests of the reordering timer touch no shape. -/
theorem amShaped_of_reordered {w' : Work} (h : w.AmShaped pm) (hr : ReorderedFrom w w') : w'.AmShaped pm := by
  obtain ⟨_, _, _, _, _, rfl, -⟩ := hr
  exact h.imp id fun hs => { hs with }

theorem amShaped_amAdvanceLoop : ∀ (fuel : Nat) {w : Work}, w.AmShaped pm → (amAdvanceLoop fuel w).AmShaped pm
  | 0, _, h => h
  | fuel + 1, w, h => by
    unfold amAdvanceLoop
    split
    · exact h
    · split
      · exact amShaped_amAdvanceLoop fuel <| amShaped_upd (amShaped_rsmFeed h _ _) fun hs =>
          { hs with rxa := fun e he => hs.rxa e (mem_of_mem_mapDel he) }
      · exact h

theorem amShaped_amCount (h : w.AmShaped pm) (p : Bool) : (amCount p w).AmShaped pm := h.imp id fun hs => { hs with }

theorem amShaped_amAccept (h : w.AmShaped pm) (x : Nat) {r : AmEntry} (hr : r.Shape) : (amAccept x r w).AmShaped pm := by
  have hput : (w.upd fun s => amBumpVrH x { s with rxa := mapPut x r s.rxa }).AmShaped pm := by
    refine amShaped_upd h fun hs => ?_
    have hrxa := forall_mem_mapPut (k := x) (a := r) hs.rxa hr
    unfold amBumpVrH
    split <;> exact { hs with rxa := hrxa }
  refine amShaped_of_reordered ?_ (amTimers_frame _)
  split
  · exact amShaped_amAdvanceLoop _ hput
  · exact hput

theorem amShaped_amDataReceive (h : w.AmShaped pm) (pdu : Bytes) : (amDataReceive pdu w).AmShaped pm := by
  unfold amDataReceive
  split
  · exact amShaped_drop h _
  · rename_i hd n hu
    dsimp only
    split
    · exact amShaped_amCount h _
    · split
      · exact amShaped_drop h _
      · rename_i r hm
        split
        · exact amShaped_amCount h _
        · have hrec := received_of_unpackHdr hu
          obtain ⟨hpos, hmax⟩ := hrec.piece_le
          have hold : ((mapGet hd.sn w.slot.rxa).getD AmEntry.empty).Held := by
            cases hg : mapGet hd.sn w.slot.rxa with
            | none => exact AmEntry.held_empty
            | some old => exact (AmEntry.shape_iff.mp (h.2.rxa _ (mem_of_mapGet hg))).2
          exact amShaped_amAccept (amShaped_amCount h _) _ (hold.merge (len_pieceOf _ _) hpos hmax hrec.lis hm)

/-! ## AM transmit -/

/-- An RB entry keeps the shape of R26 whatever becomes of its retransmission state. -/
theorem amShaped_putRetx (h : w.AmShaped pm) {sn : Nat} {e e' : RetxEntry} (hg : mapGet sn w.slot.rb = some e)
    (hfi : e'.bounds = e.bounds) (hdata : e'.data = e.data) :
    (w.upd fun s => { s with rb := mapPut sn e' s.rb }).AmShaped pm := by
  refine amShaped_upd h fun hs => { hs with rb := forall_mem_mapPut hs.rb ?_ }
  have he := hs.rb _ (mem_of_mapGet hg)
  simpa [RetxEntry.Shape, hfi, hdata] using he

theorem amShaped_pollDecide (h : w.AmShaped pm) (new : Bool) (nbytes : Nat) : (pollDecide new nbytes w).2.AmShaped pm := by
  rcases pollDecide_cases new nbytes w with ⟨-, hp⟩ | ⟨-, hp⟩ <;> rw [hp]
  · refine h.imp id fun hs => ?_
    cases new <;> exact { hs with }
  · exact h.imp id fun hs => { hs with }

@[simp] theorem cfg_pollDecide (new : Bool) (nbytes : Nat) (w : Work) : (pollDecide new nbytes w).2.slot.cfg = w.slot.cfg := by
  rcases pollDecide_cases new nbytes w with ⟨-, hp⟩ | ⟨-, hp⟩ <;> rw [hp]
  cases new <;> rfl

theorem amShaped_newPdu {w' : Work} (h : w.AmShaped pm) {budget : Nat} {pdu : Bytes} (hnew : newPdu budget w = some (pdu, w')) :
    w'.AmShaped pm := by
  obtain ⟨rfl, hs⟩ := h
  obtain ⟨-, b, p, hb, rfl⟩ := newPdu_cases hnew
  obtain ⟨-, -, elems, hf, hne, hlis, hdata⟩ := buildElems_spec hs.queue (by decide) hb
  have hc := commonShapes_of_buildElems hs.toCommonShapes (by decide) hb
  have htaken : (w.upd fun s => { s with txq := b.txq, vtS := modN s.n (s.vtS + 1) }).AmShaped w.params :=
    ⟨rfl, { hc, hs with }⟩
  refine amShaped_upd (amShaped_pollDecide htaken true b.data.length) fun hp =>
    { hp with rb := forall_mem_mapPut hp.rb ?_ }
  rw [cfg_pollDecide, hlis, hdata]
  exact shape_of_elemsFit hf hne _ _

theorem amShaped_retxPdu {w' : Work} (h : w.AmShaped pm) {budget : Nat} {pdu : Bytes}
    (hretx : retxPdu budget w = some (pdu, w')) : w'.AmShaped pm := by
  obtain ⟨sn, e, pending, nbytes, hg, -, rfl⟩ := retxPdu_cases hretx
  exact amShaped_pollDecide (amShaped_putRetx (e' := { e with pending := pending }) h hg rfl rfl) _ _

theorem amShaped_amRead (h : w.AmShaped pm) (budget : Nat) : (amRead budget w).2.AmShaped pm := by
  unfold amRead
  split
  · exact h.imp id fun hs => { hs with }
  · split
    · rename_i hretx
      exact (amShaped_retxPdu h hretx).imp id fun hs => { hs with }
    · split
      · rename_i hnew
        exact (amShaped_newPdu h hnew).imp id fun hs => { hs with }
      · exact h

theorem amShaped_considerForRetx (h : w.AmShaped pm) (sn : Nat) (rg : RangeSet) : (considerForRetx sn rg w).AmShaped pm := by
  rcases considerForRetx_frame sn rg w with hc | ⟨e, e', evs, hg, -, he', -, hc⟩ <;> rw [hc]
  · exact h
  · exact amShaped_putRetx h hg (by rw [he']) (by rw [he'])

theorem amShaped_statusStep (h : w.AmShaped pm) (nacks : List Nack) (sn : Nat) : (statusStep nacks w sn).AmShaped pm := by
  unfold statusStep
  split
  · exact h
  · dsimp only
    split
    · exact amShaped_upd h fun hs => { hs with rb := fun e he => hs.rb e (mem_of_mem_mapDel he) }
    · split
      · exact h
      · exact amShaped_considerForRetx h _ _

theorem amShaped_handleStatus (h : w.AmShaped pm) (st : Status) : (handleStatus st w).AmShaped pm := by
  have hfold := List.foldlRecOn (motive := Work.AmShaped pm) (snInterval w.slot.n w.slot.vtA st.ack) (statusStep st.nacks) h
    fun _ hw sn _ => amShaped_statusStep hw st.nacks sn
  have hmove := amShaped_upd hfold (f := fun s => { s with vtA := nextVtA w.slot.n w.slot.vtA s.vtS s.rb }) fun hs => { hs with }
  unfold handleStatus
  dsimp only
  split
  · exact amShaped_stopTimer hmove _
  · exact hmove

theorem amShaped_amWritePdu (h : w.AmShaped pm) (pdu : Bytes) : (amWritePdu pdu w).AmShaped pm := by
  unfold amWritePdu
  split
  · exact amShaped_drop h _
  · split
    · exact amShaped_amDataReceive h pdu
    · unfold statusReceive
      split
      · exact amShaped_drop h _
      · split
        · exact amShaped_handleStatus (amShaped_upd h fun hs => { hs with }) _
        · exact amShaped_drop h _

theorem amShaped_amReordExpiry (h : w.AmShaped pm) : (amReordExpiry w).AmShaped pm := by
  have ht : (w.upd fun s => { s with statusTriggered := true }).AmShaped pm := amShaped_upd h fun hs => { hs with }
  unfold amReordExpiry
  dsimp only
  split
  · exact amShaped_of_reordered ht (reorderedFrom_amStart _)
  · exact ht

theorem amShaped_pollRetxExpiry (h : w.AmShaped pm) : (pollRetxExpiry w).AmShaped pm := by
  have ht : (w.upd fun s => { s with pollPending := true }).AmShaped pm := amShaped_upd h fun hs => { hs with }
  unfold pollRetxExpiry
  dsimp only
  split
  · split
    · exact ht
    · split
      · exact ht
      · exact amShaped_considerForRetx ht _ _
  · exact ht

end

/-! ## Commands -/

/-- A command's work on a bearer whose slot has the shapes. -/
def Work.Shaped (pm : Params) (w : Work) : Prop := w.params = pm ∧ w.slot.Shapes pm

theorem Work.UmShaped.shaped {pm : Params} {w : Work} (h : w.UmShaped pm) : w.Shaped pm := h.imp id Slot.UmShapes.shapes

theorem Work.AmShaped.shaped {pm : Params} {w : Work} (h : w.AmShaped pm) : w.Shaped pm := h.imp id Slot.AmShapes.shapes

section

variable {pm : Params} {w : Work} (h : w.Shaped pm)
include h

theorem Work.Shaped.um (mode : w.slot.cfg.mode = .um) : w.UmShaped pm := h.imp id fun hs => hs.um mode

theorem Work.Shaped.am (mode : w.slot.cfg.mode = .am) : w.AmShaped pm := h.imp id fun hs => hs.am mode

theorem shaped_readPdu (budget : Nat) : (readPdu budget w).2.Shaped pm := by
  unfold readPdu
  split
  · exact (umShaped_umRead (h.um ‹_›) budget).shaped
  · exact (amShaped_amRead (h.am ‹_›) budget).shaped

theorem shaped_writePdu (pdu : Bytes) : (writePdu pdu w).Shaped pm := by
  unfold writePdu
  split
  · exact (umShaped_umWritePdu (h.um ‹_›) pdu).shaped
  · exact (amShaped_amWritePdu (h.am ‹_›) pdu).shaped

theorem shaped_expire (k : TimerKind) : (expire k w).Shaped pm := by
  have hum (mode : w.slot.cfg.mode = .um) :
      (w.upd fun s => { s with running := s.running.set k false }).UmShaped pm := by
    refine umShaped_upd (h.um mode) fun hs => { hs with prohibit := ?_, pollretx := ?_ } <;>
      cases k <;> simp [PerTimer.set, hs.prohibit, hs.pollretx]
  have ham (mode : w.slot.cfg.mode = .am) :
      (w.upd fun s => { s with running := s.running.set k false }).AmShaped pm :=
    amShaped_upd (h.am mode) fun hs => { hs with }
  unfold expire expiryAction
  split
  · exact (umShaped_umReordExpiry (hum ‹_›)).shaped
  · exact (amShaped_amReordExpiry (ham ‹_›)).shaped
  · exact (amShaped_pollRetxExpiry (ham ‹_›)).shaped
  · cases hmode : w.slot.cfg.mode
    · exact (hum hmode).shaped
    · exact (ham hmode).shaped
  · exact (hum ‹_›).shaped

end

/-- A CONFIGURE that is not structural keeps the shapes: it keeps the mode and the LI width that they depend on (R183). -/
theorem shapes_withCfg {pm : Params} {v : Slot} {c : Cfg} (h : v.Shapes pm) (hc : structuralChange v.cfg c = false) :
    ({ v with cfg := c } : Slot).Shapes pm := by
  obtain ⟨⟨⟨hmode, -⟩, hliw⟩, -⟩ : ((c.mode = v.cfg.mode ∧ c.snw = v.cfg.snw) ∧ c.liw = v.cfg.liw) ∧ _ := by
    simpa [structuralChange] using hc
  simpa [Slot.Shapes, Slot.OtherModeIdle, Slot.QueueOk, hmode, hliw] using h

theorem shapes_withSdu {pm : Params} {v : Slot} {p : Bytes} (h : v.Shapes pm) (hpos : 1 ≤ p.length)
    (hmax : p.length ≤ pm.maxSduBytes) (hroom : v.txq.length < pm.qSdu) :
    ({ v with txq := v.txq ++ [⟨p, 0⟩] } : Slot).Shapes pm := by
  obtain ⟨⟨-, hrec, htail⟩, hrest⟩ := h
  refine ⟨⟨by simpa using hroom, List.forall_mem_append.mpr ⟨hrec, by simpa using ⟨hpos, hmax⟩⟩, ?_⟩, hrest⟩
  cases hq : v.txq with
  | nil => simp
  | cons q qs => simpa [hq, or_imp, forall_and] using htail

theorem shaped_reconfigure {pm : Params} {w : Work} (h : w.Shaped pm) (c : Cfg) : (reconfigure c w).Shaped pm := by
  obtain ⟨hp, hs⟩ := h
  unfold reconfigure
  split
  · rw [stopAllTimers_eq]
    exact ⟨hp, shapes_initEntity _ _⟩
  · rename_i hc
    exact ⟨hp, shapes_withCfg hs (by simpa using hc)⟩

/-- Every accepted command keeps the shapes of its bearer. -/
theorem Accepted.shapes {s : State} {i : Instr} {w : Work} (hw : Accepted s i w)
    (h : (s.slot w.lcid).active = true → (s.slot w.lcid).Shapes s.params) (hafter : w.slot.active = true) :
    w.slot.Shapes s.params := by
  rw [hw.lcid_eq] at h
  have hs (hactive : (s.slot i.lcid).active = true) : (s.enter i.lcid).Shaped s.params := ⟨rfl, h hactive⟩
  cases hw with
  | addBearer => exact shapes_initEntity _ _
  | configure _ ha => exact (shaped_reconfigure (hs ha) _).2
  | delBearer => cases hafter
  | reestablish => exact shapes_initEntity _ _
  | writeSdu ha hpos hmax hroom => exact shapes_withSdu (h ha) hpos hmax hroom
  | readPdu ha => exact (shaped_readPdu (hs ha) _).2
  | writePdu ha => exact (shaped_writePdu (hs ha) _).2
  | timerExpiry _ ha => exact (shaped_expire (hs ha) _).2

/-- Settles O57: each procedure keeps the shapes of its mode (`Work.UmShaped`, `Work.AmShaped`), so every accepted command does. -/
theorem everyStepKeepsShapes : Obligations.EveryStepKeepsShapes :=
  fun _ _ h hstep => step_keeps (P := fun pm v => v.Shapes pm) (fun _ _ _ hw => hw.shapes) h hstep

end Sys2Proof.Machine
end

section
/-! PROOFS. The windows of the receivers and of the AM transmitter on the circle of SNs (10_state.md R36): what moves them keeps
them. -/

namespace Sys2Proof.Machine

/-! ## Positions on the circle, for linear arithmetic -/

/-- `rel n x b` is the distance from `b` on to `x`, directly or through the wrap. -/
theorem rel_spec {n x b : Nat} (hx : x < n) (hb : b < n) :
    rel n x b < n ∧ (b + rel n x b = x ∨ b + rel n x b = x + n) := by
  rw [rel_eq_ite hx hb]
  split <;> omega

/-- The SN after `x`, directly or through the wrap. -/
theorem succ_spec {n x : Nat} (hx : x < n) :
    modN n (x + 1) < n ∧ (modN n (x + 1) = x + 1 ∨ modN n (x + 1) + n = x + 1) := by
  unfold modN
  by_cases h : x + 1 < n
  · rw [Nat.mod_eq_of_lt h]
    omega
  · rw [show x + 1 = n by omega, Nat.mod_self]
    omega

/-- Going on past an SN between, short of a whole turn. -/
theorem rel_trans {n x y b : Nat} (hx : x < n) (hy : y < n) (hb : b < n) (h : rel n y b + rel n x y < n) :
    rel n x b = rel n y b + rel n x y := by
  have := rel_spec hx hb
  have := rel_spec hx hy
  have := rel_spec hy hb
  omega

/-- There and back is a whole turn. -/
theorem rel_add_rel_rev {n x y : Nat} (hx : x < n) (hy : y < n) (h : 0 < rel n x y) : rel n y x + rel n x y = n := by
  have := rel_spec hx hy
  have := rel_spec hy hx
  omega

/-- The SN after `x` is one place further, short of a whole turn. -/
theorem rel_succ {n x b : Nat} (hx : x < n) (hb : b < n) (h : rel n x b + 1 < n) : rel n (modN n (x + 1)) b = rel n x b + 1 := by
  have hs := succ_spec hx
  have := rel_spec hs.1 hb
  have := rel_spec hx hb
  omega

/-- The SN after the last one of a turn from `b` is `b`. -/
theorem succ_eq_of_rel {n x b : Nat} (hx : x < n) (hb : b < n) (h : rel n x b + 1 = n) : modN n (x + 1) = b := by
  have hs := succ_spec hx
  have := rel_spec hx hb
  omega

/-- The SN before the one after `x` is `x`. -/
theorem pred_succ {n x : Nat} (hn : 1 < n) (hx : x < n) : rel n (modN n (x + 1)) 1 = x := by
  have hs := succ_spec hx
  have := rel_spec hs.1 hn
  omega

/-- The SN before `h` is one place nearer. -/
theorem rel_pred {n h b : Nat} (hn : 1 < n) (hh : h < n) (hb : b < n) (hpos : 0 < rel n h b) :
    rel n (rel n h 1) b = rel n h b - 1 := by
  have h1 := rel_spec hh hn
  have := rel_spec h1.1 hb
  have := rel_spec hh hb
  omega

/-- `h` lies `w` above the SN `w` below it. -/
theorem rel_sub_self {n h w : Nat} (hh : h < n) (hw : w < n) : rel n h (rel n h w) = w := by
  have hB := rel_spec hh hw
  have := rel_spec hh hB.1
  omega

theorem rel_pos_of_ne {n x b : Nat} (hx : x < n) (hb : b < n) (h : x ≠ b) : 0 < rel n x b := by
  refine Nat.pos_of_ne_zero fun h0 => h (rel_inj hx hb hb ?_)
  rw [h0, rel_self hb]

/-! ## The UM receive window -/

/-- The UM receive window with size `w`, from `VR_UR = r` to `VR_UH = h`, over the SNs held in `rxu`: R36 items 5 and 6, and item
12 for the SN below `VR_UH`. -/
structure UmWindow (n w r h : Nat) (rxu : SnMap Body) : Prop where
  low_lt : r < n
  high_lt : h < n
  wf : mapWf rxu = true
  keys_lt : ∀ k ∈ mapKeys rxu, k < n
  size : rel n r (rel n h w) ≤ w
  keys : ∀ k ∈ mapKeys rxu, rel n k r < rel n h r
  top : r ≠ h → rel n h 1 ∈ mapKeys rxu

/-- `rxu'` holds what `rxu` holds from `stop` on, counted from `r`: what passing `[r, stop)` leaves (R233). -/
structure PassedTo (n r stop : Nat) (rxu rxu' : SnMap Body) : Prop where
  wf : mapWf rxu' = true
  keys : ∀ k, k ∈ mapKeys rxu' ↔ k ∈ mapKeys rxu ∧ (k < n → ¬ rel n k r < rel n stop r)

/-- From `VR_UR` to the upper end. -/
theorem UmWindow.rel_high {n w r h : Nat} {rxu : SnMap Body} (hw : UmWindow n w r h rxu) (hlt : w < n) :
    rel n h r = w - rel n r (rel n h w) := by
  have htop := rel_sub_self hw.high_lt hlt
  have hsize := hw.size
  rw [rel_add_rel hw.high_lt hw.low_lt (rel_spec hw.high_lt hlt).1 (by omega), htop]

/-- `VR_UR` moves on within the window. -/
theorem UmWindow.pass {n w r h stop : Nat} {rxu rxu' : SnMap Body} (hw : UmWindow n w r h rxu) (hn : n = 2 * w) (hpos : 0 < w)
    (hs : stop < n) (hin : rel n stop r ≤ rel n h r) (hp : PassedTo n r stop rxu rxu') : UmWindow n w stop h rxu' := by
  have hhr := hw.rel_high (by omega)
  obtain ⟨hr, hh, hwf, hlt, hsize, hkeys, htop⟩ := hw
  have hhs := rel_add_rel hh hs hr hin
  refine ⟨hs, hh, hp.wf, fun k hk => hlt k ((hp.keys k).mp hk).1, ?_, fun k hk => ?_, fun hne => ?_⟩
  · rw [rel_trans hs hr (rel_spec hh (by omega)).1 (by omega)]
    omega
  · obtain ⟨hk, hnot⟩ := (hp.keys k).mp hk
    have hkn := hlt k hk
    have hkr := hkeys k hk
    rw [rel_add_rel hkn hs hr (not_lt.mp (hnot hkn)), hhs]
    omega
  · have hpos' := rel_pos_of_ne hh hs hne.symm
    have hpred := rel_pred (by omega) hh hr (by omega)
    refine (hp.keys _).mpr ⟨htop fun he => ?_, fun _ => by omega⟩
    rw [he, rel_self hh] at hhs
    omega

/-- A PDU inside the window, not before `VR_UR`. -/
theorem UmWindow.insert_inside {n w r h x : Nat} {rxu : SnMap Body} (hw : UmWindow n w r h rxu) (hn : n = 2 * w) (hpos : 0 < w)
    (hx : x < n) (hin : rel n x (rel n h w) < w) (hge : rel n r (rel n h w) ≤ rel n x (rel n h w)) (p : Body) :
    UmWindow n w r h (mapPut x p rxu) := by
  have hhr := hw.rel_high (by omega)
  obtain ⟨hr, hh, hwf, hlt, hsize, hkeys, htop⟩ := hw
  have hxr := rel_add_rel hx hr (rel_spec hh (show w < n by omega)).1 hge
  refine ⟨hr, hh, mapWf_mapPut _ _ hwf, fun k hk => ?_, hsize, fun k hk => ?_, fun hne => ?_⟩
  · rcases (mem_mapKeys_mapPut hwf).mp hk with rfl | hk
    · exact hx
    · exact hlt k hk
  · rcases (mem_mapKeys_mapPut hwf).mp hk with rfl | hk
    · omega
    · exact hkeys k hk
  · exact (mem_mapKeys_mapPut hwf).mpr (.inr (htop hne))

/-- A PDU outside the window moves its upper end past the PDU's SN; `VR_UR` is still inside. -/
theorem UmWindow.insert_outside {n w r h x : Nat} {rxu : SnMap Body} (hw : UmWindow n w r h rxu) (hn : n = 2 * w) (hpos : 0 < w)
    (hx : x < n) (hout : w ≤ rel n x (rel n h w)) (hin : rel n r (rel n (modN n (x + 1)) w) < w) (p : Body) :
    UmWindow n w r (modN n (x + 1)) (mapPut x p rxu) := by
  have hwn : w < n := by omega
  have hhr := hw.rel_high hwn
  obtain ⟨hr, hh, hwf, hlt, hsize, hkeys, htop⟩ := hw
  have hs := (succ_spec hx).1
  have hxr := rel_add_rel hx hr (rel_spec hh hwn).1 (hsize.trans hout)
  have hxlt := (rel_spec hx hr).1
  have hsr : rel n (modN n (x + 1)) r = rel n x r + 1 := by
    refine rel_succ hx hr (lt_of_le_of_ne hxlt fun he => ?_)
    rw [succ_eq_of_rel hx hr he, rel_sub_self hr hwn] at hin
    omega
  refine ⟨hr, hs, mapWf_mapPut _ _ hwf, fun k hk => ?_, hin.le, fun k hk => ?_, fun _ => ?_⟩
  · rcases (mem_mapKeys_mapPut hwf).mp hk with rfl | hk
    · exact hx
    · exact hlt k hk
  · rcases (mem_mapKeys_mapPut hwf).mp hk with rfl | hk
    · omega
    · have := hkeys k hk
      omega
  · exact (mem_mapKeys_mapPut hwf).mpr (.inl (pred_succ (by omega) hx))

/-- A PDU outside the window moves its upper end past the PDU's SN, and `VR_UR` to its lower end when that has passed it. -/
theorem UmWindow.insert_pass {n w r h x : Nat} {rxu rxu' : SnMap Body} (hw : UmWindow n w r h rxu) (hn : n = 2 * w) (hpos : 0 < w)
    (hx : x < n) (hbelow : w ≤ rel n r (rel n (modN n (x + 1)) w)) (p : Body)
    (hp : PassedTo n r (rel n (modN n (x + 1)) w) (mapPut x p rxu) rxu') :
    UmWindow n w (rel n (modN n (x + 1)) w) (modN n (x + 1)) rxu' := by
  have hwn : w < n := by omega
  have hhr := hw.rel_high hwn
  obtain ⟨hr, hh, hwf, hlt, hsize, hkeys, htop⟩ := hw
  have hs := (succ_spec hx).1
  have hB := (rel_spec hs hwn).1
  have hpred := pred_succ (by omega) hx
  have hsB := rel_sub_self hs hwn
  generalize modN n (x + 1) = s at *
  have hxB : rel n x (rel n s w) = w - 1 := by
    rw [← hpred, rel_pred (by omega) hs hB (by omega), hsB]
  have hkey : ∀ k ∈ mapKeys rxu', k = x ∨ k ∈ mapKeys rxu := fun k hk => (mem_mapKeys_mapPut hwf).mp ((hp.keys k).mp hk).1
  refine ⟨hB, hs, hp.wf, fun k hk => ?_, ?_, fun k hk => ?_, fun _ => ?_⟩
  · rcases hkey k hk with rfl | hk
    · exact hx
    · exact hlt k hk
  · rw [rel_self hB]
    exact Nat.zero_le _
  · rw [hsB]
    rcases hkey k hk with rfl | hk'
    · omega
    · have hkn := hlt k hk'
      have hkr := hkeys k hk'
      rw [rel_add_rel hkn hB hr (not_lt.mp (((hp.keys k).mp hk).2 hkn))]
      omega
  · have hturn := rel_add_rel_rev hr hB (by omega)
    have hxr := rel_trans hx hB hr (by omega)
    rw [hpred]
    exact (hp.keys x).mpr ⟨(mem_mapKeys_mapPut hwf).mpr (.inl rfl), fun _ => by omega⟩

/-! ## The AM receive window -/

/-- The AM receive window of at most `aw` SNs, from `VR_R = r` to `VR_H = h`, over the entries held in `rxa`: R36 items 8, 9 and
15. -/
structure AmWindow (n aw r h : Nat) (rxa : SnMap AmEntry) : Prop where
  low_lt : r < n
  high_lt : h < n
  wf : mapWf rxa = true
  keys_lt : ∀ k ∈ mapKeys rxa, k < n
  rcvdWf : ∀ e ∈ rxa, rangeWf e.2.rcvd = true
  size : rel n h r ≤ aw
  keys : ∀ k ∈ mapKeys rxa, rel n k r < rel n h r
  top : r ≠ h → rel n h 1 ∈ mapKeys rxa

/-- `VR_H` after a piece of SN `x`, R317. -/
def amHigh (n r h x : Nat) : Nat := if rel n h r ≤ rel n x r then modN n (x + 1) else h

/-- `VR_H` does not fall, nor leave the window. -/
theorem rel_amHigh {n aw r h x : Nat} (hr : r < n) (hx : x < n) (hn : 2 * aw ≤ n) (hin : rel n x r < aw)
    (hsize : rel n h r ≤ aw) : rel n h r ≤ rel n (amHigh n r h x) r ∧ rel n (amHigh n r h x) r ≤ aw := by
  unfold amHigh
  split
  · rw [rel_succ hx hr (by omega)]
    omega
  · exact ⟨le_refl _, hsize⟩

/-- A piece of an SN inside the window. -/
theorem AmWindow.insert {n aw r h x : Nat} {rxa : SnMap AmEntry} (hw : AmWindow n aw r h rxa) (hn : 2 * aw ≤ n) (hx : x < n)
    (hin : rel n x r < aw) {e : AmEntry} (he : rangeWf e.rcvd = true) :
    AmWindow n aw r (amHigh n r h x) (mapPut x e rxa) := by
  obtain ⟨hr, hh, hwf, hlt, hrcvd, hsize, hkeys, htop⟩ := hw
  obtain ⟨hle, hsize'⟩ := rel_amHigh hr hx hn hin hsize
  have hput : ∀ {k}, k ∈ mapKeys (mapPut x e rxa) ↔ k = x ∨ k ∈ mapKeys rxa := mem_mapKeys_mapPut hwf
  have hxlt : rel n x r < rel n (amHigh n r h x) r := by
    unfold amHigh
    split
    · rw [rel_succ hx hr (by omega)]
      exact Nat.lt_succ_self _
    · omega
  refine ⟨hr, ?_, mapWf_mapPut x e hwf, fun k hk => (hput.mp hk).elim (fun hkx => hkx ▸ hx) (hlt k),
    forall_mem_mapPut (k := x) hrcvd he, hsize', fun k hk => ?_, ?_⟩
  · unfold amHigh
    split
    · exact (succ_spec hx).1
    · exact hh
  · rcases hput.mp hk with rfl | hk
    · exact hxlt
    · exact Nat.lt_of_lt_of_le (hkeys k hk) hle
  · unfold amHigh
    split
    · exact fun _ => hput.mpr (.inl (pred_succ (by omega) hx))
    · exact fun hne => hput.mpr (.inr (htop hne))

/-- `VR_R` takes the entry that it stands at. -/
theorem AmWindow.pop {n aw r h : Nat} {rxa : SnMap AmEntry} (hw : AmWindow n aw r h rxa) (hn : 2 * aw ≤ n)
    (hr : r ∈ mapKeys rxa) : AmWindow n aw (modN n (r + 1)) h (mapDel r rxa) := by
  obtain ⟨hrn, hh, hwf, hlt, hrcvd, hsize, hkeys, htop⟩ := hw
  have hpos := hkeys r hr
  have hself := rel_self hrn
  rw [hself] at hpos
  have hs := (succ_spec hrn).1
  have hsr : rel n (modN n (r + 1)) r = 1 := by rw [rel_succ hrn hrn (by omega), hself]
  have hhs := rel_add_rel hh hs hrn (by omega)
  refine ⟨hs, hh, mapWf_mapDel _ hwf, fun k hk => hlt k (mem_mapKeys_mapDel.mp hk).2,
    fun e he => hrcvd e (mem_of_mem_mapDel he), by omega, fun k hk => ?_, fun hne => ?_⟩
  · obtain ⟨hkr, hk⟩ := mem_mapKeys_mapDel.mp hk
    have hkn := hlt k hk
    have hkpos := rel_pos_of_ne hkn hrn hkr
    have hklt := hkeys k hk
    rw [rel_add_rel hkn hs hrn (by omega), hhs]
    omega
  · have hne' := rel_pos_of_ne hh hs hne.symm
    have hpred := rel_pred (by omega) hh hrn hpos
    refine mem_mapKeys_mapDel.mpr ⟨fun he => ?_, htop fun he => ?_⟩
    · rw [he, hself] at hpred
      omega
    · rw [he, rel_self hh] at hpos
      omega

/-! ## The AM transmit window -/

/-- The retransmission buffer of the window from `VT_A = a` to `VT_S = s`: R36 items 2 to 4, in canonical form. -/
structure RetxBuffer (n a s : Nat) (rb : SnMap RetxEntry) : Prop where
  wf : mapWf rb = true
  keys_lt : ∀ k ∈ mapKeys rb, k < n
  keys : ∀ k ∈ mapKeys rb, rel n k a < rel n s a
  pendingWf : ∀ e ∈ rb, rangeWf e.2.pending = true
  entries : ∀ e ∈ rb, (∀ i ∈ e.2.pending, i.2 ≤ e.2.data.length) ∧ (e.2.dead = true → e.2.pending = [])

section

variable {n a s : Nat} {rb : SnMap RetxEntry}

/-- Another retransmission state of an entry. -/
theorem RetxBuffer.put (hb : RetxBuffer n a s rb) {sn : Nat} {e e' : RetxEntry} (hg : mapGet sn rb = some e)
    (hwf : rangeWf e'.pending = true) (hle : ∀ i ∈ e'.pending, i.2 ≤ e'.data.length)
    (hdead : e'.dead = true → e'.pending = []) : RetxBuffer n a s (mapPut sn e' rb) := by
  have hsn : sn ∈ mapKeys rb := mem_mapKeys.mpr ⟨e, hg⟩
  have hkey : ∀ k ∈ mapKeys (mapPut sn e' rb), k ∈ mapKeys rb := fun k hk =>
    ((mem_mapKeys_mapPut hb.wf).mp hk).elim (fun hkx => hkx ▸ hsn) id
  exact ⟨mapWf_mapPut _ _ hb.wf, fun k hk => hb.keys_lt k (hkey k hk), fun k hk => hb.keys k (hkey k hk),
    forall_mem_mapPut hb.pendingWf hwf, forall_mem_mapPut hb.entries ⟨hle, hdead⟩⟩

theorem RetxBuffer.del (hb : RetxBuffer n a s rb) (sn : Nat) : RetxBuffer n a s (mapDel sn rb) :=
  ⟨mapWf_mapDel _ hb.wf, fun k hk => hb.keys_lt k (mem_mapKeys_mapDel.mp hk).2, fun k hk => hb.keys k (mem_mapKeys_mapDel.mp hk).2,
    fun e he => hb.pendingWf e (mem_of_mem_mapDel he), fun e he => hb.entries e (mem_of_mem_mapDel he)⟩

/-- The entry of a new PDU at `VT_S`. -/
theorem RetxBuffer.send (hb : RetxBuffer n a s rb) (ha : a < n) (hs : s < n) (hroom : rel n s a + 1 < n) {e : RetxEntry}
    (hpending : e.pending = []) : RetxBuffer n a (modN n (s + 1)) (mapPut s e rb) := by
  have hs' := rel_succ hs ha hroom
  refine ⟨mapWf_mapPut _ _ hb.wf, fun k hk => ?_, fun k hk => ?_, forall_mem_mapPut hb.pendingWf (by simp [hpending]; rfl),
    forall_mem_mapPut hb.entries (by simp [hpending])⟩
  · rcases (mem_mapKeys_mapPut hb.wf).mp hk with rfl | hk
    · exact hs
    · exact hb.keys_lt k hk
  · rcases (mem_mapKeys_mapPut hb.wf).mp hk with rfl | hk
    · omega
    · have := hb.keys k hk
      omega

/-- `VT_A` moves to the lowest SN held, or to `VT_S` where none is (R275). -/
theorem RetxBuffer.advance (hb : RetxBuffer n a s rb) (ha : a < n) (hs : s < n) :
    RetxBuffer n (nextVtA n a s rb) s rb ∧ nextVtA n a s rb < n ∧ rel n s (nextVtA n a s rb) ≤ rel n s a ∧
      (nextVtA n a s rb ≠ s → nextVtA n a s rb ∈ mapKeys rb) := by
  unfold nextVtA
  rcases leastBy_spec (fun k => rel n k a) (mapKeys rb) with ⟨h, hnil⟩ | ⟨k, hk, h, hmin⟩ <;> rw [h]
  · refine ⟨⟨hb.wf, hb.keys_lt, by simp [hnil], hb.pendingWf, hb.entries⟩, hs, ?_, fun hne => absurd rfl hne⟩
    rw [Option.getD_none, rel_self hs]
    exact Nat.zero_le _
  · rw [Option.getD_some]
    have hkn := hb.keys_lt k hk
    have hks := hb.keys k hk
    have hsk := rel_add_rel hs hkn ha hks.le
    refine ⟨⟨hb.wf, hb.keys_lt, fun j hj => ?_, hb.pendingWf, hb.entries⟩, hkn, by omega, fun _ => hk⟩
    have := rel_add_rel (hb.keys_lt j hj) hkn ha (hmin j hj)
    have := hb.keys j hj
    omega

end

end Sys2Proof.Machine
end

section
/-! PROOFS. Every step keeps the SN, window, buffer and timer invariants of UM receive (10_state.md R36 items 5 to 7 and 12 to 14). -/

namespace Sys2Proof.Machine

/-! ## The invariant of a bearer, by its mode -/

/-- What the invariant says of a bearer of either mode, but for the windows and buffers. -/
structure Slot.BaseInv (v : Slot) : Prop where
  legal : v.CfgLegal
  vtUs : v.vtUs < v.n
  vtS : v.vtS < v.n
  vtA : v.vtA < v.n
  pollSn : v.pollSn < v.n
  vrUx : v.vrUx < v.n
  vrX : v.vrX < v.n
  next : v.rsm.next < v.n

/-- What the invariant says of the AM buffers and receive window of a UM bearer. -/
structure Slot.AmSide (v : Slot) : Prop where
  vrR : v.vrR < v.n
  vrH : v.vrH < v.n
  rbWf : mapWf v.rb = true
  rbKeys : ∀ k ∈ mapKeys v.rb, k < v.n
  pendingWf : ∀ e ∈ v.rb, rangeWf e.2.pending = true
  rxaWf : mapWf v.rxa = true
  rxaKeys : ∀ k ∈ mapKeys v.rxa, k < v.n
  rcvdWf : ∀ e ∈ v.rxa, rangeWf e.2.rcvd = true

/-- What the invariant says of the UM buffer and receive window of an AM bearer. -/
structure Slot.UmSide (v : Slot) : Prop where
  vrUr : v.vrUr < v.n
  vrUh : v.vrUh < v.n
  rxuWf : mapWf v.rxu = true
  rxuKeys : ∀ k ∈ mapKeys v.rxu, k < v.n

/-- A UM bearer whose receive window is moving: `VR_UR` may stand at an SN that is held, and the timer is not settled yet. -/
structure Slot.UmMoving (v : Slot) : Prop extends v.BaseInv, v.AmSide where
  mode : v.cfg.mode = .um
  window : UmWindow v.n v.cfg.umW v.vrUr v.vrUh v.rxu

/-- The invariant of a UM bearer. -/
structure Slot.UmInv (v : Slot) : Prop extends v.UmMoving where
  gap : v.vrUr ∉ mapKeys v.rxu
  reordOn : v.running.reord = true →
    rel v.n v.vrUr v.umBase < rel v.n v.vrUx v.umBase ∧ rel v.n v.vrUx v.umBase ≤ v.cfg.umW
  reordOff : v.running.reord = false → v.vrUr = v.vrUh

/-- An AM bearer whose receive window is moving: the entry at `VR_R` may be complete. The end of the timer's zone is less than a
window below `VR_H`. -/
structure Slot.AmMoving (v : Slot) : Prop extends v.BaseInv, v.UmSide where
  mode : v.cfg.mode = .am
  sent : rel v.n v.vtS v.vtA ≤ v.amW
  rb : RetxBuffer v.n v.vtA v.vtS v.rb
  first : v.vtA ≠ v.vtS → v.vtA ∈ mapKeys v.rb
  window : AmWindow v.n v.amW v.vrR v.vrH v.rxa
  zone : v.running.reord = true → rel v.n v.vrH v.vrX < v.amW

/-- The invariant of an AM bearer. -/
structure Slot.AmInv (v : Slot) : Prop extends v.AmMoving where
  gap : v.rxComplete v.vrR = false
  reordOn : v.running.reord = true → 0 < rel v.n v.vrX v.vrR ∧ rel v.n v.vrX v.vrR ≤ rel v.n v.vrH v.vrR

/-! ### Widths -/

theorem Slot.n_eq (v : Slot) : v.n = 2 * v.cfg.umW ∧ 0 < v.cfg.umW := by
  unfold Slot.n Cfg.modulus Cfg.umW
  cases v.cfg.snw <;> decide

theorem Slot.n_pos (v : Slot) : 0 < v.n := by
  have := v.n_eq
  omega

theorem Slot.CfgLegal.am {v : Slot} (h : v.CfgLegal) (mode : v.cfg.mode = .am) : v.n = 1024 ∧ 1 ≤ v.amW ∧ v.amW ≤ 512 := by
  obtain ⟨hsnw, hlow, hhigh, -⟩ := h mode
  refine ⟨?_, hlow, hhigh⟩
  rw [Slot.n, Cfg.modulus, hsnw]
  rfl

/-! ### Both modes make the invariant of the statement -/

theorem Slot.UmInv.inv {v : Slot} (h : v.UmInv) : v.Inv := by
  refine ⟨h.legal, ⟨?_, ?_⟩, ⟨h.rbWf, h.window.wf, h.rxaWf, h.pendingWf, h.rcvdWf⟩,
    fun hm => ?_, fun _ => ?_, fun hm => ?_⟩
  · simp only [Slot.snVars, List.forall_mem_cons]
    exact ⟨h.vtUs, h.vtS, h.vtA, h.pollSn, h.window.low_lt, h.vrUx, h.window.high_lt, h.vrR, h.vrX, h.vrH, h.next, by simp⟩
  · simp only [Slot.snKeys, List.forall_mem_append]
    exact ⟨⟨h.rbKeys, h.window.keys_lt⟩, h.rxaKeys⟩
  · simp [h.mode] at hm
  · exact ⟨h.window.size, h.window.keys, h.gap, h.reordOn, h.reordOff, h.window.top⟩
  · simp [h.mode] at hm

theorem Slot.AmInv.inv {v : Slot} (h : v.AmInv) : v.Inv := by
  refine ⟨h.legal, ⟨?_, ?_⟩, ⟨h.rb.wf, h.rxuWf, h.window.wf, h.rb.pendingWf, h.window.rcvdWf⟩,
    fun _ => ?_, fun hm => ?_, fun _ => ?_⟩
  · simp only [Slot.snVars, List.forall_mem_cons]
    exact ⟨h.vtUs, h.vtS, h.vtA, h.pollSn, h.vrUr, h.vrUx, h.vrUh, h.window.low_lt, h.vrX, h.window.high_lt, h.next, by simp⟩
  · simp only [Slot.snKeys, List.forall_mem_append]
    exact ⟨⟨h.rb.keys_lt, h.rxuKeys⟩, h.window.keys_lt⟩
  · exact ⟨h.sent, h.rb.keys, h.first, h.rb.entries⟩
  · simp [h.mode] at hm
  · exact ⟨h.window.size, h.window.keys, h.gap, h.reordOn, h.window.top⟩

theorem Slot.Inv.um {v : Slot} (h : v.Inv) (mode : v.cfg.mode = .um) : v.UmInv := by
  obtain ⟨legal, ⟨vars, keys⟩, ⟨rbWf, rxuWf, rxaWf, pendingWf, rcvdWf⟩, -, rx, -⟩ := h
  simp only [Slot.snVars, List.forall_mem_cons] at vars
  simp only [Slot.snKeys, List.forall_mem_append] at keys
  obtain ⟨vtUs, vtS, vtA, pollSn, vrUr, vrUx, vrUh, vrR, vrX, vrH, next, -⟩ := vars
  obtain ⟨⟨rbKeys, rxuKeys⟩, rxaKeys⟩ := keys
  obtain ⟨size, window, gap, reordOn, reordOff, top⟩ := rx mode
  exact {
    legal, vtUs, vtS, vtA, pollSn, vrUx, vrX, next, vrR, vrH, rbWf, rbKeys, pendingWf, rxaWf, rxaKeys, rcvdWf, mode
    window := ⟨vrUr, vrUh, rxuWf, rxuKeys, size, window, top⟩
    gap, reordOn, reordOff }

theorem Slot.Inv.am {v : Slot} (h : v.Inv) (mode : v.cfg.mode = .am) : v.AmInv := by
  obtain ⟨legal, ⟨vars, keys⟩, ⟨rbWf, rxuWf, rxaWf, pendingWf, rcvdWf⟩, tx, -, rx⟩ := h
  simp only [Slot.snVars, List.forall_mem_cons] at vars
  simp only [Slot.snKeys, List.forall_mem_append] at keys
  obtain ⟨vtUs, vtS, vtA, pollSn, vrUr, vrUx, vrUh, vrR, vrX, vrH, next, -⟩ := vars
  obtain ⟨⟨rbKeys, rxuKeys⟩, rxaKeys⟩ := keys
  obtain ⟨sent, rbWindow, first, entries⟩ := tx mode
  obtain ⟨size, window, gap, reordOn, top⟩ := rx mode
  refine {
    legal, vtUs, vtS, vtA, pollSn, vrUx, vrX, next, vrUr, vrUh, rxuWf, rxuKeys, mode, sent
    rb := ⟨rbWf, rbKeys, rbWindow, pendingWf, entries⟩
    first
    window := ⟨vrR, vrH, rxaWf, rxaKeys, rcvdWf, size, window, top⟩
    zone := fun hr => ?_
    gap, reordOn }
  obtain ⟨hpos, hle⟩ := reordOn hr
  have hsub := rel_add_rel vrH vrX vrR hle
  omega

theorem inv_initEntity {v : Slot} (h : v.CfgLegal) : (initEntity v).Inv := by
  have hn := v.n_pos
  obtain ⟨hw, hwpos⟩ := v.n_eq
  have hbase : (initEntity v).BaseInv := ⟨h, hn, hn, hn, hn, hn, hn, hn⟩
  have hzero : rel v.n 0 0 = 0 := rel_self hn
  have hhigh : rel v.n 0 (rel v.n 0 v.cfg.umW) = v.cfg.umW := rel_sub_self hn (by omega)
  cases mode : v.cfg.mode with
  | um =>
    exact Slot.UmInv.inv {
      hbase with
      vrR := hn, vrH := hn, rbWf := rfl, rbKeys := by simp [initEntity, mapKeys], pendingWf := by simp [initEntity]
      rxaWf := rfl, rxaKeys := by simp [initEntity, mapKeys], rcvdWf := by simp [initEntity], mode
      window := ⟨hn, hn, rfl, by simp [initEntity, mapKeys], hhigh.le, by simp [initEntity, mapKeys],
        fun hne => absurd rfl hne⟩
      gap := by simp [initEntity, mapKeys]
      reordOn := fun hr => by cases hr
      reordOff := fun _ => rfl }
  | am =>
    exact Slot.AmInv.inv {
      hbase with
      vrUr := hn, vrUh := hn, rxuWf := rfl, rxuKeys := by simp [initEntity, mapKeys], mode
      sent := hzero.le.trans (Nat.zero_le _)
      rb := ⟨rfl, by simp [initEntity, mapKeys], by simp [initEntity, mapKeys], by simp [initEntity], by simp [initEntity]⟩
      first := fun hne => absurd rfl hne
      window := ⟨hn, hn, rfl, by simp [initEntity, mapKeys], by simp [initEntity], hzero.le.trans (Nat.zero_le _),
        by simp [initEntity, mapKeys], fun hne => absurd rfl hne⟩
      zone := fun hr => by cases hr
      gap := rfl
      reordOn := fun hr => by cases hr }

/-! ## UM receive -/

/-- What reassembly expects next is an SN. -/
theorem next_reassemble_lt {n : Nat} (pm : Params) (sn : Nat) (p : Body) {rsm : Rsm} (h : rsm.next < n) :
    (reassemble pm n sn p rsm).1.next < n := by
  unfold reassemble
  dsimp only
  generalize (if fi0 p.fi = true then _ else none : Option Bytes) = part
  split
  · exact h
  · exact Nat.mod_lt _ (Nat.zero_lt_of_lt h)

/-- One SN passed, R233. -/
theorem umPass_spec {w : Work} {sn : Nat} (hwf : mapWf w.slot.rxu = true) (hnext : w.slot.rsm.next < w.slot.n) :
    (umPass w sn).slot.cfg = w.slot.cfg ∧ (umPass w sn).slot.vrUr = modN w.slot.n (sn + 1) ∧
      mapWf (umPass w sn).slot.rxu = true ∧ (umPass w sn).slot.rsm.next < w.slot.n ∧
      ∀ k, k ∈ mapKeys (umPass w sn).slot.rxu ↔ k ∈ mapKeys w.slot.rxu ∧ k ≠ sn := by
  unfold umPass
  dsimp only
  split
  · rename_i p _
    rw [rsmFeed_eq]
    refine ⟨rfl, rfl, mapWf_mapDel _ hwf, next_reassemble_lt _ _ _ hnext, fun k => ?_⟩
    exact mem_mapKeys_mapDel.trans and_comm
  · rename_i hg
    refine ⟨rfl, rfl, hwf, hnext, fun k => ⟨fun hk => ⟨hk, ?_⟩, And.left⟩⟩
    rintro rfl
    exact mapGet_eq_none.mp hg hk

/-- A list of SNs passed, one after another. -/
theorem foldl_umPass_spec : ∀ (sns : List Nat) {w : Work}, mapWf w.slot.rxu = true → w.slot.rsm.next < w.slot.n →
    mapWf (sns.foldl umPass w).slot.rxu = true ∧ (sns.foldl umPass w).slot.rsm.next < w.slot.n ∧
      ∀ k, k ∈ mapKeys (sns.foldl umPass w).slot.rxu ↔ k ∈ mapKeys w.slot.rxu ∧ k ∉ sns
  | [], _, hwf, hnext => ⟨hwf, hnext, by simp⟩
  | sn :: sns, w, hwf, hnext => by
    obtain ⟨hcfg, -, hwf', hnext', hkeys⟩ := umPass_spec (sn := sn) hwf hnext
    have hn : (umPass w sn).slot.n = w.slot.n := congrArg Cfg.modulus hcfg
    obtain ⟨hwf'', hnext'', hkeys'⟩ := foldl_umPass_spec sns hwf' (hn.symm ▸ hnext')
    exact ⟨hwf'', hn ▸ hnext'', fun k => by rw [List.foldl_cons, hkeys', hkeys, List.mem_cons, not_or, and_assoc]⟩

/-- After a run of SNs from `VR_UR` on, `VR_UR` stands behind it. -/
theorem vrUr_foldl_umPass : ∀ (m : Nat) {w : Work} {a : Nat}, w.slot.vrUr = a → a < w.slot.n → mapWf w.slot.rxu = true →
    w.slot.rsm.next < w.slot.n → ((snRun w.slot.n a m).foldl umPass w).slot.vrUr = (a + m) % w.slot.n
  | 0, _, _, ha, hlt, _, _ => by rw [Nat.add_zero, Nat.mod_eq_of_lt hlt]; exact ha
  | m + 1, w, a, _, hlt, hwf, hnext => by
    obtain ⟨hcfg, hr, hwf', hnext', -⟩ := umPass_spec (sn := a) hwf hnext
    have hn : (umPass w a).slot.n = w.slot.n := congrArg Cfg.modulus hcfg
    have ih := vrUr_foldl_umPass m hr (hn.symm ▸ (succ_spec hlt).1) hwf' (hn.symm ▸ hnext')
    rw [hn] at ih
    rw [snRun, List.foldl_cons, ih, modN, Nat.mod_add_mod]
    congr 1
    omega

/-- `um_advance`, R233: `VR_UR` stands at `stop`, and what lay below it has left `RXU`. Nothing else but `RSM` and counters
changes. -/
theorem umAdvance_spec {w : Work} {stop : Nat} (hr : w.slot.vrUr < w.slot.n) (hs : stop < w.slot.n)
    (hwf : mapWf w.slot.rxu = true) (hnext : w.slot.rsm.next < w.slot.n) :
    ∃ (rxu : SnMap Body) (rsm : Rsm) (m : Metrics),
      (umAdvance stop w).slot = { w.slot with vrUr := stop, rxu := rxu, rsm := rsm, metrics := m } ∧
      PassedTo w.slot.n w.slot.vrUr stop w.slot.rxu rxu ∧ rsm.next < w.slot.n := by
  obtain ⟨hwf', hnext', hkeys⟩ := foldl_umPass_spec (snInterval w.slot.n w.slot.vrUr stop) hwf hnext
  have hstop := vrUr_foldl_umPass (rel w.slot.n stop w.slot.vrUr) rfl hr hwf hnext
  rw [add_rel_mod hs hr] at hstop
  obtain ⟨vrUr, rxu, rsm, n, m, sdus, he⟩ := umAdvance_frame stop w
  rw [show (snInterval w.slot.n w.slot.vrUr stop).foldl umPass w = umAdvance stop w from rfl, he] at hwf' hnext' hkeys
  rw [show (snRun w.slot.n w.slot.vrUr (rel w.slot.n stop w.slot.vrUr)).foldl umPass w = umAdvance stop w from rfl, he] at hstop
  refine ⟨rxu, rsm, _, by rw [he, ← hstop], ⟨hwf', fun k => (hkeys k).trans (and_congr_right fun _ => ?_)⟩, hnext'⟩
  constructor
  · exact fun hnot hk => fun hlt => hnot ((mem_snInterval hr hk).mpr hlt)
  · exact fun hnot hmem => hnot (lt_of_mem_snInterval hr hmem) ((mem_snInterval hr (lt_of_mem_snInterval hr hmem)).mp hmem)

/-- `VR_UR` moves on within the window; to an SN that is not held, it finds none. -/
theorem umMoving_umAdvance {w : Work} (h : w.slot.UmMoving) {stop : Nat} (hs : stop < w.slot.n)
    (hin : rel w.slot.n stop w.slot.vrUr ≤ rel w.slot.n w.slot.vrUh w.slot.vrUr) :
    (umAdvance stop w).slot.UmMoving ∧ (umAdvance stop w).slot.running = w.slot.running ∧
      (stop ∉ mapKeys w.slot.rxu → (umAdvance stop w).slot.vrUr ∉ mapKeys (umAdvance stop w).slot.rxu) := by
  obtain ⟨rxu, rsm, m, he, hp, hnext⟩ := umAdvance_spec h.window.low_lt hs h.window.wf h.next
  obtain ⟨hn, hpos⟩ := w.slot.n_eq
  rw [he]
  exact ⟨{ h with next := hnext, window := h.window.pass hn hpos hs hin hp }, rfl, fun hno hk => hno ((hp.keys stop).mp hk).1⟩

/-- The first SN from `VR_UR` on that is not held lies within the window (R234 step 3, R236). -/
theorem umGap_spec {v : Slot} (h : v.UmMoving) :
    umGap v < v.n ∧ rel v.n (umGap v) v.vrUr ≤ rel v.n v.vrUh v.vrUr ∧ umGap v ∉ mapKeys v.rxu := by
  have hr := h.window.low_lt
  have hh := h.window.high_lt
  obtain ⟨m, -, he, hall, hstop⟩ := snSkip_spec v.n (fun t => mapHas t v.rxu) v.n v.vrUr hr
  have hlt := (rel_spec hh hr).1
  have hm : m ≤ rel v.n v.vrUh v.vrUr := by
    by_contra hgt
    have htop := hall _ (Nat.lt_of_not_le hgt)
    rw [add_rel_mod hh hr] at htop
    exact absurd (h.window.keys _ (mapHas_iff.mp htop)) (Nat.lt_irrefl _)
  have hg : umGap v = (v.vrUr + m) % v.n := he
  rw [hg, rel_of_add hr (by omega)]
  refine ⟨Nat.mod_lt _ v.n_pos, hm, fun hmem => ?_⟩
  have hno := hstop (by omega)
  rw [mapHas_iff.mpr hmem] at hno
  cases hno

/-- The slot with a PDU above its window, which the PDU's SN has moved (R234 step 2). -/
def Slot.putAbove (v : Slot) (x : Nat) (p : Body) : Slot := { v with rxu := mapPut x p v.rxu, vrUh := modN v.n (x + 1) }

/-- Step 2 of R234: the PDU enters the window, or moves it, and `VR_UR` with it where the window has passed it. -/
theorem umInsert_cases (x : Nat) (p : Body) (w : Work) :
    (rel w.slot.n x w.slot.umBase < w.slot.cfg.umW ∧
      umInsert x p w = w.upd fun v => { v with rxu := mapPut x p v.rxu }) ∨
    (w.slot.cfg.umW ≤ rel w.slot.n x w.slot.umBase ∧
      ((rel w.slot.n w.slot.vrUr (w.slot.putAbove x p).umBase < w.slot.cfg.umW ∧
          umInsert x p w = w.upd fun v => v.putAbove x p) ∨
        (w.slot.cfg.umW ≤ rel w.slot.n w.slot.vrUr (w.slot.putAbove x p).umBase ∧
          umInsert x p w = umAdvance (w.slot.putAbove x p).umBase (w.upd fun v => v.putAbove x p)))) := by
  by_cases hx : rel w.slot.n x w.slot.umBase < w.slot.cfg.umW
  · exact .inl ⟨hx, by simp [umInsert, inside, hx]⟩
  · refine .inr ⟨not_lt.mp hx, ?_⟩
    have hmove : umInsert x p w = if !inside w.slot.n w.slot.vrUr (w.slot.putAbove x p).umBase w.slot.cfg.umW then
        umAdvance (w.slot.putAbove x p).umBase (w.upd fun v => v.putAbove x p) else w.upd fun v => v.putAbove x p := by
      have hout : (!inside w.slot.n x w.slot.umBase w.slot.cfg.umW) = true := by simpa [inside] using hx
      unfold umInsert
      dsimp only
      rw [if_pos hout]
      rfl
    by_cases hr : rel w.slot.n w.slot.vrUr (w.slot.putAbove x p).umBase < w.slot.cfg.umW
    · exact .inl ⟨hr, by simp [hmove, inside, hr]⟩
    · exact .inr ⟨not_lt.mp hr, by simp [hmove, inside, hr]⟩

/-- A received SN that is not stale enters the window, or moves it (R234 step 2). -/
theorem umMoving_umInsert {w : Work} (h : w.slot.UmMoving) {x : Nat} (hx : x < w.slot.n) (hfresh : umStale w.slot x = false)
    (p : Body) : (umInsert x p w).slot.UmMoving := by
  obtain ⟨hn, hpos⟩ := w.slot.n_eq
  have hs := (succ_spec hx).1
  rcases umInsert_cases x p w with ⟨hin, he⟩ | ⟨hout, ⟨hin, he⟩ | ⟨hbelow, he⟩⟩ <;> rw [he]
  · simp only [umStale, inside, before, Bool.or_eq_false_iff, Bool.and_eq_false_iff, decide_eq_false_iff_not] at hfresh
    have hge : rel w.slot.n w.slot.vrUr w.slot.umBase ≤ rel w.slot.n x w.slot.umBase := by omega
    exact { h with window := h.window.insert_inside hn hpos hx hin hge p }
  · exact { h with window := h.window.insert_outside hn hpos hx hout hin p }
  · have hB : (w.slot.putAbove x p).umBase < w.slot.n := rel_lt_of_pos w.slot.n_pos _ _
    obtain ⟨rxu, rsm, m, he', hp, hnext⟩ := umAdvance_spec (w := w.upd fun v => v.putAbove x p) h.window.low_lt hB
      (mapWf_mapPut x p h.window.wf) h.next
    rw [he']
    exact { h with next := hnext, window := h.window.insert_pass hn hpos hx hbelow p hp }

/-- `VR_UH` is a window above the base of R232. -/
theorem rel_vrUh_umBase {v : Slot} (h : v.vrUh < v.n) : rel v.n v.vrUh v.umBase = v.cfg.umW := by
  obtain ⟨hn, hpos⟩ := v.n_eq
  exact rel_sub_self h (by omega)

/-- Starting the timer against `VR_UH` settles it while `VR_UR` is below (R235, R236). -/
theorem umInv_umStartReord {w : Work} (h : w.slot.UmMoving) (gap : w.slot.vrUr ∉ mapKeys w.slot.rxu)
    (hlt : rel w.slot.n w.slot.vrUr w.slot.umBase < w.slot.cfg.umW) : (umStartReord w).slot.UmInv := by
  have htop := rel_vrUh_umBase h.window.high_lt
  exact { h with
    vrUx := h.window.high_lt
    gap
    reordOn := fun _ => ⟨htop.symm ▸ hlt, htop.le⟩
    reordOff := fun hr => by cases hr }

/-- `um_timers`, R235, settles the timer. -/
theorem umInv_umTimers {w : Work} (h : w.slot.UmMoving) (gap : w.slot.vrUr ∉ mapKeys w.slot.rxu) :
    (umTimers w).slot.UmInv := by
  obtain ⟨u, hu, hmoving, hgap, hon⟩ : ∃ u,
      u = (if w.slot.running.reord && umTimerObsolete w.slot then w.stopTimer .reord else w) ∧ u.slot.UmMoving ∧
      u.slot.vrUr ∉ mapKeys u.slot.rxu ∧ (u.slot.running.reord = true → umTimerObsolete u.slot = false) := by
    refine ⟨_, rfl, ?_⟩
    split
    · exact ⟨{ h with }, gap, fun hr => by cases hr⟩
    · rename_i hno
      exact ⟨h, gap, fun hr => by simpa [hr] using hno⟩
  unfold umTimers
  rw [← hu]
  dsimp only
  have htop := rel_vrUh_umBase hmoving.window.high_lt
  have hsize : rel u.slot.n u.slot.vrUr u.slot.umBase ≤ u.slot.cfg.umW := hmoving.window.size
  split
  · rename_i hstart
    obtain ⟨-, hlt⟩ : u.slot.running.reord = false ∧
        rel u.slot.n u.slot.vrUr u.slot.umBase < rel u.slot.n u.slot.vrUh u.slot.umBase := by simpa using hstart
    exact umInv_umStartReord hmoving hgap (htop ▸ hlt)
  · rename_i hno
    refine { hmoving with gap := hgap, reordOn := fun hr => ?_, reordOff := fun hr => ?_ }
    · have hzone := hon hr
      simp only [umTimerObsolete, inside, Bool.or_eq_false_iff, decide_eq_false_iff_not, not_le, Bool.and_eq_false_iff,
        Bool.not_eq_false', decide_eq_true_eq, bne_eq_false_iff_eq] at hzone
      obtain ⟨hlow, hlt | heq⟩ := hzone
      · exact ⟨hlow, hlt.le⟩
      · exact ⟨hlow, heq ▸ htop.le⟩
    · have hge : rel u.slot.n u.slot.vrUh u.slot.umBase ≤ rel u.slot.n u.slot.vrUr u.slot.umBase := by
        simpa [hr] using hno
      exact rel_inj (b := u.slot.umBase) hmoving.window.low_lt hmoving.window.high_lt (rel_lt_of_pos u.slot.n_pos _ _) (by omega)

/-- `um_receive`, R234. -/
theorem umInv_umReceive {w : Work} (h : w.slot.UmInv) {x : Nat} (hx : x < w.slot.n) (p : Body) :
    (umReceive x p w).slot.UmInv := by
  unfold umReceive
  split
  · exact h
  · rename_i hfresh
    have hin := umMoving_umInsert h.toUmMoving hx (Bool.eq_false_iff.mpr hfresh) p
    generalize umInsert x p w = u at hin
    dsimp only
    split
    · obtain ⟨hg, hle, hno⟩ := umGap_spec hin
      obtain ⟨hadv, -, hr⟩ := umMoving_umAdvance hin hg hle
      exact umInv_umTimers hadv (hr hno)
    · rename_i hno
      exact umInv_umTimers hin fun hmem => hno (mapHas_iff.mpr hmem)

/-- The SN of a received UM data PDU has the width of the bearer's SNs. -/
theorem fmt_snBits_um {c : Cfg} (mode : c.mode = .um) : 2 ^ c.fmt.snBits = c.modulus := by
  unfold Cfg.fmt Cfg.modulus
  rw [mode]
  cases c.snw <;> rfl

theorem umInv_umWritePdu {w : Work} (h : w.slot.UmInv) (pdu : Bytes) : (umWritePdu pdu w).slot.UmInv := by
  unfold umWritePdu
  split
  · exact h
  · rename_i hd n hu
    have hsn := (received_of_unpackHdr hu).sn
    rw [fmt_snBits_um h.mode] at hsn
    exact umInv_umReceive (w := w.countRxPdu) { h with } hsn _

theorem umInv_umRead {w : Work} (h : w.slot.UmInv) (budget : Nat) : (umRead budget w).2.slot.UmInv := by
  unfold umRead
  dsimp only
  split
  · exact h
  · exact { h with vtUs := (succ_spec h.vtUs).1 }

/-- The zone's end lies within the window while the timer runs. -/
theorem rel_vrUx_le {v : Slot} (h : v.UmInv) (hr : v.running.reord = true) :
    rel v.n v.vrUx v.vrUr ≤ rel v.n v.vrUh v.vrUr := by
  obtain ⟨hlow, hhigh⟩ := h.reordOn hr
  have hB : v.umBase < v.n := rel_lt_of_pos v.n_pos _ _
  have htop := rel_vrUh_umBase h.window.high_lt
  have hx := rel_add_rel h.vrUx h.window.low_lt hB hlow.le
  have hh := rel_add_rel h.window.high_lt h.window.low_lt hB (by omega)
  omega

/-- t_reordering expiry, R236, once the timer's bit is cleared. -/
theorem umInv_umReordExpiry {w : Work} (h : w.slot.UmMoving) (hoff : w.slot.running.reord = false)
    (hzone : rel w.slot.n w.slot.vrUx w.slot.vrUr ≤ rel w.slot.n w.slot.vrUh w.slot.vrUr) : (umReordExpiry w).slot.UmInv := by
  unfold umReordExpiry
  dsimp only
  obtain ⟨hpassed, hrun, -⟩ := umMoving_umAdvance h h.vrUx hzone
  generalize umAdvance w.slot.vrUx w = a at hpassed hrun ⊢
  obtain ⟨hg, hle, hno⟩ := umGap_spec hpassed
  obtain ⟨hadv, hrun', hgap⟩ := umMoving_umAdvance hpassed hg hle
  generalize umAdvance (umGap a.slot) a = u at hadv hrun' hgap ⊢
  have hsize : rel u.slot.n u.slot.vrUr u.slot.umBase ≤ u.slot.cfg.umW := hadv.window.size
  have htop := rel_vrUh_umBase hadv.window.high_lt
  have hB : u.slot.umBase < u.slot.n := rel_lt_of_pos u.slot.n_pos _ _
  split
  · rename_i hne
    refine umInv_umStartReord hadv (hgap hno) (lt_of_le_of_ne hsize fun he => bne_iff_ne.mp hne ?_)
    exact rel_inj hadv.window.low_lt hadv.window.high_lt hB (he.trans htop.symm)
  · rename_i heq
    refine { hadv with gap := hgap hno, reordOn := fun hon => ?_, reordOff := fun _ => by simpa using heq }
    rw [hrun', hrun, hoff] at hon
    cases hon

end Sys2Proof.Machine
end

section
/-! PROOFS. Every step keeps the invariants of an AM bearer (10_state.md R36 items 1 to 4, 8 to 11 and 15). -/

namespace Sys2Proof.Machine

/-! ## AM receive -/

theorem length_mapDel_lt {α : Type} {k : Nat} {m : SnMap α} (h : k ∈ mapKeys m) : (mapDel k m).length < m.length := by
  obtain ⟨e, he, hk⟩ := List.mem_map.mp h
  exact List.length_filter_lt_length_iff_exists.mpr ⟨e, he, by simp [hk]⟩

/-- Twice the AM window fits the circle of SNs. -/
theorem Slot.BaseInv.amW_le {v : Slot} (h : v.BaseInv) (mode : v.cfg.mode = .am) : 2 * v.amW ≤ v.n := by
  obtain ⟨hn, -, hw⟩ := h.legal.am mode
  omega

/-- `am_advance`, R318: `VR_R` moves within the window, and where the turns are enough it stops at an SN that is not complete. -/
theorem amMoving_amAdvanceLoop : ∀ (fuel : Nat) {w : Work}, w.slot.AmMoving →
    (amAdvanceLoop fuel w).slot.AmMoving ∧
      (w.slot.rxa.length ≤ fuel →
        (amAdvanceLoop fuel w).slot.rxComplete (amAdvanceLoop fuel w).slot.vrR = false)
  | 0, w, h => by
    refine ⟨h, fun hlen => ?_⟩
    simp [amAdvanceLoop, Slot.rxComplete, List.length_eq_zero_iff.mp (Nat.le_zero.mp hlen)]
  | fuel + 1, w, h => by
    unfold amAdvanceLoop
    split
    · rename_i hg
      exact ⟨h, fun _ => by simp [Slot.rxComplete, hg]⟩
    · rename_i r hg
      split
      · have hmem : w.slot.vrR ∈ mapKeys w.slot.rxa := mem_mapKeys.mpr ⟨r, hg⟩
        rw [rsmFeed_eq]
        obtain ⟨hm, hgap⟩ := amMoving_amAdvanceLoop fuel
          (w := (w.reassembled (reassemble w.params w.slot.n w.slot.vrR r.body w.slot.rsm).1
            (reassemble w.params w.slot.n w.slot.vrR r.body w.slot.rsm).2).upd
              fun s => { s with rxa := mapDel s.vrR s.rxa, vrR := modN s.n (s.vrR + 1) })
          { h with
            next := next_reassemble_lt _ _ _ h.next
            window := h.window.pop (h.amW_le h.mode) hmem }
        refine ⟨hm, fun hlen => hgap ?_⟩
        have := length_mapDel_lt hmem
        exact Nat.le_of_lt_succ (Nat.lt_of_lt_of_le this hlen)
      · rename_i hc
        exact ⟨h, fun _ => by simpa [Slot.rxComplete, hg] using hc⟩

/-- Starting the timer against `VR_H` settles it while `VR_R` is below (R319, R320). -/
theorem amInv_amStartReord {w : Work} (h : w.slot.AmMoving) (gap : w.slot.rxComplete w.slot.vrR = false)
    (hpos : 0 < rel w.slot.n w.slot.vrH w.slot.vrR) : (amStartReord w).slot.AmInv := by
  obtain ⟨-, hw, -⟩ := h.legal.am h.mode
  have hself := rel_self h.window.high_lt
  exact { h with
    vrX := h.window.high_lt
    zone := fun _ => Nat.lt_of_le_of_lt hself.le hw
    gap
    reordOn := fun _ => ⟨hpos, le_refl _⟩ }

/-- A zone that has not left the window ends within it. -/
theorem rel_vrX_le {v : Slot} (h : v.AmMoving) (hr : v.running.reord = true) (hkept : amTimerObsolete v = false) :
    0 < rel v.n v.vrX v.vrR ∧ rel v.n v.vrX v.vrR ≤ rel v.n v.vrH v.vrR := by
  obtain ⟨hn, -, hw⟩ := h.legal.am h.mode
  have hzone := h.zone hr
  have hsize := h.window.size
  have := rel_spec h.vrX h.window.low_lt
  have := rel_spec h.window.high_lt h.window.low_lt
  have := rel_spec h.window.high_lt h.vrX
  simp only [amTimerObsolete, Bool.or_eq_false_iff, Bool.not_eq_false', Bool.and_eq_true, decide_eq_true_eq] at hkept
  obtain ⟨-, hpos, hle⟩ := hkept
  omega

/-- `am_timers`, R319, settles the timer. -/
theorem amInv_amTimers {w : Work} (h : w.slot.AmMoving) (gap : w.slot.rxComplete w.slot.vrR = false) :
    (amTimers w).slot.AmInv := by
  obtain ⟨u, hu, hmoving, hgap, hon⟩ : ∃ u,
      u = (if w.slot.running.reord && amTimerObsolete w.slot then w.stopTimer .reord else w) ∧ u.slot.AmMoving ∧
      u.slot.rxComplete u.slot.vrR = false ∧ (u.slot.running.reord = true → amTimerObsolete u.slot = false) := by
    refine ⟨_, rfl, ?_⟩
    split
    · exact ⟨{ h with zone := fun hr => by cases hr }, gap, fun hr => by cases hr⟩
    · rename_i hno
      exact ⟨h, gap, fun hr => by simpa [hr] using hno⟩
  unfold amTimers
  rw [← hu]
  dsimp only
  split
  · rename_i hstart
    obtain ⟨-, hne⟩ : u.slot.running.reord = false ∧ u.slot.vrH ≠ u.slot.vrR := by simpa using hstart
    refine amInv_amStartReord hmoving hgap (Nat.pos_of_ne_zero fun h0 => hne ?_)
    exact rel_inj hmoving.window.high_lt hmoving.window.low_lt hmoving.window.low_lt
      (h0.trans (rel_self hmoving.window.low_lt).symm)
  · exact { hmoving with gap := hgap, reordOn := fun hr => rel_vrX_le hmoving hr (hon hr) }

theorem amBumpVrH_eq (x : Nat) (v : Slot) : amBumpVrH x v = { v with vrH := amHigh v.n v.vrR v.vrH x } := by
  unfold amBumpVrH amHigh
  split <;> rfl

theorem amInv_amCount {w : Work} (h : w.slot.AmInv) (p : Bool) : (amCount p w).slot.AmInv := { h with }

/-- An accepted piece of an SN inside the window, R312. -/
theorem amInv_amAccept {w : Work} (h : w.slot.AmInv) {x : Nat} (hx : x < w.slot.n)
    (hin : rel w.slot.n x w.slot.vrR < w.slot.amW) {r : AmEntry} (hr : rangeWf r.rcvd = true) :
    (amAccept x r w).slot.AmInv := by
  have hw := h.amW_le h.mode
  have hput : (w.upd fun s => amBumpVrH x { s with rxa := mapPut x r s.rxa }).slot.AmMoving := by
    rw [slot_upd, amBumpVrH_eq]
    have hmoved := h.window.insert hw hx hin hr
    refine { h with window := hmoved, zone := fun hon => ?_ }
    obtain ⟨hpos, hle⟩ := h.reordOn hon
    obtain ⟨hmono, hsize⟩ := rel_amHigh h.window.low_lt hx hw hin h.window.size
    have hsub := rel_add_rel hmoved.high_lt h.vrX h.window.low_lt (hle.trans hmono)
    have hshort : rel w.slot.n (amHigh w.slot.n w.slot.vrR w.slot.vrH x) w.slot.vrR - rel w.slot.n w.slot.vrX w.slot.vrR <
        w.slot.amW := by omega
    exact hsub.trans_lt hshort
  have hgap : (x == w.slot.vrR && r.complete) = false →
      (w.upd fun s => amBumpVrH x { s with rxa := mapPut x r s.rxa }).slot.rxComplete w.slot.vrR = false := by
    intro hno
    rw [slot_upd, amBumpVrH_eq]
    have hold := h.gap
    unfold Slot.rxComplete at hold ⊢
    rw [mapGet_mapPut x w.slot.vrR r h.window.wf]
    by_cases hxr : w.slot.vrR = x
    · simpa [hxr] using hno
    · rwa [if_neg hxr]
  have hvr : (w.upd fun s => amBumpVrH x { s with rxa := mapPut x r s.rxa }).slot.vrR = w.slot.vrR := by
    rw [slot_upd, amBumpVrH_eq]
  unfold amAccept
  dsimp only
  generalize w.upd (fun s => amBumpVrH x { s with rxa := mapPut x r s.rxa }) = u at hput hgap hvr ⊢
  split
  · obtain ⟨hm, hg⟩ := amMoving_amAdvanceLoop u.slot.rxa.length hput
    exact amInv_amTimers hm (hg (le_refl _))
  · rename_i hno
    exact amInv_amTimers hput (hvr ▸ hgap (by rwa [hvr, Bool.not_eq_true] at hno))

theorem amInv_amDataReceive {w : Work} (h : w.slot.AmInv) (pdu : Bytes) : (amDataReceive pdu w).slot.AmInv := by
  unfold amDataReceive
  split
  · exact h
  · rename_i hd n hu
    dsimp only
    split
    · exact amInv_amCount h _
    · rename_i hin
      split
      · exact h
      · rename_i r hm
        split
        · exact amInv_amCount h _
        · have hsn : hd.sn < w.slot.n := by
            rw [(h.legal.am h.mode).1]
            exact (received_of_unpackHdr hu).sn
          have hold : rangeWf ((mapGet hd.sn w.slot.rxa).getD AmEntry.empty).rcvd = true := by
            cases hg : mapGet hd.sn w.slot.rxa with
            | none => rfl
            | some old => exact h.window.rcvdWf _ (mem_of_mapGet hg)
          have hr : rangeWf r.rcvd = true := by
            rw [(eq_mergeRaw_of_merge hm).1]
            exact rangeWf_rangeAdd _ _ hold
          have hin : rel w.slot.n hd.sn w.slot.vrR < w.slot.amW := by simpa [inside] using hin
          exact amInv_amAccept (amInv_amCount h hd.p) hsn hin hr

/-- t_reordering expiry, R320, once the timer's bit is cleared. -/
theorem amInv_amReordExpiry {w : Work} (h : w.slot.AmInv) : (amReordExpiry w).slot.AmInv := by
  have ht : (w.upd fun s => { s with statusTriggered := true }).slot.AmInv := { h with }
  unfold amReordExpiry
  dsimp only
  split
  · rename_i hlt
    exact amInv_amStartReord ht.toAmMoving ht.gap (Nat.zero_lt_of_lt hlt)
  · exact ht

/-! ## AM transmit -/

/-- Everything that `poll_decide` can change of a slot, R270. -/
theorem pollDecide_slot (new : Bool) (nbytes : Nat) (w : Work) : ∃ (pdus bytes : BitVec 32) (pending running : Bool) (sn : Nat),
    (pollDecide new nbytes w).2.slot =
      { w.slot with
        pduWithoutPoll := pdus, byteWithoutPoll := bytes, pollPending := pending, pollSn := sn
        running := { w.slot.running with pollretx := running } } ∧
    (sn = w.slot.pollSn ∨ sn = rel w.slot.n w.slot.vtS 1) := by
  rcases pollDecide_cases new nbytes w with ⟨-, hp⟩ | ⟨-, hp⟩ <;> rw [hp]
  · cases new
    · exact ⟨w.slot.pduWithoutPoll, w.slot.byteWithoutPoll, w.slot.pollPending, w.slot.running.pollretx, w.slot.pollSn, rfl, .inl rfl⟩
    · exact ⟨_, _, w.slot.pollPending, w.slot.running.pollretx, w.slot.pollSn, rfl, .inl rfl⟩
  · exact ⟨_, _, _, _, _, rfl, .inr rfl⟩

theorem pollSn_lt {v : Slot} (h : v.BaseInv) {sn : Nat} (hsn : sn = v.pollSn ∨ sn = rel v.n v.vtS 1) : sn < v.n := by
  rcases hsn with rfl | rfl
  · exact h.pollSn
  · exact rel_lt_of_pos v.n_pos _ _

theorem amInv_pollDecide {w : Work} (h : w.slot.AmInv) (new : Bool) (nbytes : Nat) :
    (pollDecide new nbytes w).2.slot.AmInv := by
  obtain ⟨pdus, bytes, pending, running, sn, he, hsn⟩ := pollDecide_slot new nbytes w
  rw [he]
  exact { h with pollSn := pollSn_lt h.toBaseInv hsn }

/-- A new PDU, R263, where the window is open. -/
theorem amInv_newPdu {w w' : Work} (h : w.slot.AmInv) {budget : Nat} {pdu : Bytes}
    (hnew : newPdu budget w = some (pdu, w')) : w'.slot.AmInv := by
  obtain ⟨hopen, b, p, -, rfl⟩ := newPdu_cases hnew
  obtain ⟨hn, -, hw⟩ := h.legal.am h.mode
  have hroom : rel w.slot.n w.slot.vtS w.slot.vtA < w.slot.amW := by simpa [Slot.stalled, inside] using hopen
  have hs := succ_spec h.vtS
  have hsent : rel w.slot.n (modN w.slot.n (w.slot.vtS + 1)) w.slot.vtA ≤ w.slot.amW := by
    have := rel_spec h.vtS h.vtA
    have := rel_spec hs.1 h.vtA
    omega
  have hput := mem_mapKeys_mapPut (k := w.slot.vtS) (j := w.slot.vtA)
    (a := (⟨b.fi, boundsOf b.lis, b.data, p, 0, [], false⟩ : RetxEntry)) h.rb.wf
  have hfirst : w.slot.vtA ∈ mapKeys (mapPut w.slot.vtS (⟨b.fi, boundsOf b.lis, b.data, p, 0, [], false⟩ : RetxEntry) w.slot.rb) := by
    rw [hput]
    by_cases he : w.slot.vtA = w.slot.vtS
    · exact .inl he
    · exact .inr (h.first he)
  obtain ⟨pdus, bytes, pending, running, sn, he, hsn⟩ := pollDecide_slot true b.data.length
    (w.upd fun s => { s with txq := b.txq, vtS := modN s.n (s.vtS + 1) })
  rw [slot_upd, he]
  have hbase : (w.upd fun s => { s with txq := b.txq, vtS := modN s.n (s.vtS + 1) }).slot.BaseInv := { h with vtS := hs.1 }
  exact { h with
    vtS := hs.1
    pollSn := pollSn_lt hbase hsn
    sent := hsent
    rb := h.rb.send h.vtA h.vtS (by omega) rfl
    first := fun _ => hfirst }

/-- Another retransmission state of an entry of `RB`. -/
theorem amInv_putRetx {w : Work} (h : w.slot.AmInv) {sn : Nat} {e e' : RetxEntry} (hg : mapGet sn w.slot.rb = some e)
    (hwf : rangeWf e'.pending = true) (hle : ∀ i ∈ e'.pending, i.2 ≤ e'.data.length) (hdead : e'.dead = true → e'.pending = []) :
    (w.upd fun s => { s with rb := mapPut sn e' s.rb }).slot.AmInv :=
  { h with
    rb := h.rb.put hg hwf hle hdead
    first := fun hne => (mem_mapKeys_mapPut h.rb.wf).mpr (.inr (h.first hne)) }

/-- A difference reaches no further than the set. -/
theorem le_of_mem_rangeSub {len s e : Nat} : ∀ {r : RangeSet}, (∀ i ∈ r, i.2 ≤ len) → ∀ i ∈ rangeSub s e r, i.2 ≤ len
  | [], _ => by simp [rangeSub]
  | (a, b) :: r, h => by
    obtain ⟨hb, hr⟩ := List.forall_mem_cons.mp h
    have hb : b ≤ len := hb
    unfold rangeSub
    simp only [List.forall_mem_append]
    refine ⟨⟨?_, ?_⟩, le_of_mem_rangeSub hr⟩
    · split
      · simp [hb]
      · simp
    · split
      · simp [hb]
      · simp

theorem amInv_retxPdu {w w' : Work} (h : w.slot.AmInv) {budget : Nat} {pdu : Bytes}
    (hretx : retxPdu budget w = some (pdu, w')) : w'.slot.AmInv := by
  obtain ⟨sn, e, pending, nbytes, hg, hpending, rfl⟩ := retxPdu_cases hretx
  refine amInv_pollDecide ?_ _ _
  have hwf := h.rb.pendingWf _ (mem_of_mapGet hg)
  obtain ⟨hle, hdead⟩ := h.rb.entries _ (mem_of_mapGet hg)
  rcases hpending with rfl | ⟨a, n, hn, rfl⟩
  · exact amInv_putRetx (e' := { e with pending := [] }) h hg rfl (by simp) fun _ => rfl
  · refine amInv_putRetx (e' := { e with pending := rangeSub a (a + n) e.pending }) h hg (rangeWf_rangeSub (by omega) hwf)
      (le_of_mem_rangeSub hle) fun hd => ?_
    have hnil : e.pending = [] := hdead hd
    simp [hnil, rangeSub]

theorem amInv_countTxPdu {w : Work} (h : w.slot.AmInv) : w.countTxPdu.slot.AmInv := { h with }

theorem amInv_countRetxPdu {w : Work} (h : w.slot.AmInv) : w.countRetxPdu.slot.AmInv := { h with }

theorem amInv_statusPdu {w : Work} (h : w.slot.AmInv) (budget : Nat) : (statusPdu budget w).2.slot.AmInv := by
  have hsent : ((w.upd fun s => { s with statusTriggered := false }).startTimer .prohibit).slot.AmInv := { h with }
  exact amInv_countTxPdu hsent

theorem amInv_amRead {w : Work} (h : w.slot.AmInv) (budget : Nat) : (amRead budget w).2.slot.AmInv := by
  unfold amRead
  split
  · exact amInv_statusPdu h budget
  · split
    · rename_i hretx
      exact amInv_countRetxPdu (amInv_countTxPdu (amInv_retxPdu h hretx))
    · split
      · rename_i hnew
        exact amInv_countTxPdu (amInv_newPdu h hnew)
      · exact h

/-! ## Status reception -/

theorem le_of_mem_rangeUnion {len : Nat} : ∀ {q r : RangeSet}, (∀ i ∈ r, i.2 ≤ len) → (∀ i ∈ q, i.2 ≤ len) →
    ∀ i ∈ rangeUnion r q, i.2 ≤ len
  | [], _, hr, _ => hr
  | (a, b) :: q, r, hr, hq => by
    obtain ⟨hb, hq⟩ := List.forall_mem_cons.mp hq
    exact le_of_mem_rangeUnion (q := q) (le_of_mem_rangeAdd hb hr) hq

/-- NACK records ask for bytes of the PDU alone, R274. -/
theorem le_of_mem_nackRanges (len : Nat) (ks : List Nack) : ∀ i ∈ nackRanges len ks, i.2 ≤ len := by
  refine List.foldlRecOn (motive := fun rg : RangeSet => ∀ i ∈ rg, i.2 ≤ len) ks _ (by simp) fun rg hrg k _ => ?_
  unfold nackRange
  dsimp only
  split
  · split
    · refine le_of_mem_rangeAdd ?_ hrg
      split
      · exact le_refl _
      · exact Nat.min_le_right _ _
    · exact hrg
  · exact le_of_mem_rangeAdd (le_refl _) hrg

/-- `consider_for_retx`, R276, for ranges within the entry. -/
theorem considerForRetx_retxBuffer {n a s sn : Nat} {rg : RangeSet} {w : Work} (hb : RetxBuffer n a s w.slot.rb)
    (hrg : ∀ e, mapGet sn w.slot.rb = some e → ∀ i ∈ rg, i.2 ≤ e.data.length) :
    ∃ rb, (considerForRetx sn rg w).slot = { w.slot with rb := rb } ∧ RetxBuffer n a s rb ∧
      ∀ k ∈ mapKeys w.slot.rb, k ∈ mapKeys rb := by
  unfold considerForRetx
  split
  · exact ⟨w.slot.rb, rfl, hb, fun _ => id⟩
  · rename_i e hg
    have hwf := rangeWf_rangeUnion rg (hb.pendingWf _ (mem_of_mapGet hg))
    obtain ⟨hle, -⟩ := hb.entries _ (mem_of_mapGet hg)
    have hle' := le_of_mem_rangeUnion hle (hrg e hg)
    have hkeys : ∀ e' : RetxEntry, ∀ k ∈ mapKeys w.slot.rb, k ∈ mapKeys (mapPut sn e' w.slot.rb) :=
      fun e' k hk => (mem_mapKeys_mapPut hb.wf).mpr (.inr hk)
    split
    · exact ⟨w.slot.rb, rfl, hb, fun _ => id⟩
    · rename_i hd
      split
      · rename_i hempty
        have hnil : e.pending = [] := List.isEmpty_iff.mp hempty
        split
        · exact ⟨_, rfl, hb.put hg (by rw [hnil]; rfl) hle fun _ => hnil, hkeys _⟩
        · exact ⟨_, rfl, hb.put hg hwf hle' fun hd' => absurd hd' hd, hkeys _⟩
      · exact ⟨_, rfl, hb.put hg hwf hle' fun hd' => absurd hd' hd, hkeys _⟩

/-- One SN of a status, R273. -/
theorem statusStep_retxBuffer {n a s : Nat} {w : Work} (hb : RetxBuffer n a s w.slot.rb) (nacks : List Nack) (sn : Nat) :
    ∃ rb, (statusStep nacks w sn).slot = { w.slot with rb := rb } ∧ RetxBuffer n a s rb := by
  unfold statusStep
  split
  · exact ⟨w.slot.rb, rfl, hb⟩
  · rename_i e hg
    dsimp only
    split
    · exact ⟨_, rfl, hb.del sn⟩
    · split
      · exact ⟨w.slot.rb, rfl, hb⟩
      · obtain ⟨rb, he, hrb, -⟩ := considerForRetx_retxBuffer (sn := sn)
          (rg := nackRanges e.data.length (nacks.filter fun k => k.sn == sn)) hb fun e' hg' => by
            obtain rfl := Option.some.inj (hg.symm.trans hg')
            exact le_of_mem_nackRanges _ _
        exact ⟨rb, he, hrb⟩

theorem foldl_statusStep_retxBuffer {n a s : Nat} (nacks : List Nack) : ∀ (sns : List Nat) {w : Work},
    RetxBuffer n a s w.slot.rb →
    ∃ rb, (sns.foldl (statusStep nacks) w).slot = { w.slot with rb := rb } ∧ RetxBuffer n a s rb
  | [], w, hb => ⟨w.slot.rb, rfl, hb⟩
  | sn :: sns, w, hb => by
    obtain ⟨rb, he, hrb⟩ := statusStep_retxBuffer hb nacks sn
    obtain ⟨rb', he', hrb'⟩ := foldl_statusStep_retxBuffer nacks sns (w := statusStep nacks w sn) (by rw [he]; exact hrb)
    exact ⟨rb', by rw [List.foldl_cons, he', he], hrb'⟩

/-- `handle_status`, R273. -/
theorem amInv_handleStatus {w : Work} (h : w.slot.AmInv) (st : Status) : (handleStatus st w).slot.AmInv := by
  obtain ⟨rb, he, hb⟩ := foldl_statusStep_retxBuffer st.nacks (snInterval w.slot.n w.slot.vtA st.ack) h.rb
  obtain ⟨hb', hlt, hle, hfirst⟩ := hb.advance h.vtA h.vtS
  have hmove : (((snInterval w.slot.n w.slot.vtA st.ack).foldl (statusStep st.nacks) w).upd
      fun s => { s with vtA := nextVtA w.slot.n w.slot.vtA s.vtS s.rb }).slot.AmInv := by
    rw [slot_upd, he]
    exact { h with vtA := hlt, sent := hle.trans h.sent, rb := hb', first := hfirst }
  unfold handleStatus
  dsimp only
  generalize Work.upd _ _ = u at hmove ⊢
  split
  · exact { hmove with }
  · exact hmove

theorem amInv_amWritePdu {w : Work} (h : w.slot.AmInv) (pdu : Bytes) : (amWritePdu pdu w).slot.AmInv := by
  unfold amWritePdu
  split
  · exact h
  · split
    · exact amInv_amDataReceive h pdu
    · unfold statusReceive
      split
      · exact h
      · split
        · exact amInv_handleStatus (w := w.countRxPdu) { h with } _
        · exact h

/-- t_poll_retransmit expiry, R279. -/
theorem amInv_pollRetxExpiry {w : Work} (h : w.slot.AmInv) : (pollRetxExpiry w).slot.AmInv := by
  have ht : (w.upd fun s => { s with pollPending := true }).slot.AmInv := { h with }
  unfold pollRetxExpiry
  dsimp only
  generalize w.upd (fun s => { s with pollPending := true }) = u at ht ⊢
  split
  · split
    · exact ht
    · split
      · exact ht
      · rename_i sn _ _ e hg
        obtain ⟨rb, he, hb, hkeys⟩ := considerForRetx_retxBuffer (sn := sn) (rg := rangeAdd 0 e.data.length []) ht.rb
          fun e' hg' => by
            obtain rfl := Option.some.inj (hg.symm.trans hg')
            exact le_of_mem_rangeAdd (le_refl _) (by simp)
        rw [he]
        exact { ht with rb := hb, first := fun hne => hkeys _ (ht.first hne) }
  · exact ht

/-! ## Commands -/

/-- An accepted configuration has the legal values of R22. -/
theorem cfgLegal_of_acceptCfg {p : Bytes} {c : Cfg} (h : acceptCfg p = some c) {v : Slot} (hv : v.cfg = c) : v.CfgLegal := by
  intro mode
  unfold acceptCfg at h
  split at h
  · split at h
    · cases h
    · rename_i m liw hm _ _ snw hsnw
      split_ifs at h with hrsv hretx hw
      obtain rfl := Option.some.inj h
      have hmam : m = .am := by simpa [hv] using mode
      subst hmam
      have hsnw : snw = .w10 := by
        unfold snWidthOf at hsnw
        split at hsnw <;> simp_all
      subst hsnw
      have hretx : u8 p 3 ≠ 0 := fun h0 => hretx ⟨rfl, h0⟩
      have hw : 1 ≤ amWOf p ∧ amWOf p ≤ 512 := by simpa [SnWidth.bits] using hw
      have hamW : v.amW = amWOf p := by
        rw [Slot.amW, hv, BitVec.toNat_ofNat]
        omega
      refine ⟨by rw [hv], by omega, by omega, fun h0 => hretx ?_⟩
      have hthreshold := congrArg BitVec.toNat h0
      rw [hv, BitVec.toNat_ofNat, Nat.mod_eq_of_lt (u8_lt p 3)] at hthreshold
      exact hthreshold
  · cases h

/-- A CONFIGURE that is not structural keeps the invariant: the widths, the mode and the AM window are as they were (R183). -/
theorem inv_withCfg {v : Slot} {c : Cfg} (h : v.Inv) (hc : structuralChange v.cfg c = false)
    (legal : ({ v with cfg := c } : Slot).CfgLegal) : ({ v with cfg := c } : Slot).Inv := by
  obtain ⟨cmode, csnw, cliw, _, _, _, _, _, _, camW⟩ := c
  simp only [structuralChange, Bool.or_eq_false_iff, bne_eq_false_iff_eq, Bool.and_eq_false_iff, beq_eq_false_iff_ne] at hc
  obtain ⟨⟨⟨rfl, rfl⟩, rfl⟩, ham⟩ := hc
  obtain mode | mode : v.cfg.mode = .um ∨ v.cfg.mode = .am := by cases v.cfg.mode <;> simp
  · exact Slot.UmInv.inv { h.um mode with legal }
  · obtain rfl : camW = v.cfg.amW := ham.resolve_left fun hne => hne mode
    exact Slot.AmInv.inv { h.am mode with legal }

theorem inv_reconfigure {w : Work} (h : w.slot.Inv) {c : Cfg} (legal : ∀ v : Slot, v.cfg = c → v.CfgLegal) :
    (reconfigure c w).slot.Inv := by
  unfold reconfigure
  split
  · exact inv_initEntity (legal _ rfl)
  · rename_i hc
    exact inv_withCfg h (by simpa using hc) (legal _ rfl)

theorem inv_readPdu {w : Work} (h : w.slot.Inv) (budget : Nat) : (readPdu budget w).2.slot.Inv := by
  unfold readPdu
  split
  · exact (umInv_umRead (h.um ‹_›) budget).inv
  · exact (amInv_amRead (h.am ‹_›) budget).inv

theorem inv_writePdu {w : Work} (h : w.slot.Inv) (pdu : Bytes) : (writePdu pdu w).slot.Inv := by
  unfold writePdu
  split
  · exact (umInv_umWritePdu (h.um ‹_›) pdu).inv
  · exact (amInv_amWritePdu (h.am ‹_›) pdu).inv

/-- Clearing a timer's bit, as an accepted expiry does, keeps the invariant of an AM bearer. -/
theorem amInv_clear {w : Work} (h : w.slot.AmInv) (k : TimerKind) :
    (w.upd fun s => { s with running := s.running.set k false }).slot.AmInv := by
  cases k with
  | reord => exact { h with zone := (fun hr => by cases hr), reordOn := (fun hr => by cases hr) }
  | prohibit | pollretx => exact { h with }

/-- Clearing the bit of a timer other than t_reordering touches nothing of a UM bearer's invariant. -/
theorem umInv_clear {w : Work} (h : w.slot.UmInv) {k : TimerKind} (hk : k ≠ .reord) :
    (w.upd fun s => { s with running := s.running.set k false }).slot.UmInv := by
  cases k with
  | reord => exact absurd rfl hk
  | prohibit | pollretx => exact { h with }

/-- An accepted expiry of t_reordering on a UM bearer. -/
theorem umInv_expire_reord {w : Work} (h : w.slot.UmInv) (hr : w.slot.running.reord = true) :
    (umReordExpiry (w.upd fun s => { s with running := s.running.set .reord false })).slot.UmInv := by
  have hzone := rel_vrUx_le h hr
  have hcleared : (w.upd fun s => { s with running := s.running.set .reord false }).slot.UmMoving := { h with }
  exact umInv_umReordExpiry hcleared rfl hzone

theorem inv_expire {w : Work} (h : w.slot.Inv) {k : TimerKind} (hr : w.slot.running.get k = true) :
    (expire k w).slot.Inv := by
  cases mode : w.slot.cfg.mode with
  | um =>
    have hum := h.um mode
    have hmode : (w.upd fun s => { s with running := s.running.set k false }).slot.cfg.mode = .um := mode
    unfold expire expiryAction
    rw [hmode]
    cases k with
    | reord => exact (umInv_expire_reord hum hr).inv
    | prohibit | pollretx => exact (umInv_clear hum (by decide)).inv
  | am =>
    have ham := amInv_clear (h.am mode) k
    have hmode : (w.upd fun s => { s with running := s.running.set k false }).slot.cfg.mode = .am := mode
    unfold expire expiryAction
    rw [hmode]
    cases k with
    | reord => exact (amInv_amReordExpiry ham).inv
    | prohibit => exact ham.inv
    | pollretx => exact (amInv_pollRetxExpiry ham).inv

/-- Every accepted command keeps the invariant of its bearer. -/
theorem Accepted.inv {s : State} {i : Instr} {w : Work} (hw : Accepted s i w)
    (h : (s.slot w.lcid).active = true → (s.slot w.lcid).Inv) (hafter : w.slot.active = true) : w.slot.Inv := by
  rw [hw.lcid_eq] at h
  cases hw with
  | addBearer _ _ hc => exact inv_initEntity (cfgLegal_of_acceptCfg hc rfl)
  | configure _ ha hc => exact inv_reconfigure (h ha) fun _ => cfgLegal_of_acceptCfg hc
  | delBearer => cases hafter
  | reestablish ha =>
    rw [stopAllTimers_eq]
    exact inv_initEntity (h ha).1
  | writeSdu ha => exact h ha
  | readPdu ha => exact inv_readPdu (h ha) _
  | writePdu ha => exact inv_writePdu (h ha) _
  | timerExpiry _ ha hr => exact inv_expire (h ha) hr

/-- Settles O56: each procedure keeps the invariant of its mode (`Slot.UmInv`, `Slot.AmInv`), so every accepted command does. -/
theorem everyStepKeepsInv : Obligations.EveryStepKeepsInv :=
  fun _ _ h hstep => step_keeps (P := fun _ v => v.Inv) (fun _ _ _ hw => hw.inv) h hstep

end Sys2Proof.Machine
end

section
/-! PROOFS. A command reads and writes the slot and tags of its own bearer alone (20_memory.md R67, R74): what it answers and
leaves there depends on nothing else, but for the free contents of a deleted slot. -/

namespace Sys2Proof.Machine

/-! ## The effect of a command -/

/-- What a command does to a state: the slot and tags it leaves on its bearer, its response, and the count of free slot contents
drawn after it. -/
structure Effect where
  slot : Slot
  tags : PerTimer (BitVec 16)
  response : Response
  free : Nat

/-- The state after a command on bearer `l` with effect `e`. -/
def State.withEffect (s : State) (l : Lcid) (e : Effect) : State :=
  ((({ s with freeCount := e.free } : State).setSlot l e.slot).setTags l e.tags).respond e.response

/-- The effect of a command that leaves the work `w`. -/
def Work.effect (w : Work) (result : Bytes) (free : Nat) : Effect := ⟨w.slot, w.tags, ⟨.ok, result, w.events⟩, free⟩

/-- Two effects that a host cannot tell apart: they may differ in the contents of an inactive slot (R21, R185) and in the count
of contents drawn. -/
structure Effect.Alike (e e' : Effect) : Prop where
  tags : e.tags = e'.tags
  response : e.response = e'.response
  active : e.slot.active = e'.slot.active
  slot : e.slot.active = true → e.slot = e'.slot

section

variable (s : State) (l : Lcid) (e : Effect)

@[simp] theorem slot_withEffect_same : (s.withEffect l e).slot l = e.slot := by simp [State.withEffect]
@[simp] theorem tags_withEffect_same : (s.withEffect l e).tags l = e.tags := by simp [State.withEffect]
@[simp] theorem params_withEffect : (s.withEffect l e).params = s.params := rfl
@[simp] theorem responses_withEffect : (s.withEffect l e).responses = s.responses ++ [e.response] := rfl
@[simp] theorem freeCount_withEffect : (s.withEffect l e).freeCount = e.free := rfl
@[simp] theorem gen_withEffect : (s.withEffect l e).gen = s.gen.set l.toNat e.tags l.isLt := rfl

theorem slot_withEffect_other {j : Lcid} (h : j ≠ l) : (s.withEffect l e).slot j = s.slot j := by
  simp [State.withEffect, slot_setSlot_other _ _ h]

theorem tags_withEffect_other {j : Lcid} (h : j ≠ l) : (s.withEffect l e).tags j = s.tags j := by
  rw [State.withEffect, tags_respond, tags_setTags_other _ _ h, tags_setSlot, tags_withFreeCount]

/-- The work of another bearer's command starts as before. -/
theorem enter_withEffect_other {j : Lcid} (h : j ≠ l) : (s.withEffect l e).enter j = s.enter j := by
  rw [State.enter, State.enter, params_withEffect, slot_withEffect_other s l e h, tags_withEffect_other s l e h]

/-- Only one effect leads from a state to another. -/
theorem withEffect_injective : Function.Injective (s.withEffect l) := by
  rintro ⟨v, g, r, n⟩ ⟨v', g', r', n'⟩ h
  obtain rfl : v = v' := by simpa using congrArg (·.slot l) h
  obtain rfl : g = g' := by simpa using congrArg (·.tags l) h
  obtain rfl : r = r' := by simpa using congrArg (·.responses) h
  obtain rfl : n = n' := congrArg (·.freeCount) h
  rfl

/-- A response alone is an effect that writes back what its bearer held. -/
theorem respond_eq_withEffect (r : Response) : s.respond r = s.withEffect l ⟨s.slot l, s.tags l, r, s.freeCount⟩ := by
  change s.respond r = ((s.setSlot l (s.slot l)).setTags l (s.tags l)).respond r
  rw [setSlot_self, ← tags_setSlot s l l (s.slot l), setSlot_self, setTags_self]

end

theorem commit_eq_withEffect {l : Lcid} {w : Work} (hl : w.lcid = l) (s : State) (n : Nat) (result : Bytes) :
    commit { s with freeCount := n } w result = .next (s.withEffect l (w.effect result n)) := by
  subst hl
  rfl

/-! ## Effects on two bearers -/

/-- Effects on different bearers, in either order, leave the same bearers. -/
theorem sameBearers_withEffect (s : State) {l j : Lcid} (hne : l ≠ j) {e e' f f' : Effect} (he : e.Alike e')
    (hf : f.Alike f') : ((s.withEffect l e).withEffect j f').SameBearers ((s.withEffect j f).withEffect l e') := by
  refine ⟨rfl, ?_, fun k => ?_⟩
  · have hn : l.toNat ≠ j.toNat := fun h => hne (BitVec.eq_of_toNat_eq h)
    simp only [gen_withEffect, he.tags, hf.tags]
    exact Vector.set_comm _ _ hn
  · by_cases hl : k = l
    · subst hl
      rw [slot_withEffect_other _ _ _ hne, slot_withEffect_same, slot_withEffect_same]
      exact ⟨he.active, he.slot⟩
    by_cases hj : k = j
    · subst hj
      rw [slot_withEffect_other _ _ _ hl, slot_withEffect_same, slot_withEffect_same]
      exact ⟨hf.active.symm, fun ha => (hf.slot (hf.active.trans ha)).symm⟩
    · have huntouched : ((s.withEffect l e).withEffect j f').slot k = ((s.withEffect j f).withEffect l e').slot k := by
        simp only [slot_withEffect_other _ _ _ hl, slot_withEffect_other _ _ _ hj]
      rw [huntouched]
      exact ⟨rfl, fun _ => rfl⟩

/-! ## Answers with the same effect -/

/-- The answer `x` to `s` and the answer `y` to `s'` have effects on bearer `l` that a host cannot tell apart. -/
def SameEffect (l : Lcid) (s s' : State) (x y : Next) : Prop :=
  ∃ e e' : Effect, x = .next (s.withEffect l e) ∧ y = .next (s'.withEffect l e') ∧ e.Alike e'

theorem sameEffect_commit {l : Lcid} {s s' : State} {w : Work} (hl : w.lcid = l) (b : Bytes) :
    SameEffect l s s' (commit s w b) (commit s' w b) :=
  ⟨_, _, commit_eq_withEffect hl s s.freeCount b, commit_eq_withEffect hl s' s'.freeCount b, rfl, rfl, rfl, fun _ => rfl⟩

section

variable {l : Lcid} {s s' : State} (h : s.enter l = s'.enter l)
include h

theorem params_eq_of_enter_eq : s.params = s'.params := congrArg Work.params h
theorem slot_eq_of_enter_eq : s.slot l = s'.slot l := congrArg Work.slot h
theorem tags_eq_of_enter_eq : s.tags l = s'.tags l := congrArg Work.tags h

theorem sameEffect_respond (r : Response) : SameEffect l s s' (.next (s.respond r)) (.next (s'.respond r)) :=
  ⟨_, _, congrArg _ (respond_eq_withEffect s l r), congrArg _ (respond_eq_withEffect s' l r),
    tags_eq_of_enter_eq h, rfl, congrArg _ (slot_eq_of_enter_eq h), fun _ => slot_eq_of_enter_eq h⟩

theorem sameEffect_raise (c : Code) : SameEffect l s s' (raise s c) (raise s' c) := sameEffect_respond h _

theorem sameEffect_finish (b : Bytes) : SameEffect l s s' (finish s b) (finish s' b) := sameEffect_respond h _

theorem sameEffect_require {ok : Bool} {c : Code} {x y : Next} (hxy : ok = true → SameEffect l s s' x y) :
    SameEffect l s s' (require ok c s x) (require ok c s' y) := by
  cases ok
  · exact sameEffect_raise h c
  · exact hxy rfl

theorem sameEffect_requireActive {x y : Next} (hxy : (s.slot l).active = true → SameEffect l s s' x y) :
    SameEffect l s s' (requireActive l s x) (requireActive l s' y) := by
  unfold requireActive
  rw [← slot_eq_of_enter_eq h]
  exact sameEffect_require h hxy

/-! ## Each command -/

theorem sameEffect_addBearer (sub : Sub) (p : Bytes) :
    SameEffect l s s' (execAddBearer l sub p s) (execAddBearer l sub p s') := by
  unfold execAddBearer
  rw [← slot_eq_of_enter_eq h, ← h]
  refine sameEffect_require h fun _ => sameEffect_require h fun _ => ?_
  cases acceptCfg p with
  | none => exact sameEffect_raise h _
  | some c => exact sameEffect_commit rfl _

theorem sameEffect_configure (sub : Sub) (p : Bytes) :
    SameEffect l s s' (execConfigure l sub p s) (execConfigure l sub p s') := by
  unfold execConfigure
  rw [← h]
  refine sameEffect_require h fun hf => sameEffect_requireActive h fun ha => ?_
  obtain ⟨rfl, hp⟩ : sub = 0 ∧ p.length = 20 := by simpa using hf
  cases hc : acceptCfg p with
  | none => exact sameEffect_raise h _
  | some c => exact sameEffect_commit (Accepted.configure hp ha hc).lcid_eq _

/-- DEL_BEARER draws other free contents where another number has been drawn before, but leaves the slot inactive. -/
theorem sameEffect_delBearer (sub : Sub) (imm : Imm) :
    SameEffect l s s' (execDelBearer l sub imm s) (execDelBearer l sub imm s') := by
  unfold execDelBearer
  rw [← h]
  refine sameEffect_require h fun _ => sameEffect_requireActive h fun ha => ?_
  have hl (v : Slot) : ((s.enter l).stopAllTimers.upd fun _ => v).lcid = l := (Accepted.delBearer ha).lcid_eq
  exact ⟨_, _, commit_eq_withEffect (hl _) s _ _, commit_eq_withEffect (hl _) s' _ _, rfl, rfl, rfl,
    fun hactive => (Bool.false_ne_true hactive).elim⟩

theorem sameEffect_reestablish (sub : Sub) (imm : Imm) :
    SameEffect l s s' (execReestablish l sub imm s) (execReestablish l sub imm s') := by
  unfold execReestablish
  rw [← h]
  exact sameEffect_require h fun _ => sameEffect_requireActive h fun ha =>
    sameEffect_commit (Accepted.reestablish ha).lcid_eq _

theorem sameEffect_getMetrics (sub : Sub) (imm : Imm) :
    SameEffect l s s' (execGetMetrics l sub imm s) (execGetMetrics l sub imm s') := by
  unfold execGetMetrics
  rw [← slot_eq_of_enter_eq h]
  exact sameEffect_require h fun _ => sameEffect_requireActive h fun _ => sameEffect_finish h _

theorem sameEffect_getState (sub : Sub) (imm : Imm) :
    SameEffect l s s' (execGetState l sub imm s) (execGetState l sub imm s') := by
  unfold execGetState
  rw [← slot_eq_of_enter_eq h]
  exact sameEffect_require h fun _ => sameEffect_requireActive h fun _ => sameEffect_finish h _

theorem sameEffect_writeSdu (sub : Sub) (p : Bytes) : SameEffect l s s' (execWriteSdu l sub p s) (execWriteSdu l sub p s') := by
  unfold execWriteSdu
  rw [← params_eq_of_enter_eq h, ← slot_eq_of_enter_eq h, ← h]
  exact sameEffect_require h fun _ => sameEffect_require h fun _ => sameEffect_requireActive h fun _ =>
    sameEffect_require h fun _ => sameEffect_commit rfl _

theorem sameEffect_getBufferState (sub : Sub) (imm : Imm) :
    SameEffect l s s' (execGetBufferState l sub imm s) (execGetBufferState l sub imm s') := by
  unfold execGetBufferState
  rw [← params_eq_of_enter_eq h, ← slot_eq_of_enter_eq h]
  exact sameEffect_require h fun _ => sameEffect_finish h _

theorem sameEffect_readPdu (sub : Sub) (b : Imm) : SameEffect l s s' (execReadPdu l sub b s) (execReadPdu l sub b s') := by
  unfold execReadPdu
  rw [← slot_eq_of_enter_eq h, ← h]
  refine sameEffect_require h fun _ => ?_
  cases ha : (s.slot l).active
  · exact sameEffect_finish h _
  · exact sameEffect_commit (Accepted.readPdu ha).lcid_eq _

theorem sameEffect_writePdu (sub : Sub) (p : Bytes) : SameEffect l s s' (execWritePdu l sub p s) (execWritePdu l sub p s') := by
  unfold execWritePdu
  rw [← slot_eq_of_enter_eq h, ← h]
  refine sameEffect_require h fun _ => ?_
  cases ha : (s.slot l).active
  · exact sameEffect_finish h _
  · exact sameEffect_commit (Accepted.writePdu ha).lcid_eq _

theorem sameEffect_timerExpiry (sub : Sub) (gen : Imm) :
    SameEffect l s s' (execTimerExpiry l sub gen s) (execTimerExpiry l sub gen s') := by
  unfold execTimerExpiry
  rw [← h]
  cases hk : timerKindOf sub with
  | none => exact sameEffect_raise h _
  | some k =>
    dsimp only
    split
    · rename_i hcur
      obtain ⟨⟨ha, hr⟩, -⟩ : ((s.slot l).active = true ∧ (s.slot l).running.get k = true) ∧ gen = (s.tags l).get k := by
        simpa [expiryCurrent] using hcur
      exact sameEffect_commit (Accepted.timerExpiry hk ha hr).lcid_eq _
    · exact sameEffect_finish h _

theorem sameEffect_snCommand (p : Bytes) (boundOk : Bool) (b : Bytes) :
    SameEffect l s s' (snCommand l p s boundOk b) (snCommand l p s' boundOk b) :=
  sameEffect_require h fun _ => sameEffect_require h fun _ => sameEffect_require h fun _ => sameEffect_finish h _

theorem sameEffect_hdrPack (fmt : Sub) (p : Bytes) : SameEffect l s s' (execHdrPack l fmt p s) (execHdrPack l fmt p s') := by
  unfold execHdrPack
  rw [← params_eq_of_enter_eq h]
  refine sameEffect_require h fun _ => ?_
  cases fmtOf fmt with
  | none => exact sameEffect_raise h _
  | some f =>
    cases parseHrec p with
    | none => exact sameEffect_raise h _
    | some r => exact sameEffect_require h fun _ => sameEffect_finish h _

theorem sameEffect_hdrUnpack (fmt : Sub) (p : Bytes) :
    SameEffect l s s' (execHdrUnpack l fmt p s) (execHdrUnpack l fmt p s') := by
  unfold execHdrUnpack
  rw [← params_eq_of_enter_eq h]
  refine sameEffect_require h fun _ => ?_
  cases fmtOf fmt with
  | none => exact sameEffect_raise h _
  | some f =>
    dsimp only
    cases unpackHdr s.params f.1 f.2 p with
    | none => exact sameEffect_raise h _
    | some r => exact sameEffect_finish h _

theorem sameEffect_statusPack (sub : Sub) (p : Bytes) :
    SameEffect l s s' (execStatusPack l sub p s) (execStatusPack l sub p s') := by
  unfold execStatusPack
  rw [← params_eq_of_enter_eq h]
  refine sameEffect_require h fun _ => ?_
  cases parseSrec p with
  | none => exact sameEffect_raise h _
  | some st => exact sameEffect_require h fun _ => sameEffect_finish h _

theorem sameEffect_statusUnpack (sub : Sub) (p : Bytes) :
    SameEffect l s s' (execStatusUnpack l sub p s) (execStatusUnpack l sub p s') := by
  unfold execStatusUnpack
  rw [← params_eq_of_enter_eq h]
  refine sameEffect_require h fun _ => ?_
  cases unpackStatus s.params p with
  | none => exact sameEffect_raise h _
  | some st => exact sameEffect_finish h _

theorem sameEffect_statusCheck (sub : Sub) (p : Bytes) :
    SameEffect l s s' (execStatusCheck l sub p s) (execStatusCheck l sub p s') := by
  unfold execStatusCheck
  rw [← params_eq_of_enter_eq h]
  exact sameEffect_require h fun _ => sameEffect_require h fun _ => sameEffect_require h fun _ => sameEffect_finish h _

end

/-- R74: a command's effect depends on the parameters and on its own bearer's slot and tags, and on nothing else. -/
theorem sameEffect_exec (i : Instr) {s s' : State} (h : s.enter i.lcid = s'.enter i.lcid) :
    SameEffect i.lcid s s' (exec i s) (exec i s') := by
  cases i with
  | nop => exact sameEffect_require h fun _ => sameEffect_finish h _
  | addBearer l sub p => exact sameEffect_addBearer h sub p
  | configure l sub p => exact sameEffect_configure h sub p
  | delBearer l sub imm => exact sameEffect_delBearer h sub imm
  | reestablish l sub imm => exact sameEffect_reestablish h sub imm
  | getMetrics l sub imm => exact sameEffect_getMetrics h sub imm
  | getState l sub imm => exact sameEffect_getState h sub imm
  | writeSdu l sub p => exact sameEffect_writeSdu h sub p
  | getBufferState l sub imm => exact sameEffect_getBufferState h sub imm
  | readPdu l sub b => exact sameEffect_readPdu h sub b
  | writePdu l sub p => exact sameEffect_writePdu h sub p
  | timerExpiry l sub gen => exact sameEffect_timerExpiry h sub gen
  | snInwin l p | snInrange l p | snRel l p | snBefore l p => exact sameEffect_snCommand h p _ _
  | hdrPack l fmt p => exact sameEffect_hdrPack h fmt p
  | hdrUnpack l fmt p => exact sameEffect_hdrUnpack h fmt p
  | statusPack l sub p => exact sameEffect_statusPack h sub p
  | statusUnpack l sub p => exact sameEffect_statusUnpack h sub p
  | statusCheck l sub p => exact sameEffect_statusCheck h sub p

/-- The effect that a command has in one state, it has in every state that agrees on its bearer. -/
theorem exec_transfer {i : Instr} {s s' : State} {e : Effect} (hx : exec i s = .next (s.withEffect i.lcid e))
    (h : s.enter i.lcid = s'.enter i.lcid) : ∃ e', exec i s' = .next (s'.withEffect i.lcid e') ∧ e.Alike e' := by
  obtain ⟨e₀, e', hs, hs', halike⟩ := sameEffect_exec i h
  obtain rfl : e = e₀ := withEffect_injective s i.lcid (Host.Outcome.next.inj (hx.symm.trans hs))
  exact ⟨e', hs', halike⟩

/-- Settles O58: neither command touches what the other reads, so each has in the second place the effect that it has in the
first (`exec_transfer`). -/
theorem commandsOnOtherBearersCommute : Obligations.CommandsOnOtherBearersCommute := by
  intro i j s hne
  obtain ⟨e, -, hi, -, -⟩ := sameEffect_exec i (Eq.refl (s.enter i.lcid))
  obtain ⟨f, -, hj, -, -⟩ := sameEffect_exec j (Eq.refl (s.enter j.lcid))
  obtain ⟨f', hj', hf⟩ := exec_transfer hj (enter_withEffect_other s i.lcid e hne.symm).symm
  obtain ⟨e', hi', he⟩ := exec_transfer hi (enter_withEffect_other s j.lcid f hne).symm
  refine ⟨_, _, _, _, e.response, f.response, hi, hj', hj, hi', fun l hl => ?_, sameBearers_withEffect s hne he hf, ?_, ?_⟩
  · exact ⟨slot_withEffect_other s _ e hl, tags_withEffect_other s _ e hl⟩
  · simp [hf.response]
  · simp [he.response]

/-- Settles O8: the command answers alone (`answers_of_readOnly`), and a response is no part of what it reads, so it has
the same effect again. -/
theorem readOnlyCommandsAreIdempotent : Obligations.ReadOnlyCommandsAreIdempotent := by
  intro i s hread
  obtain ⟨r, hev, hr⟩ := answers_of_readOnly s hread
  obtain ⟨r', -, hr'⟩ := answers_of_readOnly (s.respond r) hread
  have hfirst : exec i s = .next (s.withEffect i.lcid ⟨s.slot i.lcid, s.tags i.lcid, r, s.freeCount⟩) := by
    rw [hr, ← respond_eq_withEffect]
  obtain ⟨e', hagain, halike⟩ := exec_transfer hfirst (s' := s.respond r) rfl
  obtain rfl : r' = r := by
    have hstate := Host.Outcome.next.inj (hr'.symm.trans hagain)
    have hresponse : r' = e'.response := by simpa using congrArg (·.responses) hstate
    exact hresponse.trans halike.response.symm
  exact ⟨r', hev, hr, hr'⟩

end Sys2Proof.Machine
end

section
/-! PROOFS. The command stream (30_encoding.md R64, R100, R101, R105, R112): a byte string holds a command exactly where it
begins with that command's encoding, and a step runs what it holds. -/

namespace Sys2Proof

/-! ## The header word -/

/-- A header word is made of its four fields, R100. -/
theorem mkHeader_fields (h : Header) : mkHeader (hdrOpc h) (hdrLcid h) (hdrSub h) (hdrImm h) = h := by
  unfold mkHeader hdrOpc hdrLcid hdrSub hdrImm
  rw [BitVec.extractLsb'_append_extractLsb'_eq_extractLsb' (by decide),
    BitVec.extractLsb'_append_extractLsb'_eq_extractLsb' (by decide),
    BitVec.extractLsb'_append_extractLsb'_eq_extractLsb' (by decide)]
  exact BitVec.extractLsb'_eq_self

/-- A byte above the lowest one of a word is a byte of the word without that one. -/
theorem extractLsb'_append_byte {n : Nat} (x : BitVec n) (b : Byte) (i : Nat) :
    (x ++ b).extractLsb' (i + 8) 8 = x.extractLsb' i 8 := by
  rw [BitVec.extractLsb'_append_eq_of_le (Nat.le_add_left 8 i), Nat.add_sub_cancel]

/-- Four bytes are the bytes of the header word they make, R64. -/
theorem headerBytes_append (b3 b2 b1 b0 : Byte) : headerBytes (b3 ++ b2 ++ b1 ++ b0) = [b3, b2, b1, b0] := by
  have h3 : (b3 ++ b2 ++ b1 ++ b0).extractLsb' 24 8 = b3 := by
    rw [extractLsb'_append_byte _ b0 16, extractLsb'_append_byte _ b1 8, extractLsb'_append_byte _ b2 0,
      BitVec.extractLsb'_eq_self]
  have h2 : (b3 ++ b2 ++ b1 ++ b0).extractLsb' 16 8 = b2 := by
    rw [extractLsb'_append_byte _ b0 8, extractLsb'_append_byte _ b1 0, BitVec.extractLsb'_append_eq_right]
  have h1 : (b3 ++ b2 ++ b1 ++ b0).extractLsb' 8 8 = b1 := by
    rw [extractLsb'_append_byte _ b0 0, BitVec.extractLsb'_append_eq_right]
  have h0 : (b3 ++ b2 ++ b1 ++ b0).extractLsb' 0 8 = b0 := BitVec.extractLsb'_append_eq_right
  exact congrArg₂ _ h3 (congrArg₂ _ h2 (congrArg₂ _ h1 (congrArg₂ _ h0 rfl)))

/-- A payload is no longer than `IMM` can say. -/
theorem plen_lt (h : Header) : plen h < 65536 := by
  unfold plen
  split
  · exact (hdrImm h).isLt
  · decide

/-! ## Taking a command from the stream -/

/-- A stream holds a whole command exactly where it begins with a header word and as many payload bytes as that announces
(R65, R101). -/
theorem takeCommand_eq_some_iff {b : Bytes} {h : Header} {p rest : Bytes} :
    takeCommand b = some (h, p, rest) ↔ b = headerBytes h ++ p ++ rest ∧ p.length = plen h := by
  constructor
  · intro ht
    unfold takeCommand at ht
    split at ht
    · rename_i b3 b2 b1 b0 tail
      dsimp only at ht
      split at ht
      · rename_i hlen
        cases ht
        exact ⟨by simp [headerBytes_append], List.length_take_of_le hlen⟩
      · cases ht
    · cases ht
  · rintro ⟨rfl, hp⟩
    simp [takeCommand, headerBytes, headerBytes_join, ← hp]

/-- Decoding a header word with the payload it announces, and the bytes behind it. -/
theorem decode_headerBytes {h : Header} {p : Bytes} (hp : p.length = plen h) (rest : Bytes) :
    decode (headerBytes h ++ p ++ rest) = some (decodeCommand h p, rest) := by
  rw [decode, takeCommand_eq_some_iff.mpr ⟨rfl, hp⟩]
  rfl

/-- What decodes is a header word with the payload it announces, and the bytes left. -/
theorem eq_headerBytes_of_decode {b rest : Bytes} {r : Except DecodeError Instr} (hd : decode b = some (r, rest)) :
    ∃ h p, b = headerBytes h ++ p ++ rest ∧ p.length = plen h ∧ decodeCommand h p = r := by
  obtain ⟨⟨h, p, rest'⟩, ht, hr⟩ := Option.map_eq_some_iff.mp hd
  cases hr
  obtain ⟨hb, hp⟩ := takeCommand_eq_some_iff.mp ht
  exact ⟨h, p, hb, hp, rfl⟩

/-! ## One command -/

/-- The command that a command's own header word and payload stand for, R105. -/
theorem decodeCommand_header (i : Instr) : decodeCommand i.header i.payload = .ok i := by
  cases i <;> simp [decodeCommand, Instr.header, Instr.payload]

/-- The header word of a command whose `IMM` is an operand, and its empty payload (R100, R101). -/
theorem operand_fields {h : Header} {p : Bytes} {o : BitVec 6} (ho : (hdrOpc h).toNat = o.toNat)
    (hno : opcHasPayload o.toNat = false) (hp : p.length = plen h) :
    mkHeader o (hdrLcid h) (hdrSub h) (hdrImm h) = h ∧ [] = p := by
  obtain rfl := BitVec.eq_of_toNat_eq ho
  refine ⟨mkHeader_fields h, (List.eq_nil_of_length_eq_zero ?_).symm⟩
  rw [hp, plen, hno]
  rfl

/-- The header word of a command whose `IMM` is the length of its payload (R100, R101). -/
theorem payload_fields {h : Header} {p : Bytes} {o : BitVec 6} (ho : (hdrOpc h).toNat = o.toNat)
    (hyes : opcHasPayload o.toNat = true) (hp : p.length = plen h) :
    mkHeader o (hdrLcid h) (hdrSub h) (BitVec.ofNat 16 p.length) = h := by
  obtain rfl := BitVec.eq_of_toNat_eq ho
  rw [hp, plen, if_pos hyes, BitVec.ofNat_toNat, BitVec.setWidth_eq]
  exact mkHeader_fields h

/-- The header word of a sequence-number command, whose SUB is fixed (R105). -/
theorem sn_fields {h : Header} {p : Bytes} {k : Sub} (ho : (hdrOpc h).toNat = 0x10) (hk : (hdrSub h).toNat = k.toNat)
    (hp : p.length = plen h) : mkHeader 0x10 (hdrLcid h) k (BitVec.ofNat 16 p.length) = h := by
  obtain rfl := BitVec.eq_of_toNat_eq hk
  exact payload_fields ho rfl hp

/-- A header word and the payload it announces stand for one command at most: the one whose header word and payload they are
(R105). -/
theorem header_of_decodeCommand {h : Header} {p : Bytes} {i : Instr} (hp : p.length = plen h)
    (hd : decodeCommand h p = .ok i) : i.header = h ∧ i.payload = p := by
  unfold decodeCommand at hd
  dsimp only at hd
  split at hd
  -- The arms whose IMM is an operand, those whose IMM is the payload length, the SN commands, and the reserved opcodes.
  case h_1 ho | h_4 ho | h_5 ho | h_6 ho | h_7 ho | h_9 ho | h_10 ho | h_12 ho =>
    cases hd
    exact operand_fields ho rfl hp
  case h_2 ho | h_3 ho | h_8 ho | h_11 ho | h_14 ho | h_15 ho | h_16 ho | h_17 ho | h_18 ho =>
    cases hd
    exact ⟨payload_fields ho rfl hp, rfl⟩
  case h_13 ho =>
    split at hd
    case h_1 hk | h_2 hk | h_3 hk | h_4 hk =>
      cases hd
      exact ⟨sn_fields ho hk hp, rfl⟩
    case h_5 => cases hd
  case h_19 => cases hd

open Laws.PayloadLength in
/-- The header word of every well-formed command announces exactly its payload (R100, R101). -/
theorem plen_header : ∀ i : Instr, Statement i
  | .nop l k m => nop l k m
  | .addBearer l k p => addBearer l k p
  | .configure l k p => configure l k p
  | .delBearer l k m => delBearer l k m
  | .reestablish l k m => reestablish l k m
  | .getMetrics l k m => getMetrics l k m
  | .getState l k m => getState l k m
  | .writeSdu l k p => writeSdu l k p
  | .getBufferState l k m => getBufferState l k m
  | .readPdu l k m => readPdu l k m
  | .writePdu l k p => writePdu l k p
  | .timerExpiry l k m => timerExpiry l k m
  | .snInwin l p => snInwin l p
  | .snInrange l p => snInrange l p
  | .snRel l p => snRel l p
  | .snBefore l p => snBefore l p
  | .hdrPack l k p => hdrPack l k p
  | .hdrUnpack l k p => hdrUnpack l k p
  | .statusPack l k p => statusPack l k p
  | .statusUnpack l k p => statusUnpack l k p
  | .statusCheck l k p => statusCheck l k p

/-- A header word whose OPC the opcode map does not list names no command (R112). -/
theorem decodeCommand_of_reservedOpc {h : Header} (p : Bytes)
    (hopc : (hdrOpc h).toNat = 0x07 ∨ (0x0D ≤ (hdrOpc h).toNat ∧ (hdrOpc h).toNat ≤ 0x0F) ∨ 0x16 ≤ (hdrOpc h).toNat) :
    decodeCommand h p = .error .reservedOpcode := by
  unfold decodeCommand
  dsimp only
  split
  case h_19 => rfl
  all_goals omega

/-- A header word of the SN commands' OPC whose SUB is none of theirs names no command (R112). -/
theorem decodeCommand_of_reservedSub {h : Header} (p : Bytes) (hopc : (hdrOpc h).toNat = 0x10) (hsub : 4 ≤ (hdrSub h).toNat) :
    decodeCommand h p = .error .badSnSub := by
  unfold decodeCommand
  dsimp only
  split
  case h_13 =>
    split
    case h_5 => rfl
    all_goals omega
  case h_19 => contradiction
  all_goals omega

/-! ## Streams and commands -/

/-- Encoding a well-formed command and decoding it gives it back, with the bytes behind it. -/
theorem decode_encode {i : Instr} (hw : i.wf = true) (rest : Bytes) : decode (encode i ++ rest) = some (.ok i, rest) := by
  rw [encode, decode_headerBytes (plen_header i hw).symm, decodeCommand_header]

/-- Bytes that decode to a command are the encoding of that command, which is well formed, and the bytes left. -/
theorem eq_encode_of_decode {b rest : Bytes} {i : Instr} (hd : decode b = some (.ok i, rest)) :
    i.wf = true ∧ b = encode i ++ rest := by
  obtain ⟨h, p, rfl, hp, hi⟩ := eq_headerBytes_of_decode hd
  obtain ⟨rfl, rfl⟩ := header_of_decodeCommand hp hi
  exact ⟨decide_eq_true (hp ▸ plen_lt _), rfl⟩

/-- An opcode-table word whose bytes encode a well-formed command stands for it. -/
theorem decodeTableWord_of_eq_encode {nbits w : Nat} {i : Instr} (hw : i.wf = true) (hb : tableBytes nbits w = encode i) :
    decodeTableWord nbits w = some i := by
  have hd := decode_encode hw []
  rw [List.append_nil, ← hb] at hd
  rw [decodeTableWord, hd]

/-- Settles O6: `decode_encode` and its converse. -/
theorem decodeAndEncodeAgree : Obligations.DecodeAndEncodeAgree :=
  ⟨fun _ rest hw => decode_encode hw rest, fun _ _ _ hd => eq_encode_of_decode hd⟩

/-- Settles O5: each word lays out the bytes that encode its command; the last one has OPC 0x07, which is reserved. -/
theorem writtenWordsDecode : Obligations.WrittenWordsDecode := by
  refine ⟨decodeTableWord_of_eq_encode rfl ?_, decodeTableWord_of_eq_encode rfl ?_, decodeTableWord_of_eq_encode rfl ?_,
    decodeTableWord_of_eq_encode rfl ?_, decodeTableWord_of_eq_encode rfl ?_, decodeTableWord_of_eq_encode rfl ?_, ?_⟩
  case refine_7 =>
    rw [decodeTableWord, tableBytes, ← List.append_nil (headerBytes _ ++ _), decode_headerBytes rfl,
      decodeCommand_of_reservedOpc _ (.inl rfl)]
  all_goals decide

end Sys2Proof

namespace Sys2Proof.Machine

/-! ## Steps -/

/-- What a step does with what the next command bytes decode to, on the bytes left. -/
def runDecoded : Except DecodeError Instr → State → Next
  | .ok i, s => exec i s
  | .error e, s => rejectReserved e s

/-- A step on a stream that decodes: the command runs, or its reserved header word is refused. -/
theorem step_of_decode {s : State} {r : Except DecodeError Instr} {rest : Bytes} (hd : decode s.input = some (r, rest)) :
    step s = runDecoded r { s with input := rest } := by
  obtain ⟨⟨h, p, rest'⟩, ht, hr⟩ := Option.map_eq_some_iff.mp hd
  cases hr
  rw [step, ht]
  dsimp only
  cases decodeCommand h p <;> rfl

/-- Settles O3: `step_of_decode`, where `decode_encode` gives the second form. -/
theorem stepRunsTheDecodedCommand : Obligations.StepRunsTheDecodedCommand :=
  fun _ rest _ => ⟨step_of_decode, fun hw hin => step_of_decode (hin ▸ decode_encode hw rest)⟩

/-- Settles O4: the header word names no command, so the step refuses it and takes its payload. -/
theorem reservedOpcodesAreRefused : Obligations.ReservedOpcodesAreRefused := by
  intro h p rest s hin hp
  have hstep : step s = runDecoded (decodeCommand h p) { s with input := rest } :=
    step_of_decode (by rw [hin, decode_headerBytes hp])
  refine ⟨fun hopc => ?_, fun hopc hsub => ?_⟩
  · rw [hstep, decodeCommand_of_reservedOpc p hopc]
    exact raise_eq _ _
  · rw [hstep, decodeCommand_of_reservedSub p hopc hsub]
    exact raise_eq _ _

end Sys2Proof.Machine
end

section
/-! PROOFS. The blocks of GET_METRICS and GET_STATE, field by field (30_encoding.md R110, R111). -/

namespace Sys2Proof.Machine

/-! ## Fields of a byte string, in order -/

/-- A 32-bit counter read back. -/
@[simp] theorem u32be_put32_toNat (x : BitVec 32) (b : Bytes) : u32be (put32 x.toNat ++ b) 0 = x.toNat := by
  rw [u32be_put32, Nat.mod_eq_of_lt x.isLt]

@[simp] theorem u16be_put16_last (n : Nat) : u16be (put16 n) 0 = n % 65536 := by simpa using u16be_put16 n []

@[simp] theorem u32be_put32_toNat_last (x : BitVec 32) : u32be (put32 x.toNat) 0 = x.toNat := by
  simpa using u32be_put32_toNat x []

/-- A byte behind the first byte of a string. -/
@[simp] theorem u8_behind (n i : Nat) (b : Bytes) : u8 (put8 n ++ b) (i + 1) = u8 b i := rfl

/-- A 16-bit field behind the first field of a string. -/
@[simp] theorem u16be_behind (n i : Nat) (b : Bytes) :
    u16be (put8 n ++ b) (i + 1) = u16be b i ∧ u16be (put16 n ++ b) (i + 2) = u16be b i ∧
      u16be (put32 n ++ b) (i + 4) = u16be b i :=
  ⟨rfl, rfl, rfl⟩

/-- A 32-bit field behind the first field of a string. -/
@[simp] theorem u32be_behind (n i : Nat) (b : Bytes) :
    u32be (put8 n ++ b) (i + 1) = u32be b i ∧ u32be (put16 n ++ b) (i + 2) = u32be b i ∧
      u32be (put32 n ++ b) (i + 4) = u32be b i :=
  ⟨rfl, rfl, rfl⟩

/-! ## GET_METRICS -/

/-- The six counters of the metrics block, R111. -/
theorem metricsBlock_fields (m : Metrics) :
    (metricsBlock m).length = 24 ∧
      u32be (metricsBlock m) 0 = m.numTxPdus.toNat ∧ u32be (metricsBlock m) 4 = m.numRxPdus.toNat ∧
      u32be (metricsBlock m) 8 = m.numTxSdus.toNat ∧ u32be (metricsBlock m) 12 = m.numRxSdus.toNat ∧
      u32be (metricsBlock m) 16 = m.numLostPdus.toNat ∧ u32be (metricsBlock m) 20 = m.numRetxPdus.toNat := by
  simp [metricsBlock]

/-- A command that reads an active bearer, with its header fields 0, passes its checks. -/
theorem require_active {l : Lcid} {s : State} (ha : (s.slot l).active = true) (k : Next) :
    require ((0 : Sub) == 0 && (0 : Imm) == 0) .badField s (requireActive l s k) = k := by
  rw [requireActive, ha]
  rfl

/-- Settles O11: the command passes its checks (`require_active`) and answers the metrics block, counter by counter. -/
theorem getMetricsReportsTheCounters : Obligations.GetMetricsReportsTheCounters :=
  fun l s ha => ⟨metricsBlock (s.slot l).metrics, require_active ha _, metricsBlock_fields _⟩

/-! ## GET_STATE -/

/-- A map with rising keys below `n` has at most `n` entries. -/
theorem length_le_of_mapWf {α : Type} {m : SnMap α} {n : Nat} (hw : mapWf m = true) (hk : ∀ k ∈ mapKeys m, k < n) :
    m.length ≤ n := by
  have hnodup : (mapKeys m).Nodup := (mapWf_iff.mp hw).imp fun h => Nat.ne_of_lt h
  have hsub : mapKeys m ⊆ List.range n := fun k hkm => List.mem_range.mpr (hk k hkm)
  simpa [mapKeys] using (hnodup.subperm hsub).length_le

/-- There are at most 1024 sequence numbers, R22. -/
theorem Slot.n_le (v : Slot) : v.n ≤ 1024 := by
  unfold Slot.n Cfg.modulus
  cases v.cfg.snw <;> decide

/-- Every number of the state block fits its 16-bit field, R110. -/
structure Slot.FieldsFit (v : Slot) : Prop where
  snVars : ∀ x ∈ v.snVars, x < 65536
  rb : v.rb.length < 65536
  rxu : v.rxu.length < 65536
  rxa : v.rxa.length < 65536
  txq : v.txq.length < 65536
  head : (v.txq.head?.map TxSdu.off).getD 0 < 65536
  part : (v.rsm.part.getD []).length < 65536

theorem Slot.Inv.fieldsFit {pm : Params} {v : Slot} (h : v.Inv) (hs : v.Shapes pm) (legal : pm.Legal) : v.FieldsFit := by
  obtain ⟨-, ⟨hvars, hkeys⟩, ⟨hrb, hrxu, hrxa, -, -⟩, -, -, -⟩ := h
  obtain ⟨⟨hcount, hq, -⟩, -, -, hpart, -⟩ := hs
  obtain ⟨-, -, hqsdu, hmax⟩ := legal
  have hn := v.n_le
  have count {α : Type} {m : SnMap α} (hw : mapWf m = true) (hsub : mapKeys m ⊆ v.snKeys) : m.length < 65536 := by
    have := length_le_of_mapWf hw fun k hk => hkeys k (hsub hk)
    omega
  exact
    { snVars := fun x hx => by have := hvars x hx; omega
      rb := count hrb fun k hk => by simp [Slot.snKeys, hk]
      rxu := count hrxu fun k hk => by simp [Slot.snKeys, hk]
      rxa := count hrxa fun k hk => by simp [Slot.snKeys, hk]
      txq := by omega
      head := by
        cases htxq : v.txq with
        | nil => decide
        | cons q rest =>
          have := hq q (by simp [htxq])
          simp
          omega
      part := by omega }

/-- The flags byte of a UM bearer holds one flag, R110. -/
theorem umFlags_bits {f : Byte} {b2 : Bool} (hf : f = BitVec.ofNat 8 (4 * b2.toNat)) :
    f.getLsbD 2 = b2 ∧ f.extractLsb' 5 3 = 0 ∧ f.extractLsb' 0 2 = 0 ∧ f.extractLsb' 3 2 = 0 := by
  subst hf
  decide +revert

/-- The flags byte of an AM bearer holds one flag in each of its five low bits, R110. -/
theorem amFlags_bits {f : Byte} {b0 b1 b2 b3 b4 : Bool}
    (hf : f = BitVec.ofNat 8 (b0.toNat + 2 * b1.toNat + 4 * b2.toNat + 8 * b3.toNat + 16 * b4.toNat)) :
    f.getLsbD 2 = b2 ∧ f.extractLsb' 5 3 = 0 ∧ f.getLsbD 0 = b0 ∧ f.getLsbD 1 = b1 ∧ f.getLsbD 3 = b3 ∧ f.getLsbD 4 = b4 := by
  subst hf
  decide +revert

/-- The state block has 40 bytes, R110. -/
@[simp] theorem length_stateBlock (v : Slot) : (stateBlock v).length = 40 := by
  unfold stateBlock
  simp

section

variable {v : Slot} {r : Bytes} (hr : r = stateBlock v)
include hr

theorem stateBlock_flags : r.getD 3 0 = BitVec.ofNat 8 v.flagsByte := by
  rw [hr]
  unfold stateBlock
  simp [put8]

theorem stateBlock_flags_um (mode : v.cfg.mode = .um) : r.getD 3 0 = BitVec.ofNat 8 (4 * v.running.reord.toNat) := by
  rw [stateBlock_flags hr, Slot.flagsByte, mode]

theorem stateBlock_flags_am (mode : v.cfg.mode = .am) :
    r.getD 3 0 = BitVec.ofNat 8 (v.pollPending.toNat + 2 * v.statusTriggered.toNat + 4 * v.running.reord.toNat +
      8 * v.running.prohibit.toNat + 16 * v.running.pollretx.toNat) := by
  rw [stateBlock_flags hr, Slot.flagsByte, mode]

variable (fit : v.FieldsFit)
include fit

/-- The fields of the state block that both modes have, R110. -/
theorem stateBlock_any :
    u8 r 1 = v.cfg.snw.bits ∧ u8 r 2 = v.cfg.liw.bits ∧ u16be r 16 = v.txq.length ∧
      u16be r 18 = (v.txq.head?.map TxSdu.off).getD 0 ∧ u16be r 26 = (v.rsm.part.getD []).length ∧
      u16be r 36 = v.rsm.next ∧ u16be r 38 = 0 ∧ (r.getD 3 0).getLsbD 2 = v.running.reord ∧
      (r.getD 3 0).extractLsb' 5 3 = 0 := by
  have hflags : (r.getD 3 0).getLsbD 2 = v.running.reord ∧ (r.getD 3 0).extractLsb' 5 3 = 0 := by
    cases mode : v.cfg.mode with
    | um => exact (umFlags_bits (stateBlock_flags_um hr mode)).imp_right And.left
    | am => exact (amFlags_bits (stateBlock_flags_am hr mode)).imp_right And.left
  have hhead : u16be r 18 = (v.txq.head?.map TxSdu.off).getD 0 := by
    have hlt := fit.head
    rw [hr]
    unfold stateBlock
    cases htxq : v.txq with
    | nil => simp [u16be_put16]
    | cons q rest => simpa [u16be_put16, htxq] using hlt
  have hpart : u16be r 26 = (v.rsm.part.getD []).length := by
    have hlt := fit.part
    rw [hr]
    unfold stateBlock
    cases hrsm : v.rsm.part with
    | none => simp [u16be_put16]
    | some b => simpa [u16be_put16, hrsm] using hlt
  have hsnw : v.cfg.snw.bits < 256 := by cases v.cfg.snw <;> decide
  have hliw : v.cfg.liw.bits < 256 := by cases v.cfg.liw <;> decide
  have hnext : v.rsm.next < 65536 := fit.snVars _ (by simp [Slot.snVars])
  simp only [hhead, hpart, hflags, true_and, and_true]
  rw [hr]
  unfold stateBlock
  simp [u8_put8, u16be_put16, hsnw, hliw, hnext, fit.txq]

/-- The fields of the state block of a UM bearer, R110. -/
theorem stateBlock_um (mode : v.cfg.mode = .um) :
    u8 r 0 = 0 ∧ (r.getD 3 0).extractLsb' 0 2 = 0 ∧ (r.getD 3 0).extractLsb' 3 2 = 0 ∧ u16be r 4 = v.vtUs ∧
      u16be r 6 = 0 ∧ u16be r 8 = 0 ∧ u16be r 10 = v.vrUr ∧ u16be r 12 = v.vrUx ∧ u16be r 14 = v.vrUh ∧
      u16be r 20 = 0 ∧ u16be r 22 = 0 ∧ u16be r 24 = v.rxu.length ∧ u32be r 28 = 0 ∧ u32be r 32 = 0 := by
  obtain ⟨-, -, hlow, hhigh⟩ := umFlags_bits (stateBlock_flags_um hr mode)
  have hvars := fit.snVars
  simp only [Slot.snVars, List.forall_mem_cons] at hvars
  simp only [hlow, hhigh, true_and]
  rw [hr]
  unfold stateBlock
  simp [u8_put8, u16be_put16, u32be_put32, mode, modeByte, hvars, fit.rxu]

/-- The fields of the state block of an AM bearer, R110. -/
theorem stateBlock_am (mode : v.cfg.mode = .am) :
    u8 r 0 = 1 ∧ (r.getD 3 0).getLsbD 0 = v.pollPending ∧ (r.getD 3 0).getLsbD 1 = v.statusTriggered ∧
      (r.getD 3 0).getLsbD 3 = v.running.prohibit ∧ (r.getD 3 0).getLsbD 4 = v.running.pollretx ∧
      u16be r 4 = v.vtS ∧ u16be r 6 = v.vtA ∧ u16be r 8 = v.pollSn ∧ u16be r 10 = v.vrR ∧ u16be r 12 = v.vrX ∧
      u16be r 14 = v.vrH ∧ u16be r 20 = v.rb.length ∧
      u16be r 22 = (v.rb.filter fun e => !e.2.pending.isEmpty).length ∧ u16be r 24 = v.rxa.length ∧
      u32be r 28 = v.pduWithoutPoll.toNat ∧ u32be r 32 = v.byteWithoutPoll.toNat := by
  obtain ⟨-, -, h0, h1, h3, h4⟩ := amFlags_bits (stateBlock_flags_am hr mode)
  have hvars := fit.snVars
  have hpending := (List.length_filter_le (fun e => !e.2.pending.isEmpty) v.rb).trans_lt fit.rb
  simp only [Slot.snVars, List.forall_mem_cons] at hvars
  simp only [h0, h1, h3, h4, true_and]
  rw [hr]
  unfold stateBlock
  simp [u8_put8, u16be_put16, mode, modeByte, hvars, fit.rb, hpending, fit.rxa]

end

/-- Settles O12: the bearer's numbers fit their fields, and the state block is read field by field. -/
theorem getStateReportsTheBearer : Obligations.GetStateReportsTheBearer := by
  rintro l s v rfl ha hinv hshapes legal
  have fit := hinv.fieldsFit hshapes legal
  exact ⟨stateBlock (s.slot l), require_active ha _, length_stateBlock _, stateBlock_any rfl fit, stateBlock_um rfl fit,
    stateBlock_am rfl fit⟩

end Sys2Proof.Machine
end

section
/-! PROOFS. The bytes of responses and events (30_encoding.md R102, R104; 60_exceptions.md R350, R360): each field in its place,
and a reader that gets the response back. -/

namespace Sys2Proof.Machine

/-! ## Fields of a response -/

/-- A 16-bit field is its high byte and its low byte (R64). -/
theorem put16_eq_bytes (n : Nat) : put16 n = [BitVec.ofNat 8 (n / 256), BitVec.ofNat 8 (n % 256)] := by
  have hlow : BitVec.ofNat 8 n = BitVec.ofNat 8 (n % 256) := BitVec.eq_of_toNat_eq (by simp)
  rw [put16, hlow]

/-- A 16-bit word is its high byte and its low byte (R64). -/
theorem put16_toNat (g : BitVec 16) : put16 g.toNat = [g.extractLsb' 8 8, g.extractLsb' 0 8] := by
  have hhigh : BitVec.ofNat 8 (g.toNat / 256) = g.extractLsb' 8 8 := BitVec.eq_of_toNat_eq (by simp [Nat.shiftRight_eq_div_pow])
  have hlow : BitVec.ofNat 8 g.toNat = g.extractLsb' 0 8 := BitVec.eq_of_toNat_eq (by simp)
  rw [put16, hhigh, hlow]

/-- The LCID byte of an event, R104. -/
theorem put8_lcid (l : Lcid) : put8 l.toNat = [l.setWidth 8] := by simp [put8]

/-- A count or length that its 16-bit field holds. -/
theorem countField_of_lt {n : Nat} (free : Nat → BitVec 16) (h : n < 65536) : countField free n = put16 n := if_pos h

/-- What `Response.Fits` asks of one event: its length or number fits its field (R104). -/
def Event.Fits : Event → Prop
  | .deliverSdu _ sdu => sdu.length < 65536
  | .notifyMaxRetx _ sn => sn < 65536
  | .timerStart _ _ _ _ | .timerStop _ _ _ | .drop _ _ => True

theorem Response.Fits.event {r : Response} (h : r.Fits) {ev : Event} (hev : ev ∈ r.events) : ev.Fits := by
  obtain ⟨-, -, hevents⟩ := h
  have hfits := hevents ev hev
  cases ev <;> exact hfits

/-- A response whose counts fit their fields, field by field (R102). -/
theorem Response.bytes_of_lt {r : Response} (hresult : r.result.length < 65536) (hevents : r.events.length < 65536) :
    r.bytes = put8 r.code.byte ++ put16 r.result.length ++ r.result ++ put16 r.events.length ++
      r.events.flatMap Event.bytes := by
  rw [Response.bytes, resultLength, eventCount, countField_of_lt _ hresult, countField_of_lt _ hevents]

/-- A DELIVER_SDU event whose SDU fits its length field, field by field (R104). -/
theorem bytes_deliverSdu (l : Lcid) {b : Bytes} (h : b.length < 65536) :
    (Event.deliverSdu l b).bytes = put8 1 ++ put8 l.toNat ++ put16 b.length ++ b := by
  rw [Event.bytes, countField_of_lt _ h]

/-! ## Reading back -/

/-- The code that a number stands for, R350. -/
def Code.ofByte : Nat → Code
  | 1 => .invalidOpcode
  | 2 => .badField
  | 3 => .noBearer
  | 4 => .bearerExists
  | 5 => .configRejected
  | 6 => .queueFull
  | 7 => .malformedHeader
  | 8 => .malformedStatus
  | 9 => .sduSize
  | _ => .ok

/-- The timer kind that a number stands for, R360. -/
def TimerKind.ofByte : Nat → TimerKind
  | 0 => .reord
  | 1 => .prohibit
  | _ => .pollretx

/-- The DROP reason that a number stands for, R104. -/
def DropReason.ofByte : Nat → DropReason
  | 1 => .malformedHeader
  | _ => .malformedStatusPdu

@[simp] theorem Code.ofByte_byte (c : Code) : Code.ofByte (c.byte % 256) = c := by cases c <;> rfl

@[simp] theorem TimerKind.ofByte_byte (k : TimerKind) : TimerKind.ofByte (k.byte % 256) = k := by cases k <;> rfl

@[simp] theorem DropReason.ofByte_byte (d : DropReason) : DropReason.ofByte (d.byte % 256) = d := by cases d <;> rfl

/-- Reads one event, and gives the bytes behind it (R104). -/
def readEvent (b : Bytes) : Event × Bytes :=
  let l : Lcid := BitVec.ofNat 5 (u8 b 1)
  let gen : BitVec 16 := BitVec.ofNat 16 (u16be b 3)
  match u8 b 0 with
  | 1 => (.deliverSdu l ((b.drop 4).take (u16be b 2)), (b.drop 4).drop (u16be b 2))
  | 2 => (.notifyMaxRetx l (u16be b 2), b.drop 4)
  | 3 => (.timerStart l (.ofByte (u8 b 2)) gen (BitVec.ofNat 16 (u16be b 5)), b.drop 7)
  | 4 => (.timerStop l (.ofByte (u8 b 2)) gen, b.drop 5)
  | _ => (.drop l (.ofByte (u8 b 2)), b.drop 3)

/-- Reads `n` events, and gives the bytes behind them. -/
def readEvents : Nat → Bytes → List Event × Bytes
  | 0, b => ([], b)
  | n + 1, b =>
    let first := readEvent b
    let others := readEvents n first.2
    (first.1 :: others.1, others.2)

/-- Reads a response, and gives the bytes behind it (R102). -/
def readResponse (b : Bytes) : Response × Bytes :=
  let n := u16be b 1
  let tail := (b.drop 3).drop n
  let evs := readEvents (u16be tail 0) (tail.drop 2)
  (⟨.ofByte (u8 b 0), (b.drop 3).take n, evs.1⟩, evs.2)

/-- The bytes behind the first field of a string. -/
@[simp] theorem drop_behind (n i : Nat) (b : Bytes) :
    (put8 n ++ b).drop (i + 1) = b.drop i ∧ (put16 n ++ b).drop (i + 2) = b.drop i :=
  ⟨rfl, rfl⟩

@[simp] theorem tail_put8 (n : Nat) (b : Bytes) : (put8 n ++ b).tail = b := rfl

/-- An LCID read from its byte. -/
@[simp] theorem ofNat_lcid (l : Lcid) : BitVec.ofNat 5 (l.toNat % 256) = l := by
  rw [Nat.mod_eq_of_lt (by omega), BitVec.ofNat_toNat, BitVec.setWidth_eq]

/-- A tag or a duration read from its two bytes. -/
@[simp] theorem ofNat_word (g : BitVec 16) : BitVec.ofNat 16 (g.toNat % 65536) = g := by
  rw [Nat.mod_eq_of_lt g.isLt, BitVec.ofNat_toNat, BitVec.setWidth_eq]

/-- An event is read back from its bytes, R104. -/
theorem readEvent_bytes {ev : Event} (fits : ev.Fits) (x : Bytes) : readEvent (ev.bytes ++ x) = (ev, x) := by
  cases ev with
  | deliverSdu l b =>
    have hlen : b.length % 65536 = b.length := Nat.mod_eq_of_lt fits
    rw [bytes_deliverSdu l fits]
    simp [readEvent, u8_put8, u16be_put16, hlen]
  | notifyMaxRetx l sn =>
    have hsn : sn % 65536 = sn := Nat.mod_eq_of_lt fits
    simp [readEvent, Event.bytes, u8_put8, u16be_put16, hsn]
  | timerStart l k gen ms => simp [readEvent, Event.bytes, u8_put8, u16be_put16]
  | timerStop l k gen => simp [readEvent, Event.bytes, u8_put8, u16be_put16]
  | drop l reason => simp [readEvent, Event.bytes, u8_put8]

/-- Events are read back from their bytes, one after another. -/
theorem readEvents_bytes (x : Bytes) : ∀ {evs : List Event}, (∀ ev ∈ evs, ev.Fits) →
    readEvents evs.length (evs.flatMap Event.bytes ++ x) = (evs, x)
  | [], _ => rfl
  | ev :: evs, fits => by
    obtain ⟨hev, hevs⟩ := List.forall_mem_cons.mp fits
    simp [readEvents, readEvent_bytes hev, readEvents_bytes x hevs]

/-- A response is read back from its bytes, R102. -/
theorem readResponse_bytes {r : Response} (fits : r.Fits) (x : Bytes) : readResponse (r.bytes ++ x) = (r, x) := by
  have ⟨hresult, hcount, _⟩ := fits
  rw [Response.bytes_of_lt hresult hcount]
  simp [readResponse, u8_put8, u16be_put16, Nat.mod_eq_of_lt hresult, Nat.mod_eq_of_lt hcount,
    readEvents_bytes x fun ev => fits.event]

/-! ## Settling the obligation -/

/-- Settles O60: the fields are laid out by `put8` and `put16`, and `readResponse` reads a response back, so it is the only one
with its bytes. -/
theorem responseBytesAreUnambiguous : Obligations.ResponseBytesAreUnambiguous := by
  refine ⟨?_, ?_, ?_, ?_, ?_, ?_⟩
  · intro c hc b evs hb hevs
    have hcode : put8 c.1.byte = [c.2] := by
      revert c
      decide
    rw [Response.bytes_of_lt hb hevs, hcode, put16_eq_bytes, put16_eq_bytes]
    rfl
  · intro l b hb
    rw [bytes_deliverSdu l hb, put8_lcid, put16_eq_bytes]
    rfl
  · intro l sn _
    rw [Event.bytes, put8_lcid, put16_eq_bytes]
    rfl
  · intro k hk l g ms
    have hkind : put8 k.1.byte = [k.2] := by
      revert k
      decide
    rw [Event.bytes, Event.bytes, put8_lcid, hkind, put16_toNat, put16_toNat]
    exact ⟨rfl, rfl⟩
  · intro c hc l
    have hreason : put8 c.1.byte = [c.2] := by
      revert c
      decide
    rw [Event.bytes, put8_lcid, hreason]
    rfl
  · intro r r' x y fits fits' heq
    have hread := readResponse_bytes fits x
    rw [heq, readResponse_bytes fits' y] at hread
    obtain ⟨rfl, rfl⟩ := Prod.mk.inj hread
    exact ⟨rfl, rfl⟩

end Sys2Proof.Machine
end

section
/-! PROOFS. The laws of SN arithmetic and the commands that expose it (40_sn_arith.md R130 to R135). -/

namespace Sys2Proof.Machine

/-! ## Steps around the circle -/

/-- The distance of the SN `k` places after `b` is `k` without its whole turns. -/
theorem rel_add_eq_mod {n b : Nat} (hb : b < n) (k : Nat) : rel n ((b + k) % n) b = k % n := by
  rw [← Nat.add_mod_mod, rel_of_add hb (Nat.mod_lt k (by omega))]

/-- A relation between numbers of steps from `b`, of which the second makes no whole turn, is the relation between the
distances, as soon as it puts the first number at most at the second. -/
theorem exists_steps_iff {n x y b : Nat} {R : Nat → Nat → Prop} (hR : ∀ {k j}, R k j → k ≤ j) (hx : x < n) (hy : y < n)
    (hb : b < n) :
    (∃ k, x = (b + k) % n ∧ ∃ j, R k j ∧ j < n ∧ y = (b + j) % n) ↔ R (rel n x b) (rel n y b) := by
  constructor
  · rintro ⟨k, rfl, j, hkj, hj, rfl⟩
    rwa [rel_of_add hb ((hR hkj).trans_lt hj), rel_of_add hb hj]
  · intro h
    exact ⟨_, (add_rel_mod hx hb).symm, _, h, rel_lt_of_pos (by omega) y b, (add_rel_mod hy hb).symm⟩

/-! ## The questions, as positions on the circle -/

/-- R131 law 1: the window holds the SNs fewer than `win` steps after its base. -/
theorem inside_iff {n x b : Nat} (hx : x < n) (hb : b < n) (win : Nat) :
    inside n x b win = true ↔ ∃ k < win, x = (b + k) % n := by
  rw [inside, decide_eq_true_iff]
  constructor
  · exact fun h => ⟨_, h, (add_rel_mod hx hb).symm⟩
  · rintro ⟨k, hk, rfl⟩
    rw [rel_add_eq_mod hb]
    exact (Nat.mod_le k n).trans_lt hk

/-- R131 law 3. -/
theorem insideClosed_eq_inside (n x lo hi : Nat) : insideClosed n x lo hi = inside n x lo (rel n hi lo + 1) :=
  decide_eq_decide.mpr Nat.lt_succ_iff.symm

/-- The closed range holds the SNs met from `lo` on no later than `hi`, R133. -/
theorem insideClosed_iff {n x lo hi : Nat} (hx : x < n) (hlo : lo < n) (hhi : hi < n) :
    insideClosed n x lo hi = true ↔ ∃ k, x = (lo + k) % n ∧ ∃ j, k ≤ j ∧ j < n ∧ hi = (lo + j) % n :=
  decide_eq_true_iff.trans (exists_steps_iff (R := (· ≤ ·)) id hx hhi hlo).symm

/-- From `b` on, `x` is met strictly before `y`, R135. -/
theorem before_iff {n x y b : Nat} (hx : x < n) (hy : y < n) (hb : b < n) :
    before n x y b = true ↔ ∃ k, x = (b + k) % n ∧ ∃ j, k < j ∧ j < n ∧ y = (b + j) % n :=
  decide_eq_true_iff.trans (exists_steps_iff (R := (· < ·)) Nat.le_of_lt hx hy hb).symm

/-! ## The modular order, R131 law 4 -/

theorem before_irrefl (n x b : Nat) : before n x x b = false := decide_eq_false (Nat.lt_irrefl _)

theorem before_base {n x b : Nat} (hx : x < n) (hb : b < n) (hne : x ≠ b) : before n b x b = true := by
  rw [before, decide_eq_true_iff, rel_self hb]
  exact rel_pos_of_ne hx hb hne

/-- Of two SNs exactly one comes before the other, because `rel` tells them apart. -/
theorem before_eq_not_before {n x y b : Nat} (hx : x < n) (hy : y < n) (hb : b < n) (hne : x ≠ y) :
    before n x y b = !before n y x b := by
  have hrel : rel n x b ≠ rel n y b := fun h => hne (rel_inj hx hy hb h)
  rw [before, before, ← decide_not, decide_eq_decide]
  omega

theorem before_trans {n x y z b : Nat} (hxy : before n x y b = true) (hyz : before n y z b = true) :
    before n x z b = true :=
  decide_eq_true ((of_decide_eq_true hxy).trans (of_decide_eq_true hyz))

/-- Settles O49: each law from the distances that `rel` gives; law 5 by the SNs 0 and 1 seen from 0 and from 1. -/
theorem snArithmeticLaws : Obligations.SnArithmeticLaws := by
  refine ⟨?_, 1, 0, 1, 0, 1, by decide⟩
  rintro w n rfl
  have hpos : 0 < 2 ^ w := Nat.two_pow_pos w
  refine ⟨by rw [Nat.sub_add_cancel hpos, modN, Nat.mod_self], fun x b hx hb => ?_⟩
  have hlt : rel (2 ^ w) x b < 2 ^ w := rel_lt_of_pos hpos x b
  have hzero : rel (2 ^ w) x b = 0 ↔ x = b :=
    ⟨fun h => rel_inj hx hb hb (h.trans (rel_self hb).symm), fun h => h ▸ rel_self hx⟩
  exact ⟨hlt, hzero, fun k hk => rel_of_add hb hk, inside_iff hx hb, decide_eq_false (Nat.not_lt_zero _), decide_eq_true hlt,
    fun hi _ => insideClosed_eq_inside _ x b hi, before_irrefl _ x b, before_base hx hb,
    fun y hy => before_eq_not_before hx hy hb, fun y z _ _ => before_trans⟩

/-! ## The SN commands -/

/-- The checks of the header and of the payload that R132 to R135 share. -/
structure SnOperandsOk (l : Lcid) (p : Bytes) : Prop where
  lcid : l = 0
  length : p.length = 14
  width : u8 p 0 ∈ [5, 10, 12, 16, 18]
  rsv : u8 p 1 = 0
  base : u32be p 2 < 2 ^ u8 p 0
  sn : u32be p 10 < 2 ^ u8 p 0

theorem widthOk_snArgs (p : Bytes) : (snArgs p).widthOk = true ↔ u8 p 0 ∈ [5, 10, 12, 16, 18] ∧ u8 p 1 = 0 := by
  rw [SnArgs.widthOk, Bool.and_eq_true, List.contains_iff_mem, beq_iff_eq]
  rfl

/-- Operands that pass every check get the command's answer. -/
theorem snCommand_answers {l : Lcid} {p : Bytes} {boundOk : Bool} (h : SnOperandsOk l p) (hbound : boundOk = true) (s : State)
    (result : Bytes) : snCommand l p s boundOk result = .next (s.answer result) := by
  obtain ⟨hl, hlen, hw, hrsv, hbase, hsn⟩ := h
  have hbase : (snArgs p).base < (snArgs p).n := hbase
  have hsn : (snArgs p).sn < (snArgs p).n := hsn
  simp [snCommand, hl, hlen, (widthOk_snArgs p).mpr ⟨hw, hrsv⟩, hbase, hsn, hbound, finish_eq]

/-- A check that raises `c`, before work that raises `c` wherever the check holds. -/
theorem require_eq_refused {ok : Bool} {c : Code} {s : State} {k : Next} (h : ok = true → k = .next (s.refused c)) :
    require ok c s k = .next (s.refused c) := by
  cases ok
  · rfl
  · exact h rfl

/-- Operands that fail a shared check, or the command's own check of `bound`, are refused. -/
theorem snCommand_refused {l : Lcid} {p : Bytes} {boundOk : Bool} (h : SnOperandsOk l p → boundOk = false) (s : State)
    (result : Bytes) : snCommand l p s boundOk result = .next (s.refused .badField) := by
  refine require_eq_refused fun hheader => require_eq_refused fun hwidth => require_eq_refused fun hrange => ?_
  obtain ⟨hl, hlen⟩ : l = 0 ∧ p.length = 14 := by simpa using hheader
  obtain ⟨hw, hrsv⟩ := (widthOk_snArgs p).mp hwidth
  simp only [Bool.and_eq_true, decide_eq_true_iff] at hrange
  obtain ⟨⟨hbase, hsn⟩, hbound⟩ := hrange
  exact absurd hbound (Bool.eq_false_iff.mp (h ⟨hl, hlen, hw, hrsv, hbase, hsn⟩))

/-- Operands that fail a shared check are refused by all four commands. -/
theorem exec_sn_refused {l : Lcid} {p : Bytes} (h : ¬ SnOperandsOk l p) (s : State) :
    ∀ i ∈ [Instr.snInwin l p, .snInrange l p, .snRel l p, .snBefore l p], exec i s = .next (s.refused .badField) := by
  simp only [List.forall_mem_cons, List.not_mem_nil, false_imp_iff, implies_true, and_true]
  have hrefused : ∀ boundOk result, snCommand l p s boundOk result = .next (s.refused .badField) :=
    fun _ => snCommand_refused (fun hok => absurd hok h) s
  exact ⟨hrefused _ _, hrefused _ _, hrefused _ _, hrefused _ _⟩

/-- Settles O48: the operands pass the shared checks (`snCommand_answers`) or fail one (`snCommand_refused`), and the answers are
the positions of `inside_iff`, `insideClosed_iff`, `add_rel_mod` and `before_iff`. -/
theorem snCommandsAnswer : Obligations.SnCommandsAnswer := by
  refine ⟨fun l p s hbad => exec_sn_refused (fun ok => hbad.elim (· ok.lcid) (· ok.length)) s, ?_⟩
  rintro p s w base bound sn hlen rfl rfl rfl rfl
  refine ⟨fun hw hrsv hbase hsn => ?_, fun hbad => exec_sn_refused ?_ s, fun hbound => ?_, fun hbound => ⟨?_, ?_⟩,
    fun hbound => ?_⟩
  · have ok : SnOperandsOk 0 p := ⟨rfl, hlen, hw, hrsv, hbase, hsn⟩
    exact ⟨fun hbound => ⟨_, snCommand_answers ok (decide_eq_true hbound) s _, inside_iff hsn hbase _⟩,
      fun hbound => ⟨_, snCommand_answers ok (decide_eq_true hbound) s _, insideClosed_iff hsn hbase hbound⟩,
      fun hbound => ⟨_, rel_lt_of_pos (Nat.two_pow_pos _) _ _, snCommand_answers ok (beq_iff_eq.mpr hbound) s _,
        (add_rel_mod hsn hbase).symm⟩,
      fun hbound => ⟨_, snCommand_answers ok (decide_eq_true hbound) s _, before_iff hsn hbound hbase⟩⟩
  · rintro ⟨-, -, hw, hrsv, hbase, hsn⟩
    rcases hbad with hbad | hbad | hbad | hbad
    · exact hbad hw
    · exact hbad hrsv
    · exact hbad.not_gt hbase
    · exact hbad.not_gt hsn
  · exact snCommand_refused (fun _ => decide_eq_false hbound.not_ge) s _
  · exact snCommand_refused (fun _ => decide_eq_false hbound.not_gt) s _
  · exact snCommand_refused (fun _ => decide_eq_false hbound.not_gt) s _
  · exact snCommand_refused (fun _ => beq_eq_false_iff_ne.mpr hbound) s _

end Sys2Proof.Machine
end

section
/-! PROOFS. Runs of bit fields: the form in which data headers and status PDUs lie on the wire (00_scope.md R9; 30_encoding.md
R81 to R93). A string holds a run where each field reads as its value; packing writes a run, and unpacking finds the run that is
held. -/

namespace Sys2Proof.Machine

/-- One field on the wire: how many bits it takes, and the number in them. -/
structure BitField where
  width : Nat
  value : Nat

/-- A field of one bit. -/
def BitField.flag (v : Bool) : BitField := ⟨1, v.toNat⟩

@[simp] theorem BitField.width_flag (v : Bool) : (BitField.flag v).width = 1 := rfl

/-- The field's value fits its bits. -/
def BitField.Fits (f : BitField) : Prop := f.value < 2 ^ f.width

theorem BitField.fits_mk {w n : Nat} : (⟨w, n⟩ : BitField).Fits ↔ n < 2 ^ w := Iff.rfl

@[simp] theorem BitField.fits_flag (v : Bool) : (BitField.flag v).Fits := v.toNat_lt

/-- The bits that a run of fields takes. -/
def runWidth (fs : List BitField) : Nat := (fs.map BitField.width).sum

@[simp] theorem runWidth_nil : runWidth [] = 0 := rfl

@[simp] theorem runWidth_cons (f : BitField) (fs : List BitField) : runWidth (f :: fs) = f.width + runWidth fs := rfl

@[simp] theorem runWidth_append (fs gs : List BitField) : runWidth (fs ++ gs) = runWidth fs + runWidth gs := by
  simp [runWidth]

/-- The fields written one behind another from position `pos` on. -/
def writeRun (pos : Nat) : List BitField → Bytes → Bytes
  | [], buf => buf
  | f :: fs, buf => writeRun (pos + f.width) fs (wr buf pos f.width f.value)

/-- The fields stand in `buf` one behind another from position `pos` on. -/
def HoldsRun (buf : Bytes) : Nat → List BitField → Prop
  | _, [] => True
  | pos, f :: fs => rd buf pos f.width = f.value ∧ HoldsRun buf (pos + f.width) fs

@[simp] theorem holdsRun_nil (buf : Bytes) (pos : Nat) : HoldsRun buf pos [] := trivial

@[simp] theorem holdsRun_cons {buf : Bytes} {pos : Nat} {f : BitField} {fs : List BitField} :
    HoldsRun buf pos (f :: fs) ↔ rd buf pos f.width = f.value ∧ HoldsRun buf (pos + f.width) fs := Iff.rfl

theorem holdsRun_append {buf : Bytes} {gs : List BitField} : ∀ {pos : Nat} {fs : List BitField},
    HoldsRun buf pos (fs ++ gs) ↔ HoldsRun buf pos fs ∧ HoldsRun buf (pos + runWidth fs) gs
  | pos, [] => by simp
  | pos, f :: fs => by
    rw [List.cons_append, holdsRun_cons, holdsRun_append, holdsRun_cons, runWidth_cons, ← Nat.add_assoc, and_assoc]

/-- A field of one bit reads as its wire bit. -/
@[simp] theorem rd_eq_value_flag {buf : Bytes} {pos : Nat} {v : Bool} :
    rd buf pos 1 = (BitField.flag v).value ↔ wireBit buf pos = v := by
  rw [rd_one, BitField.flag]
  cases wireBit buf pos <;> cases v <;> simp

theorem writeRun_append (gs : List BitField) : ∀ (pos : Nat) (fs : List BitField) (buf : Bytes),
    writeRun pos (fs ++ gs) buf = writeRun (pos + runWidth fs) gs (writeRun pos fs buf)
  | pos, [], buf => rfl
  | pos, f :: fs, buf => by
    rw [List.cons_append, writeRun, writeRun_append gs, writeRun, runWidth_cons, Nat.add_assoc]

@[simp] theorem length_writeRun : ∀ (pos : Nat) (fs : List BitField) (buf : Bytes), (writeRun pos fs buf).length = buf.length
  | _, [], _ => rfl
  | pos, f :: fs, buf => by rw [writeRun, length_writeRun, length_wr]

/-- Writing a run leaves every other bit as it was. -/
theorem wireBit_writeRun_outside : ∀ {pos : Nat} {fs : List BitField} {buf : Bytes}, pos + runWidth fs ≤ 8 * buf.length →
    ∀ {q : Nat}, q < pos ∨ pos + runWidth fs ≤ q → wireBit (writeRun pos fs buf) q = wireBit buf q
  | _, [], _, _, _, _ => rfl
  | pos, f :: fs, buf, hroom, q, hq => by
    rw [runWidth_cons] at hroom hq
    rw [writeRun, wireBit_writeRun_outside (by rw [length_wr]; omega) (by omega), wireBit_wr _ _ _ (by omega),
      if_neg (by omega)]

/-- The values of a run that is held fit their fields. -/
theorem HoldsRun.fits {buf : Bytes} : ∀ {pos : Nat} {fs : List BitField}, HoldsRun buf pos fs → ∀ f ∈ fs, f.Fits
  | _, [], _ => by simp
  | pos, f :: fs, ⟨hf, hfs⟩ => List.forall_mem_cons.mpr ⟨hf.symm.trans_lt (rd_lt buf pos f.width), hfs.fits⟩

/-- Whether a run is held depends on its own bits alone. -/
theorem HoldsRun.congr {a b : Bytes} : ∀ {pos : Nat} {fs : List BitField}, HoldsRun a pos fs →
    (∀ q, pos ≤ q → q < pos + runWidth fs → wireBit a q = wireBit b q) → HoldsRun b pos fs
  | _, [], _, _ => trivial
  | pos, f :: fs, ⟨hf, hfs⟩, heq => by
    rw [runWidth_cons] at heq
    have hsame : rd b pos f.width = rd a pos f.width :=
      rd_congr fun q hlow hhigh => (heq q hlow (by omega)).symm
    exact ⟨hsame.trans hf, hfs.congr fun q hlow hhigh => heq q (by omega) (by omega)⟩

/-- A run is held after it is written. -/
theorem holdsRun_writeRun : ∀ {pos : Nat} {fs : List BitField} {buf : Bytes}, pos + runWidth fs ≤ 8 * buf.length →
    (∀ f ∈ fs, f.Fits) → HoldsRun (writeRun pos fs buf) pos fs
  | _, [], _, _, _ => trivial
  | pos, f :: fs, buf, hroom, hfits => by
    obtain ⟨hf, hfs⟩ := List.forall_mem_cons.mp hfits
    rw [runWidth_cons] at hroom
    have hroom' : pos + f.width + runWidth fs ≤ 8 * (wr buf pos f.width f.value).length := by rw [length_wr]; omega
    have hkept : rd (writeRun (pos + f.width) fs (wr buf pos f.width f.value)) pos f.width =
        rd (wr buf pos f.width f.value) pos f.width :=
      rd_congr fun q _ hq => wireBit_writeRun_outside hroom' (.inl hq)
    exact ⟨hkept.trans (rd_wr_same buf pos (by omega) hf), holdsRun_writeRun hroom' hfs⟩

/-- Strings whose field at `pos` reads as the same number have the same bits there. -/
theorem wireBit_eq_of_rd_eq {a b : Bytes} {pos n q : Nat} (h : rd a pos n = rd b pos n) (hlow : pos ≤ q) (hhigh : q < pos + n) :
    wireBit a q = wireBit b q := by
  have ha := testBit_rd a pos (n := n) (i := pos + n - 1 - q) (by omega)
  have hb := testBit_rd b pos (n := n) (i := pos + n - 1 - q) (by omega)
  rw [show pos + n - 1 - (pos + n - 1 - q) = q by omega] at ha hb
  rw [← ha, ← hb, h]

/-- Strings that hold the same run have the same bits there. -/
theorem HoldsRun.wireBit_eq {a b : Bytes} : ∀ {pos : Nat} {fs : List BitField}, HoldsRun a pos fs → HoldsRun b pos fs →
    ∀ {q : Nat}, pos ≤ q → q < pos + runWidth fs → wireBit a q = wireBit b q
  | _, [], _, _, _, hlow, hhigh => absurd hhigh hlow.not_gt
  | pos, f :: fs, ⟨haf, hafs⟩, ⟨hbf, hbfs⟩, q, hlow, hhigh => by
    rw [runWidth_cons] at hhigh
    by_cases hq : q < pos + f.width
    · exact wireBit_eq_of_rd_eq (haf.trans hbf.symm) hlow hq
    · exact hafs.wireBit_eq hbfs (by omega) (by omega)

/-- A run that is empty where `xs` is lies within `m` bits exactly where its start does, and its end unless `xs` is empty. -/
theorem run_within_iff {α : Type} {xs : List α} {pos width m : Nat} (hnil : xs = [] → width = 0) :
    (pos ≤ m ∧ (xs ≠ [] → pos + width ≤ m)) ↔ pos + width ≤ m := by
  by_cases hxs : xs = []
  · simp [hxs, hnil hxs]
  · exact ⟨fun ⟨_, hend⟩ => hend hxs, fun hend => ⟨by omega, fun _ => hend⟩⟩

/-- The wire bits behind the first bytes of a string. -/
theorem wireBit_drop {buf : Bytes} {n : Nat} (hn : n ≤ buf.length) (q : Nat) :
    wireBit (buf.drop n) q = wireBit buf (8 * n + q) := by
  conv_rhs => rw [← List.take_append_drop n buf]
  rw [wireBit_append, List.length_take_of_le hn, if_neg (by omega), Nat.add_sub_cancel_left]

end Sys2Proof.Machine
end

section
/-! PROOFS. Data PDU headers (41_codec.md R150, R151, R156): a header is packed as a run of fields, and unpacking gives the
header whose run the PDU holds. -/

namespace Sys2Proof.Machine

/-! ## The fields of a header -/

/-- The R1 bits before the first field of a header, R82. -/
def r1Bits : Fmt → Nat
  | .umd10 => 3
  | .umd5 | .amd => 0

/-- The fixed fields of a header, where `e` is its E bit: R81, R82, R83 and R86. -/
def fixedFields (fmt : Fmt) (h : Hdr) (e : Bool) : List BitField :=
  match fmt with
  | .umd5 => [⟨2, h.fi.toNat⟩, .flag e, ⟨5, h.sn⟩]
  | .umd10 => [⟨2, h.fi.toNat⟩, .flag e, ⟨10, h.sn⟩]
  | .amd =>
    [.flag true, .flag h.rf, .flag h.p, ⟨2, h.fi.toNat⟩, .flag e, ⟨10, h.sn⟩] ++
      if h.rf then [.flag h.lsf, ⟨15, h.so⟩] else []

/-- The `(E, LI)` chain, R84. -/
def liFields (liw : LiWidth) : List Nat → List BitField
  | [] => []
  | li :: lis => .flag (!lis.isEmpty) :: ⟨liw.bits, li⟩ :: liFields liw lis

/-- All fields of a header. -/
def hdrFields (fmt : Fmt) (liw : LiWidth) (h : Hdr) : List BitField :=
  fixedFields fmt h (!h.lis.isEmpty) ++ liFields liw h.lis

theorem runWidth_fixedFields (fmt : Fmt) (h : Hdr) (e : Bool) :
    r1Bits fmt + runWidth (fixedFields fmt h e) = 8 * fixedLen fmt h.rf := by
  cases fmt <;> cases hrf : h.rf <;> simp [r1Bits, fixedFields, fixedLen, hrf]

@[simp] theorem runWidth_liFields (liw : LiWidth) : ∀ lis, runWidth (liFields liw lis) = lis.length * (1 + liw.bits)
  | [] => by simp [liFields]
  | li :: lis => by
    simp only [liFields, runWidth_cons, BitField.width_flag, runWidth_liFields liw lis, List.length_cons, Nat.add_mul]
    omega

/-- The padding bits behind the LIs of a header, R85. -/
def liPadding (liw : LiWidth) (lis : List Nat) : Nat := if liw = .w11 ∧ lis.length % 2 = 1 then 4 else 0

/-- The R1 bits, the fields and the padding of a header fill its octets. -/
theorem runWidth_hdrFields (fmt : Fmt) (liw : LiWidth) (h : Hdr) :
    r1Bits fmt + runWidth (hdrFields fmt liw h) + liPadding liw h.lis = 8 * (packHdr fmt liw h).length := by
  have hfixed := runWidth_fixedFields fmt h (!h.lis.isEmpty)
  have hli := liBytes_bits liw h.lis.length
  rw [hdrFields, runWidth_append, runWidth_liFields, length_packHdr, liPadding]
  omega

/-- The bits of a header's run: those that are neither R1 nor padding. -/
theorem mem_hdrRun_iff {fmt : Fmt} {liw : LiWidth} {h : Hdr} {q : Nat} :
    (r1Bits fmt ≤ q ∧ q < r1Bits fmt + runWidth (hdrFields fmt liw h)) ↔
      q < 8 * (packHdr fmt liw h).length ∧ ¬ (fmt = .umd10 ∧ q < 3) ∧
        ¬ (liw = .w11 ∧ h.lis.length % 2 = 1 ∧ 8 * (packHdr fmt liw h).length ≤ q + 4 ∧
          q < 8 * (packHdr fmt liw h).length) := by
  have hr1 : r1Bits fmt ≤ q ↔ ¬ (fmt = .umd10 ∧ q < 3) := by cases fmt <;> simp [r1Bits]
  have hfull := runWidth_hdrFields fmt liw h
  rw [liPadding] at hfull
  rw [hr1, and_left_comm]
  refine and_congr_right fun _ => ?_
  generalize (packHdr fmt liw h).length = n at hfull ⊢
  split at hfull
  · rename_i hodd
    rw [← and_assoc (a := liw = .w11), and_iff_right hodd]
    omega
  · rename_i heven
    rw [← and_assoc, and_iff_left fun hpad => heven hpad.1]
    omega

/-! ## Valid headers -/

/-- What R150 asks of the fixed fields of a header: each fits its field, and a format that has no such field has it 0. -/
structure Hdr.FixedOk (fmt : Fmt) (h : Hdr) : Prop where
  sn : h.sn < 2 ^ fmt.snBits
  um : fmt ≠ .amd → h.rf = false ∧ h.p = false
  whole : h.rf = false → h.lsf = false ∧ h.so = 0
  segment : h.rf = true → h.so ≤ Config.maxAmData - 1

theorem Hdr.valid_iff {pm : Params} {fmt : Fmt} {liw : LiWidth} {h : Hdr} : h.valid pm fmt liw = true ↔
    h.lis.length ≤ pm.maxLi ∧ (∀ li ∈ h.lis, 1 ≤ li ∧ li ≤ liw.max) ∧ h.FixedOk fmt := by
  have hfixed : h.FixedOk fmt ↔ h.sn < 2 ^ fmt.snBits ∧ (fmt ≠ .amd → h.rf = false ∧ h.p = false) ∧
      (h.rf = false → h.lsf = false ∧ h.so = 0) ∧ (h.rf = true → h.so ≤ Config.maxAmData - 1) :=
    ⟨fun ⟨h1, h2, h3, h4⟩ => ⟨h1, h2, h3, h4⟩, fun ⟨h1, h2, h3, h4⟩ => ⟨h1, h2, h3, h4⟩⟩
  rw [hfixed]
  cases fmt <;> cases hrf : h.rf <;> simp [Hdr.valid, Fmt.snBits, hrf, and_assoc]

theorem LiWidth.lt_two_pow_iff {liw : LiWidth} {li : Nat} : li < 2 ^ liw.bits ↔ li ≤ liw.max := by
  have := Nat.two_pow_pos liw.bits
  unfold LiWidth.max
  omega

theorem fits_fixedFields {fmt : Fmt} {h : Hdr} (hok : h.FixedOk fmt) (e : Bool) : ∀ f ∈ fixedFields fmt h e, f.Fits := by
  have hfi := h.fi.isLt
  obtain ⟨hsn, -, -, hso⟩ := hok
  cases fmt with
  | umd5 | umd10 => simpa [fixedFields, BitField.fits_mk, hfi, Fmt.snBits] using hsn
  | amd =>
    cases hrf : h.rf with
    | false => simpa [fixedFields, BitField.fits_mk, hfi, hrf, Fmt.snBits] using hsn
    | true =>
      have hso : h.so < 32768 := (hso hrf).trans_lt (by simp [Config.maxAmData])
      simpa [fixedFields, BitField.fits_mk, hfi, hrf, hso, Fmt.snBits] using hsn

theorem fits_liFields_iff {liw : LiWidth} : ∀ {lis : List Nat}, (∀ f ∈ liFields liw lis, f.Fits) ↔ ∀ li ∈ lis, li ≤ liw.max
  | [] => by simp [liFields]
  | li :: lis => by
    simp only [liFields, List.forall_mem_cons, BitField.fits_flag, true_and, BitField.fits_mk, LiWidth.lt_two_pow_iff,
      fits_liFields_iff (lis := lis)]

theorem fits_hdrFields {pm : Params} {fmt : Fmt} {liw : LiWidth} {h : Hdr} (hv : h.valid pm fmt liw = true) :
    ∀ f ∈ hdrFields fmt liw h, f.Fits := by
  obtain ⟨-, hlis, hok⟩ := Hdr.valid_iff.mp hv
  exact List.forall_mem_append.mpr ⟨fits_fixedFields hok _, fits_liFields_iff.mpr fun li hli => (hlis li hli).2⟩

/-! ## Packing -/

theorem packLis_eq_writeRun (liw : LiWidth) : ∀ (pos : Nat) (lis : List Nat) (buf : Bytes),
    packLis liw pos lis buf = writeRun pos (liFields liw lis) buf
  | _, [], _ => rfl
  | pos, _ :: lis, _ => packLis_eq_writeRun liw (pos + 1 + liw.bits) lis _

theorem packFixed_eq_writeRun (fmt : Fmt) (h : Hdr) (buf : Bytes) :
    packFixed fmt h buf = writeRun (r1Bits fmt) (fixedFields fmt h (!h.lis.isEmpty)) (wr buf 0 (r1Bits fmt) 0) := by
  cases fmt with
  | umd5 | umd10 => rfl
  | amd =>
    simp only [packFixed, fixedFields]
    cases h.rf <;> rfl

/-- A header is packed by writing its run behind the R1 bits. -/
theorem packHdr_eq_writeRun (fmt : Fmt) (liw : LiWidth) (h : Hdr) :
    packHdr fmt liw h = writeRun (r1Bits fmt) (hdrFields fmt liw h)
      (wr (List.replicate (packHdr fmt liw h).length 0) 0 (r1Bits fmt) 0) := by
  rw [hdrFields, writeRun_append, runWidth_fixedFields, length_packHdr, ← packFixed_eq_writeRun, ← packLis_eq_writeRun]
  rfl

/-- A packed header, with data behind it, holds its run. -/
theorem holdsRun_packHdr {pm : Params} {fmt : Fmt} {liw : LiWidth} {h : Hdr} (hv : h.valid pm fmt liw = true) (d : Bytes) :
    HoldsRun (packHdr fmt liw h ++ d) (r1Bits fmt) (hdrFields fmt liw h) := by
  have hwidth := runWidth_hdrFields fmt liw h
  have hheld : HoldsRun (packHdr fmt liw h) (r1Bits fmt) (hdrFields fmt liw h) := by
    rw [packHdr_eq_writeRun]
    exact holdsRun_writeRun (by rw [length_wr, List.length_replicate]; omega) (fits_hdrFields hv)
  exact hheld.congr fun q _ hq => by rw [wireBit_append, if_pos (by omega)]

/-! ## Unpacking -/

/-- An FI field reads as the two bits it holds. -/
theorem rd_eq_toNat_fi {buf : Bytes} {pos : Nat} {fi : BitVec 2} :
    rd buf pos 2 = fi.toNat ↔ BitVec.ofNat 2 (rd buf pos 2) = fi := by
  rw [← BitVec.toNat_inj, BitVec.toNat_ofNat, Nat.mod_eq_of_lt (rd_lt buf pos 2)]

/-- The D/C bit of a PDU is that of its format: an AMD PDU has 1 there, and a UMD PDU has none (R83). -/
def DataBit (fmt : Fmt) (pdu : Bytes) : Prop := fmt = .amd → wireBit pdu 0 = true

/-- A PDU holds the fixed fields of `h` exactly where they are read from it. -/
theorem holdsRun_fixedFields_iff {fmt : Fmt} {pdu : Bytes} {h : Hdr} {e : Bool} (hok : h.FixedOk fmt) :
    HoldsRun pdu (r1Bits fmt) (fixedFields fmt h e) ↔
      DataBit fmt pdu ∧ { (readFixed fmt pdu).1 with lis := h.lis } = h ∧ (readFixed fmt pdu).2 = e := by
  obtain ⟨-, hum, hwhole, -⟩ := hok
  obtain ⟨sn, fi, rf, p, lsf, so, lis⟩ := h
  cases fmt with
  | umd5 | umd10 =>
    obtain ⟨rfl, rfl⟩ := hum (by simp)
    obtain ⟨rfl, rfl⟩ := hwhole rfl
    simp [DataBit, r1Bits, fixedFields, readFixed, rd_eq_toNat_fi, and_comm, and_assoc]
  | amd =>
    cases rf with
    | false =>
      obtain ⟨rfl, rfl⟩ := hwhole rfl
      cases hrf : wireBit pdu 1 <;>
        simp [DataBit, r1Bits, fixedFields, readFixed, rd_eq_toNat_fi, hrf, and_comm, and_left_comm, and_assoc]
    | true =>
      cases hrf : wireBit pdu 1 <;>
        simp [DataBit, r1Bits, fixedFields, readFixed, rd_eq_toNat_fi, hrf, and_comm, and_left_comm, and_assoc]

/-- What is read from the fixed fields of a PDU is valid, but for the limit of a segment's offset. -/
theorem fixedOk_readFixed {fmt : Fmt} {pdu : Bytes} {h : Hdr} (hread : { (readFixed fmt pdu).1 with lis := h.lis } = h)
    (hso : fmt = .amd → h.rf = true → h.so ≤ Config.maxAmData - 1) : h.FixedOk fmt := by
  rw [← hread]
  rw [← hread] at hso
  have hsn := readFixed_sn_lt fmt pdu
  cases fmt with
  | umd5 | umd10 => exact ⟨hsn, fun _ => ⟨rfl, rfl⟩, fun _ => ⟨rfl, rfl⟩, fun hrf => Bool.noConfusion hrf⟩
  | amd =>
    refine ⟨hsn, fun hum => absurd rfl hum, fun hrf => ?_, hso rfl⟩
    have hrf : wireBit pdu 1 = false := hrf
    simp [readFixed, hrf]

/-- One more LI is read where its field ends within the PDU and the rest of the chain is read behind it (R94). -/
theorem readLis_succ_eq_some {liw : LiWidth} {pdu : Bytes} {fuel pos li p : Nat} {lis : List Nat} :
    readLis liw pdu (fuel + 1) pos true = some (li :: lis, p) ↔
      pos + 1 + liw.bits ≤ 8 * pdu.length ∧ rd pdu (pos + 1) liw.bits = li ∧
        readLis liw pdu fuel (pos + 1 + liw.bits) (wireBit pdu pos) = some (lis, p) := by
  rw [readLis]
  split
  · rename_i hshort
    simp [hshort.not_ge]
  · rename_i hroom
    simp [not_lt.mp hroom, and_comm]

/-- The LIs read from a position on are those whose chain stands there, and they end within the PDU (R94). -/
theorem readLis_eq_some_iff {liw : LiWidth} {pdu : Bytes} : ∀ {fuel pos : Nat} {e : Bool} {lis : List Nat} {p : Nat},
    readLis liw pdu fuel pos e = some (lis, p) ↔
      lis.length ≤ fuel ∧ e = !lis.isEmpty ∧ HoldsRun pdu pos (liFields liw lis) ∧
        p = pos + runWidth (liFields liw lis) ∧ (lis ≠ [] → p ≤ 8 * pdu.length)
  | _, _, false, [], _ => by simp [readLis, liFields, eq_comm]
  | _, _, false, _ :: _, _ => by simp [readLis]
  | 0, _, true, lis, _ => by cases lis <;> simp [readLis]
  | fuel + 1, pos, true, [], _ => by simp [readLis]
  | fuel + 1, pos, true, li :: lis, p => by
    have ih := readLis_eq_some_iff (liw := liw) (pdu := pdu) (fuel := fuel) (pos := pos + 1 + liw.bits)
      (e := wireBit pdu pos) (lis := lis) (p := p)
    have hend := run_within_iff (xs := lis) (pos := pos + 1 + liw.bits) (width := runWidth (liFields liw lis))
      (m := 8 * pdu.length) (by rintro rfl; rfl)
    rw [readLis_succ_eq_some, ih]
    simp only [liFields, holdsRun_cons, rd_eq_value_flag, runWidth_cons, BitField.width_flag, List.length_cons,
      Nat.add_le_add_iff_right, ← Nat.add_assoc]
    constructor
    · rintro ⟨hroom, hli, hlen, he, hheld, rfl, hlast⟩
      exact ⟨hlen, rfl, ⟨he, hli, hheld⟩, rfl, fun _ => hend.mp ⟨hroom, hlast⟩⟩
    · rintro ⟨hlen, -, ⟨he, hli, hheld⟩, rfl, hlast⟩
      obtain ⟨hroom, hlast⟩ := hend.mpr (hlast (by simp))
      exact ⟨hroom, hli, hlen, he, hheld, rfl, hlast⟩

/-- What R95 asks of the data field of a PDU with header `h`: a byte for the last element, and the AMD limits. -/
structure Hdr.DataFits (fmt : Fmt) (h : Hdr) (dlen : Nat) : Prop where
  room : h.lis.sum < dlen
  whole : fmt = .amd → dlen ≤ Config.maxAmData
  segment : fmt = .amd → h.rf = true → h.so + dlen ≤ Config.maxAmData

/-- The checks that `unpack_hdr` makes one after another, and what it answers where all pass (R151). -/
theorem unpackHdr_eq_some {pm : Params} {fmt : Fmt} {liw : LiWidth} {pdu : Bytes} {h : Hdr} {n : Nat} :
    unpackHdr pm fmt liw pdu = some (h, n) ↔
      DataBit fmt pdu ∧ fixedLen fmt (wireBit pdu 1) ≤ pdu.length ∧ ∃ lis pos,
        readLis liw pdu pm.maxLi (8 * fixedLen fmt (wireBit pdu 1)) (readFixed fmt pdu).2 = some (lis, pos) ∧
        pos + liPadding liw lis ≤ 8 * pdu.length ∧ (∀ li ∈ lis, 1 ≤ li) ∧
        { (readFixed fmt pdu).1 with lis := lis } = h ∧ (pos + liPadding liw lis) / 8 = n ∧
        h.DataFits fmt (pdu.length - n) := by
  have hdc : ¬ (fmt = .amd ∧ (pdu.length < 1 ∨ wireBit pdu 0 = false)) ↔ DataBit fmt pdu := by
    have hempty : pdu.length < 1 → wireBit pdu 0 = false := fun hlt => wireBit_of_le (by omega)
    simp only [DataBit, not_and, not_or, Bool.not_eq_false]
    exact ⟨fun hb hf => (hb hf).2, fun hb hf => ⟨fun hlt => Bool.false_ne_true ((hempty hlt).symm.trans (hb hf)), hb hf⟩⟩
  unfold unpackHdr
  rw [Option.ite_none_left_eq_some, hdc]
  dsimp only
  rw [Option.ite_none_left_eq_some, not_lt]
  refine and_congr_right fun _ => and_congr_right fun _ => ?_
  cases readLis liw pdu pm.maxLi (8 * fixedLen fmt (wireBit pdu 1)) (readFixed fmt pdu).2 with
  | none => simp
  | some r =>
    obtain ⟨lis, pos⟩ := r
    have hpad : (if liw = .w11 ∧ lis.length % 2 = 1 then pos + 4 else pos) = pos + liPadding liw lis := by
      rw [liPadding]
      split <;> rfl
    simp only [Option.ite_none_left_eq_some, hpad, Option.some.injEq, Prod.mk.injEq]
    constructor
    · rintro ⟨hend, -, hzero, hroom, hwhole, hsegment, rfl, rfl⟩
      refine ⟨lis, pos, ⟨rfl, rfl⟩, not_lt.mp hend, fun li hli => Nat.pos_of_ne_zero fun h0 => hzero ?_, rfl, rfl,
        not_le.mp hroom, fun hf => not_lt.mp fun hlt => hwhole ⟨hf, hlt⟩,
        fun hf hrf => not_lt.mp fun hlt => hsegment ⟨hf, hrf, hlt⟩⟩
      exact List.any_eq_true.mpr ⟨li, hli, beq_iff_eq.mpr h0⟩
    · rintro ⟨_, _, ⟨rfl, rfl⟩, hend, hpos, rfl, rfl, hroom, hwhole, hsegment⟩
      have hroom : lis.sum < pdu.length - (pos + liPadding liw lis) / 8 := hroom
      refine ⟨not_lt.mpr hend, by omega, fun hzero => ?_, not_le.mpr hroom, fun ⟨hf, hlt⟩ => hlt.not_ge (hwhole hf),
        fun ⟨hf, hrf, hlt⟩ => hlt.not_ge (hsegment hf hrf), rfl, rfl⟩
      obtain ⟨li, hli, h0⟩ := List.any_eq_true.mp hzero
      exact absurd (beq_iff_eq.mp h0) (Nat.pos_iff_ne_zero.mp (hpos li hli))

/-- The PDU holds the run of the valid header `h`, and its data field, behind it, fits. -/
structure CarriesHdr (pm : Params) (fmt : Fmt) (liw : LiWidth) (pdu : Bytes) (h : Hdr) : Prop where
  valid : h.valid pm fmt liw = true
  fields : HoldsRun pdu (r1Bits fmt) (hdrFields fmt liw h)
  data : h.DataFits fmt (pdu.length - (packHdr fmt liw h).length)

theorem fixedLen_readFixed (fmt : Fmt) (pdu : Bytes) :
    fixedLen fmt (wireBit pdu 1) = fixedLen fmt (readFixed fmt pdu).1.rf := by
  cases fmt <;> rfl

/-- The position behind the LIs and their padding is the header's length. -/
theorem end_of_lis (fmt : Fmt) (liw : LiWidth) (h : Hdr) :
    8 * fixedLen fmt h.rf + runWidth (liFields liw h.lis) + liPadding liw h.lis = 8 * (packHdr fmt liw h).length := by
  rw [← runWidth_hdrFields, hdrFields, runWidth_append, ← Nat.add_assoc, runWidth_fixedFields]

/-- Unpacking answers the header that the PDU carries, and its length, and refuses every other PDU (R151, R156). -/
theorem unpackHdr_eq_some_iff {pm : Params} {fmt : Fmt} {liw : LiWidth} {pdu : Bytes} {h : Hdr} {n : Nat} :
    unpackHdr pm fmt liw pdu = some (h, n) ↔ CarriesHdr pm fmt liw pdu h ∧ n = (packHdr fmt liw h).length := by
  rw [unpackHdr_eq_some, fixedLen_readFixed]
  constructor
  · rintro ⟨hdc, -, lis, pos, hread, -, hpos, hh, rfl, hdata⟩
    obtain rfl : lis = h.lis := congrArg Hdr.lis hh
    obtain ⟨hlen, he, hheld, rfl, -⟩ := readLis_eq_some_iff.mp hread
    rw [congrArg Hdr.rf hh, end_of_lis, Nat.mul_div_cancel_left _ (by decide)] at hdata ⊢
    have hok : h.FixedOk fmt := fixedOk_readFixed hh fun hf hrf => by
      have := hdata.segment hf hrf
      have := hdata.room
      omega
    have hmax := fits_liFields_iff.mp hheld.fits
    refine ⟨⟨Hdr.valid_iff.mpr ⟨hlen, fun li hli => ⟨hpos li hli, hmax li hli⟩, hok⟩, ?_, hdata⟩, rfl⟩
    rw [hdrFields, holdsRun_append, runWidth_fixedFields, holdsRun_fixedFields_iff hok]
    exact ⟨⟨hdc, hh, he⟩, congrArg Hdr.rf hh ▸ hheld⟩
  · rintro ⟨⟨hvalid, hheld, hdata⟩, rfl⟩
    obtain ⟨hlen, hlis, hok⟩ := Hdr.valid_iff.mp hvalid
    rw [hdrFields, holdsRun_append, runWidth_fixedFields, holdsRun_fixedFields_iff hok] at hheld
    obtain ⟨⟨hdc, hh, he⟩, hheld⟩ := hheld
    have hend := end_of_lis fmt liw h
    have hroom := hdata.room
    rw [congrArg Hdr.rf hh]
    exact ⟨hdc, by omega, h.lis, _, readLis_eq_some_iff.mpr ⟨hlen, he, hheld, rfl, fun _ => by omega⟩, by omega,
      fun li hli => (hlis li hli).1, hh, by omega, hdata⟩

/-! ## Round trips -/

/-- A PDU with the bits of a packed valid header, but for R1 and the padding, and with data that fits, unpacks to the header. -/
theorem unpackHdr_of_wireBit_eq {pm : Params} {fmt : Fmt} {liw : LiWidth} {h : Hdr} {d pdu : Bytes}
    (hvalid : h.valid pm fmt liw = true) (hdata : h.DataFits fmt d.length)
    (hlen : pdu.length = (packHdr fmt liw h ++ d).length)
    (hbits : ∀ q, r1Bits fmt ≤ q → q < r1Bits fmt + runWidth (hdrFields fmt liw h) →
      wireBit (packHdr fmt liw h ++ d) q = wireBit pdu q) :
    unpackHdr pm fmt liw pdu = some (h, (packHdr fmt liw h).length) := by
  refine unpackHdr_eq_some_iff.mpr ⟨⟨hvalid, (holdsRun_packHdr hvalid d).congr hbits, ?_⟩, rfl⟩
  rwa [hlen, List.length_append, Nat.add_sub_cancel_left]

/-- Settles O43: `unpackHdr_eq_some_iff` in both directions; a PDU and what is packed from it hold the same run, and the same
bytes behind it. -/
theorem headerRoundTrip : Obligations.HeaderRoundTrip := by
  refine fun pm fmt liw => ⟨fun h d hvalid hroom hlimits => ?_, fun pdu h n hu => ?_⟩
  · exact unpackHdr_of_wireBit_eq hvalid ⟨hroom, fun hf => (hlimits hf).1, fun hf => (hlimits hf).2⟩ rfl fun _ _ _ => rfl
  · obtain ⟨⟨hvalid, hheld, hdata⟩, rfl⟩ := unpackHdr_eq_some_iff.mp hu
    have hroom := hdata.room
    have hfull := runWidth_hdrFields fmt liw h
    rw [← List.length_drop] at hdata
    refine ⟨hvalid, hdata.room, fun hf => ⟨hdata.whole hf, hdata.segment hf⟩, ?_, fun p hp hr1 hpad => ?_⟩
    · rw [List.length_append, List.length_drop]
      omega
    · by_cases hhdr : p < 8 * (packHdr fmt liw h).length
      · obtain ⟨hlow, hhigh⟩ := mem_hdrRun_iff.mpr ⟨hhdr, hr1, hpad⟩
        exact (holdsRun_packHdr hvalid _).wireBit_eq hheld hlow hhigh
      · rw [wireBit_append, if_neg hhdr, wireBit_drop (by omega), Nat.add_sub_cancel' (not_lt.mp hhdr)]

end Sys2Proof.Machine
end

section
/-! PROOFS. Status PDUs (41_codec.md R153, R154, R159): a status record is packed as a run of fields, and unpacking gives the
record whose run the bytes hold. -/

namespace Sys2Proof.Machine

/-! ## The fields of a status PDU -/

/-- The SO pair of a NACK record, R92. -/
def soFields (k : Nack) : List BitField := if k.hasSo then [⟨15, k.soStart⟩, ⟨15, k.soEnd⟩] else []

/-- The chain of NACK records, R90. -/
def nackFields : List Nack → List BitField
  | [] => []
  | k :: ks => ⟨10, k.sn⟩ :: .flag (!ks.isEmpty) :: .flag k.hasSo :: (soFields k ++ nackFields ks)

/-- All fields of a status PDU, R90. -/
def statusFields (s : Status) : List BitField :=
  ⟨1, 0⟩ :: ⟨3, 0⟩ :: ⟨10, s.ack⟩ :: .flag (!s.nacks.isEmpty) :: nackFields s.nacks

@[simp] theorem runWidth_nackFields : ∀ ks : List Nack,
    runWidth (nackFields ks) = 12 * ks.length + 30 * (ks.filter fun k => k.hasSo).length
  | [] => rfl
  | k :: ks => by
    have ih := runWidth_nackFields ks
    cases hso : k.hasSo <;> simp [nackFields, soFields, hso, ih] <;> omega

@[simp] theorem runWidth_statusFields (s : Status) :
    runWidth (statusFields s) = 15 + 12 * s.nacks.length + 30 * (s.nacks.filter fun k => k.hasSo).length := by
  simp only [statusFields, runWidth_cons, BitField.width_flag, runWidth_nackFields]
  omega

/-- A status PDU has as many octets as its fields need, R91. -/
theorem statusLen_le_iff (s : Status) (n : Nat) : statusLen s.nacks ≤ n ↔ runWidth (statusFields s) ≤ 8 * n := by
  rw [runWidth_statusFields, statusLen]
  omega

/-! ## Valid records -/

/-- What R153 asks of a NACK record below `ack`. -/
structure Nack.Ok (ack : Nat) (k : Nack) : Prop where
  sn : k.sn < 1024
  half : halfWindow ack k.sn = true
  segment : k.hasSo = true → k.soStart ≤ k.soEnd ∧ k.soEnd ≤ 0x7FFF
  whole : k.hasSo = false → k.soStart = 0 ∧ k.soEnd = 0

theorem Nack.ok_whole_iff {ack sn s0 s1 : Nat} :
    Nack.Ok ack ⟨sn, false, s0, s1⟩ ↔ sn < 1024 ∧ halfWindow ack sn = true ∧ s0 = 0 ∧ s1 = 0 :=
  ⟨fun ⟨hsn, hhalf, _, hwhole⟩ => ⟨hsn, hhalf, hwhole rfl⟩,
    fun ⟨hsn, hhalf, hwhole⟩ => ⟨hsn, hhalf, fun h => Bool.noConfusion h, fun _ => hwhole⟩⟩

theorem Nack.ok_segment_iff {ack sn s0 s1 : Nat} :
    Nack.Ok ack ⟨sn, true, s0, s1⟩ ↔ sn < 1024 ∧ halfWindow ack sn = true ∧ s0 ≤ s1 ∧ s1 ≤ 0x7FFF :=
  ⟨fun ⟨hsn, hhalf, hsegment, _⟩ => ⟨hsn, hhalf, hsegment rfl⟩,
    fun ⟨hsn, hhalf, hsegment⟩ => ⟨hsn, hhalf, fun _ => hsegment, fun h => Bool.noConfusion h⟩⟩

theorem Status.valid_iff {pm : Params} {s : Status} : s.valid pm = true ↔
    s.ack < 1024 ∧ s.nacks.length ≤ pm.maxNacks ∧ ∀ k ∈ s.nacks, k.Ok s.ack := by
  simp only [Status.valid, Bool.and_eq_true, decide_eq_true_iff, List.all_eq_true, and_assoc]
  refine and_congr_right fun _ => and_congr_right fun _ => forall₂_congr fun k _ => ?_
  obtain ⟨sn, so, s0, s1⟩ := k
  cases so
  · simp [Nack.ok_whole_iff, and_comm, and_left_comm]
  · simp [Nack.ok_segment_iff, and_comm]

theorem fits_nackFields {ack : Nat} : ∀ {ks : List Nack}, (∀ k ∈ ks, k.Ok ack) → ∀ f ∈ nackFields ks, f.Fits
  | [], _ => by simp [nackFields]
  | k :: ks, h => by
    obtain ⟨⟨hsn, -, hsegment, -⟩, hks⟩ := List.forall_mem_cons.mp h
    have hso : ∀ f ∈ soFields k, f.Fits := by
      unfold soFields
      split
      · rename_i hk
        have := hsegment hk
        simp only [List.forall_mem_cons, BitField.fits_mk]
        exact ⟨by omega, by omega, by simp⟩
      · simp
    simp only [nackFields, List.forall_mem_cons, List.forall_mem_append, BitField.fits_mk]
    exact ⟨hsn, BitField.fits_flag _, BitField.fits_flag _, hso, fits_nackFields hks⟩

theorem fits_statusFields {pm : Params} {s : Status} (hv : s.valid pm = true) : ∀ f ∈ statusFields s, f.Fits := by
  obtain ⟨hack, -, hnacks⟩ := Status.valid_iff.mp hv
  simp only [statusFields, List.forall_mem_cons, BitField.fits_mk]
  exact ⟨by decide, by decide, hack, BitField.fits_flag _, fits_nackFields hnacks⟩

/-! ## Packing -/

theorem packNacks_eq_writeRun : ∀ (pos : Nat) (ks : List Nack) (buf : Bytes),
    packNacks pos ks buf = writeRun pos (nackFields ks) buf
  | _, [], _ => rfl
  | pos, k :: ks, buf => by
    simp only [packNacks, nackFields, soFields, packNacks_eq_writeRun _ ks]
    cases k.hasSo <;> rfl

/-- A status record is packed by writing its run. -/
theorem packStatus_eq_writeRun (s : Status) :
    packStatus s = writeRun 0 (statusFields s) (List.replicate (statusLen s.nacks) 0) :=
  packNacks_eq_writeRun 15 s.nacks _

/-- A packed status holds its run. -/
theorem holdsRun_packStatus {pm : Params} {s : Status} (hv : s.valid pm = true) :
    HoldsRun (packStatus s) 0 (statusFields s) := by
  rw [packStatus_eq_writeRun]
  refine holdsRun_writeRun ?_ (fits_statusFields hv)
  rw [List.length_replicate, Nat.zero_add]
  exact (statusLen_le_iff s _).mp le_rfl

/-- The padding of a packed status is 0, R91. -/
theorem wireBit_packStatus_padding {s : Status} {q : Nat} (hq : runWidth (statusFields s) ≤ q) :
    wireBit (packStatus s) q = false := by
  rw [packStatus_eq_writeRun, wireBit_writeRun_outside ?_ (.inr (by omega)), wireBit_replicate_zero]
  rw [List.length_replicate, Nat.zero_add]
  exact (statusLen_le_iff s _).mp le_rfl

/-! ## Unpacking -/

/-- One more NACK record is read where its fields end within the bytes and it is valid, and the rest of the chain is read behind
it (R154). -/
theorem readNacks_succ_eq_some {ack fuel pos : Nat} {b : Bytes} {k : Nack} {ks : List Nack} :
    readNacks ack b (fuel + 1) pos true = some (k :: ks) ↔
      pos + 12 + runWidth (soFields k) ≤ 8 * b.length ∧ k.Ok ack ∧ rd b pos 10 = k.sn ∧ wireBit b (pos + 11) = k.hasSo ∧
        HoldsRun b (pos + 12) (soFields k) ∧
        readNacks ack b fuel (pos + 12 + runWidth (soFields k)) (wireBit b (pos + 10)) = some ks := by
  obtain ⟨sn, so, s0, s1⟩ := k
  rw [readNacks]
  dsimp only
  rw [Option.ite_none_left_eq_some]
  cases hso : wireBit b (pos + 11) <;> cases so <;>
    simp only [soFields, Option.ite_none_left_eq_some, Option.map_eq_some_iff, List.cons.injEq, Nack.mk.injEq,
      Bool.false_eq_true, if_true, if_false, false_and, and_false, exists_false, reduceCtorEq, exists_eq_right_right, runWidth_cons, runWidth_nil,
      holdsRun_cons, holdsRun_nil, true_and, and_true, Nat.add_zero, Nat.add_assoc, Nat.reduceAdd, not_lt, Bool.not_eq_false]
  case false.false =>
    constructor
    · rintro ⟨hroom, hhalf, hks, rfl, rfl, rfl⟩
      exact ⟨hroom, Nack.ok_whole_iff.mpr ⟨rd_lt b pos 10, hhalf, rfl, rfl⟩, rfl, hks⟩
    · rintro ⟨hroom, hok, rfl, hks⟩
      obtain ⟨-, hhalf, rfl, rfl⟩ := Nack.ok_whole_iff.mp hok
      exact ⟨hroom, hhalf, hks, rfl, rfl, rfl⟩
  case true.true =>
    constructor
    · rintro ⟨-, hroom, hle, hhalf, hks, rfl, rfl, rfl⟩
      exact ⟨hroom, Nack.ok_segment_iff.mpr ⟨rd_lt b pos 10, hhalf, hle, Nat.le_of_lt_succ (rd_lt b (pos + 27) 15)⟩, rfl,
        ⟨rfl, rfl⟩, hks⟩
    · rintro ⟨hroom, hok, rfl, ⟨rfl, rfl⟩, hks⟩
      obtain ⟨-, hhalf, hle, -⟩ := Nack.ok_segment_iff.mp hok
      exact ⟨by omega, hroom, hle, hhalf, hks, rfl, rfl, rfl⟩

/-- The NACK records read from a position on are valid, are those whose chain stands there, and end within the bytes (R154). -/
theorem readNacks_eq_some_iff {ack : Nat} {b : Bytes} : ∀ {fuel pos : Nat} {e : Bool} {ks : List Nack},
    readNacks ack b fuel pos e = some ks ↔
      ks.length ≤ fuel ∧ e = !ks.isEmpty ∧ (∀ k ∈ ks, k.Ok ack) ∧ HoldsRun b pos (nackFields ks) ∧
        (ks ≠ [] → pos + runWidth (nackFields ks) ≤ 8 * b.length)
  | _, _, false, [] => by simp [readNacks, nackFields]
  | _, _, false, _ :: _ => by simp [readNacks]
  | 0, _, true, ks => by cases ks <;> simp [readNacks]
  | fuel + 1, pos, true, [] => by
    have hcons : readNacks ack b (fuel + 1) pos true ≠ some [] := by
      rw [readNacks]
      split_ifs <;> simp
    simp [hcons]
  | fuel + 1, pos, true, k :: ks => by
    have ih := readNacks_eq_some_iff (ack := ack) (b := b) (fuel := fuel) (pos := pos + 12 + runWidth (soFields k))
      (e := wireBit b (pos + 10)) (ks := ks)
    have hend := run_within_iff (xs := ks) (pos := pos + 12 + runWidth (soFields k)) (width := runWidth (nackFields ks))
      (m := 8 * b.length) (by rintro rfl; rfl)
    have hwidth : runWidth (nackFields (k :: ks)) = 12 + runWidth (soFields k) + runWidth (nackFields ks) := by
      simp only [nackFields, runWidth_cons, runWidth_append, BitField.width_flag]
      omega
    rw [readNacks_succ_eq_some, ih, hwidth]
    simp only [nackFields, holdsRun_cons, holdsRun_append, rd_eq_value_flag, BitField.width_flag, List.forall_mem_cons,
      List.length_cons, Nat.add_le_add_iff_right, Nat.add_assoc, Nat.reduceAdd] at hend ⊢
    constructor
    · rintro ⟨hroom, hok, hsn, hso, hpair, hlen, he, hoks, hheld, hlast⟩
      exact ⟨hlen, rfl, ⟨hok, hoks⟩, ⟨hsn, he, hso, hpair, hheld⟩, fun _ => hend.mp ⟨hroom, hlast⟩⟩
    · rintro ⟨hlen, -, ⟨hok, hoks⟩, ⟨hsn, he, hso, hpair, hheld⟩, hlast⟩
      obtain ⟨hroom, hlast⟩ := hend.mpr (hlast (by simp))
      exact ⟨hroom, hok, hsn, hso, hpair, hlen, he, hoks, hheld, hlast⟩

/-- The checks that `unpack_status` makes one after another, and what it answers where all pass (R154). -/
theorem unpackStatus_eq_some {pm : Params} {b : Bytes} {s : Status} : unpackStatus pm b = some s ↔
    2 ≤ b.length ∧ rd b 0 1 = 0 ∧ rd b 1 3 = 0 ∧ rd b 4 10 = s.ack ∧
      readNacks s.ack b pm.maxNacks 15 (wireBit b 14) = some s.nacks := by
  obtain ⟨ack, nacks⟩ := s
  simp only [unpackStatus, Option.ite_none_left_eq_some, Option.map_eq_some_iff, Status.mk.injEq, not_lt, not_or,
    not_not, and_assoc]
  refine and_congr_right fun _ => and_congr_right fun _ => and_congr_right fun _ => ?_
  constructor
  · rintro ⟨_, hread, rfl, rfl⟩
    exact ⟨rfl, hread⟩
  · rintro ⟨rfl, hread⟩
    exact ⟨_, hread, rfl, rfl⟩

/-- The bytes hold the run of the valid status record `s`. -/
structure CarriesStatus (pm : Params) (b : Bytes) (s : Status) : Prop where
  valid : s.valid pm = true
  fields : HoldsRun b 0 (statusFields s)
  length : statusLen s.nacks ≤ b.length

/-- Unpacking answers the status record that the bytes carry, and refuses all other bytes (R154, R159). -/
theorem unpackStatus_eq_some_iff {pm : Params} {b : Bytes} {s : Status} :
    unpackStatus pm b = some s ↔ CarriesStatus pm b s := by
  have hwidth : runWidth (statusFields s) = 15 + runWidth (nackFields s.nacks) := by simp [Nat.add_assoc]
  have hfields : HoldsRun b 0 (statusFields s) ↔ rd b 0 1 = 0 ∧ rd b 1 3 = 0 ∧ rd b 4 10 = s.ack ∧
      wireBit b 14 = (!s.nacks.isEmpty) ∧ HoldsRun b 15 (nackFields s.nacks) := by
    simp [statusFields]
  rw [unpackStatus_eq_some, readNacks_eq_some_iff]
  constructor
  · rintro ⟨hlen, h0, h1, hack, hcount, he, hoks, hheld, hend⟩
    refine ⟨Status.valid_iff.mpr ⟨hack ▸ rd_lt b 4 10, hcount, hoks⟩, hfields.mpr ⟨h0, h1, hack, he, hheld⟩, ?_⟩
    rw [statusLen_le_iff, hwidth]
    by_cases hnil : s.nacks = []
    · rw [hnil, nackFields, runWidth_nil]
      omega
    · exact hend hnil
  · rintro ⟨hvalid, hheld, hlen⟩
    obtain ⟨-, hcount, hoks⟩ := Status.valid_iff.mp hvalid
    obtain ⟨h0, h1, hack, he, hheld⟩ := hfields.mp hheld
    rw [statusLen_le_iff, hwidth] at hlen
    exact ⟨by omega, h0, h1, hack, hcount, he, hoks, hheld, fun _ => hlen⟩

/-! ## Round trips -/

/-- Bytes with the bits of a packed valid status, but for the padding and what follows, unpack to the record. -/
theorem unpackStatus_of_wireBit_eq {pm : Params} {s : Status} {b : Bytes} (hvalid : s.valid pm = true)
    (hlen : statusLen s.nacks ≤ b.length)
    (hbits : ∀ q < runWidth (statusFields s), wireBit (packStatus s) q = wireBit b q) : unpackStatus pm b = some s :=
  unpackStatus_eq_some_iff.mpr
    ⟨hvalid, (holdsRun_packStatus hvalid).congr fun q _ hq => hbits q (by rwa [Nat.zero_add] at hq), hlen⟩

theorem unpackStatus_packStatus {pm : Params} {s : Status} (hvalid : s.valid pm = true) :
    unpackStatus pm (packStatus s) = some s :=
  unpackStatus_of_wireBit_eq hvalid (length_packStatus s).ge fun _ _ => rfl

/-- Settles O44: `unpackStatus_eq_some_iff` in both directions; bytes and what is packed from them hold the same run, and zeros
behind it. -/
theorem statusRoundTrip : Obligations.StatusRoundTrip := by
  refine fun pm => ⟨fun s => unpackStatus_packStatus, fun b s hu hlen hzero => ?_⟩
  obtain ⟨hvalid, hheld, -⟩ := unpackStatus_eq_some_iff.mp hu
  refine ⟨hvalid, eq_of_wireBit ((length_packStatus s).trans hlen.symm) fun q hq => ?_⟩
  rw [length_packStatus, ← hlen] at hq
  by_cases hrun : q < runWidth (statusFields s)
  · exact (holdsRun_packStatus hvalid).wireBit_eq hheld (Nat.zero_le q) (by rwa [Nat.zero_add])
  · have hrun := not_lt.mp hrun
    rw [wireBit_packStatus_padding hrun, hzero q (runWidth_statusFields s ▸ hrun) hq]

end Sys2Proof.Machine
end

section
/-! PROOFS. The status generator (46_am_rx.md R324, R325): what its loop reports, and that it is a valid status record. -/

namespace Sys2Proof.Machine

/-! ## Gaps and NACK records -/

/-- The gaps of a range set start and end no further than the set and the length do, and an end lies above its start. -/
theorem bounds_of_mem_rangeGaps {len : Option Nat} {m : Nat} (hlen : len.getD 0 ≤ m) : ∀ {p : Nat} {r : RangeSet},
    p ≤ m → (∀ i ∈ r, i.2 ≤ m) → rangeWfFrom p r = true →
    ∀ g ∈ rangeGaps len p r, g.1 ≤ m ∧ ∀ z, g.2 = some z → g.1 < z ∧ z ≤ m
  | p, [], hp, _, _, g, hg => by
    cases len with
    | none =>
      obtain rfl : g = (p, none) := by simpa [rangeGaps] using hg
      simp [hp]
    | some n =>
      obtain ⟨hpn, rfl⟩ : p < n ∧ g = (p, some n) := by simpa [rangeGaps] using hg
      have hlen : n ≤ m := hlen
      simp [hp, hpn, hlen]
  | p, (a, b) :: r, hp, hr, hw, g, hg => by
    obtain ⟨-, hab, hw⟩ := (rangeWfFrom_cons _ _ _ _).mp hw
    obtain ⟨hb, hr⟩ := List.forall_mem_cons.mp hr
    have hb : b ≤ m := hb
    rcases List.mem_append.mp hg with hg | hg
    · cases len with
      | none =>
        obtain ⟨hpa, rfl⟩ : p < a ∧ g = (p, some a) := by simpa using hg
        exact ⟨hp, fun z hz => by cases hz; omega⟩
      | some n =>
        obtain ⟨hpa, rfl⟩ : (p < a ∧ p < n) ∧ g = (p, some (min a n)) := by simpa using hg
        exact ⟨hp, fun z hz => by cases hz; omega⟩
    · exact bounds_of_mem_rangeGaps hlen hb hr (rangeWfFrom_mono (by omega) hw) g hg

/-- The NACK records of an SN carry it, and their SO pairs are valid. -/
theorem ok_of_mem_nacksOf {rxa : SnMap AmEntry} (hshape : ∀ e ∈ rxa, e.2.Shape) {sn ack : Nat} (hsn : sn < 1024)
    (hhalf : halfWindow ack sn = true) : ∀ k ∈ nacksOf rxa sn, k.Ok ack := by
  unfold nacksOf
  split
  · simp [Nack.ok_whole_iff, hsn, hhalf]
  · rename_i r hr
    obtain ⟨-, hw, hmax, hlen, -⟩ := hshape _ (mem_of_mapGet hr)
    split
    · simp
    · intro k hk
      obtain ⟨⟨a, z⟩, hg, rfl⟩ := List.mem_map.mp hk
      obtain ⟨hstart, hend⟩ := bounds_of_mem_rangeGaps hlen (Nat.zero_le _) hmax hw _ hg
      rw [Nack.ok_segment_iff]
      refine ⟨hsn, hhalf, ?_⟩
      cases z with
      | none => exact ⟨hstart, le_rfl⟩
      | some z =>
        obtain ⟨hlt, hle⟩ := hend z rfl
        exact ⟨Nat.le_sub_one_of_lt hlt, (Nat.sub_le z 1).trans hle⟩

/-! ## The loop -/

/-- A list of NACK records that a status PDU can carry within the budget, R324. -/
structure NacksFit (pm : Params) (budget : Nat) (ks : List Nack) : Prop where
  count : ks.length ≤ pm.maxNacks
  size : statusLen ks ≤ budget

/-- The loop of R324 reports the records of the SNs before the one it stops at, and what it reports fits. -/
theorem statusLoop_snRun (pm : Params) (rxa : SnMap AmEntry) (budget n : Nat) : ∀ {k a : Nat} {nacks : List Nack}, a < n →
    NacksFit pm budget nacks → ∃ j ≤ k,
      statusLoop pm rxa budget ((a + k) % n) (snRun n a k) nacks =
        ⟨(a + j) % n, nacks ++ (snRun n a j).flatMap (nacksOf rxa)⟩ ∧
      NacksFit pm budget (nacks ++ (snRun n a j).flatMap (nacksOf rxa))
  | 0, a, nacks, _, hfit => ⟨0, le_rfl, by simp [statusLoop, snRun], by simpa [snRun] using hfit⟩
  | k + 1, a, nacks, ha, hfit => by
    rw [snRun, statusLoop]
    split
    · refine ⟨0, Nat.zero_le _, ?_, by simpa [snRun] using hfit⟩
      simp [snRun, Nat.mod_eq_of_lt ha]
    · rename_i hgo
      have hfit' : NacksFit pm budget (nacks ++ nacksOf rxa a) := by
        by_cases hnil : nacksOf rxa a = []
        · rwa [hnil, List.append_nil]
        · obtain ⟨hcount, hsize⟩ := not_or.mp fun hover => hgo ⟨hnil, hover⟩
          exact ⟨by rw [List.length_append]; omega, not_lt.mp hsize⟩
      obtain ⟨j, hj, heq, hall⟩ := statusLoop_snRun pm rxa budget n (k := k) (succ_spec ha).1 hfit'
      have hstep : ∀ i, (modN n (a + 1) + i) % n = (a + (i + 1)) % n := fun i => by
        rw [modN, Nat.mod_add_mod, Nat.add_right_comm, Nat.add_assoc]
      rw [hstep, hstep, List.append_assoc] at heq
      rw [List.append_assoc] at hall
      exact ⟨j + 1, Nat.succ_le_succ hj, heq, hall⟩

/-- What `build_status` reports, R324: the records of the SNs from `VR_R` up to its ACK_SN, which is `j` places on, no further
than `VR_H`. -/
theorem buildStatus_spec (pm : Params) {v : Slot} (hR : v.vrR < v.n) (hH : v.vrH < v.n) {budget : Nat} (hb : 2 ≤ budget) :
    ∃ j ≤ rel v.n v.vrH v.vrR,
      buildStatus pm v budget = ⟨(v.vrR + j) % v.n, (snRun v.n v.vrR j).flatMap (nacksOf v.rxa)⟩ ∧
      NacksFit pm budget (buildStatus pm v budget).nacks := by
  obtain ⟨j, hj, heq, hfit⟩ := statusLoop_snRun pm v.rxa budget v.n (k := rel v.n v.vrH v.vrR) (nacks := []) hR
    ⟨Nat.zero_le _, hb⟩
  rw [add_rel_mod hH hR] at heq
  refine ⟨j, hj, heq, ?_⟩
  rw [buildStatus, snInterval, heq]
  exact hfit

/-- An SN at most half the circle of 1024 SNs below ACK_SN is in its half window, R96. -/
theorem halfWindow_of_lt {b i j : Nat} (hb : b < 1024) (hij : i < j) (hj : j ≤ 512) :
    halfWindow ((b + j) % 1024) ((b + i) % 1024) = true := by
  have hrel : rel 1024 ((b + j) % 1024) ((b + i) % 1024) = j - i := by
    have hi' := rel_of_add hb (show i < 1024 by omega)
    have hj' := rel_of_add hb (show j < 1024 by omega)
    rw [rel_add_rel (Nat.mod_lt _ (by decide)) (Nat.mod_lt _ (by decide)) hb (by omega), hi', hj']
  simp only [halfWindow, hrel, Bool.and_eq_true, decide_eq_true_eq]
  omega

/-- Every status that RLCW builds is a valid record, R325. -/
theorem valid_buildStatus {pm : Params} {v : Slot} (hinv : v.AmInv) (hrxa : ∀ e ∈ v.rxa, e.2.Shape) {budget : Nat}
    (hb : 2 ≤ budget) : (buildStatus pm v budget).valid pm = true := by
  obtain ⟨hn, -, hw⟩ := hinv.legal.am hinv.mode
  have hR := hinv.window.low_lt
  have hsize := hinv.window.size
  obtain ⟨j, hj, heq, hfit⟩ := buildStatus_spec pm hR hinv.window.high_lt hb
  rw [heq] at hfit ⊢
  rw [hn] at hR ⊢
  refine Status.valid_iff.mpr ⟨Nat.mod_lt _ (by decide), hn ▸ hfit.count, fun k hk => ?_⟩
  obtain ⟨sn, hsn, hk⟩ := List.mem_flatMap.mp hk
  obtain ⟨i, hi, rfl⟩ := (mem_snRun hR (by omega)).mp hsn
  exact ok_of_mem_nacksOf hrxa (Nat.mod_lt _ (by decide)) (halfWindow_of_lt hR hi (by omega)) k hk

/-- Settles O41: what the loop reports is valid and fits (`valid_buildStatus`, `buildStatus_spec`), and a valid record unpacks
to itself. -/
theorem statusGeneratorIsValid : Obligations.StatusGeneratorIsValid := by
  intro pm v b hinv hshapes hmode hb
  have ham := hinv.am hmode
  have hvalid := valid_buildStatus (pm := pm) ham (hshapes.am hmode).rxa hb
  obtain ⟨-, -, -, hfit⟩ := buildStatus_spec pm ham.window.low_lt ham.window.high_lt hb
  exact ⟨hvalid, (length_packStatus _).trans_le hfit.size, unpackStatus_packStatus hvalid⟩

end Sys2Proof.Machine
end

section
/-! PROOFS. The records of the codec commands (30_encoding.md R108, R109): HREC and SREC are read back from their bytes. -/

namespace Sys2Proof.Machine

/-! ## Records of one size, one behind another -/

/-- Reading a field of every record of a list gives the field of each, where the records have one size and reading a record at
its own place gives its field. -/
theorem map_range_read {α β : Type} {put : α → Bytes} {read : Bytes → Nat → β} {field : α → β} {size : Nat}
    (hsize : ∀ x, (put x).length = size) (hshift : ∀ a b i, read (a ++ b) (a.length + i) = read b i) (rest : Bytes) :
    ∀ {xs : List α}, (∀ x ∈ xs, ∀ b, read (put x ++ b) 0 = field x) →
      (List.range xs.length).map (fun j => read (xs.flatMap put ++ rest) (size * j)) = xs.map field
  | [], _ => rfl
  | x :: xs, hread => by
    obtain ⟨hx, hxs⟩ := List.forall_mem_cons.mp hread
    have htail : ∀ j, read (put x ++ (xs.flatMap put ++ rest)) (size * (j + 1)) = read (xs.flatMap put ++ rest) (size * j) := by
      intro j
      rw [Nat.mul_succ, Nat.add_comm, ← hsize x, hshift]
    rw [List.length_cons, List.range_succ_eq_map, List.map_cons, List.map_map, List.flatMap_cons, List.append_assoc,
      Nat.mul_zero, hx, List.map_cons, ← map_range_read hsize hshift rest hxs]
    simp only [Function.comp_def, Nat.succ_eq_add_one, htail]

/-! ## The header record, R108 -/

/-- The flags of HREC, read from their byte. -/
theorem hrecFlags (fi : BitVec 2) (rf p lsf : Bool) :
    let f : Byte := BitVec.ofNat 8 (fi.toNat + 4 * rf.toNat + 8 * p.toNat + 16 * lsf.toNat)
    f.extractLsb' 5 3 = 0 ∧ f.extractLsb' 0 2 = fi ∧ f.getLsbD 2 = rf ∧ f.getLsbD 3 = p ∧ f.getLsbD 4 = lsf := by
  decide +revert

/-- Every number of a header record fits its field of HREC. -/
structure Hdr.RecordFits (h : Hdr) : Prop where
  sn : h.sn < 65536
  so : h.so < 65536
  count : h.lis.length < 256
  lis : ∀ li ∈ h.lis, li < 65536

/-- HREC without its LIs, R108. -/
def hrecHead (h : Hdr) : Bytes :=
  put16 h.sn ++ put8 (h.fi.toNat + 4 * h.rf.toNat + 8 * h.p.toNat + 16 * h.lsf.toNat) ++ put16 h.so ++ put8 h.lis.length

theorem putHrec_eq (h : Hdr) : putHrec h = hrecHead h ++ h.lis.flatMap put16 := rfl

theorem length_flatMap_put16 (lis : List Nat) : (lis.flatMap put16).length = 2 * lis.length := by
  simp [List.length_flatMap, Nat.mul_comm]

/-- The LIs of HREC, read from their places. -/
theorem map_range_lis {h : Hdr} (hlis : ∀ li ∈ h.lis, li < 65536) (d : Bytes) :
    (List.range h.lis.length).map (fun j => u16be (putHrec h ++ d) (6 + 2 * j)) = h.lis := by
  have hplace : ∀ j, u16be (putHrec h ++ d) (6 + 2 * j) = u16be (h.lis.flatMap put16 ++ d) (2 * j) := fun j =>
    (congrArg (u16be · _) (List.append_assoc (hrecHead h) _ d)).trans (u16be_append_right (hrecHead h) _ (2 * j))
  simp only [hplace]
  rw [map_range_read (field := id) length_put16 u16be_append_right d, List.map_id]
  exact fun li hli b => (u16be_put16 li b).trans (Nat.mod_eq_of_lt (hlis li hli))

/-- HREC is read back from its bytes, with the data behind it (R155). -/
theorem parseHrec_putHrec {h : Hdr} (hfits : h.RecordFits) (d : Bytes) : parseHrec (putHrec h ++ d) = some (h, d) := by
  obtain ⟨hsn, hso, hcount, hlis⟩ := hfits
  obtain ⟨hrsv, hfi, hrf, hp, hlsf⟩ := hrecFlags h.fi h.rf h.p h.lsf
  have hrec : (putHrec h).length = 6 + 2 * h.lis.length := by
    rw [putHrec_eq, List.length_append, length_flatMap_put16]
    rfl
  have hk : u8 (putHrec h ++ d) 5 = h.lis.length :=
    (u8_put8 h.lis.length (h.lis.flatMap put16 ++ d)).trans (Nat.mod_eq_of_lt hcount)
  have hf : (putHrec h ++ d).getD 2 0 = BitVec.ofNat 8 (h.fi.toNat + 4 * h.rf.toNat + 8 * h.p.toNat + 16 * h.lsf.toNat) := rfl
  have hsn' : u16be (putHrec h ++ d) 0 = h.sn := (u16be_put16 h.sn _).trans (Nat.mod_eq_of_lt hsn)
  have hso' : u16be (putHrec h ++ d) 3 = h.so :=
    (u16be_put16 h.so (put8 h.lis.length ++ h.lis.flatMap put16 ++ d)).trans (Nat.mod_eq_of_lt hso)
  have hlen : (putHrec h ++ d).length = 6 + 2 * h.lis.length + d.length := by rw [List.length_append, hrec]
  rw [parseHrec, if_neg (by omega)]
  dsimp only
  rw [hk, if_neg (by omega), hf, if_neg (not_not.mpr hrsv), hsn', hfi, hrf, hp, hlsf, hso',
    map_range_lis hlis, ← hrec, List.drop_left]

/-- A payload too short for its record, or with a reserved flag bit set, holds no HREC (R155). -/
theorem parseHrec_eq_none {p : Bytes} (hbad : p.length < 6 ∨ p.length < 6 + 2 * u8 p 5 ∨ 32 ≤ u8 p 2) : parseHrec p = none := by
  have hrsv : 32 ≤ u8 p 2 → (p.getD 2 0).extractLsb' 5 3 ≠ 0 := by
    intro hflag heq
    have hnat := congrArg BitVec.toNat heq
    have hlt := u8_lt p 2
    unfold u8 at hflag hlt
    rw [BitVec.extractLsb'_toNat, Nat.shiftRight_eq_div_pow] at hnat
    have hzero : (p.getD 2 0).toNat / 2 ^ 5 % 2 ^ 3 = 0 := hnat
    omega
  unfold parseHrec
  dsimp only
  split_ifs with h1 h2 h3
  · rfl
  · rfl
  · rfl
  · exact absurd (hbad.resolve_left h1 |>.resolve_left h2) fun h => h3 (hrsv h)

/-! ## The status record, R109 -/

/-- A NACK record of SREC. -/
def putNack (k : Nack) : Bytes := put16 k.sn ++ put8 k.hasSo.toNat ++ put16 k.soStart ++ put16 k.soEnd

/-- Every number of a status record fits its field of SREC. -/
structure Status.RecordFits (s : Status) : Prop where
  ack : s.ack < 65536
  count : s.nacks.length < 65536
  nacks : ∀ k ∈ s.nacks, k.sn < 65536 ∧ k.soStart < 65536 ∧ k.soEnd < 65536

theorem putSrec_eq (s : Status) : putSrec s = (put16 s.ack ++ put16 s.nacks.length) ++ s.nacks.flatMap putNack := rfl

theorem length_putNack (k : Nack) : (putNack k).length = 7 := rfl

theorem length_putSrec (s : Status) : (putSrec s).length = 4 + 7 * s.nacks.length := by
  rw [putSrec_eq, List.length_append, List.length_flatMap]
  simp [length_putNack, Nat.mul_comm]

/-- A field of every NACK record of SREC, read from its place. -/
theorem map_range_nacks {β : Type} {read : Bytes → Nat → β} {field : Nack → β}
    (hshift : ∀ a b i, read (a ++ b) (a.length + i) = read b i) {s : Status}
    (hread : ∀ k ∈ s.nacks, ∀ b, read (putNack k ++ b) 0 = field k) :
    (List.range s.nacks.length).map (fun j => read (putSrec s) (4 + 7 * j)) = s.nacks.map field := by
  have hplace : ∀ j, read (putSrec s) (4 + 7 * j) = read (s.nacks.flatMap putNack ++ []) (7 * j) := fun j => by
    rw [List.append_nil]
    exact hshift (put16 s.ack ++ put16 s.nacks.length) _ (7 * j)
  simp only [hplace]
  exact map_range_read length_putNack hshift [] hread

theorem parseSrecNack_append (a b : Bytes) (i : Nat) : parseSrecNack (a ++ b) (a.length + i) = parseSrecNack b i := by
  unfold parseSrecNack
  simp only [Nat.add_assoc, u16be_append_right]
  rw [List.getD_append_right _ _ _ _ (by omega), Nat.add_sub_cancel_left]

/-- A NACK record is read back from its bytes. -/
theorem parseSrecNack_putNack {k : Nack} (hfits : k.sn < 65536 ∧ k.soStart < 65536 ∧ k.soEnd < 65536) (b : Bytes) :
    parseSrecNack (putNack k ++ b) 0 = k := by
  obtain ⟨hsn, hstart, hend⟩ := hfits
  have hsn' : u16be (putNack k ++ b) 0 = k.sn := (u16be_put16 k.sn _).trans (Nat.mod_eq_of_lt hsn)
  have hso : ((putNack k ++ b).getD 2 0).getLsbD 0 = k.hasSo := by
    change (BitVec.ofNat 8 k.hasSo.toNat).getLsbD 0 = k.hasSo
    cases k.hasSo <;> rfl
  have hstart' : u16be (putNack k ++ b) 3 = k.soStart :=
    (u16be_put16 k.soStart (put16 k.soEnd ++ b)).trans (Nat.mod_eq_of_lt hstart)
  have hend' : u16be (putNack k ++ b) 5 = k.soEnd := (u16be_put16 k.soEnd b).trans (Nat.mod_eq_of_lt hend)
  rw [parseSrecNack, hsn', hso, hstart', hend']

/-- The reserved bits of SREC's flags are 0. -/
theorem flags_putSrec (s : Status) : ((List.range s.nacks.length).any fun j => 2 ≤ u8 (putSrec s) (4 + 7 * j + 2)) = false := by
  have hflags : (List.range s.nacks.length).map (fun j => u8 (putSrec s) (4 + 7 * j + 2)) =
      s.nacks.map fun k => k.hasSo.toNat := by
    refine map_range_nacks (read := fun b i => u8 b (i + 2)) (fun a b i => by rw [Nat.add_assoc, u8_append_right])
      fun k _ b => ?_
    have hlt := k.hasSo.toNat_lt
    exact (u8_put8 k.hasSo.toNat (put16 k.soStart ++ put16 k.soEnd ++ b)).trans (Nat.mod_eq_of_lt (by omega))
  rw [List.any_eq_false]
  intro j hj
  have hmem : u8 (putSrec s) (4 + 7 * j + 2) ∈ s.nacks.map fun k => k.hasSo.toNat := hflags ▸ List.mem_map.mpr ⟨j, hj, rfl⟩
  obtain ⟨k, -, hk⟩ := List.mem_map.mp hmem
  rw [← hk]
  cases k.hasSo <;> decide

/-- SREC is read back from its bytes (R161). -/
theorem parseSrec_putSrec {s : Status} (hfits : s.RecordFits) : parseSrec (putSrec s) = some s := by
  obtain ⟨hack, hcount, hnacks⟩ := hfits
  have hn : u16be (putSrec s) 2 = s.nacks.length :=
    (u16be_put16 s.nacks.length (s.nacks.flatMap putNack)).trans (Nat.mod_eq_of_lt hcount)
  have hack' : u16be (putSrec s) 0 = s.ack := (u16be_put16 s.ack _).trans (Nat.mod_eq_of_lt hack)
  have hks := map_range_nacks (field := id) parseSrecNack_append fun k hk b => parseSrecNack_putNack (hnacks k hk) b
  rw [List.map_id] at hks
  have hlen := length_putSrec s
  unfold parseSrec
  dsimp only
  rw [hn, if_neg (by omega), if_neg (not_not.mpr hlen), flags_putSrec, hack', hks]
  rfl

/-- A payload of another length than its record, or with a reserved flag bit set, holds no SREC (R161). -/
theorem parseSrec_eq_none {b : Bytes} (hbad : b.length ≠ 4 + 7 * u16be b 2 ∨ ∃ j < u16be b 2, 2 ≤ u8 b (4 + 7 * j + 2)) :
    parseSrec b = none := by
  unfold parseSrec
  dsimp only
  split_ifs with h1 h2 h3
  · rfl
  · rfl
  · rfl
  · obtain ⟨j, hj, hflag⟩ := hbad.resolve_left h2
    exact absurd (List.any_eq_true.mpr ⟨j, List.mem_range.mpr hj, decide_eq_true hflag⟩) h3

end Sys2Proof.Machine
end

section
/-! PROOFS. The codec commands (41_codec.md R155 to R164; 30_encoding.md R105, R106): each answers what its codec function says,
or refuses. -/

namespace Sys2Proof.Machine

/-! ## HDR_PACK and HDR_UNPACK -/

/-- The format selectors of HDR_PACK and HDR_UNPACK that name no format, R105. -/
theorem fmtOf_eq_none : ∀ sub : Sub, sub.toNat % 4 = 3 ∨ 8 ≤ sub.toNat → fmtOf sub = none := by decide

/-- The format selectors that name a format, R105. -/
theorem fmtOf_eq_some : ∀ x ∈ [((0 : Sub), Fmt.umd5, LiWidth.w11), (1, .umd10, .w11), (2, .amd, .w11), (4, .umd5, .w15),
    (5, .umd10, .w15), (6, .amd, .w15)], fmtOf x.1 = some x.2 := by decide

section HdrCommands

variable {sub : Sub} {fmt : Fmt} {liw : LiWidth} (hfmt : fmtOf sub = some (fmt, liw))
include hfmt

/-- HDR_PACK of a payload with a record, R155. -/
theorem exec_hdrPack_of_parse {p d : Bytes} {h : Hdr} (hp : parseHrec p = some (h, d)) (s : State) :
    exec (.hdrPack 0 sub p) s =
      require (h.valid s.params fmt liw) .badField s (.next (s.answer (packHdr fmt liw h ++ d))) := by
  simp [exec, execHdrPack, hfmt, hp, finish_eq]

/-- HDR_PACK of a payload without a record, R155. -/
theorem exec_hdrPack_of_parse_none {p : Bytes} (hp : parseHrec p = none) (s : State) :
    exec (.hdrPack 0 sub p) s = .next (s.refused .badField) := by
  simp [exec, execHdrPack, hfmt, hp, raise_eq]

/-- HDR_UNPACK of a PDU that unpacks, R157. -/
theorem exec_hdrUnpack_of_unpack {p : Bytes} {s : State} {h : Hdr} {n : Nat} (hu : unpackHdr s.params fmt liw p = some (h, n)) :
    exec (.hdrUnpack 0 sub p) s = .next (s.answer (putHrec h ++ put16 n)) := by
  simp [exec, execHdrUnpack, hfmt, hu, finish_eq]

/-- HDR_UNPACK of a PDU that does not unpack, R157. -/
theorem exec_hdrUnpack_of_unpack_none {p : Bytes} {s : State} (hu : unpackHdr s.params fmt liw p = none) :
    exec (.hdrUnpack 0 sub p) s = .next (s.refused .malformedHeader) := by
  simp [exec, execHdrUnpack, hfmt, hu, raise_eq]

end HdrCommands

/-- HDR_PACK and HDR_UNPACK with an LCID other than 0, or a SUB that names no format, are refused (R106). -/
theorem exec_hdr_refused {l : Lcid} {sub : Sub} (hbad : l ≠ 0 ∨ fmtOf sub = none) (p : Bytes) (s : State) :
    exec (.hdrPack l sub p) s = .next (s.refused .badField) ∧ exec (.hdrUnpack l sub p) s = .next (s.refused .badField) := by
  constructor <;> refine require_eq_refused fun hl => ?_
  all_goals
    rw [hbad.resolve_left (not_not.mpr (beq_iff_eq.mp hl))]
    rfl

/-- The numbers of a valid header fit HREC where the parameters are legal (R108). -/
theorem Hdr.recordFits_of_valid {pm : Params} (legal : pm.Legal) {fmt : Fmt} {liw : LiWidth} {h : Hdr}
    (hvalid : h.valid pm fmt liw = true) : h.RecordFits := by
  obtain ⟨hcount, hlis, hsn, -, hwhole, hsegment⟩ := Hdr.valid_iff.mp hvalid
  have hso : h.so < 65536 := by
    cases hrf : h.rf with
    | false =>
      rw [(hwhole hrf).2]
      decide
    | true => exact (hsegment hrf).trans_lt (by decide)
  have hbits : 2 ^ fmt.snBits < 65536 := by cases fmt <;> decide
  have hmax : liw.max < 65536 := by cases liw <;> decide
  exact ⟨hsn.trans hbits, hso, hcount.trans_lt legal.1, fun li hli => (hlis li hli).2.trans_lt hmax⟩

/-- Settles O45: HREC is read back from its bytes, and a PDU with the bits of the packed header unpacks to it. -/
theorem hdrCommandsRoundTrip : Obligations.HdrCommandsRoundTrip := by
  refine ⟨fun l sub p s hbad => exec_hdr_refused (hbad.imp_right (fmtOf_eq_none sub)) p s,
    fun sub fmt liw h d p s hsub legal => ?_⟩
  have hfmt : fmtOf sub = some (fmt, liw) := fmtOf_eq_some _ hsub
  refine ⟨fun hvalid => ?_, fun hbad => ?_, fun hvalid hsn hso hcount hlis => ?_, fun hvalid hroom hlimits hlen hbits => ?_,
    exec_hdrUnpack_of_unpack_none hfmt⟩
  · rw [exec_hdrPack_of_parse hfmt (parseHrec_putHrec (Hdr.recordFits_of_valid legal hvalid) d), hvalid, require_true]
  · exact exec_hdrPack_of_parse_none hfmt (parseHrec_eq_none hbad) s
  · rw [exec_hdrPack_of_parse hfmt (parseHrec_putHrec ⟨hsn, hso, hcount, hlis⟩ d), hvalid, require_false]
  · refine exec_hdrUnpack_of_unpack hfmt (unpackHdr_of_wireBit_eq hvalid
      ⟨hroom, fun hf => (hlimits hf).1, fun hf => (hlimits hf).2⟩ hlen fun q hlow hhigh => ?_)
    obtain ⟨hhdr, hr1, hpad⟩ := mem_hdrRun_iff.mp ⟨hlow, hhigh⟩
    exact (hbits q (by rw [hlen, List.length_append]; omega) hr1 hpad).symm

/-! ## STATUS_PACK and STATUS_UNPACK -/

/-- STATUS_PACK of a payload with a record, R161. -/
theorem exec_statusPack_of_parse {b : Bytes} {st : Status} (hb : parseSrec b = some st) (s : State) :
    exec (.statusPack 0 0 b) s = require (st.valid s.params) .badField s (.next (s.answer (packStatus st))) := by
  simp [exec, execStatusPack, hb, finish_eq]

/-- STATUS_PACK of a payload without a record, R161. -/
theorem exec_statusPack_of_parse_none {b : Bytes} (hb : parseSrec b = none) (s : State) :
    exec (.statusPack 0 0 b) s = .next (s.refused .badField) := by
  simp [exec, execStatusPack, hb, raise_eq]

/-- STATUS_UNPACK of bytes that unpack, R162. -/
theorem exec_statusUnpack_of_unpack {b : Bytes} {s : State} {st : Status} (hu : unpackStatus s.params b = some st) :
    exec (.statusUnpack 0 0 b) s = .next (s.answer (putSrec st)) := by
  simp [exec, execStatusUnpack, hu, finish_eq]

/-- STATUS_UNPACK of bytes that do not unpack, R162. -/
theorem exec_statusUnpack_of_unpack_none {b : Bytes} {s : State} (hu : unpackStatus s.params b = none) :
    exec (.statusUnpack 0 0 b) s = .next (s.refused .malformedStatus) := by
  simp [exec, execStatusUnpack, hu, raise_eq]

/-- The status commands with an LCID or a SUB other than 0 are refused (R106). -/
theorem exec_status_refused {l : Lcid} {sub : Sub} (hbad : l ≠ 0 ∨ sub ≠ 0) (b : Bytes) (s : State) :
    ∀ i ∈ [Instr.statusPack l sub b, .statusUnpack l sub b, .statusCheck l sub b], exec i s = .next (s.refused .badField) := by
  have hrefused : ∀ k : Next, require (l == 0 && sub == 0) .badField s k = .next (s.refused .badField) := by
    refine fun k => require_eq_refused fun hheader => ?_
    obtain ⟨hl, hsub⟩ := Bool.and_eq_true_iff.mp hheader
    exact absurd (beq_iff_eq.mp hsub) (hbad.resolve_left (not_not.mpr (beq_iff_eq.mp hl)))
  simp only [List.forall_mem_cons, List.not_mem_nil, false_imp_iff, implies_true, and_true]
  exact ⟨hrefused _, hrefused _, hrefused _⟩

/-- The numbers of a valid status record fit SREC where the parameters are legal (R109). -/
theorem Status.recordFits_of_valid {pm : Params} (legal : pm.Legal) {s : Status} (hvalid : s.valid pm = true) :
    s.RecordFits := by
  obtain ⟨-, hmax, -, -⟩ := legal
  obtain ⟨hack, hcount, hoks⟩ := Status.valid_iff.mp hvalid
  refine ⟨by omega, by omega, fun k hk => ?_⟩
  obtain ⟨hsn, -, hsegment, hwhole⟩ := hoks k hk
  cases hso : k.hasSo with
  | false =>
    have := hwhole hso
    omega
  | true =>
    have := hsegment hso
    omega

/-- Settles O46: SREC is read back from its bytes, and bytes with the bits of the packed status unpack to it. -/
theorem statusCommandsRoundTrip : Obligations.StatusCommandsRoundTrip := by
  refine ⟨fun l sub p s hbad => ?_, fun st b s legal => ⟨fun hvalid => ?_, fun hbad => ?_, fun hvalid hack hcount hnacks => ?_,
    fun hvalid hlen hbits => ?_, exec_statusUnpack_of_unpack_none⟩⟩
  · have hrefused := exec_status_refused hbad p s
    exact ⟨hrefused _ (by simp), hrefused _ (by simp)⟩
  · rw [exec_statusPack_of_parse (parseSrec_putSrec (Status.recordFits_of_valid legal hvalid)), hvalid, require_true]
  · exact exec_statusPack_of_parse_none (parseSrec_eq_none hbad) s
  · rw [exec_statusPack_of_parse (parseSrec_putSrec ⟨hack, hcount, hnacks⟩), hvalid, require_false]
  · rw [length_packStatus] at hlen
    refine exec_statusUnpack_of_unpack (unpackStatus_of_wireBit_eq hvalid hlen fun q hq => ?_)
    exact (hbits q (runWidth_statusFields st ▸ hq)).symm

/-! ## STATUS_CHECK -/

/-- STATUS_CHECK of a payload whose operands pass the checks, R164. -/
theorem exec_statusCheck (vtA vtS : Nat) (hA : vtA < 65536) (hS : vtS < 65536) (b : Bytes) (s : State) :
    exec (.statusCheck 0 0 (put16 vtA ++ put16 vtS ++ b)) s =
      require (decide (vtA < 1024) && decide (vtS < 1024) && decide (rel 1024 vtS vtA ≤ 512)) .badField s
        (.next (s.answer [BitVec.ofNat 8 (statusVerdict s.params vtA vtS b)])) := by
  have hA' : u16be (put16 vtA ++ put16 vtS ++ b) 0 = vtA := (u16be_put16 vtA _).trans (Nat.mod_eq_of_lt hA)
  have hS' : u16be (put16 vtA ++ put16 vtS ++ b) 2 = vtS := (u16be_put16 vtS b).trans (Nat.mod_eq_of_lt hS)
  simp only [exec, execStatusCheck, hA', hS']
  rfl

theorem statusVerdict_of_unpack_none {pm : Params} {b : Bytes} (hu : unpackStatus pm b = none) (vtA vtS : Nat) :
    statusVerdict pm vtA vtS b = 1 := by rw [statusVerdict, hu]

/-- The verdict on a status that unpacks, by the questions of R130. -/
theorem statusVerdict_of_unpack {pm : Params} {b : Bytes} {st : Status} (hu : unpackStatus pm b = some st) (vtA vtS : Nat) :
    statusVerdict pm vtA vtS b =
      if inside 1024 st.ack vtA (rel 1024 vtS vtA + 1) = true then
        if (st.nacks.all fun k => inside 1024 k.sn vtA (rel 1024 st.ack vtA)) = true then 0 else 3
      else 2 := by
  rw [statusVerdict, hu, ← insideClosed_eq_inside]
  dsimp only
  cases insideClosed 1024 st.ack vtA vtS <;> rfl

theorem statusVerdict_le (pm : Params) (vtA vtS : Nat) (b : Bytes) : statusVerdict pm vtA vtS b ≤ 3 := by
  unfold statusVerdict
  split
  · decide
  · split_ifs <;> decide

theorem statusVerdict_eq_one_iff {pm : Params} {vtA vtS : Nat} {b : Bytes} :
    statusVerdict pm vtA vtS b = 1 ↔ unpackStatus pm b = none := by
  cases hu : unpackStatus pm b with
  | none => simp [statusVerdict_of_unpack_none hu]
  | some st =>
    rw [statusVerdict_of_unpack hu]
    split_ifs <;> simp

/-- Settles O47: the operands pass the checks or fail one, and the verdict asks the questions of `inside_iff` about the SNs of
the status. -/
theorem statusCheckClassifies : Obligations.StatusCheckClassifies := by
  intro vtA vtS b s hA hS
  rw [exec_statusCheck vtA vtS hA hS]
  refine ⟨fun hA hS hw => ⟨statusVerdict s.params vtA vtS b, statusVerdict_le _ _ _ _, ?_, statusVerdict_eq_one_iff,
    fun st hu => ?_⟩, fun hbad => ?_, fun hshort => ?_, fun l sub hbad => exec_status_refused hbad b s _ (by simp)⟩
  · simp [hA, hS, hw]
  · obtain ⟨hack, -, hoks⟩ := Status.valid_iff.mp (unpackStatus_eq_some_iff.mp hu).valid
    have hin := inside_iff hack hA (rel 1024 vtS vtA + 1)
    have hnacks : (st.nacks.all fun k => inside 1024 k.sn vtA (rel 1024 st.ack vtA)) = true ↔
        ∀ k ∈ st.nacks, ∃ j < rel 1024 st.ack vtA, k.sn = (vtA + j) % 1024 :=
      List.all_eq_true.trans (forall₂_congr fun k hk => inside_iff (hoks k hk).sn hA _)
    simp only [Nat.lt_succ_iff] at hin
    rw [statusVerdict_of_unpack hu, ← hin, ← hnacks]
    split_ifs with hack hall
    · simp [hack, hall]
    · simp [hack, hall]
    · simp [hack]
  · exact require_eq_refused fun hok => absurd (by simpa [and_assoc] using hok) hbad
  · simp [exec, execStatusCheck, hshort.not_ge]

end Sys2Proof.Machine
end

section
/-! PROOFS. Malformed, inconsistent and out-of-context PDUs (41_codec.md R158; 46_am_rx.md R315; 60_exceptions.md R354):
WRITE_PDU leaves only the DROP event. -/

namespace Sys2Proof.Machine

/-! ## Contradicting pieces -/

/-- A range set with an offset at `len` or beyond reaches beyond `len`, canonical or not. -/
theorem rangeReaches_of_rangeHas {r : RangeSet} {len x : Nat} (hx : len ≤ x) (hr : rangeHas x r = true) :
    rangeReaches r len = true := by
  obtain ⟨i, hi, hin⟩ := List.any_eq_true.mp hr
  obtain ⟨-, hlt⟩ := Bool.and_eq_true_iff.mp hin
  exact List.any_eq_true.mpr ⟨i, hi, decide_eq_true (hx.trans_lt (of_decide_eq_true hlt))⟩

/-- An entry with a byte or a boundary at or beyond its known length is inconsistent. -/
theorem consistent_eq_false {r : AmEntry} {len : Nat} (hlen : r.len = some len)
    (hbeyond : (∃ x, len ≤ x ∧ rangeHas x r.rcvd = true) ∨ ∃ b, len ≤ b ∧ b ∈ r.bset) : r.consistent = false := by
  simp only [AmEntry.consistent, hlen, Bool.and_eq_false_iff, Bool.not_eq_false', List.all_eq_false, decide_eq_true_eq, not_lt]
  exact hbeyond.imp (fun ⟨x, hx, hr⟩ => rangeReaches_of_rangeHas hx hr) fun ⟨b, hb, hmem⟩ => ⟨b, hmem, hb⟩

/-- A piece that contradicts the entry is not merged, whatever the entry holds (R315). -/
theorem merge_of_contradicts {old : AmEntry} {pc : Piece} {h : Hdr} {d : Bytes} (hl : pc.len = d.length)
    (hc : Contradicts old pc.so pc.last h d) : merge old pc h d = none := by
  unfold merge
  split
  · rfl
  · rename_i hknown
    rcases hc with ⟨hlast, len, hlen, hne⟩ | ⟨len, hlen, hbeyond⟩
    · exact absurd ⟨hlast, by simp [hlen], by simp [hlen, hl, hne]⟩ hknown
    · have hraw : (mergeRaw old pc h d).consistent = false := by
        refine consistent_eq_false (len := len) (by simpa [mergeRaw, hl] using hlen) ?_
        simpa [mergeRaw, rangeHas_rangeAdd, mem_bsetUnion, mem_pieceBounds pc h d hl, hl] using hbeyond
      simp [hraw]

theorem pieceOf_so_last (h : Hdr) (len : Nat) :
    (pieceOf h len).so = (if h.rf then h.so else 0) ∧ (pieceOf h len).last = (!h.rf || h.lsf) := by
  unfold pieceOf
  cases h.rf <;> simp

/-! ## Each receive procedure -/

/-- A UM PDU that does not unpack is dropped, R231. -/
theorem umWritePdu_of_unpack_none {w : Work} {pdu : Bytes}
    (hu : unpackHdr w.params w.slot.cfg.fmt w.slot.cfg.liw pdu = none) : umWritePdu pdu w = w.drop .malformedHeader := by
  rw [umWritePdu, hu]

/-- An AM data PDU that does not unpack is dropped, R312. -/
theorem amDataReceive_of_unpack_none {w : Work} {pdu : Bytes} (hu : unpackHdr w.params .amd w.slot.cfg.liw pdu = none) :
    amDataReceive pdu w = w.drop .malformedHeader := by
  rw [amDataReceive, hu]

/-- A piece inside the window that does not merge is dropped, R315. -/
theorem amDataReceive_of_merge_none {w : Work} {pdu : Bytes} {h : Hdr} {n : Nat}
    (hu : unpackHdr w.params .amd w.slot.cfg.liw pdu = some (h, n)) (hin : inside w.slot.n h.sn w.slot.vrR w.slot.amW = true)
    (hm : merge ((mapGet h.sn w.slot.rxa).getD AmEntry.empty) (pieceOf h (pdu.drop n).length) h (pdu.drop n) = none) :
    amDataReceive pdu w = w.drop .malformedHeader := by
  simp only [amDataReceive, hu, hin, hm, Bool.not_true, Bool.false_eq_true, if_false]

/-- A control PDU that does not unpack to a status in context is dropped, R271 and R272. -/
theorem statusReceive_of_not_inContext {w : Work} {pdu : Bytes}
    (hbad : ∀ st, unpackStatus w.params pdu = some st → inContext w.slot.n w.slot.vtA w.slot.vtS st = false) :
    statusReceive pdu w = w.drop .malformedStatusPdu := by
  unfold statusReceive
  cases hu : unpackStatus w.params pdu with
  | none => rfl
  | some st => simp [hbad st hu]

/-- A status is out of context where ACK_SN or a NACK_SN is, R271. -/
theorem inContext_eq_false {n vtA vtS : Nat} {st : Status}
    (hbad : ¬ (rel n st.ack vtA ≤ rel n vtS vtA) ∨ ∃ k ∈ st.nacks, ¬ (rel n k.sn vtA < rel n st.ack vtA)) :
    inContext n vtA vtS st = false := by
  simp only [inContext, insideClosed, before, Bool.and_eq_false_iff, decide_eq_false_iff_not,
    List.all_eq_false, decide_eq_true_eq]
  exact hbad

theorem amWritePdu_data {w : Work} {pdu : Bytes} (hdc : wireBit pdu 0 = true) : amWritePdu pdu w = amDataReceive pdu w := by
  have hlen : pdu.length ≠ 0 := fun h0 => by simp [List.eq_nil_of_length_eq_zero h0] at hdc
  rw [amWritePdu, if_neg hlen, if_pos hdc]

theorem amWritePdu_control {w : Work} {pdu : Bytes} (hne : pdu ≠ []) (hdc : wireBit pdu 0 = false) :
    amWritePdu pdu w = statusReceive pdu w := by
  rw [amWritePdu, if_neg (mt List.eq_nil_of_length_eq_zero hne), if_neg (Bool.eq_false_iff.mp hdc)]

/-! ## WRITE_PDU -/

/-- WRITE_PDU on an active bearer, R231. -/
theorem exec_writePdu {l : Lcid} {s : State} (ha : (s.slot l).active = true) (pdu : Bytes) :
    exec (.writePdu l 0 pdu) s = commit s (writePdu pdu (s.enter l)) [] := by
  simp [exec, execWritePdu, ha]

/-- A received PDU that is dropped changes nothing and leaves its DROP event, R354. -/
theorem exec_writePdu_of_drop {l : Lcid} {s : State} (ha : (s.slot l).active = true) {pdu : Bytes} {reason : DropReason}
    (hw : writePdu pdu (s.enter l) = (s.enter l).drop reason) :
    exec (.writePdu l 0 pdu) s = .next (s.after l (s.slot l) (s.tags l) [] [.drop l reason]) := by
  rw [exec_writePdu ha, hw, commit_eq]
  rfl

/-- Settles O24: each malformed PDU is dropped by the procedure that receives it, a contradicting piece because it does not
merge (`merge_of_contradicts`). -/
theorem malformedPduOnlyDrops : Obligations.MalformedPduOnlyDrops := by
  rintro l pdu s v rfl ha
  have hum : (s.slot l).cfg.mode = .um → writePdu pdu (s.enter l) = umWritePdu pdu (s.enter l) := fun hm => by
    simp [writePdu, hm]
  have ham : (s.slot l).cfg.mode = .am → writePdu pdu (s.enter l) = amWritePdu pdu (s.enter l) := fun hm => by
    simp [writePdu, hm]
  refine ⟨fun hbad => exec_writePdu_of_drop ha ?_, fun hm hne hdc hbad => exec_writePdu_of_drop ha ?_⟩
  · rcases hbad with ⟨hm, hu⟩ | ⟨hm, rfl⟩ | ⟨hm, hdc, hu⟩ | ⟨hm, hdc, h, n, hu, hin, hbad⟩
    · rw [hum hm, umWritePdu_of_unpack_none hu]
    · rw [ham hm]
      rfl
    · rw [ham hm, amWritePdu_data hdc, amDataReceive_of_unpack_none hu]
    · obtain ⟨hso, hlast⟩ := pieceOf_so_last h (pdu.drop n).length
      rw [← hso, ← hlast, ← List.length_drop] at hbad
      rw [ham hm, amWritePdu_data hdc]
      exact amDataReceive_of_merge_none (w := s.enter l) hu hin (hbad.elim (merge_of_contradicts (len_pieceOf h _)) id)
  · rw [ham hm, amWritePdu_control hne hdc]
    exact statusReceive_of_not_inContext (w := s.enter l) fun st hu => inContext_eq_false (hbad st hu)

end Sys2Proof.Machine
end

section
/-! PROOFS. The configuration block (30_encoding.md R107; 42_bearer_ctrl.md R182): which blocks are accepted, and as what. -/

namespace Sys2Proof.Machine

/-! ## The bytes of the block, one by one -/

theorem modeOf_eq_some_iff {x : Nat} {m : Mode} : modeOf x = some m ↔ x = modeByte m := by
  constructor
  · intro h
    unfold modeOf at h
    split at h <;> cases h <;> rfl
  · rintro rfl
    cases m <;> rfl

theorem snWidthOf_eq_some_iff {m : Mode} {x : Nat} {w : SnWidth} :
    snWidthOf m x = some w ↔ x = w.bits ∧ (m = .am → w = .w10) := by
  constructor
  · intro h
    unfold snWidthOf at h
    split at h <;> cases h <;> simp [SnWidth.bits]
  · rintro ⟨rfl, ham⟩
    cases m with
    | um => cases w <;> rfl
    | am => rw [ham rfl]; rfl

theorem liWidthOf_eq_some_iff {x : Nat} {w : LiWidth} :
    liWidthOf x = some w ↔ x ∈ [0, 11, 15] ∧ w.bits = if x = 15 then 15 else 11 := by
  constructor
  · intro h
    unfold liWidthOf at h
    split at h <;> cases h <;> simp [LiWidth.bits]
  · rintro ⟨hx, hw⟩
    obtain rfl | rfl | rfl : x = 0 ∨ x = 11 ∨ x = 15 := by simpa using hx
    all_goals cases w <;> simp_all [liWidthOf, LiWidth.bits]

/-- The reserved bytes at the end of the block, as a number. -/
theorem u16be_reserved_eq_zero_iff {b : Bytes} (hlen : b.length = 20) : u16be b 18 = 0 ↔ b.drop 18 = [0, 0] := by
  obtain ⟨x, y, hxy⟩ := List.length_eq_two.mp (show (b.drop 18).length = 2 by rw [List.length_drop, hlen])
  have hread : u16be b 18 = x.toNat * 256 + y.toNat := by
    rw [← List.take_append_drop 18 b, hxy]
    have := u16be_append_right (b.take 18) [x, y] 0
    rwa [List.length_take, hlen] at this
  have hx : x.toNat = 0 ↔ x = 0 := BitVec.toNat_inj (y := 0)
  have hy : y.toNat = 0 ↔ y = 0 := BitVec.toNat_inj (y := 0)
  simp only [hread, hxy, List.cons.injEq, and_true, ← hx, ← hy]
  omega

/-! ## Acceptance -/

/-- The block passes every check of R182, with these mode and widths. -/
structure BlockOk (b : Bytes) (m : Mode) (snw : SnWidth) (liw : LiWidth) : Prop where
  modeOk : modeOf (u8 b 0) = some m
  snwOk : snWidthOf m (u8 b 1) = some snw
  liwOk : liWidthOf (u8 b 2) = some liw
  rsv : u16be b 18 = 0
  retx : m = .am → u8 b 3 ≠ 0
  window : m = .am → 1 ≤ amWOf b ∧ amWOf b ≤ 2 ^ (snw.bits - 1)

/-- The configuration that R182 makes of a block with these mode and widths. -/
def blockCfg (b : Bytes) (m : Mode) (snw : SnWidth) (liw : LiWidth) : Cfg where
  mode := m
  snw := snw
  liw := liw
  maxRetxThreshold := BitVec.ofNat 8 (u8 b 3)
  tReorderingMs := BitVec.ofNat 16 (u16be b 4)
  tStatusProhibitMs := BitVec.ofNat 16 (u16be b 6)
  tPollRetransmitMs := BitVec.ofNat 16 (u16be b 8)
  pollPdu := BitVec.ofNat 16 (u16be b 10)
  pollByte := BitVec.ofNat 32 (u32be b 12)
  amW := BitVec.ofNat 16 (amWOf b)

/-- `accept_cfg` answers a configuration exactly where every check passes. -/
theorem acceptCfg_eq_some_iff {b : Bytes} {c : Cfg} :
    acceptCfg b = some c ↔ ∃ m snw liw, BlockOk b m snw liw ∧ blockCfg b m snw liw = c := by
  constructor
  · intro h
    unfold acceptCfg at h
    split at h
    · rename_i m liw hm hliw
      split at h
      · cases h
      · rename_i snw hsnw
        split_ifs at h with hrsv hretx hwindow
        exact ⟨m, snw, liw, ⟨hm, hsnw, hliw, not_not.mp hrsv, fun ham h0 => hretx ⟨ham, h0⟩,
          fun ham => by_contra fun hw => hwindow ⟨ham, hw⟩⟩, Option.some.inj h⟩
    · cases h
  · rintro ⟨m, snw, liw, hok, rfl⟩
    have hretx : ¬ (m = .am ∧ u8 b 3 = 0) := fun h => hok.retx h.1 h.2
    have hwindow : ¬ (m = .am ∧ ¬ (1 ≤ amWOf b ∧ amWOf b ≤ 2 ^ (snw.bits - 1))) := fun h => h.2 (hok.window h.1)
    simp only [acceptCfg, hok.modeOk, hok.liwOk, hok.snwOk, hok.rsv, ne_eq, not_true_eq_false, if_false, if_neg hretx,
      if_neg hwindow, blockCfg]

/-- A block is refused on the seven conditions of R182. -/
def BlockRefused (b : Bytes) : Prop :=
  u8 b 0 ∉ [0, 1] ∨ b.drop 18 ≠ [0, 0] ∨ u8 b 2 ∉ [0, 11, 15] ∨ (u8 b 0 = 0 ∧ u8 b 1 ∉ [5, 10]) ∨
    (u8 b 0 = 1 ∧ u8 b 1 ≠ 10) ∨ (u8 b 0 = 1 ∧ u8 b 3 = 0) ∨
    (u8 b 0 = 1 ∧ ¬ (1 ≤ amWOf b ∧ amWOf b ≤ 2 ^ (u8 b 1 - 1)))

theorem not_blockRefused_of_blockOk {b : Bytes} (hlen : b.length = 20) {m : Mode} {snw : SnWidth} {liw : LiWidth}
    (hok : BlockOk b m snw liw) : ¬ BlockRefused b := by
  obtain ⟨hm, hsnw, hliw, hrsv, hretx, hwindow⟩ := hok
  obtain ⟨hsn, ham⟩ := snWidthOf_eq_some_iff.mp hsnw
  have hmode := modeOf_eq_some_iff.mp hm
  have hli := (liWidthOf_eq_some_iff.mp hliw).1
  rw [← hsn] at hwindow
  have hrsv := (u16be_reserved_eq_zero_iff hlen).mp hrsv
  cases m with
  | um => cases snw <;> simp_all [BlockRefused, modeByte, SnWidth.bits]
  | am => simp_all [BlockRefused, modeByte, SnWidth.bits]

theorem exists_blockOk_of_not_blockRefused {b : Bytes} (hlen : b.length = 20) (h : ¬ BlockRefused b) :
    ∃ m snw liw, BlockOk b m snw liw := by
  simp only [BlockRefused, not_or, not_not, not_and] at h
  obtain ⟨hmode, hrsv, hli, hsnUm, hsnAm, hretx, hwindow⟩ := h
  have hrsv := (u16be_reserved_eq_zero_iff hlen).mpr hrsv
  obtain ⟨liw, hliw⟩ : ∃ liw : LiWidth, liw.bits = if u8 b 2 = 15 then 15 else 11 := by
    split
    · exact ⟨.w15, rfl⟩
    · exact ⟨.w11, rfl⟩
  have hliw := liWidthOf_eq_some_iff.mpr ⟨hli, hliw⟩
  obtain h0 | h1 : u8 b 0 = 0 ∨ u8 b 0 = 1 := by simpa using hmode
  · obtain ⟨snw, hsn⟩ : ∃ snw : SnWidth, u8 b 1 = snw.bits := by
      obtain h5 | h10 : u8 b 1 = 5 ∨ u8 b 1 = 10 := by simpa using hsnUm h0
      · exact ⟨.w5, h5⟩
      · exact ⟨.w10, h10⟩
    exact ⟨.um, snw, liw, modeOf_eq_some_iff.mpr h0, snWidthOf_eq_some_iff.mpr ⟨hsn, nofun⟩, hliw, hrsv, nofun, nofun⟩
  · have hw : 1 ≤ amWOf b ∧ amWOf b ≤ 2 ^ (u8 b 1 - 1) := by simpa using hwindow h1
    rw [hsnAm h1] at hw
    exact ⟨.am, .w10, liw, modeOf_eq_some_iff.mpr h1, snWidthOf_eq_some_iff.mpr ⟨hsnAm h1, fun _ => rfl⟩, hliw, hrsv,
      fun _ => hretx h1, fun _ => hw⟩

theorem acceptCfg_eq_none_iff {b : Bytes} (hlen : b.length = 20) : acceptCfg b = none ↔ BlockRefused b := by
  constructor
  · intro hnone
    by_contra hpasses
    obtain ⟨m, snw, liw, hok⟩ := exists_blockOk_of_not_blockRefused hlen hpasses
    cases hnone.symm.trans (acceptCfg_eq_some_iff.mpr ⟨m, snw, liw, hok, rfl⟩)
  · intro hrefused
    refine Option.eq_none_iff_forall_ne_some.mpr fun c hc => ?_
    obtain ⟨m, snw, liw, hok, -⟩ := acceptCfg_eq_some_iff.mp hc
    exact not_blockRefused_of_blockOk hlen hok hrefused

/-- The window of a block fits the 16 bits that the configuration gives it. -/
theorem amWOf_lt (b : Bytes) : amWOf b < 65536 := by
  have := u16be_lt b 16
  unfold amWOf
  split <;> omega

/-- Settles O13: a block is refused where a check of R182 fails (`acceptCfg_eq_none_iff`), and the fields of an accepted one are
those of `blockCfg`, none of which is wider than its place. -/
theorem configurationBlockAcceptance : Obligations.ConfigurationBlockAcceptance := by
  rintro b w hlen rfl
  refine ⟨acceptCfg_eq_none_iff hlen, fun c hc => ?_⟩
  obtain ⟨m, snw, liw, hok, rfl⟩ := acceptCfg_eq_some_iff.mp hc
  have toNat_ofNat {x n : Nat} (hx : x < 2 ^ n) : (BitVec.ofNat n x).toNat = x := BitVec.toNat_ofNat x n ▸ Nat.mod_eq_of_lt hx
  exact ⟨(modeOf_eq_some_iff.mp hok.modeOk).symm, (snWidthOf_eq_some_iff.mp hok.snwOk).1.symm,
    (liWidthOf_eq_some_iff.mp hok.liwOk).2, toNat_ofNat (u8_lt b 3), toNat_ofNat (u16be_lt b 4), toNat_ofNat (u16be_lt b 6),
    toNat_ofNat (u16be_lt b 8), toNat_ofNat (u16be_lt b 10), toNat_ofNat (u32be_lt b 12), toNat_ofNat (amWOf_lt b)⟩

end Sys2Proof.Machine
end

section
/-! PROOFS. The system and lifecycle commands (42_bearer_ctrl.md R180 to R190): the order of their checks, and what each does to
an active and to an inactive slot. -/

namespace Sys2Proof.Machine

/-! ## Checks of the header fields and of the bearer -/

section Checks

variable {s : State} {l : Lcid} {sub : Sub} {imm : Imm} {p : Bytes}

/-- NOP with a field that is not 0, R188. -/
theorem exec_nop_of_badField (hbad : l ≠ 0 ∨ sub ≠ 0 ∨ imm ≠ 0) : exec (.nop l sub imm) s = .next (s.refused .badField) :=
  require_eq_refused fun hf => absurd hbad (by simpa [and_assoc] using hf)

/-- The check of a command without payload fails where SUB or IMM is not 0, R180. -/
theorem require_of_badField (hbad : sub ≠ 0 ∨ imm ≠ 0) (k : Next) :
    require (sub == 0 && imm == 0) .badField s k = .next (s.refused .badField) :=
  require_eq_refused fun hf => absurd hbad (by simpa using hf)

/-- The check of a command with a configuration block fails where SUB is not 0 or the block has not 20 bytes, R180. -/
theorem require_of_badBlock (hbad : sub ≠ 0 ∨ p.length ≠ 20) (k : Next) :
    require (sub == 0 && p.length == 20) .badField s k = .next (s.refused .badField) :=
  require_eq_refused fun hf => absurd hbad (by simpa using hf)

theorem exec_writeSdu_of_badField (hbad : sub ≠ 0) : exec (.writeSdu l sub p) s = .next (s.refused .badField) :=
  require_eq_refused fun hf => absurd (beq_iff_eq.mp hf) hbad

theorem requireActive_of_inactive (ha : (s.slot l).active = false) (k : Next) :
    requireActive l s k = .next (s.refused .noBearer) := by
  rw [requireActive, ha]
  rfl

/-- A WRITE_SDU of an SDU that may be queued finds no bearer on an inactive slot, R211. -/
theorem exec_writeSdu_of_inactive (ha : (s.slot l).active = false) (hone : 1 ≤ p.length)
    (hmax : p.length ≤ s.params.maxSduBytes) : exec (.writeSdu l 0 p) s = .next (s.refused .noBearer) := by
  simp [exec, execWriteSdu, hone, hmax, requireActive_of_inactive ha]

end Checks

/-- Settles O9: NOP passes its one check with every field 0, and fails it otherwise (`exec_nop_of_badField`). -/
theorem nopAnswersOk : Obligations.NopAnswersOk :=
  fun _ _ _ _ => ⟨rfl, exec_nop_of_badField⟩

/-! ## The accepted commands, and refused blocks -/

section Lifecycle

variable {s : State} {l : Lcid} {p : Bytes} {c : Cfg}

theorem exec_addBearer_of_active (hp : p.length = 20) (ha : (s.slot l).active = true) :
    exec (.addBearer l 0 p) s = .next (s.refused .bearerExists) := by
  simp [exec, execAddBearer, hp, ha]

theorem exec_addBearer_of_rejected (hp : p.length = 20) (ha : (s.slot l).active = false) (hc : acceptCfg p = none) :
    exec (.addBearer l 0 p) s = .next (s.refused .configRejected) := by
  simp [exec, execAddBearer, hp, ha, hc, raise_eq]

theorem exec_addBearer_of_accepted (hp : p.length = 20) (ha : (s.slot l).active = false) (hc : acceptCfg p = some c) :
    exec (.addBearer l 0 p) s = .next (s.after l (addedSlot c (s.slot l)) (s.tags l) [] []) := by
  simp [exec, execAddBearer, hp, ha, hc, commit_eq]

theorem exec_configure_of_inactive (hp : p.length = 20) (ha : (s.slot l).active = false) :
    exec (.configure l 0 p) s = .next (s.refused .noBearer) := by
  simp [exec, execConfigure, hp, requireActive_of_inactive ha]

theorem exec_configure_of_rejected (hp : p.length = 20) (ha : (s.slot l).active = true) (hc : acceptCfg p = none) :
    exec (.configure l 0 p) s = .next (s.refused .configRejected) := by
  simp [exec, execConfigure, requireActive, hp, ha, hc, raise_eq]

theorem exec_configure_of_accepted (hp : p.length = 20) (ha : (s.slot l).active = true) (hc : acceptCfg p = some c) :
    exec (.configure l 0 p) s = commit s (reconfigure c (s.enter l)) [] := by
  simp [exec, execConfigure, requireActive, hp, ha, hc]

/-- DEL_BEARER on an active slot, R185. -/
theorem exec_delBearer_of_active (ha : (s.slot l).active = true) :
    exec (.delBearer l 0 0) s =
      .next (({ s with freeCount := s.freeCount + 1 } : State).after l (deletedSlot s.freeCount) (s.tags l) []
        (stopEvents l (s.slot l) (s.tags l))) := by
  simp [exec, execDelBearer, requireActive, ha, stopAllTimers_eq, commit_eq]

/-- REESTABLISH on an active slot, R184. -/
theorem exec_reestablish_of_active (ha : (s.slot l).active = true) :
    exec (.reestablish l 0 0) s =
      .next (s.after l (initEntity (s.slot l)) (s.tags l) [] (stopEvents l (s.slot l) (s.tags l))) := by
  simp [exec, execReestablish, requireActive, ha, stopAllTimers_eq, commit_eq, initEntity]

/-! ## CONFIGURE, by the fields it changes -/

theorem structuralChange_iff {old : Cfg} :
    structuralChange old c = true ↔
      c.mode ≠ old.mode ∨ c.snw ≠ old.snw ∨ c.liw ≠ old.liw ∨ (c.mode = .am ∧ c.amW ≠ old.amW) := by
  simp [structuralChange, or_assoc]

/-- A structural change stops the timers and initialises the bearer under the new configuration, R183. -/
theorem exec_configure_of_structural (hp : p.length = 20) (ha : (s.slot l).active = true) (hc : acceptCfg p = some c)
    (h : structuralChange (s.slot l).cfg c = true) :
    exec (.configure l 0 p) s =
      .next (s.after l (initEntity { s.slot l with cfg := c }) (s.tags l) [] (stopEvents l (s.slot l) (s.tags l))) := by
  rw [exec_configure_of_accepted hp ha hc, reconfigure, slot_enter, if_pos h, stopAllTimers_eq, commit_eq]
  rfl

/-- Any other change is of the configuration alone, R183. -/
theorem exec_configure_of_not_structural (hp : p.length = 20) (ha : (s.slot l).active = true) (hc : acceptCfg p = some c)
    (h : structuralChange (s.slot l).cfg c = false) :
    exec (.configure l 0 p) s = .next (s.after l { s.slot l with cfg := c } (s.tags l) [] []) := by
  rw [exec_configure_of_accepted hp ha hc, reconfigure, slot_enter, if_neg (Bool.eq_false_iff.mp h), commit_eq]
  rfl

end Lifecycle

/-- Settles O10: each command checks its fields first (`require_of_badField`, `require_of_badBlock`), and then its bearer
(`requireActive_of_inactive`). -/
theorem upperCommandsCheckFieldsThenBearer : Obligations.UpperCommandsCheckFieldsThenBearer := by
  refine fun l sub imm p s => ⟨fun hbad => ?_, fun hbad => ?_, exec_writeSdu_of_badField, fun ha => ?_⟩
  · have hrefused := require_of_badField (s := s) hbad
    exact ⟨hrefused _, hrefused _, hrefused _, hrefused _⟩
  · have hrefused := require_of_badBlock (s := s) hbad
    exact ⟨hrefused _, hrefused _⟩
  · have hnone := requireActive_of_inactive ha
    exact ⟨hnone _, hnone _, hnone _, hnone _, fun hp => exec_configure_of_inactive hp ha, exec_writeSdu_of_inactive ha⟩

/-- Settles O14: the slot of an accepted ADD_BEARER is `addedSlot`, which is `init_entity` with the counters at 0. -/
theorem addBearerStartsFresh : Obligations.AddBearerStartsFresh := by
  refine fun l sub p s => ⟨fun hbad => require_of_badBlock hbad _, exec_addBearer_of_active, exec_addBearer_of_rejected,
    fun hp ha c hc => ⟨addedSlot c (s.slot l), exec_addBearer_of_accepted hp ha hc, rfl, rfl, ?_, rfl⟩⟩
  exact initEntity_fresh { s.slot l with cfg := c }

/-- Settles O15: `structuralChange` tells the two cases of an accepted block apart (`structuralChange_iff`). -/
theorem configureResetsOnStructuralChange : Obligations.ConfigureResetsOnStructuralChange := by
  rintro l p s old hp ha rfl
  refine ⟨exec_configure_of_rejected hp ha, fun c hc => ⟨fun hstruct => ?_, fun hmode hsnw hliw hamW => ?_⟩⟩
  · exact ⟨_, exec_configure_of_structural hp ha hc (structuralChange_iff.mpr hstruct), ha, rfl, initEntity_fresh _, rfl⟩
  · refine exec_configure_of_not_structural hp ha hc (Bool.eq_false_iff.mpr fun hstruct => ?_)
    rcases structuralChange_iff.mp hstruct with h | h | h | ⟨ham, h⟩
    · exact h hmode
    · exact h hsnw
    · exact h hliw
    · exact h (hamW ham)

/-! ## The transport commands after a bearer has ended or been reset -/

section Transport

variable {s : State} {l : Lcid}

theorem timerKindOf_of_le {k : Sub} (hk : k.toNat ≤ 2) : ∃ j, timerKindOf k = some j := by
  unfold timerKindOf
  obtain h | h | h : k.toNat = 0 ∨ k.toNat = 1 ∨ k.toNat = 2 := by omega
  all_goals exact ⟨_, by rw [h]; rfl⟩

/-- An expiry of a timer that does not run is ignored, whatever its kind and tag, R363. -/
theorem exec_timerExpiry_of_stopped (hoff : (s.slot l).active = true → ∀ j, (s.slot l).running.get j = false) {k : Sub}
    (hk : k.toNat ≤ 2) (g : Imm) : exec (.timerExpiry l k g) s = .next (s.answer []) := by
  obtain ⟨j, hj⟩ := timerKindOf_of_le hk
  have hstale : expiryCurrent j g (s.enter l) = false := by
    cases ha : (s.slot l).active
    · simp [expiryCurrent, ha]
    · simp [expiryCurrent, hoff ha j]
  simp [exec, execTimerExpiry, hj, hstale, finish_eq]

/-- The transport commands of the data path on an inactive slot answer empty or 0 and do nothing, R352. -/
theorem exec_transport_of_inactive (ha : (s.slot l).active = false) (b : Imm) (p : Bytes) :
    exec (.readPdu l 0 b) s = .next (s.answer []) ∧ exec (.writePdu l 0 p) s = .next (s.answer []) ∧
      exec (.getBufferState l 0 0) s = .next (s.answer [0, 0, 0, 0]) := by
  have hzero : put32 0 = [0, 0, 0, 0] := rfl
  simp [exec, execReadPdu, execWritePdu, execGetBufferState, bufferState, ha, finish_eq, hzero]

end Transport

/-- Settles O16: the slot after REESTABLISH is that of `init_entity`, in which no timer runs, so that no expiry is current. -/
theorem reestablishResetsAndDisarmsTimers : Obligations.ReestablishResetsAndDisarmsTimers := by
  refine fun l sub imm s => ⟨fun hbad => require_of_badField hbad _, fun ha => requireActive_of_inactive ha _,
    fun ha => ?_⟩
  have hexec := exec_reestablish_of_active ha
  have hfresh := initEntity_fresh (s.slot l)
  refine ⟨_, hexec, ha, rfl, hfresh, rfl, fun t k g ht hk => ?_⟩
  cases hexec.symm.trans ht
  obtain ⟨-, -, -, -, -, -, -, hoff⟩ := hfresh
  refine exec_timerExpiry_of_stopped (fun _ => ?_) hk g
  rwa [slot_after_same]

/-- Settles O17: the slot after DEL_BEARER is inactive, and every command finds it so; its other fields are never read. -/
theorem delBearerEndsTheBearer : Obligations.DelBearerEndsTheBearer := by
  refine fun l sub imm s => ⟨fun hbad => require_of_badField hbad _, fun ha => requireActive_of_inactive ha _,
    fun ha => ?_⟩
  refine ⟨_, _, exec_delBearer_of_active ha, rfl, rfl, ?_⟩
  generalize hv : deletedSlot s.freeCount = v
  have hgone : v.active = false := hv ▸ rfl
  generalize ht : State.after _ l v _ _ _ = t
  have ha : (t.slot l).active = false := by rw [← ht, slot_after_same, hgone]
  refine ⟨requireActive_of_inactive ha _, fun b g p k hk => ?_⟩
  obtain ⟨hread, hwrite, hbuffer⟩ := exec_transport_of_inactive ha b p
  exact ⟨hread, hwrite, hbuffer, exec_timerExpiry_of_stopped (fun h => absurd h (by simp [ha])) hk g⟩

end Sys2Proof.Machine
end

section
/-! PROOFS. What `build_elems` takes from the SDU queue (43_um_tx.md R215): which SDUs, how much of the last, and that nothing
more fits. -/

namespace Sys2Proof.Machine

/-! ## Parts of a queue -/

@[simp] theorem fi1_mkFi (first last : Bool) : fi1 (mkFi first last) = first := by cases first <;> cases last <;> rfl

@[simp] theorem fi0_mkFi (first last : Bool) : fi0 (mkFi first last) = last := by cases first <;> cases last <;> rfl

@[simp] theorem TxSdu.length_rest (q : TxSdu) : q.rest.length = q.remaining := List.length_drop

@[simp] theorem TxSdu.take_rest (q : TxSdu) : q.rest.take q.remaining = q.rest := List.take_of_length_le (by simp)

theorem TxSdu.remaining_pos {q : TxSdu} (h : q.off < q.bytes.length) : 0 < q.remaining := Nat.sub_pos_of_lt h

/-- The queue after the first `x` bytes left of the record in front have been taken, R215. -/
def leftOver (q : TxSdu) (x : Nat) (post : List TxSdu) : List TxSdu :=
  if x < q.remaining then { q with off := q.off + x } :: post else post

theorem leftOver_remaining (q : TxSdu) (post : List TxSdu) : leftOver q q.remaining post = post := if_neg (Nat.lt_irrefl _)

theorem take_append_queueBytes_leftOver {q : TxSdu} {x : Nat} (hx : x ≤ q.remaining) (post : List TxSdu) :
    q.rest.take x ++ queueBytes (leftOver q x post) = queueBytes (q :: post) := by
  rcases hx.eq_or_lt with rfl | hlt
  · rw [leftOver_remaining, TxSdu.take_rest]
    rfl
  · have hrest : ({ q with off := q.off + x } : TxSdu).rest = q.rest.drop x := by simp [TxSdu.rest]
    rw [leftOver, if_pos hlt, queueBytes, List.flatMap_cons, hrest, ← List.append_assoc, List.take_append_drop]
    rfl

theorem length_queueBytes (txq : List TxSdu) : (queueBytes txq).length = (txq.map TxSdu.remaining).sum := by
  simp [queueBytes, List.length_flatMap]

/-! ## The room for an element -/

section Loop

variable {pm : Params} {budget h dcap : Nat} {liw : LiWidth}

theorem elemRoom_nil : elemRoom pm budget h dcap liw [] = min (budget - h) dcap := by
  have hli : liBytes liw 0 = 0 := by cases liw <;> rfl
  simp [elemRoom, hli]

/-- Where there is room, one more LI may be added, and the room is what the budget or the cap leaves behind it. -/
theorem elemRoom_of_pos {elems : List Bytes} (hroom : 0 < elemRoom pm budget h dcap liw elems) :
    elems.length ≤ pm.maxLi ∧
      elemRoom pm budget h dcap liw elems =
        min (budget - (h + liBytes liw elems.length)) dcap - (elems.map List.length).sum := by
  unfold elemRoom at hroom ⊢
  dsimp only at hroom ⊢
  split_ifs at hroom ⊢ with hstop
  · exact absurd hroom (Nat.lt_irrefl 0)
  · simp only [Bool.or_eq_true, decide_eq_true_eq, not_or, not_lt] at hstop
    obtain ⟨-, hcount⟩ := hstop
    exact ⟨hcount, rfl⟩

/-- There is no room behind an element that no LI can hold, behind as many as MAX_LI allows, and where the budget or the cap is
spent. -/
theorem elemRoom_concat_eq_zero {elems : List Bytes} {e : Bytes} (hroom : elemRoom pm budget h dcap liw (elems ++ [e]) = 0) :
    liw.max < e.length ∨ pm.maxLi < elems.length + 1 ∨
      min (budget - (h + liBytes liw (elems.length + 1))) dcap ≤ (elems.map List.length).sum + e.length := by
  simp only [elemRoom, List.getLast?_append, List.getLast?_singleton, Option.some_or, List.length_append,
    List.length_singleton, Bool.or_eq_true, decide_eq_true_eq, List.map_append, List.map_singleton, List.sum_append,
    List.sum_singleton] at hroom
  split_ifs at hroom with hstop
  · exact hstop.imp_right .inl
  · exact .inr (.inr (Nat.le_of_sub_eq_zero hroom))

/-! ## The loop of R215 -/

/-- The loop of R215, with the elements `elems` taken, ends by taking `x` bytes of the record `q` with `post` behind it: it cuts
the record only for want of room, and stops behind a whole one only where the queue ends or no room is left. -/
structure LastElement (pm : Params) (budget h dcap : Nat) (liw : LiWidth) (elems : List Bytes) (q : TxSdu) (post : List TxSdu)
    (x : Nat) : Prop where
  pos : 0 < x
  le : x ≤ q.remaining
  room : x ≤ elemRoom pm budget h dcap liw elems
  cut : x < q.remaining → x = elemRoom pm budget h dcap liw elems
  stop : x = q.remaining → post = [] ∨ elemRoom pm budget h dcap liw (elems ++ [q.rest]) = 0

/-- The first element of the loop is as much of the record in front as there is room for. -/
theorem elemLoop_cons (q : TxSdu) (post : List TxSdu) {elems : List Bytes} {room x : Nat}
    (hroom : elemRoom pm budget h dcap liw elems = room) (hpos : 0 < room) (hx : min q.remaining room = x) :
    elemLoop pm budget h dcap liw (q :: post) elems =
      if x < q.remaining then (elems ++ [q.rest.take x], true, leftOver q x post)
      else elemLoop pm budget h dcap liw post (elems ++ [q.rest.take x]) := by
  subst hroom hx
  rw [elemLoop, if_neg hpos.ne', leftOver]
  dsimp only
  split <;> rfl

theorem elemLoop_of_full {post : List TxSdu} {elems : List Bytes}
    (hfull : post = [] ∨ elemRoom pm budget h dcap liw elems = 0) :
    elemLoop pm budget h dcap liw post elems = (elems, false, post) := by
  cases post with
  | nil => rfl
  | cons q post => rw [elemLoop, if_pos (hfull.resolve_left (List.cons_ne_nil _ _))]

/-- The loop takes what is left of the records in front, each whole but the last. -/
theorem elemLoop_takes : ∀ {txq : List TxSdu} {elems : List Bytes}, txq ≠ [] → (∀ q ∈ txq, 0 < q.remaining) →
    0 < elemRoom pm budget h dcap liw elems →
    ∃ pre q post x, txq = pre ++ q :: post ∧
      LastElement pm budget h dcap liw (elems ++ pre.map TxSdu.rest) q post x ∧
      elemLoop pm budget h dcap liw txq elems =
        (elems ++ (pre.map TxSdu.rest ++ [q.rest.take x]), decide (x < q.remaining), leftOver q x post)
  | [], _, hne, _, _ => absurd rfl hne
  | q :: post, elems, _, hrem, hpos => by
    obtain ⟨hq, hpost⟩ := List.forall_mem_cons.mp hrem
    obtain ⟨room, hroom⟩ : ∃ room, elemRoom pm budget h dcap liw elems = room := ⟨_, rfl⟩
    rw [hroom] at hpos
    by_cases hcut : room < q.remaining
    · refine ⟨[], q, post, room, rfl, ?_, ?_⟩
      · simp only [List.map_nil, List.append_nil]
        exact ⟨hpos, hcut.le, hroom.ge, fun _ => hroom.symm, fun hx => absurd hx hcut.ne⟩
      · rw [elemLoop_cons q post hroom hpos (min_eq_right hcut.le), if_pos hcut]
        simp [hcut]
    · have hwhole := elemLoop_cons q post hroom hpos (min_eq_left (not_lt.mp hcut))
      rw [if_neg (Nat.lt_irrefl _), TxSdu.take_rest] at hwhole
      by_cases hfull : post = [] ∨ elemRoom pm budget h dcap liw (elems ++ [q.rest]) = 0
      · refine ⟨[], q, post, q.remaining, rfl, ?_, ?_⟩
        · simp only [List.map_nil, List.append_nil]
          exact ⟨hq, le_refl _, hroom.ge.trans' (not_lt.mp hcut), fun hx => absurd hx (Nat.lt_irrefl _), fun _ => hfull⟩
        · rw [hwhole, elemLoop_of_full hfull, leftOver_remaining]
          simp
      · obtain ⟨hne, hroom'⟩ := not_or.mp hfull
        obtain ⟨pre, r, post', x, rfl, hlast, heq⟩ := elemLoop_takes hne hpost (Nat.pos_of_ne_zero hroom')
        refine ⟨q :: pre, r, post', x, rfl, ?_, ?_⟩
        · simpa using hlast
        · rw [hwhole, heq]
          simp

/-! ## `build_elems` -/

theorem buildElems_eq_none_iff {txq : List TxSdu} : buildElems pm budget h dcap liw txq = none ↔ txq = [] ∨ budget ≤ h := by
  cases txq <;> simp [buildElems]

/-- Elements that end as the loop of R215 ends are what R215 says of a PDU and its queue. -/
theorem LastElement.builtFrom {pre post : List TxSdu} {q : TxSdu} {x : Nat}
    (hlast : LastElement pm budget h dcap liw (pre.map TxSdu.rest) q post x)
    (hfit : ElemsFit pm liw dcap (pre.map TxSdu.rest ++ [q.rest.take x])) {txq : List TxSdu} (htxq : txq = pre ++ q :: post)
    {first : Bool} (hfirst : first = true ↔ 0 < (txq.head?.map TxSdu.off).getD 0) :
    BuiltFrom pm liw budget h dcap txq (leftOver q x post) (mkFi first (decide (x < q.remaining)))
      ((pre.map TxSdu.rest).map List.length) (pre.map TxSdu.rest ++ [q.rest.take x]).flatten := by
  obtain ⟨hpos, hle, hxroom, hcut, hstop⟩ := hlast
  obtain ⟨hcount, hroom⟩ := elemRoom_of_pos (hpos.trans_le hxroom)
  have hlen : (pre.map TxSdu.rest ++ [q.rest.take x]).flatten.length = ((pre.map TxSdu.rest).map List.length).sum + x := by
    simpa using hle
  obtain ⟨hmin, -⟩ := List.forall_mem_append.mp hfit.pos
  have hmax := hfit.lis
  rw [List.dropLast_concat] at hmax
  rw [List.length_map] at hcount hroom
  refine ⟨pre, q, post, x, htxq, hpos, hle, splitFrom_flatten 0 _ _, rfl, by simpa using hfirst, by simp, ?_⟩
  simp only [hlen, List.length_map]
  refine ⟨hcount, List.forall_mem_map.mpr fun e he => ⟨hmin e he, hmax e he⟩, by omega, by omega, ?_⟩
  rcases hle.lt_or_eq with hlt | rfl
  · have := hcut hlt
    omega
  · rcases hstop rfl with rfl | hfull
    · exact .inr (.inr (.inl (leftOver_remaining q [])))
    · have := elemRoom_concat_eq_zero hfull
      rw [List.length_map, TxSdu.length_rest] at this
      omega

/-- `build_elems` meets what R215 says of it. -/
theorem builtFrom_of_buildElems {txq : List TxSdu} {b : Built} (hq : QueueShape pm txq) (hd : 0 < dcap)
    (hb : buildElems pm budget h dcap liw txq = some b) : BuiltFrom pm liw budget h dcap txq b.txq b.fi b.lis b.data := by
  unfold buildElems at hb
  split at hb
  · cases hb
  rename_i s q
  split_ifs at hb with hbudget
  have hroom : 0 < elemRoom pm budget h dcap liw [] := by
    rw [elemRoom_nil]
    omega
  obtain ⟨hfit, -, -⟩ := elemLoop_spec budget h dcap hq (elems := []) (liw := liw) ⟨by simp, by simp, by simp, by simp⟩
  obtain ⟨pre, r, post, x, htxq, hlast, heq⟩ :=
    elemLoop_takes (List.cons_ne_nil s q) (fun r hr => TxSdu.remaining_pos (hq.records r hr).1) hroom
  rw [List.nil_append] at hlast heq
  rw [heq] at hb hfit
  obtain rfl := Option.some.inj hb
  rw [List.dropLast_concat]
  exact hlast.builtFrom hfit htxq decide_eq_true_iff

/-- The LIs leave the last element a byte. -/
theorem sum_lis_lt_of_buildElems {txq : List TxSdu} {b : Built} (hq : QueueShape pm txq) (hd : 0 < dcap)
    (hb : buildElems pm budget h dcap liw txq = some b) : b.lis.sum < b.data.length := by
  obtain ⟨-, -, elems, hfit, hne, hlis, hdata⟩ := buildElems_spec hq hd hb
  obtain ⟨pre, e, rfl⟩ := (List.eq_nil_or_concat elems).resolve_left hne
  rw [List.concat_eq_append] at hfit hlis hdata
  have he := hfit.pos e (by simp)
  rw [hlis, hdata, List.dropLast_concat]
  simpa [List.length_flatten] using he

/-! ## What R215 says of the whole queue -/

theorem QueueShape.length_queueBytes_pos {txq : List TxSdu} (hq : QueueShape pm txq) (hne : txq ≠ []) :
    0 < (queueBytes txq).length := by
  cases txq with
  | nil => exact absurd rfl hne
  | cons q post =>
    have := TxSdu.remaining_pos (hq.records q List.mem_cons_self).1
    rw [length_queueBytes, List.map_cons, List.sum_cons]
    omega

theorem bsNew_nil : bsNew h liw [] = 0 := rfl

/-- The PDU that drains a queue, R213: its fixed header, an LI for each SDU but the last, and all bytes. -/
theorem bsNew_of_ne_nil {txq : List TxSdu} (hne : txq ≠ []) :
    bsNew h liw txq = h + liBytes liw (txq.length - 1) + (queueBytes txq).length := by
  rw [length_queueBytes]
  cases txq with
  | nil => exact absurd rfl hne
  | cons q post => rfl

variable {txq txq' : List TxSdu} {fi : BitVec 2} {lis : List Nat} {data : Bytes}

/-- The data field and what is left of the queue are what was queued, R210. -/
theorem BuiltFrom.append_queueBytes (hb : BuiltFrom pm liw budget h dcap txq txq' fi lis data) :
    data ++ queueBytes txq' = queueBytes txq := by
  obtain ⟨pre, q, post, x, rfl, -, hle, hsplit, rfl, -⟩ := hb
  have hdata : data = queueBytes pre ++ q.rest.take x := by
    rw [← flatten_splitData data (boundsOf lis), hsplit]
    simp [queueBytes, List.flatMap]
  rw [hdata, List.append_assoc]
  exact (congrArg (queueBytes pre ++ ·) (take_append_queueBytes_leftOver hle post)).trans List.flatMap_append.symm

/-- The LIs are those of R150, and the PDU is within the budget and the cap. -/
theorem BuiltFrom.fits (hb : BuiltFrom pm liw budget h dcap txq txq' fi lis data) :
    (lis.length ≤ pm.maxLi ∧ ∀ li ∈ lis, 1 ≤ li ∧ li ≤ liw.max) ∧
      h + liBytes liw lis.length + data.length ≤ budget ∧ data.length ≤ dcap := by
  obtain ⟨_, _, _, _, -, -, -, -, -, -, -, hcount, hlis, hbudget, hcap, -⟩ := hb
  exact ⟨⟨hcount, hlis⟩, hbudget, hcap⟩

/-- A PDU with room for every byte and LI of the queue drains it, and has the length that R213 reports. -/
theorem BuiltFrom.drains (hb : BuiltFrom pm liw budget h dcap txq txq' fi lis data) (hq' : QueueShape pm txq')
    (hfit : ∀ q ∈ txq.dropLast, q.remaining ≤ liw.max) (hcount : txq.length - 1 ≤ pm.maxLi)
    (hbudget : bsNew h liw txq ≤ budget) (hcap : (queueBytes txq).length ≤ dcap) :
    txq' = [] ∧ h + liBytes liw lis.length + data.length = bsNew h liw txq := by
  have hbytes := congrArg List.length hb.append_queueBytes
  rw [List.length_append] at hbytes
  obtain ⟨pre, q, post, x, rfl, -, hle, hsplit, hrest, -, -, -, -, -, -, hfull⟩ := hb
  have hlis : lis.length = pre.length := by simpa [splitData] using congrArg List.length hsplit
  rw [bsNew_of_ne_nil (by simp)] at hbudget ⊢
  simp only [List.length_append, List.length_cons, ← Nat.add_assoc, Nat.add_sub_cancel] at hbudget hcount ⊢
  have hdrained : txq' = [] := by
    by_contra hne
    have hleft := hq'.length_queueBytes_pos hne
    have hmono := liBytes_mono liw (Nat.le_add_right pre.length post.length)
    rw [hlis] at hfull
    rcases hfull with hfull | hfull | hfull | ⟨rfl, hfull⟩
    · omega
    · omega
    · exact hne hfull
    · have hpost : post ≠ [] := fun h0 => hne (by rw [hrest, h0]; exact leftOver_remaining q [])
      have hq := hfit q (by simp [List.dropLast_append_of_ne_nil, List.dropLast_cons_of_ne_nil hpost])
      have hlen : 1 ≤ post.length := List.length_pos_of_ne_nil hpost
      have hmono := liBytes_mono liw (Nat.add_le_add_left hlen pre.length)
      omega
  have hpost : post = [] := by
    rw [hdrained] at hrest
    split at hrest
    · cases hrest
    · exact hrest.symm
  subst hdrained hpost
  exact ⟨rfl, by rw [hlis, ← hbytes]; rfl⟩

end Loop

end Sys2Proof.Machine
end

section
/-! PROOFS. The commands of the SDU queue: WRITE_SDU, GET_BUFFER_STATE, and READ_PDU on a UM bearer (43_um_tx.md R211 to R217). -/

namespace Sys2Proof.Machine

/-! ## READ_PDU on a UM bearer -/

/-- The header of a UM PDU, R216. -/
def Slot.umdHdr (v : Slot) (b : Built) : Hdr := ⟨v.vtUs, b.fi, false, false, false, 0, b.lis⟩

/-- A UM PDU, R216. -/
def Slot.umdPdu (v : Slot) (b : Built) : Bytes := packHdr v.cfg.fmt v.cfg.liw (v.umdHdr b) ++ b.data

/-- The bearer after it has sent a UM PDU, R216. -/
def Slot.afterUmdPdu (v : Slot) (b : Built) : Slot :=
  { v with
    txq := b.txq
    vtUs := (v.vtUs + 1) % v.n
    metrics := { v.metrics with numTxPdus := v.metrics.numTxPdus + 1 } }

/-- The fixed header of a new data PDU has H0 bytes, R22 and R80. -/
theorem fixedLen_fmt (c : Cfg) : fixedLen c.fmt false = c.h0 := by
  unfold Cfg.fmt Cfg.h0
  cases c.mode <;> cases c.snw <;> rfl

theorem Cfg.h0_pos (c : Cfg) : 0 < c.h0 := fixedLen_fmt c ▸ fixedLen_pos _ _

theorem Cfg.h0_le (c : Cfg) : c.h0 ≤ 2 := by
  unfold Cfg.h0
  split <;> decide

theorem Slot.length_umdPdu (v : Slot) (b : Built) :
    (v.umdPdu b).length = v.cfg.h0 + liBytes v.cfg.liw b.lis.length + b.data.length := by
  rw [umdPdu, List.length_append, length_packHdr, ← fixedLen_fmt]
  rfl

theorem Slot.umdPdu_ne_nil (v : Slot) (b : Built) : v.umdPdu b ≠ [] := by
  refine List.ne_nil_of_length_pos ?_
  have := v.cfg.h0_pos
  rw [v.length_umdPdu]
  omega

/-- What `build_elems` gives a UM READ_PDU, R216. -/
def Slot.umBuilt (pm : Params) (v : Slot) (budget : Nat) : Option Built :=
  buildElems pm budget v.cfg.h0 Config.maxPayload v.cfg.liw v.txq

theorem umBuilt_eq_none_iff {pm : Params} {v : Slot} {budget : Nat} :
    v.umBuilt pm budget = none ↔ v.txq = [] ∨ budget ≤ v.cfg.h0 :=
  buildElems_eq_none_iff

theorem exists_umBuilt {pm : Params} {v : Slot} {budget : Nat} (hne : v.txq ≠ []) (hb : v.cfg.h0 < budget) :
    ∃ built, v.umBuilt pm budget = some built :=
  Option.ne_none_iff_exists'.mp fun hnone => (umBuilt_eq_none_iff.mp hnone).elim hne hb.not_ge

theorem umRead_of_none {w : Work} {budget : Nat} (hb : w.slot.umBuilt w.params budget = none) : umRead budget w = ([], w) := by
  rw [Slot.umBuilt] at hb
  simp only [umRead, hb]

theorem umRead_of_some {w : Work} {budget : Nat} {built : Built} (hb : w.slot.umBuilt w.params budget = some built) :
    umRead budget w = (w.slot.umdPdu built, { w with slot := w.slot.afterUmdPdu built }) := by
  rw [Slot.umBuilt] at hb
  simp only [umRead, hb]
  rfl

theorem responses_answer (s : State) (result : Bytes) :
    (s.answer result).responses = s.responses ++ [⟨.ok, result, []⟩] := rfl

section ReadPdu

variable {s : State} {l : Lcid} {b : Imm} {built : Built}

/-- READ_PDU on an active UM bearer, R214. -/
theorem exec_readPdu_um (ha : (s.slot l).active = true) (mode : (s.slot l).cfg.mode = .um) :
    exec (.readPdu l 0 b) s = commit s (umRead b.toNat (s.enter l)).2 (umRead b.toNat (s.enter l)).1 := by
  simp [exec, execReadPdu, ha, readPdu, mode]

theorem exec_readPdu_um_of_none (ha : (s.slot l).active = true) (mode : (s.slot l).cfg.mode = .um)
    (hb : (s.slot l).umBuilt s.params b.toNat = none) : exec (.readPdu l 0 b) s = .next (s.answer []) := by
  rw [exec_readPdu_um ha mode, umRead_of_none hb, commit_eq]
  exact congrArg _ (after_self s l [])

theorem exec_readPdu_um_of_some (ha : (s.slot l).active = true) (mode : (s.slot l).cfg.mode = .um)
    (hb : (s.slot l).umBuilt s.params b.toNat = some built) :
    exec (.readPdu l 0 b) s =
      .next (s.after l ((s.slot l).afterUmdPdu built) (s.tags l) ((s.slot l).umdPdu built) []) := by
  rw [exec_readPdu_um ha mode, umRead_of_some hb, commit_eq]
  rfl

/-- A UM PDU unpacks to its header, R216: the header is valid, and the LIs leave the last element a byte. -/
theorem unpackHdr_umdPdu {pm : Params} {v : Slot} (mode : v.cfg.mode = .um) (hsn : v.vtUs < v.n) (hq : QueueShape pm v.txq)
    (hb : v.umBuilt pm b.toNat = some built) :
    unpackHdr pm v.cfg.fmt v.cfg.liw (v.umdPdu built) =
      some (v.umdHdr built, (packHdr v.cfg.fmt v.cfg.liw (v.umdHdr built)).length) := by
  have hum : v.cfg.fmt ≠ .amd := by
    unfold Cfg.fmt
    rw [mode]
    cases v.cfg.snw <;> simp
  obtain ⟨⟨hcount, hlis⟩, -, -⟩ := (builtFrom_of_buildElems hq (by decide) hb).fits
  have hok : (v.umdHdr built).FixedOk v.cfg.fmt :=
    ⟨(fmt_snBits_um mode).symm ▸ hsn, fun _ => ⟨rfl, rfl⟩, fun _ => ⟨rfl, rfl⟩, nofun⟩
  obtain ⟨hpack, -⟩ := headerRoundTrip pm v.cfg.fmt v.cfg.liw
  exact hpack (v.umdHdr built) built.data (Hdr.valid_iff.mpr ⟨hcount, hlis, hok⟩)
    (sum_lis_lt_of_buildElems hq (by decide) hb) fun ham => absurd ham hum

end ReadPdu

/-- Settles O21: READ_PDU sends the PDU of `build_elems` or nothing (`umBuilt_eq_none_iff`); what R215 says of the PDU is
`builtFrom_of_buildElems`, from which its length and its bytes follow, and it unpacks to its header (`unpackHdr_umdPdu`). -/
theorem umReadSegmentsTheQueue : Obligations.UmReadSegmentsTheQueue := by
  rintro l b s v rfl ha mode hinv ⟨-, records, tail⟩
  refine ⟨fun hnone => exec_readPdu_um_of_none ha mode (umBuilt_eq_none_iff.mpr hnone), fun hne hbudget => ?_⟩
  have hq : QueueShape s.params (s.slot l).txq := ⟨records, tail⟩
  obtain ⟨built, hb⟩ := exists_umBuilt (pm := s.params) hne hbudget
  have hfrom := builtFrom_of_buildElems hq (by decide) hb
  have hdata : ((s.slot l).umdPdu built).drop (packHdr (s.slot l).cfg.fmt (s.slot l).cfg.liw ((s.slot l).umdHdr built)).length =
      built.data := List.drop_left
  refine ⟨_, _, _, built.txq, exec_readPdu_um_of_some ha mode hb, ?_,
    unpackHdr_umdPdu mode (hinv.um mode).vtUs hq hb, rfl, ?_, ?_⟩
  · obtain ⟨-, hlen, -⟩ := hfrom.fits
    rwa [Slot.length_umdPdu]
  · rw [hdata]
    exact hfrom.append_queueBytes
  · rw [hdata]
    exact hfrom

/-! ## GET_BUFFER_STATE -/

theorem u32be_put32_of_lt {n : Nat} (hn : n < 4294967296) : u32be (put32 n) 0 = n := by
  have := u32be_put32 n []
  rwa [List.append_nil, Nat.mod_eq_of_lt hn] at this

theorem put32_injective {x y : Nat} (hx : x < 4294967296) (hy : y < 4294967296) (h : put32 x = put32 y) : x = y :=
  (u32be_put32_of_lt hx).symm.trans ((congrArg (u32be · 0) h).trans (u32be_put32_of_lt hy))

section BufferState

variable {s : State} {l : Lcid} {pm : Params} {v : Slot}

/-- GET_BUFFER_STATE answers the value of R212, capped to 32 bits. -/
theorem exec_getBufferState (s : State) (l : Lcid) :
    exec (.getBufferState l 0 0) s = .next (s.answer (put32 (min (bufferState s.params (s.slot l)) 4294967295))) := rfl

/-- The report is a small number exactly where that is the value of R212. -/
theorem exec_getBufferState_eq_iff {n : Nat} (hn : n < 4294967295) :
    exec (.getBufferState l 0 0) s = .next (s.answer (put32 n)) ↔ bufferState s.params (s.slot l) = n := by
  rw [exec_getBufferState]
  constructor
  · intro h
    injection h with h
    have hr := congrArg State.responses h
    rw [responses_answer, responses_answer, List.append_cancel_left_eq] at hr
    have := put32_injective (by omega) (by omega) (congrArg Response.result (List.singleton_inj.mp hr))
    omega
  · rintro rfl
    rw [min_eq_left hn.le]

theorem bufferState_of_inactive (ha : v.active = false) : bufferState pm v = 0 := by simp [bufferState, ha]

theorem bufferState_um (ha : v.active = true) (mode : v.cfg.mode = .um) :
    bufferState pm v = bsNew v.cfg.h0 v.cfg.liw v.txq := by
  simp [bufferState, ha, mode]

theorem bufferState_am (ha : v.active = true) (mode : v.cfg.mode = .am) : bufferState pm v = bsAm pm v := by
  simp [bufferState, ha, mode]

theorem bsNew_eq_zero_iff {h : Nat} (hpos : 0 < h) {liw : LiWidth} {txq : List TxSdu} : bsNew h liw txq = 0 ↔ txq = [] := by
  refine ⟨fun hzero => by_contra fun hne => ?_, fun hnil => hnil ▸ rfl⟩
  rw [bsNew_of_ne_nil hne] at hzero
  omega

theorem bufferState_afterUmdPdu (ha : v.active = true) (mode : v.cfg.mode = .um) (built : Built) :
    bufferState pm (v.afterUmdPdu built) = bsNew v.cfg.h0 v.cfg.liw built.txq :=
  bufferState_um (v := v.afterUmdPdu built) ha mode

/-- A UM READ_PDU of the size that R213 gives drains the queue in one PDU of that size, R217. -/
theorem umBuilt_drains {built : Built} (hq : QueueShape pm v.txq)
    (hfit : ∀ q ∈ v.txq.dropLast, q.remaining ≤ v.cfg.liw.max) (hcount : v.txq.length - 1 ≤ pm.maxLi) {budget : Nat}
    (hmax : budget ≤ 65535) (hbudget : bsNew v.cfg.h0 v.cfg.liw v.txq = budget) (hb : v.umBuilt pm budget = some built) :
    built.txq = [] ∧ (v.umdPdu built).length = budget := by
  have hcap : (queueBytes v.txq).length ≤ Config.maxPayload := by
    by_cases hne : v.txq = []
    · rw [hne]
      exact Nat.zero_le _
    · rw [bsNew_of_ne_nil hne] at hbudget
      have : Config.maxPayload = 65535 := rfl
      omega
  obtain ⟨hq', -, -⟩ := buildElems_spec hq (by decide) hb
  rw [v.length_umdPdu, ← hbudget]
  exact (builtFrom_of_buildElems hq (by decide) hb).drains hq' hfit hcount hbudget.le hcap

end BufferState

/-- Settles O22: the reported size is that of the PDU which drains the queue (`umBuilt_drains`), and it is 0 exactly where the
queue is empty, so that the largest budget gives no PDU. -/
theorem umBufferStateIsConsistent : Obligations.UmBufferStateIsConsistent := by
  rintro l s v rfl ha mode ⟨-, records, tail⟩
  have hq : QueueShape s.params (s.slot l).txq := ⟨records, tail⟩
  have hpos := (s.slot l).cfg.h0_pos
  refine ⟨fun b hne hfit hcount hmax hreport => ?_, ?_⟩
  · rw [exec_getBufferState_eq_iff (by omega), bufferState_um ha mode] at hreport
    have hb : (BitVec.ofNat 16 b).toNat = b := by rw [BitVec.toNat_ofNat, Nat.mod_eq_of_lt (by omega)]
    have hbudget : (s.slot l).cfg.h0 < b := by
      have := hq.length_queueBytes_pos hne
      rw [bsNew_of_ne_nil hne] at hreport
      omega
    obtain ⟨built, hbuilt⟩ := exists_umBuilt (pm := s.params) hne hbudget
    obtain ⟨hempty, hlen⟩ := umBuilt_drains hq hfit hcount hmax hreport hbuilt
    refine ⟨_, _, exec_readPdu_um_of_some ha mode (by rwa [hb]), rfl, hlen, by rw [slot_after_same]; exact hempty, ?_⟩
    rw [exec_getBufferState_eq_iff (by decide), slot_after_same, bufferState_afterUmdPdu ha mode, hempty, bsNew_nil]
  · rw [exec_getBufferState_eq_iff (by decide), bufferState_um ha mode, bsNew_eq_zero_iff hpos]
    refine ⟨fun hnil b => exec_readPdu_um_of_none ha mode (umBuilt_eq_none_iff.mpr (.inl hnil)), fun hread => ?_⟩
    by_contra hne
    have hle := (s.slot l).cfg.h0_le
    have hbudget : (s.slot l).cfg.h0 < (65535 : Imm).toNat := hle.trans_lt (by decide)
    obtain ⟨built, hbuilt⟩ := exists_umBuilt (pm := s.params) hne hbudget
    have hnext := (exec_readPdu_um_of_some ha mode hbuilt).symm.trans (hread _)
    injection hnext with hnext
    have hr := congrArg State.responses hnext
    rw [responses_after, responses_answer, List.append_cancel_left_eq] at hr
    exact Slot.umdPdu_ne_nil _ _ (congrArg Response.result (List.singleton_inj.mp hr))

/-! ### The value, mode by mode -/

theorem bsNew_eq (h : Nat) (liw : LiWidth) (txq : List TxSdu) :
    bsNew h liw txq =
      if txq = [] then 0 else h + liBytes liw (txq.length - 1) + (txq.map fun q => q.bytes.length - q.off).sum := by
  cases txq <;> rfl

theorem statusDue_iff {v : Slot} : statusDue v = true ↔ v.statusTriggered = true ∧ v.running.prohibit = false := by
  simp [statusDue]

/-- The bytes of a segment of the pending range `[a, z)`, R283: the boundaries inside it are those between its ends. -/
theorem segLen_range (liw : LiWidth) (bounds : List Nat) (i : Nat × Nat) :
    segLen liw bounds i.1 (i.2 - i.1) =
      4 + liBytes liw (bounds.filter fun b => i.1 < b && b < i.2).length + (i.2 - i.1) := by
  have hinner : innerBounds bounds i.1 (i.2 - i.1) = bounds.filter fun b => i.1 < b && b < i.2 := by
    refine List.filter_congr fun b _ => Bool.eq_iff_iff.mpr ?_
    simp only [Bool.and_eq_true, decide_eq_true_eq]
    omega
  rw [segLen, hinner]

theorem bsEntry_eq (liw : LiWidth) (e : RetxEntry) :
    bsEntry liw e =
      if e.pending = [] then 0
      else if e.pending = [(0, e.data.length)] then 2 + liBytes liw e.bounds.length + e.data.length
      else (e.pending.map fun i =>
        4 + liBytes liw (e.bounds.filter fun b => i.1 < b && b < i.2).length + (i.2 - i.1)).sum := by
  simp only [bsEntry, List.isEmpty_iff, segLen_range]

/-- Settles O20: the command answers four bytes that read back as the value of R212 (`exec_getBufferState`), which is 0, `bs_new`
or `bs_am`. -/
theorem bufferStateValue : Obligations.BufferStateValue := by
  rintro l sub imm s v rfl
  have hread (n : Nat) : u32be (put32 (min n 4294967295)) 0 = min n 4294967295 := u32be_put32_of_lt (by omega)
  refine ⟨fun hbad => require_of_badField hbad _, _, exec_getBufferState s l, rfl, fun ha => ?_, fun ha mode => ?_,
    fun ha mode => ?_⟩
  · rw [hread, bufferState_of_inactive ha, Nat.zero_min]
  · rw [hread, bufferState_um ha mode, bsNew_eq]
  · rw [hread, bufferState_am ha mode, bsAm]
    simp only [bsNew_eq, bsEntry_eq, statusDue_iff, ite_or]

/-! ## WRITE_SDU -/

/-- The bearer after an SDU has joined its queue, R211. -/
def Slot.withSdu (v : Slot) (p : Bytes) : Slot :=
  { v with
    txq := v.txq ++ [⟨p, 0⟩]
    metrics := { v.metrics with numTxSdus := v.metrics.numTxSdus + 1 } }

section WriteSdu

variable {s : State} {l : Lcid} {p : Bytes}

/-- WRITE_SDU checks the size, the bearer and the queue, in this order, R211. -/
theorem exec_writeSdu (s : State) (l : Lcid) (p : Bytes) :
    exec (.writeSdu l 0 p) s =
      require (decide (1 ≤ p.length) && decide (p.length ≤ s.params.maxSduBytes)) .sduSize s
        (requireActive l s
          (require (decide ((s.slot l).txq.length < s.params.qSdu)) .queueFull s
            (.next (s.after l ((s.slot l).withSdu p) (s.tags l) [] [])))) := rfl

theorem exec_writeSdu_of_badSize (hbad : p.length = 0 ∨ s.params.maxSduBytes < p.length) :
    exec (.writeSdu l 0 p) s = .next (s.refused .sduSize) := by
  rw [exec_writeSdu]
  refine require_eq_refused fun hsize => ?_
  simp only [Bool.and_eq_true, decide_eq_true_eq] at hsize
  omega

/-- WRITE_SDU of an SDU of an admitted size to an active bearer asks for a place in the queue. -/
theorem exec_writeSdu_of_active (ha : (s.slot l).active = true) (hone : 1 ≤ p.length)
    (hmax : p.length ≤ s.params.maxSduBytes) :
    exec (.writeSdu l 0 p) s =
      require (decide ((s.slot l).txq.length < s.params.qSdu)) .queueFull s
        (.next (s.after l ((s.slot l).withSdu p) (s.tags l) [] [])) := by
  rw [exec_writeSdu, decide_eq_true hone, decide_eq_true hmax, Bool.and_self, require_true, requireActive, ha, require_true]

end WriteSdu

/-- Settles O19: the checks come in the order of R211, and the SDU of a command that passes them all joins the queue
(`exec_writeSdu_of_active`). -/
theorem writeSduAppends : Obligations.WriteSduAppends := by
  rintro l p s v rfl
  refine ⟨fun sub hbad => exec_writeSdu_of_badField hbad, exec_writeSdu_of_badSize, fun hone hmax =>
    ⟨fun ha => exec_writeSdu_of_inactive ha hone hmax, fun ha hfull => ?_, fun ha hroom => ?_⟩⟩
  · rw [exec_writeSdu_of_active ha hone hmax, decide_eq_false hfull.not_gt, require_false]
  · rw [exec_writeSdu_of_active ha hone hmax, decide_eq_true hroom, require_true]
    rfl

end Sys2Proof.Machine
end

section
/-! PROOFS. UM receive as equations (44_um_rx.md R233 to R236): what `VR_UR` passes, where it stops, and what the reordering timer
is told. -/

namespace Sys2Proof.Machine

/-! ## Intervals of the circle -/

theorem snRun_add {n : Nat} : ∀ (j k : Nat) {a : Nat}, a < n → snRun n a (j + k) = snRun n a j ++ snRun n ((a + j) % n) k
  | 0, k, a, ha => by rw [Nat.zero_add, Nat.add_zero, Nat.mod_eq_of_lt ha]; rfl
  | j + 1, k, a, ha => by
    have hnext : (modN n (a + 1) + j) % n = (a + (j + 1)) % n := by rw [modN, Nat.mod_add_mod, Nat.add_assoc, Nat.add_comm 1 j]
    rw [Nat.succ_add, snRun, snRun_add j k (succ_spec ha).1, hnext]
    rfl

/-- An interval is cut at any SN in it. -/
theorem snInterval_append {n a b c : Nat} (ha : a < n) (hb : b < n) (hc : c < n) (h : rel n b a ≤ rel n c a) :
    snInterval n a b ++ snInterval n b c = snInterval n a c := by
  have hcut := snRun_add (rel n b a) (rel n c b) ha
  rw [rel_add_rel hc hb ha h, Nat.add_sub_cancel' h, add_rel_mod hb ha] at hcut
  rw [snInterval, snInterval, snInterval, hcut, rel_add_rel hc hb ha h]

@[simp] theorem snInterval_self {n a : Nat} (ha : a < n) : snInterval n a a = [] := by rw [snInterval, rel_self ha]; rfl

theorem snInterval_succ {n a : Nat} (hn : 1 < n) (ha : a < n) : snInterval n a ((a + 1) % n) = [a] := by
  rw [snInterval, rel_of_add ha hn]
  rfl

/-! ## Reassembly of several PDUs -/

theorem reassembleAll_append (pm : Params) (n : Nat) (look : Nat → Option Body) (ys : List Nat) : ∀ (xs : List Nat) (rsm : Rsm),
    reassembleAll pm n look (xs ++ ys) rsm =
      ((reassembleAll pm n look ys (reassembleAll pm n look xs rsm).1).1,
        (reassembleAll pm n look xs rsm).2 ++ (reassembleAll pm n look ys (reassembleAll pm n look xs rsm).1).2)
  | [], rsm => rfl
  | x :: xs, rsm => by
    rw [List.cons_append, reassembleAll, reassembleAll]
    cases look x with
    | none => exact reassembleAll_append pm n look ys xs rsm
    | some p => simp only [reassembleAll_append pm n look ys xs, List.append_assoc]

theorem reassembleAll_congr (pm : Params) (n : Nat) {look look' : Nat → Option Body} : ∀ {sns : List Nat} (rsm : Rsm),
    (∀ sn ∈ sns, look sn = look' sn) → reassembleAll pm n look sns rsm = reassembleAll pm n look' sns rsm
  | [], _, _ => rfl
  | sn :: sns, rsm, h => by
    obtain ⟨hsn, hsns⟩ := List.forall_mem_cons.mp h
    rw [reassembleAll, reassembleAll, hsn]
    cases look' sn with
    | none => exact reassembleAll_congr pm n rsm hsns
    | some p => simp only [reassembleAll_congr pm n _ hsns]

/-! ## Passing SNs, R233 -/

/-- What a UM buffer holds apart from the PDUs of a list of SNs. -/
def without (sns : List Nat) (rxu : SnMap Body) : SnMap Body := rxu.filter fun e => !sns.contains e.1

/-- How many SNs of a list a UM buffer does not hold. -/
def missing (rxu : SnMap Body) (sns : List Nat) : Nat := (sns.filter fun sn => !(mapKeys rxu).contains sn).length

theorem mem_mapKeys_without {sns : List Nat} {rxu : SnMap Body} {k : Nat} :
    k ∈ mapKeys (without sns rxu) ↔ k ∈ mapKeys rxu ∧ k ∉ sns := by
  simp only [without, mapKeys, List.mem_map, List.mem_filter, Bool.not_eq_true', List.contains_eq_mem, decide_eq_false_iff_not]
  constructor
  · rintro ⟨e, ⟨he, hno⟩, rfl⟩
    exact ⟨⟨e, he, rfl⟩, hno⟩
  · rintro ⟨⟨e, he, rfl⟩, hno⟩
    exact ⟨e, ⟨he, hno⟩, rfl⟩

theorem mapGet_without {sns : List Nat} {k : Nat} (hk : k ∉ sns) : ∀ rxu : SnMap Body, mapGet k (without sns rxu) = mapGet k rxu
  | [] => rfl
  | (j, b) :: rxu => by
    have ih := mapGet_without hk rxu
    simp only [without, List.contains_eq_mem] at ih ⊢
    by_cases hj : j ∈ sns
    · have hne : j ≠ k := fun he => hk (he ▸ hj)
      simpa [hj, mapGet, hne] using ih
    · simp [hj, mapGet, ih]

@[simp] theorem without_nil (rxu : SnMap Body) : without [] rxu = rxu := by simp [without]

theorem without_append (xs ys : List Nat) (rxu : SnMap Body) : without ys (without xs rxu) = without (xs ++ ys) rxu := by
  simp [without, List.filter_filter, Bool.and_comm]

@[simp] theorem missing_nil (rxu : SnMap Body) : missing rxu [] = 0 := rfl

theorem missing_append (rxu : SnMap Body) (xs ys : List Nat) : missing rxu (xs ++ ys) = missing rxu xs + missing rxu ys := by
  simp [missing]

theorem missing_of_held {rxu : SnMap Body} {sns : List Nat} (h : ∀ sn ∈ sns, sn ∈ mapKeys rxu) : missing rxu sns = 0 := by
  simpa [missing] using h

theorem missing_without {rxu : SnMap Body} {xs ys : List Nat} (h : ∀ y ∈ ys, y ∉ xs) :
    missing (without xs rxu) ys = missing rxu ys := by
  refine congrArg List.length (List.filter_congr fun y hy => ?_)
  simp [mem_mapKeys_without, h y hy]

/-- What R233 leaves of a command's work when `VR_UR` has passed the SNs of a list and stands at `ur`: their PDUs have gone from
`RXU` to reassembly, and those not held count as lost. -/
def Work.passed (w : Work) (ur : Nat) (sns : List Nat) : Work :=
  let fed := reassembleAll w.params w.slot.n (fun sn => mapGet sn w.slot.rxu) sns w.slot.rsm
  { w with
    slot :=
      { w.slot with
        vrUr := ur
        rxu := without sns w.slot.rxu
        rsm := fed.1
        metrics :=
          { w.slot.metrics with
            numRxSdus := w.slot.metrics.numRxSdus + BitVec.ofNat 32 fed.2.length
            numLostPdus := w.slot.metrics.numLostPdus + BitVec.ofNat 32 (missing w.slot.rxu sns) } }
    events := w.events ++ fed.2.map (.deliverSdu w.lcid) }

/-- `Work.passed` with what it leaves in `RXU` and how many SNs it has lost under other names. -/
theorem passed_eq {w : Work} {ur lost : Nat} {sns : List Nat} {rxu : SnMap Body} {fed : Rsm × List Bytes}
    (hrxu : without sns w.slot.rxu = rxu) (hlost : missing w.slot.rxu sns = lost)
    (hfed : reassembleAll w.params w.slot.n (fun sn => mapGet sn w.slot.rxu) sns w.slot.rsm = fed) :
    w.passed ur sns =
      { w with
        slot :=
          { w.slot with
            vrUr := ur
            rxu := rxu
            rsm := fed.1
            metrics :=
              { w.slot.metrics with
                numRxSdus := w.slot.metrics.numRxSdus + BitVec.ofNat 32 fed.2.length
                numLostPdus := w.slot.metrics.numLostPdus + BitVec.ofNat 32 lost } }
        events := w.events ++ fed.2.map (.deliverSdu w.lcid) } := by
  rw [← hrxu, ← hlost, ← hfed]
  rfl

theorem passed_nil (w : Work) : w.passed w.slot.vrUr [] = w := by
  simp [Work.passed, reassembleAll]

/-- Passing one list of SNs and then another is passing both. -/
theorem passed_passed (w : Work) (a b : Nat) {xs ys : List Nat} (h : ∀ y ∈ ys, y ∉ xs) :
    (w.passed a xs).passed b ys = w.passed b (xs ++ ys) := by
  have hlook (rsm : Rsm) : reassembleAll w.params w.slot.n (fun sn => mapGet sn (without xs w.slot.rxu)) ys rsm =
      reassembleAll w.params w.slot.n (fun sn => mapGet sn w.slot.rxu) ys rsm :=
    reassembleAll_congr _ _ _ fun y hy => mapGet_without (h y hy) _
  have hn : (w.passed a xs).slot.n = w.slot.n := rfl
  unfold Work.passed at hn ⊢
  simp only [hn, hlook, without_append, missing_without h, reassembleAll_append, missing_append, List.length_append,
    BitVec.ofNat_add, BitVec.add_assoc, List.map_append, List.append_assoc]

/-- One SN passed. -/
theorem umPass_eq (w : Work) (sn : Nat) : umPass w sn = w.passed (modN w.slot.n (sn + 1)) [sn] := by
  have hdel : mapDel sn w.slot.rxu = without [sn] w.slot.rxu := by
    refine List.filter_congr fun e _ => ?_
    simp [bne, beq_eq_decide]
  unfold umPass
  dsimp only
  split
  · rename_i p hg
    have hheld : missing w.slot.rxu [sn] = 0 := missing_of_held (by simpa using mem_mapKeys.mpr ⟨p, hg⟩)
    rw [rsmFeed_eq]
    simp only [Work.passed, Work.reassembled, Work.upd, reassembleAll, hg, hheld, hdel, List.append_nil, BitVec.add_zero]
    rfl
  · rename_i hg
    have hno : sn ∉ mapKeys w.slot.rxu := mapGet_eq_none.mp hg
    have hlost : missing w.slot.rxu [sn] = 1 := by simp [missing, hno]
    have hkeep : without [sn] w.slot.rxu = w.slot.rxu := by
      refine List.filter_eq_self.mpr fun e he => ?_
      have hne : e.1 ≠ sn := fun h => hno (h ▸ List.mem_map_of_mem he)
      simpa using hne
    simp only [Work.passed, Work.countLostPdu, Work.upd, reassembleAll, hg, hlost, hkeep, List.map_nil, List.append_nil]
    simp
    rfl

theorem foldl_umPass_eq : ∀ (m : Nat) {w : Work}, w.slot.vrUr < w.slot.n → m ≤ w.slot.n →
    (snRun w.slot.n w.slot.vrUr m).foldl umPass w = w.passed ((w.slot.vrUr + m) % w.slot.n) (snRun w.slot.n w.slot.vrUr m)
  | 0, w, hr, _ => by
    rw [Nat.add_zero, Nat.mod_eq_of_lt hr]
    exact (passed_nil w).symm
  | m + 1, w, hr, hm => by
    have hs := (succ_spec hr).1
    have ih := foldl_umPass_eq m (w := umPass w w.slot.vrUr)
    rw [umPass_eq] at ih
    have hstop : (modN w.slot.n (w.slot.vrUr + 1) + m) % w.slot.n = (w.slot.vrUr + (m + 1)) % w.slot.n := by
      rw [modN, Nat.mod_add_mod, Nat.add_assoc, Nat.add_comm 1 m]
    rw [snRun, List.foldl_cons, umPass_eq]
    refine (ih hs (Nat.le_of_succ_le hm)).trans ?_
    rw [passed_passed]
    · exact congrArg (fun ur => w.passed ur _) hstop
    · intro y hy hmem
      obtain ⟨j, hj, rfl⟩ := (mem_snRun hs (Nat.le_of_succ_le hm)).mp hy
      rw [List.mem_singleton] at hmem
      have hrel := rel_of_add hr (k := j + 1) (by omega)
      rw [modN, Nat.mod_add_mod, Nat.add_assoc, Nat.add_comm 1 j] at hmem
      rw [hmem, rel_self hr] at hrel
      cases hrel

/-- `um_advance`, R233. -/
theorem umAdvance_eq {w : Work} {stop : Nat} (hr : w.slot.vrUr < w.slot.n) (hs : stop < w.slot.n) :
    umAdvance stop w = w.passed stop (snInterval w.slot.n w.slot.vrUr stop) := by
  have h := foldl_umPass_eq (rel w.slot.n stop w.slot.vrUr) hr (rel_lt_of_pos w.slot.n_pos _ _).le
  rwa [add_rel_mod hs hr] at h

theorem umAdvance_self {w : Work} (hr : w.slot.vrUr < w.slot.n) : umAdvance w.slot.vrUr w = w := by
  rw [umAdvance_eq hr hr, snInterval_self hr, passed_nil]

/-- Advancing by way of an SN between. -/
theorem umAdvance_umAdvance {w : Work} {mid stop : Nat} (hr : w.slot.vrUr < w.slot.n) (hm : mid < w.slot.n)
    (hs : stop < w.slot.n) (h : rel w.slot.n mid w.slot.vrUr ≤ rel w.slot.n stop w.slot.vrUr) :
    umAdvance stop (umAdvance mid w) = umAdvance stop w := by
  have hgo : umAdvance stop (umAdvance mid w) = (snInterval w.slot.n mid stop).foldl umPass (umAdvance mid w) := by
    rw [umAdvance_eq hr hm]
    rfl
  rw [hgo]
  unfold umAdvance
  rw [← List.foldl_append, snInterval_append hr hm hs h]

/-- What passing an interval leaves in `RXU`: the SNs that do not lie before its end. -/
theorem without_snInterval {n r stop : Nat} {rxu : SnMap Body} (hr : r < n) (hlt : ∀ k ∈ mapKeys rxu, k < n) :
    without (snInterval n r stop) rxu = rxu.filter fun e => rel n stop r ≤ rel n e.1 r := by
  refine List.filter_congr fun e he => ?_
  have hmem := mem_snInterval (b := stop) hr (hlt e.1 (List.mem_map_of_mem he))
  rw [List.contains_eq_mem, ← decide_not, decide_eq_decide, hmem, not_lt]

/-! ## The first gap, R234 step 3 and R236 -/

/-- Every SN that `VR_UR` moves over to the first gap is held. -/
theorem umGap_held {v : Slot} (hr : v.vrUr < v.n) {j : Nat} (hj : j < rel v.n (umGap v) v.vrUr) :
    (v.vrUr + j) % v.n ∈ mapKeys v.rxu := by
  obtain ⟨m, -, he, hall, -⟩ := snSkip_spec v.n (fun t => mapHas t v.rxu) v.n v.vrUr hr
  rw [show umGap v = (v.vrUr + m) % v.n from he, rel_add_eq_mod hr] at hj
  exact mapHas_iff.mp (hall j (hj.trans_le (Nat.mod_le _ _)))

theorem umGap_of_not_held {v : Slot} (h : v.vrUr ∉ mapKeys v.rxu) : umGap v = v.vrUr := by
  have hno : mapHas v.vrUr v.rxu = false := Bool.eq_false_iff.mpr fun hh => h (mapHas_iff.mp hh)
  obtain ⟨n, hn⟩ := Nat.exists_eq_succ_of_ne_zero v.n_pos.ne'
  rw [umGap, hn, snSkip, hno]
  rfl

/-- `VR_UR` has been moved to `low` and goes on to the first gap, `m` SNs further: every SN in between is held, and unless that is a
whole turn, it has passed all of `[VR_UR, low + m)` and lost what is missing from `[VR_UR, low)`. -/
theorem exists_umAdvance_umGap {w : Work} {low : Nat} (hr : w.slot.vrUr < w.slot.n) (hlow : low < w.slot.n)
    (moving : (umAdvance low w).slot.UmMoving) :
    ∃ m ≤ rel w.slot.n w.slot.vrUh low, (∀ j < m, (low + j) % w.slot.n ∈ mapKeys w.slot.rxu) ∧
      (rel w.slot.n low w.slot.vrUr + m < w.slot.n →
        rel w.slot.n ((low + m) % w.slot.n) w.slot.vrUr = rel w.slot.n low w.slot.vrUr + m ∧
        (low + m) % w.slot.n ∉ mapKeys w.slot.rxu ∧
        missing w.slot.rxu (snInterval w.slot.n w.slot.vrUr ((low + m) % w.slot.n)) =
          missing w.slot.rxu (snInterval w.slot.n w.slot.vrUr low) ∧
        umAdvance (umGap (umAdvance low w).slot) (umAdvance low w) =
          w.passed ((low + m) % w.slot.n) (snInterval w.slot.n w.slot.vrUr ((low + m) % w.slot.n))) := by
  have hadv := umAdvance_eq hr hlow
  obtain ⟨hg, hle, hno⟩ := umGap_spec moving
  have hheld := @umGap_held _ moving.window.low_lt
  obtain ⟨g, hgap⟩ : ∃ g, umGap (umAdvance low w).slot = g := ⟨_, rfl⟩
  rw [hgap] at hg hle hno hheld ⊢
  rw [hadv] at hg hle hno hheld
  change g < w.slot.n at hg
  change rel w.slot.n g low ≤ rel w.slot.n w.slot.vrUh low at hle
  change ∀ {j}, j < rel w.slot.n g low → (low + j) % w.slot.n ∈ mapKeys (without _ w.slot.rxu) at hheld
  change g ∉ mapKeys (without _ w.slot.rxu) at hno
  have hall : ∀ j < rel w.slot.n g low, (low + j) % w.slot.n ∈ mapKeys w.slot.rxu := fun j hj =>
    (mem_mapKeys_without.mp (hheld hj)).1
  refine ⟨rel w.slot.n g low, hle, hall, fun hturn => ?_⟩
  have hsum := rel_trans hg hlow hr hturn
  have hbetween : rel w.slot.n low w.slot.vrUr ≤ rel w.slot.n g w.slot.vrUr := by omega
  rw [add_rel_mod hg hlow]
  refine ⟨hsum, fun hmem => hno (mem_mapKeys_without.mpr ⟨hmem, fun hin => ?_⟩), ?_, ?_⟩
  · exact absurd ((mem_snInterval hr hg).mp hin) (not_lt.mpr hbetween)
  · have hrun : missing w.slot.rxu (snInterval w.slot.n low g) = 0 := missing_of_held fun sn hsn => by
      obtain ⟨j, hj, rfl⟩ := (mem_snRun hlow (rel_lt_of_pos w.slot.n_pos g low).le).mp hsn
      exact hall j hj
    rw [← snInterval_append hr hlow hg hbetween, missing_append, hrun, Nat.add_zero]
  · rw [umAdvance_umAdvance hr hlow hg hbetween, umAdvance_eq hr hg]

/-! ## The reordering timer, R235 -/

/-- What requests for the reordering timer leave of a command's work: it has been stopped where `stop` says so, and then started
against `VR_UH` where `start` says so. -/
def Work.retimed (w : Work) (stop start : Bool) : Work :=
  { w with
    slot :=
      { w.slot with
        vrUx := if start then w.slot.vrUh else w.slot.vrUx
        running := { w.slot.running with reord := start || (w.slot.running.reord && !stop) } }
    tags := if start then { w.tags with reord := w.tags.reord + 1 } else w.tags
    events := w.events ++ (if stop then [.timerStop w.lcid .reord w.tags.reord] else []) ++
      if start then [.timerStart w.lcid .reord (w.tags.reord + 1) w.slot.cfg.tReorderingMs] else [] }

theorem umStartReord_eq (w : Work) : umStartReord w = w.retimed false true := by
  simp [umStartReord, Work.startTimer, Work.emit, Work.upd, Work.retimed, PerTimer.set, PerTimer.get, Cfg.duration]

theorem retimed_false (w : Work) : w.retimed false false = w := by simp [Work.retimed]

/-- The running timer is stopped, R235. -/
def Slot.umStops (v : Slot) : Bool := v.running.reord && umTimerObsolete v

/-- The timer is started, R235. -/
def Slot.umStarts (v : Slot) : Bool :=
  (!v.running.reord || v.umStops) && decide (rel v.n v.vrUr v.umBase < rel v.n v.vrUh v.umBase)

theorem Slot.umStops_iff {v : Slot} : v.umStops = true ↔ v.running.reord = true ∧
    (rel v.n v.vrUx v.umBase ≤ rel v.n v.vrUr v.umBase ∨
      (v.cfg.umW ≤ rel v.n v.vrUx v.umBase ∧ v.vrUx ≠ v.vrUh)) := by
  simp [umStops, umTimerObsolete, inside]

theorem Slot.umStarts_iff {v : Slot} : v.umStarts = true ↔
    (v.running.reord = false ∨ v.umStops = true) ∧ rel v.n v.vrUr v.umBase < rel v.n v.vrUh v.umBase := by
  simp [umStarts]

/-- `um_timers`, R235. -/
theorem umTimers_eq (w : Work) : umTimers w = w.retimed w.slot.umStops w.slot.umStarts := by
  by_cases hstop : w.slot.umStops = true
  · have hafter : umTimers w = if decide (rel w.slot.n w.slot.vrUr w.slot.umBase < rel w.slot.n w.slot.vrUh w.slot.umBase) then
        umStartReord (w.stopTimer .reord) else w.stopTimer .reord := by
      rw [umTimers, show (w.slot.running.reord && umTimerObsolete w.slot) = true from hstop]
      rfl
    rw [hafter, Slot.umStarts, hstop]
    cases decide (rel w.slot.n w.slot.vrUr w.slot.umBase < rel w.slot.n w.slot.vrUh w.slot.umBase)
    · simp [Work.retimed, Work.stopTimer, Work.emit, Work.upd, PerTimer.set, PerTimer.get]
    · simp [Work.retimed, umStartReord, Work.startTimer, Work.stopTimer, Work.emit, Work.upd, PerTimer.set, PerTimer.get,
        Cfg.duration]
  · have hkeep : w.slot.umStops = false := Bool.eq_false_iff.mpr hstop
    have hafter : umTimers w = if w.slot.umStarts then umStartReord w else w := by
      rw [umTimers, show (w.slot.running.reord && umTimerObsolete w.slot) = false from hkeep, Slot.umStarts, hkeep, Bool.or_false]
      rfl
    rw [hafter, hkeep]
    cases w.slot.umStarts
    · exact (retimed_false w).symm
    · exact umStartReord_eq w

end Sys2Proof.Machine
end

section
/-! PROOFS. Reception on a UM bearer (44_um_rx.md R231 to R241): where a PDU moves the window, the PDU that is expected next, stale
PDUs, and the expiry of the reordering timer. -/

namespace Sys2Proof.Machine

/-! ## Reception of a fresh PDU, R234 -/

/-- The upper end of the window after a PDU of SN `x`, R234 step 2. -/
def Slot.umHigh (v : Slot) (x : Nat) : Nat := if rel v.n x v.umBase < v.cfg.umW then v.vrUh else modN v.n (x + 1)

/-- The slot with a PDU in the window that its SN calls for. -/
def Slot.inserted (v : Slot) (x : Nat) (p : Body) : Slot := { v with rxu := mapPut x p v.rxu, vrUh := v.umHigh x }

/-- Where `VR_UR` stands when the window has moved: at the lower end, if that has passed it. -/
def Slot.umLow (v : Slot) (x : Nat) : Nat :=
  if rel v.n v.vrUr (rel v.n (v.umHigh x) v.cfg.umW) < v.cfg.umW then v.vrUr else rel v.n (v.umHigh x) v.cfg.umW

theorem Slot.umLow_lt {v : Slot} (hr : v.vrUr < v.n) (x : Nat) : v.umLow x < v.n := by
  unfold umLow
  split
  · exact hr
  · exact rel_lt_of_pos v.n_pos _ _

theorem umStale_iff {v : Slot} {x : Nat} : umStale v x = true ↔
    x ∈ mapKeys v.rxu ∨ (rel v.n x v.umBase < v.cfg.umW ∧ rel v.n x v.umBase < rel v.n v.vrUr v.umBase) := by
  simp [umStale, inside, before, mapHas_iff]

/-- A PDU that is not stale and lies inside the window does not lie below `VR_UR`. -/
theorem rel_vrUr_le_of_not_umStale {v : Slot} {x : Nat} (hfresh : umStale v x = false) (hin : rel v.n x v.umBase < v.cfg.umW) :
    rel v.n v.vrUr v.umBase ≤ rel v.n x v.umBase := by
  refine not_lt.mp fun hlt => ?_
  rw [umStale_iff.mpr (.inr ⟨hin, hlt⟩)] at hfresh
  cases hfresh

/-- Step 2 of R234 puts the PDU in the window and advances to where the window then begins. -/
theorem umInsert_eq {w : Work} {x : Nat} (hr : w.slot.vrUr < w.slot.n) (hfresh : umStale w.slot x = false) (p : Body) :
    umInsert x p w = umAdvance (w.slot.umLow x) (w.upd fun v => v.inserted x p) := by
  rcases umInsert_cases x p w with ⟨hin, he⟩ | ⟨hout, hcases⟩
  · have hhigh : w.slot.umHigh x = w.slot.vrUh := if_pos hin
    have hlow : w.slot.umLow x = w.slot.vrUr := by
      unfold Slot.umLow
      rw [hhigh]
      exact if_pos ((rel_vrUr_le_of_not_umStale hfresh hin).trans_lt hin)
    rw [he, hlow]
    refine Eq.trans ?_ (umAdvance_self (w := w.upd fun v => v.inserted x p) hr).symm
    simp only [Work.upd, Slot.inserted, hhigh]
  · have hhigh : w.slot.umHigh x = modN w.slot.n (x + 1) := if_neg hout.not_gt
    have hput : (w.upd fun v => v.inserted x p) = w.upd fun v => v.putAbove x p := by
      simp only [Work.upd, Slot.inserted, hhigh, Slot.putAbove]
    have hlow : w.slot.umLow x = if rel w.slot.n w.slot.vrUr (w.slot.putAbove x p).umBase < w.slot.cfg.umW then w.slot.vrUr
        else (w.slot.putAbove x p).umBase := by
      rw [Slot.umLow, hhigh]
      rfl
    rw [hput, hlow]
    rcases hcases with ⟨hin, he⟩ | ⟨hbelow, he⟩
    · rw [he, if_pos hin]
      exact (umAdvance_self (w := w.upd fun v => v.putAbove x p) hr).symm
    · rw [he, if_neg hbelow.not_gt]

theorem one_lt_umW (c : Cfg) : 1 < c.umW := by
  unfold Cfg.umW
  cases c.snw <;> decide

theorem Slot.umHigh_lt {v : Slot} (hh : v.vrUh < v.n) {x : Nat} (hx : x < v.n) : v.umHigh x < v.n := by
  unfold umHigh
  split
  · exact hh
  · exact (succ_spec hx).1

/-- From `VR_UR` on, the SNs that the window passes and the run held above its lower end make no whole turn. -/
theorem rel_umLow_add_lt {v : Slot} (h : v.UmInv) {x : Nat} (hx : x < v.n) (hfresh : umStale v x = false) (p : Body) {m : Nat}
    (hm : m ≤ rel v.n (v.umHigh x) (v.umLow x)) (hheld : 0 < m → v.umLow x ∈ mapKeys (mapPut x p v.rxu)) :
    rel v.n (v.umLow x) v.vrUr + m < v.n := by
  obtain ⟨hn, hpos⟩ := v.n_eq
  have hr := h.window.low_lt
  have hB : rel v.n (v.umHigh x) v.cfg.umW < v.n := rel_lt_of_pos v.n_pos _ _
  have hhigh := Slot.umHigh_lt h.window.high_lt hx
  by_cases hstay : rel v.n v.vrUr (rel v.n (v.umHigh x) v.cfg.umW) < v.cfg.umW
  · rw [Slot.umLow, if_pos hstay] at hm ⊢
    rw [rel_self hr, Nat.zero_add]
    exact hm.trans_lt (rel_lt_of_pos v.n_pos _ _)
  · have hmoved : v.umHigh x = modN v.n (x + 1) := by
      refine if_neg fun hin => hstay ?_
      rw [Slot.umHigh, if_pos hin]
      exact (rel_vrUr_le_of_not_umStale hfresh hin).trans_lt hin
    have htop := rel_sub_self hhigh (show v.cfg.umW < v.n by omega)
    rw [Slot.umLow, if_neg hstay] at hm hheld ⊢
    rw [hmoved] at hm hheld htop hB hstay ⊢
    generalize rel v.n (modN v.n (x + 1)) v.cfg.umW = base at *
    have hturn := rel_add_rel_rev hr hB (by omega)
    by_contra hfull
    obtain ⟨hwhole, hspan⟩ : m = v.cfg.umW ∧ rel v.n base v.vrUr = v.cfg.umW := by omega
    rcases (mem_mapKeys_mapPut h.window.wf).mp (hheld (by omega)) with rfl | hmem
    · have := one_lt_umW v.cfg
      have hone := rel_succ hx hx (by rw [rel_self hx]; omega)
      rw [rel_self hx] at hone
      omega
    · have hkey := h.window.keys _ hmem
      have hold := h.window.rel_high (by omega)
      omega

/-- A PDU that is not stale is inserted, `VR_UR` goes on to the first gap, and the timer is settled, R234. -/
theorem umReceive_of_fresh {w : Work} {x : Nat} {p : Body} (hfresh : umStale w.slot x = false)
    (hr : (umInsert x p w).slot.vrUr < (umInsert x p w).slot.n) :
    umReceive x p w = umTimers (umAdvance (umGap (umInsert x p w).slot) (umInsert x p w)) := by
  unfold umReceive
  rw [if_neg (by rw [hfresh]; exact Bool.false_ne_true)]
  dsimp only
  split
  · rfl
  · rename_i hno
    rw [umGap_of_not_held fun hmem => hno (mapHas_iff.mpr hmem), umAdvance_self hr]

/-- The work of a fresh PDU before the timer is settled, R234: `RXU` and `VR_UH` have become `rxu` and `uh`, `VR_UR` has gone on to
`ur`, what it passed has left `RXU`, reassembly has made `fed` of it, and `lost` SNs were missing. -/
def Work.umReceived (w : Work) (rxu : SnMap Body) (uh ur : Nat) (fed : Rsm × List Bytes) (lost : Nat) : Work :=
  { w with
    slot :=
      { w.slot with
        vrUr := ur
        vrUh := uh
        rxu := rxu.filter fun e => rel w.slot.n ur w.slot.vrUr ≤ rel w.slot.n e.1 w.slot.vrUr
        rsm := fed.1
        metrics :=
          { w.slot.metrics with
            numRxSdus := w.slot.metrics.numRxSdus + BitVec.ofNat 32 fed.2.length
            numLostPdus := w.slot.metrics.numLostPdus + BitVec.ofNat 32 lost } }
    events := w.events ++ fed.2.map (.deliverSdu w.lcid) }

/-- Reception of a PDU that is not stale, R234: it is inserted, `VR_UR` passes all SNs up to the first gap above the lower end of
the window, of which those below the lower end may be missing, and the timer is settled. -/
theorem exists_umReceive_eq {w : Work} (h : w.slot.UmInv) {x : Nat} (hx : x < w.slot.n) (hfresh : umStale w.slot x = false)
    {p : Body} {rxu : SnMap Body} {uh low : Nat} (hrxu : rxu = mapPut x p w.slot.rxu) (huh : uh = w.slot.umHigh x)
    (hlow : low = w.slot.umLow x) : ∃ (m ur : Nat) (fed : Rsm × List Bytes) (u : Work),
      ur = (low + m) % w.slot.n ∧ (∀ j < m, (low + j) % w.slot.n ∈ mapKeys rxu) ∧ ur ∉ mapKeys rxu ∧
      fed = reassembleAll w.params w.slot.n (fun sn => mapGet sn rxu) (snInterval w.slot.n w.slot.vrUr ur) w.slot.rsm ∧
      u = w.umReceived rxu uh ur fed (missing rxu (snInterval w.slot.n w.slot.vrUr low)) ∧
      umReceive x p w = u.retimed u.slot.umStops u.slot.umStarts := by
  have hr := h.window.low_lt
  have hlt : ∀ k ∈ mapKeys rxu, k < w.slot.n := fun k hk => by
    rcases (mem_mapKeys_mapPut h.window.wf).mp (hrxu ▸ hk) with rfl | hk
    · exact hx
    · exact h.window.keys_lt k hk
  subst hrxu huh hlow
  have hlow := Slot.umLow_lt hr x
  have moving := umMoving_umInsert h.toUmMoving hx hfresh p
  have hrecv := umReceive_of_fresh hfresh moving.window.low_lt
  rw [umInsert_eq hr hfresh p] at hrecv moving
  obtain ⟨m, hm, hheld, hgo⟩ := exists_umAdvance_umGap (w := w.upd fun v => v.inserted x p) hr hlow moving
  have hturn := rel_umLow_add_lt h hx hfresh p hm fun hpos => by
    have hfirst := hheld 0 hpos
    rwa [Nat.add_zero, show (w.upd fun v => v.inserted x p).slot.n = w.slot.n from rfl, Nat.mod_eq_of_lt hlow] at hfirst
  obtain ⟨-, hno, hlost, hadv⟩ := hgo hturn
  have hwork := hadv.trans (passed_eq (without_snInterval hr hlt) hlost rfl)
  exact ⟨m, _, _, _, rfl, hheld, hno, rfl, rfl, (hrecv.trans (congrArg umTimers hwork)).trans (umTimers_eq _)⟩

/-! ## WRITE_PDU on a UM bearer -/

/-- The start of a command's work on the bearer `v`. -/
def State.workOn (s : State) (l : Lcid) (v : Slot) : Work := ⟨s.params, l, v, s.tags l, []⟩

section WritePdu

variable {l : Lcid} {pdu : Bytes} {s : State} {v : Slot} {h : Hdr} {n : Nat}

/-- WRITE_PDU of a PDU that unpacks, R231. -/
theorem exec_writePdu_um (hv : v = s.slot l) (ha : v.active = true) (mode : v.cfg.mode = .um)
    (hu : unpackHdr s.params v.cfg.fmt v.cfg.liw pdu = some (h, n)) :
    exec (.writePdu l 0 pdu) s =
      commit s (umReceive h.sn ⟨h.fi, boundsOf h.lis, pdu.drop n⟩ (s.workOn l v).countRxPdu) [] := by
  subst hv
  rw [exec_writePdu ha, writePdu, slot_enter, mode]
  simp only [umWritePdu, params_enter, slot_enter, hu]
  rfl

theorem sn_lt_of_unpackHdr {pm : Params} (mode : v.cfg.mode = .um) (hu : unpackHdr pm v.cfg.fmt v.cfg.liw pdu = some (h, n)) :
    h.sn < v.n := by
  have hsn := (received_of_unpackHdr hu).sn
  rwa [fmt_snBits_um mode] at hsn

/-- A stale PDU only counts, R239. -/
theorem exec_writePdu_of_umStale (hv : v = s.slot l) (ha : v.active = true) (mode : v.cfg.mode = .um)
    (hu : unpackHdr s.params v.cfg.fmt v.cfg.liw pdu = some (h, n)) (hstale : umStale v h.sn = true) :
    exec (.writePdu l 0 pdu) s =
      .next (s.after l { v with metrics := { v.metrics with numRxPdus := v.metrics.numRxPdus + 1 } } (s.tags l) [] []) := by
  have hsame : umStale (s.workOn l v).countRxPdu.slot h.sn = true := hstale
  rw [exec_writePdu_um hv ha mode hu, umReceive, if_pos hsame]
  rfl

end WritePdu

/-! ## A bearer without a gap -/

/-- Nothing is held above `VR_UR`, and the timer does not run. -/
structure Slot.NoGap (v : Slot) : Prop where
  low_lt : v.vrUr < v.n
  high : v.vrUh = v.vrUr
  rxu : v.rxu = []
  off : v.running.reord = false

theorem Slot.UmInv.noGap {v : Slot} (h : v.UmInv) (heq : v.vrUr = v.vrUh) : v.NoGap := by
  refine ⟨h.window.low_lt, heq.symm, ?_, Bool.eq_false_iff.mpr fun hon => ?_⟩
  · have hno : mapKeys v.rxu = [] := List.eq_nil_iff_forall_not_mem.mpr fun k hk => by
      have hkey := h.window.keys k hk
      rw [heq, rel_self h.window.high_lt] at hkey
      omega
    exact List.map_eq_nil_iff.mp hno
  · obtain ⟨hlow, hhigh⟩ := h.reordOn hon
    have htop := rel_vrUh_umBase h.window.high_lt
    rw [heq] at hlow
    omega

section NoGap

variable {v : Slot} {x j : Nat}

/-- An SN less than a window above `VR_UR` is beyond the window, moves its end, and leaves `VR_UR` inside. -/
theorem Slot.NoGap.beyond (h : v.NoGap) (hx : x = (v.vrUr + j) % v.n) (hj : j < v.cfg.umW) :
    umStale v x = false ∧ v.umHigh x = (x + 1) % v.n ∧ v.umLow x = v.vrUr ∧
      rel v.n v.vrUr (rel v.n ((x + 1) % v.n) v.cfg.umW) < v.cfg.umW := by
  obtain ⟨hn, hpos⟩ := v.n_eq
  have hr := h.low_lt
  have hwn : v.cfg.umW < v.n := by omega
  have hxlt : x < v.n := hx ▸ Nat.mod_lt _ v.n_pos
  have hxr : rel v.n x v.vrUr = j := by rw [hx, rel_of_add hr (by omega)]
  have hB : v.umBase < v.n := rel_lt_of_pos v.n_pos _ _
  have htop : rel v.n v.vrUr v.umBase = v.cfg.umW := by
    rw [Slot.umBase, h.high]
    exact rel_sub_self hr hwn
  have hout : ¬ rel v.n x v.umBase < v.cfg.umW := by
    rw [rel_trans hxlt hr hB (by omega)]
    omega
  have hhigh : v.umHigh x = (x + 1) % v.n := if_neg hout
  have hin : rel v.n v.vrUr (rel v.n ((x + 1) % v.n) v.cfg.umW) < v.cfg.umW := by
    obtain ⟨hs, -⟩ := succ_spec hxlt
    change rel v.n v.vrUr (rel v.n (modN v.n (x + 1)) v.cfg.umW) < _
    have hsr := rel_succ hxlt hr (by omega)
    have hbase := rel_spec hs hwn
    have hsum := rel_spec hs hr
    have := rel_spec hr hbase.1
    omega
  refine ⟨?_, hhigh, ?_, hin⟩
  · refine Bool.eq_false_iff.mpr fun hstale => (umStale_iff.mp hstale).elim (fun hmem => ?_) fun hlow => hout hlow.1
    rw [h.rxu] at hmem
    cases hmem
  · rw [Slot.umLow, hhigh, if_pos hin]

/-- The slot with a PDU beyond a window that holds nothing, R234 step 2. -/
def Slot.heldAlone (v : Slot) (x : Nat) (p : Body) : Slot := { v with rxu := [(x, p)], vrUh := (x + 1) % v.n }

theorem Slot.NoGap.inserted_eq (h : v.NoGap) (hx : x = (v.vrUr + j) % v.n) (hj : j < v.cfg.umW) (p : Body) :
    v.inserted x p = v.heldAlone x p := by
  obtain ⟨-, hhigh, -⟩ := h.beyond hx hj
  rw [Slot.inserted, h.rxu, hhigh]
  rfl

/-- The slot after the PDU that a bearer without a gap expects: reassembly has left `rsm` and delivered `sdus` (R234). -/
def Slot.umTook (v : Slot) (rsm : Rsm) (sdus : List Bytes) : Slot :=
  { v with
    vrUr := (v.vrUr + 1) % v.n
    vrUh := (v.vrUr + 1) % v.n
    rsm := rsm
    metrics := { v.metrics with numRxSdus := v.metrics.numRxSdus + BitVec.ofNat 32 sdus.length } }

variable {w : Work}

theorem umInsert_of_noGap (h : w.slot.NoGap) (hx : x = (w.slot.vrUr + j) % w.slot.n) (hj : j < w.slot.cfg.umW) (p : Body) :
    umInsert x p w = w.upd fun v => v.heldAlone x p := by
  obtain ⟨hfresh, -, hlow, -⟩ := h.beyond hx hj
  rw [umInsert_eq h.low_lt hfresh, hlow]
  refine (umAdvance_self (w := w.upd fun v => v.inserted x p) h.low_lt).trans ?_
  rw [Work.upd, h.inserted_eq hx hj]
  rfl

theorem Slot.umStops_of_off (hoff : v.running.reord = false) : v.umStops = false := by rw [umStops, hoff, Bool.false_and]

/-- With the PDU of `VR_UR` alone, the first gap is the SN behind it. -/
theorem umGap_heldAlone (hr : v.vrUr < v.n) (p : Body) : umGap (v.heldAlone v.vrUr p) = (v.vrUr + 1) % v.n := by
  have hn : 1 < v.n := by
    have := v.n_eq
    omega
  have hne : v.vrUr ≠ (v.vrUr + 1) % v.n := fun he => by
    have hone := rel_of_add hr hn
    rw [← he, rel_self hr] at hone
    cases hone
  obtain ⟨k, hk⟩ : ∃ k, v.n = k + 2 := ⟨v.n - 2, by omega⟩
  change snSkip v.n (fun t => mapHas t [(v.vrUr, p)]) v.n v.vrUr = _
  generalize v.vrUr = r at *
  generalize v.n = n at *
  subst hk
  simp [snSkip, mapHas, mapGet, modN, hne]

/-- Passing the PDU of `VR_UR` alone. -/
theorem umAdvance_heldAlone (h : w.slot.NoGap) (p : Body) {fed : Rsm × List Bytes}
    (hfed : reassemble w.params w.slot.n w.slot.vrUr p w.slot.rsm = fed) :
    umAdvance ((w.slot.vrUr + 1) % w.slot.n) (w.upd fun v => v.heldAlone w.slot.vrUr p) =
      { w with slot := w.slot.umTook fed.1 fed.2, events := w.events ++ fed.2.map (.deliverSdu w.lcid) } := by
  have hr := h.low_lt
  obtain ⟨hn, hpos⟩ := w.slot.n_eq
  have hlook : mapGet w.slot.vrUr [(w.slot.vrUr, p)] = some p := if_pos rfl
  have hadv := umAdvance_eq (w := w.upd fun v => v.heldAlone w.slot.vrUr p) (stop := (w.slot.vrUr + 1) % w.slot.n) hr
    (Nat.mod_lt _ w.slot.n_pos)
  change _ = Work.passed _ _ (snInterval w.slot.n w.slot.vrUr _) at hadv
  rw [snInterval_succ (by omega) hr] at hadv
  refine hadv.trans ((passed_eq (rxu := w.slot.rxu) (lost := 0) (fed := fed) ?_ ?_ ?_).trans ?_)
  · rw [h.rxu]
    simp [Slot.heldAlone, without]
  · exact missing_of_held (by simp [Slot.heldAlone, mapKeys])
  · rw [← hfed]
    simp only [reassembleAll, slot_upd, Slot.heldAlone, hlook, List.append_nil]
    rfl
  · simp only [BitVec.add_zero]
    rfl

/-- The PDU of `VR_UR` goes to reassembly at once and leaves no gap. -/
theorem umReceive_next (h : w.slot.NoGap) (hx : x = w.slot.vrUr) (p : Body) {fed : Rsm × List Bytes}
    (hfed : reassemble w.params w.slot.n x p w.slot.rsm = fed) :
    umReceive x p w =
      { w with slot := w.slot.umTook fed.1 fed.2, events := w.events ++ fed.2.map (.deliverSdu w.lcid) } := by
  have hr := h.low_lt
  obtain ⟨-, hpos⟩ := w.slot.n_eq
  have hx0 : x = (w.slot.vrUr + 0) % w.slot.n := by rw [Nat.add_zero, Nat.mod_eq_of_lt hr, hx]
  obtain ⟨hfresh, -⟩ := h.beyond hx0 hpos
  have hins := umInsert_of_noGap h hx0 hpos p
  subst hx
  have hstop : (w.slot.umTook fed.1 fed.2).umStops = false := Slot.umStops_of_off h.off
  have hstart : (w.slot.umTook fed.1 fed.2).umStarts = false :=
    Bool.eq_false_iff.mpr fun hs => Nat.lt_irrefl _ (Slot.umStarts_iff.mp hs).2
  rw [umReceive_of_fresh hfresh (by rw [hins]; exact hr), hins, slot_upd, umGap_heldAlone hr, umAdvance_heldAlone h p hfed,
    umTimers_eq, hstop, hstart, retimed_false]

/-- A PDU above `VR_UR` opens a gap: it is held, and the timer is started. -/
theorem umReceive_beyond (h : w.slot.NoGap) (hx : x = (w.slot.vrUr + j) % w.slot.n) (hj : j < w.slot.cfg.umW) (hpos : 0 < j)
    (p : Body) : umReceive x p w = (w.upd fun v => v.heldAlone x p).retimed false true := by
  obtain ⟨hn, -⟩ := w.slot.n_eq
  have hr := h.low_lt
  obtain ⟨hfresh, -, -, hin⟩ := h.beyond hx hj
  have hins := umInsert_of_noGap h hx hj p
  have hno : w.slot.vrUr ∉ mapKeys (w.slot.heldAlone x p).rxu := fun hmem => by
    have heq : w.slot.vrUr = x := by simpa [Slot.heldAlone, mapKeys] using hmem
    have hrel := rel_of_add hr (k := j) (by omega)
    rw [← hx, ← heq, rel_self hr] at hrel
    omega
  have htop := rel_vrUh_umBase (v := w.slot.heldAlone x p) (Nat.mod_lt _ w.slot.n_pos)
  have hstop : (w.slot.heldAlone x p).umStops = false := Slot.umStops_of_off h.off
  have hstart : (w.slot.heldAlone x p).umStarts = true := Slot.umStarts_iff.mpr ⟨.inl h.off, htop.symm ▸ hin⟩
  have hself : umAdvance (w.slot.heldAlone x p).vrUr (w.upd fun v => v.heldAlone x p) = w.upd fun v => v.heldAlone x p :=
    umAdvance_self (w := w.upd fun v => v.heldAlone x p) hr
  rw [umReceive_of_fresh hfresh (by rw [hins]; exact hr), hins, slot_upd, umGap_of_not_held hno, hself, umTimers_eq, slot_upd,
    hstop, hstart]

end NoGap

/-- Settles O26: both clauses are receptions of a PDU that is not stale, the first on a bearer without a gap (`umReceive_beyond`), the
second on any (`exists_umReceive_eq`). -/
theorem umReceptionMovesTheWindow : Obligations.UmReceptionMovesTheWindow := by
  intro l pdu s v h n hv ha mode hinv hu
  have hum := hinv.um mode
  have hx := sn_lt_of_unpackHdr mode hu
  have hexec := exec_writePdu_um hv ha mode hu
  constructor
  · intro j heq hpos hj hsn
    have hgap : (s.workOn l v).countRxPdu.slot.NoGap := { hum.noGap heq with }
    rw [← heq] at hsn
    rw [hexec, umReceive_beyond hgap hsn hj hpos, commit_eq]
    rfl
  · intro rxu uh base low hno hbehind hrxu huh hbase hlow
    have hfresh : umStale v h.sn = false :=
      Bool.eq_false_iff.mpr fun hstale => (umStale_iff.mp hstale).elim hno hbehind
    obtain ⟨m, ur, fed, u, hur, hheld, hgap, hfed, rfl, he⟩ := exists_umReceive_eq (w := (s.workOn l v).countRxPdu)
      { hum with } hx hfresh hrxu huh (hlow.trans (by rw [hbase, huh]; rfl))
    rw [he, commit_eq] at hexec
    subst hbase
    exact ⟨m, ur, fed.1, fed.2, _, _, hur, hheld, hgap, hfed, Slot.umStops_iff, Slot.umStarts_iff, hexec⟩

/-! ## The PDU that is expected next, R237 and R238 -/

/-- A PDU with one element: what it makes is held where its SDU goes on, and delivered where it ends. -/
theorem reassemble_single (pm : Params) (n sn : Nat) (fi : BitVec 2) (d : Bytes) (rsm : Rsm) {c : Option Bytes}
    (hc : (if fi1 fi then (if rsm.next = sn then rsm.part else none).map (· ++ d) else some d).filter
      (fun b => decide (b.length ≤ pm.maxSduBytes)) = c) :
    reassemble pm n sn ⟨fi, [], d⟩ rsm =
      (⟨if fi0 fi then c else none, if fi0 fi = true ∧ c.isSome then (sn + 1) % n else rsm.next⟩,
        if fi0 fi then [] else c.toList) := by
  have hcs : contents pm (if rsm.next = sn then rsm.part else none) (fi1 fi) (splitData d []) = [c] := by
    rw [← hc]
    rfl
  unfold reassemble
  dsimp only
  rw [hcs]
  cases fi0 fi <;> cases c <;> simp

/-- What R237 and R238 say of a PDU with one element. -/
theorem oneElement_reassemble (pm : Params) (n sn : Nat) (fi : BitVec 2) (d : Bytes) (rsm : Rsm) :
    OneElement pm n sn fi d rsm (reassemble pm n sn ⟨fi, [], d⟩ rsm).1 (reassemble pm n sn ⟨fi, [], d⟩ rsm).2 := by
  have hdiscarded := reassemble_single pm n sn fi d rsm (c := none)
  refine ⟨fun hcont hnothing => ?_, fun b hb => ?_⟩
  · have hheld : (if rsm.next = sn then rsm.part else none) = none := by
      rcases hnothing with hpart | hnext
      · rw [hpart, ite_self]
      · rw [if_neg hnext]
    rw [hdiscarded (by rw [if_pos hcont, hheld]; rfl)]
    simp
  · have hjoined : (if fi1 fi then (if rsm.next = sn then rsm.part else none).map (· ++ d) else some d) = some b := by
      rcases hb with ⟨hstart, rfl⟩ | ⟨hcont, hnext, held, hpart, rfl⟩
      · rw [hstart]
        rfl
      · rw [if_pos hcont, if_pos hnext, hpart]
        rfl
    refine ⟨fun hlong => ?_, fun hfits hends => ?_, fun hfits hgoes => ?_⟩
    · rw [hdiscarded (by rw [hjoined]; simp [Option.filter, hlong])]
      simp
    · rw [reassemble_single pm n sn fi d rsm (c := some b) (by rw [hjoined]; simp [Option.filter, hfits])]
      simp [hends]
    · rw [reassemble_single pm n sn fi d rsm (c := some b) (by rw [hjoined]; simp [Option.filter, hfits])]
      simp [hgoes]

/-- WRITE_PDU of the PDU that a bearer without a gap expects. -/
theorem exec_writePdu_next {l : Lcid} {pdu : Bytes} {s : State} {v : Slot} {h : Hdr} {n : Nat} (hv : v = s.slot l)
    (ha : v.active = true) (mode : v.cfg.mode = .um) (hgap : v.NoGap)
    (hu : unpackHdr s.params v.cfg.fmt v.cfg.liw pdu = some (h, n)) (hsn : h.sn = v.vrUr) {fed : Rsm × List Bytes}
    (hfed : reassemble s.params v.n h.sn ⟨h.fi, boundsOf h.lis, pdu.drop n⟩ v.rsm = fed) :
    exec (.writePdu l 0 pdu) s =
      .next (s.after l ((s.workOn l v).countRxPdu.slot.umTook fed.1 fed.2) (s.tags l) [] (fed.2.map (.deliverSdu l))) := by
  have hcounted : (s.workOn l v).countRxPdu.slot.NoGap := { hgap with }
  rw [exec_writePdu_um hv ha mode hu, umReceive_next hcounted hsn _ hfed, commit_eq]
  rfl

/-- Settles O25: the PDU of `VR_UR` is passed at once (`exec_writePdu_next`), and with one element reassembly makes of it what R237
says (`oneElement_reassemble`). -/
theorem umInOrderPduIsDelivered : Obligations.UmInOrderPduIsDelivered := by
  intro l pdu s v h n hv ha mode hinv hu heq hsn
  refine ⟨_, _, exec_writePdu_next hv ha mode ((hinv.um mode).noGap heq) hu hsn rfl, rfl, fun hlis => ?_⟩
  rw [hlis]
  exact oneElement_reassemble _ _ _ _ _ _

/-! ## Repeated PDUs, R239 -/

/-- The timer has no part in what is stale. -/
theorem umStale_retimed (w : Work) (stop start : Bool) (x : Nat) : umStale (w.retimed stop start).slot x = umStale w.slot x := rfl

/-- An SN that is held is stale wherever `VR_UR` moves on to: it is still held, or has been passed. -/
theorem umStale_umAdvance {w : Work} (h : w.slot.UmMoving) {x stop : Nat} (hs : stop < w.slot.n)
    (hin : rel w.slot.n stop w.slot.vrUr ≤ rel w.slot.n w.slot.vrUh w.slot.vrUr) (hheld : x ∈ mapKeys w.slot.rxu) :
    umStale (umAdvance stop w).slot x = true := by
  obtain ⟨hn, hpos⟩ := w.slot.n_eq
  have hr := h.window.low_lt
  have hx := h.window.keys_lt x hheld
  have hB : w.slot.umBase < w.slot.n := rel_lt_of_pos w.slot.n_pos _ _
  have hspan := h.window.rel_high (by omega)
  have hsize : rel w.slot.n w.slot.vrUr w.slot.umBase ≤ w.slot.cfg.umW := h.window.size
  change _ = _ - rel w.slot.n w.slot.vrUr w.slot.umBase at hspan
  have hbelow := h.window.keys x hheld
  obtain ⟨rxu, rsm, m, he, hp, -⟩ := umAdvance_spec hr hs h.window.wf h.next
  rw [he, umStale_iff]
  by_cases hpassed : rel w.slot.n x w.slot.vrUr < rel w.slot.n stop w.slot.vrUr
  · have hxB := rel_trans hx hr hB (by omega)
    have hsB := rel_trans hs hr hB (by omega)
    refine .inr ⟨?_, ?_⟩
    · change rel w.slot.n x w.slot.umBase < w.slot.cfg.umW
      omega
    · change rel w.slot.n x w.slot.umBase < rel w.slot.n stop w.slot.umBase
      omega
  · exact .inl ((hp.keys x).mpr ⟨hheld, fun _ => hpassed⟩)

/-- A PDU that step 2 of R234 has inserted is held, also where the window has passed `VR_UR`: it is the one below `VR_UH`. -/
theorem mem_mapKeys_umInsert {w : Work} (h : w.slot.UmInv) {x : Nat} (hx : x < w.slot.n) (hfresh : umStale w.slot x = false)
    (p : Body) : x ∈ mapKeys (umInsert x p w).slot.rxu := by
  obtain ⟨hn, hpos⟩ := w.slot.n_eq
  have moving := umMoving_umInsert h.toUmMoving hx hfresh p
  have hput : x ∈ mapKeys (mapPut x p w.slot.rxu) := (mem_mapKeys_mapPut h.window.wf).mpr (.inl rfl)
  rcases umInsert_cases x p w with ⟨-, he⟩ | ⟨-, ⟨-, he⟩ | ⟨hbelow, he⟩⟩ <;> rw [he] at moving ⊢
  · exact hput
  · exact hput
  · have hB : (w.slot.putAbove x p).umBase < w.slot.n := rel_lt_of_pos w.slot.n_pos _ _
    have hs := (succ_spec hx).1
    obtain ⟨rxu, rsm, m, he', -, -⟩ := umAdvance_spec (w := w.upd fun v => v.putAbove x p) h.window.low_lt hB
      (mapWf_mapPut x p h.window.wf) h.next
    rw [he'] at moving ⊢
    have htop := moving.window.top fun heq => ?_
    · exact (pred_succ (by omega) hx) ▸ htop
    · have hw := rel_vrUh_umBase (v := w.slot.putAbove x p) hs
      rw [← show (w.slot.putAbove x p).umBase = (w.slot.putAbove x p).vrUh from heq,
        rel_self (show _ < (w.slot.putAbove x p).n from hB)] at hw
      exact absurd hw.symm hpos.ne'

theorem umReceive_keeps {w : Work} (h : w.slot.UmInv) {x : Nat} (hx : x < w.slot.n) (p : Body) :
    (umReceive x p w).lcid = w.lcid ∧ (umReceive x p w).slot.active = w.slot.active ∧
      (umReceive x p w).slot.cfg = w.slot.cfg := by
  by_cases hstale : umStale w.slot x = true
  · rw [umReceive, if_pos hstale]
    exact ⟨rfl, rfl, rfl⟩
  · obtain ⟨m, ur, fed, u, -, -, -, -, rfl, he⟩ := exists_umReceive_eq h hx (Bool.eq_false_iff.mpr hstale) (p := p) rfl rfl rfl
    rw [he]
    exact ⟨rfl, rfl, rfl⟩

/-- A PDU that has been received is stale from then on. -/
theorem umStale_umReceive {w : Work} (h : w.slot.UmInv) {x : Nat} (hx : x < w.slot.n) (p : Body) :
    umStale (umReceive x p w).slot x = true := by
  by_cases hstale : umStale w.slot x = true
  · rwa [umReceive, if_pos hstale]
  · have hfresh := Bool.eq_false_iff.mpr hstale
    have moving := umMoving_umInsert h.toUmMoving hx hfresh p
    obtain ⟨hg, hle, -⟩ := umGap_spec moving
    rw [umReceive_of_fresh hfresh moving.window.low_lt, umTimers_eq, umStale_retimed]
    exact umStale_umAdvance moving hg hle (mem_mapKeys_umInsert h hx hfresh p)

/-- Settles O27: the PDU is stale, by its place in the first clause, and in the second because it has been received
(`umStale_umReceive`). -/
theorem umRepeatedPduOnlyCounts : Obligations.UmRepeatedPduOnlyCounts := by
  intro l pdu s v h n hv ha mode hinv hu
  have hum := hinv.um mode
  have hx := sn_lt_of_unpackHdr mode hu
  refine ⟨fun hrep => exec_writePdu_of_umStale hv ha mode hu (umStale_iff.mpr (hrep.imp_right ?_)), fun t ht => ?_⟩
  · rintro ⟨j, hj, hjw, hsn⟩
    have hrel : rel v.n h.sn v.umBase = j := by
      rw [hsn]
      exact rel_of_add (rel_lt_of_pos v.n_pos _ _) (hj.trans (rel_lt_of_pos v.n_pos _ _))
    exact hrel ▸ ⟨hjw, hj⟩
  · have hcounted : (s.workOn l v).countRxPdu.slot.UmInv := { hum with }
    obtain ⟨hlcid, hactive, hcfg⟩ := umReceive_keeps hcounted hx ⟨h.fi, boundsOf h.lis, pdu.drop n⟩
    have hstale := umStale_umReceive hcounted hx ⟨h.fi, boundsOf h.lis, pdu.drop n⟩
    rw [exec_writePdu_um hv ha mode hu, commit_eq] at ht
    generalize umReceive h.sn ⟨h.fi, boundsOf h.lis, pdu.drop n⟩ (s.workOn l v).countRxPdu = w at hlcid hactive hcfg hstale ht
    change w.lcid = l at hlcid
    change w.slot.active = v.active at hactive
    change w.slot.cfg = v.cfg at hcfg
    subst hlcid
    cases ht
    refine exec_writePdu_of_umStale (h := h) (n := n) rfl ?_ ?_ ?_ ?_ <;> rw [slot_after_same]
    · rw [hactive, ha]
    · rw [hcfg, mode]
    · rwa [hcfg]
    · exact hstale

/-! ## Expiry of the reordering timer, R236 and R241 -/

/-- TIMER_EXPIRY of the running reordering timer on a UM bearer, R363 and R364. -/
theorem exec_timerExpiry_um {l : Lcid} {s : State} {v : Slot} (hv : v = s.slot l) (ha : v.active = true) (mode : v.cfg.mode = .um)
    (hon : v.running.reord = true) :
    exec (.timerExpiry l 0 (s.tags l).reord) s =
      commit s (umReordExpiry (s.workOn l { v with running := { v.running with reord := false } })) [] := by
  subst hv
  have hcurrent : expiryCurrent .reord (s.tags l).reord (s.enter l) = true := by
    simp [expiryCurrent, ha, PerTimer.get, hon]
  have hexpire : expire .reord (s.enter l) =
      umReordExpiry ((s.enter l).upd fun v => { v with running := v.running.set .reord false }) := by
    simp only [expire, expiryAction, slot_upd, slot_enter, mode]
  change (if expiryCurrent .reord (s.tags l).reord (s.enter l) then commit s (expire .reord (s.enter l)) [] else _) = _
  rw [if_pos hcurrent, hexpire]
  rfl

/-- The expiry of the timer, R236: `VR_UR` goes to the first gap from `VR_UX` on, and where that is below `VR_UH`, the timer is
started again. -/
theorem exists_umReordExpiry_eq {w : Work} (h : w.slot.UmMoving)
    (hzone : rel w.slot.n w.slot.vrUx w.slot.vrUr ≤ rel w.slot.n w.slot.vrUh w.slot.vrUr) :
    ∃ (m ur : Nat) (fed : Rsm × List Bytes) (u : Work), ur = (w.slot.vrUx + m) % w.slot.n ∧
      rel w.slot.n ur w.slot.vrUr = rel w.slot.n w.slot.vrUx w.slot.vrUr + m ∧
      (∀ j < m, (w.slot.vrUx + j) % w.slot.n ∈ mapKeys w.slot.rxu) ∧ ur ∉ mapKeys w.slot.rxu ∧
      fed = reassembleAll w.params w.slot.n (fun sn => mapGet sn w.slot.rxu) (snInterval w.slot.n w.slot.vrUr ur) w.slot.rsm ∧
      u = w.umReceived w.slot.rxu w.slot.vrUh ur fed
        (missing w.slot.rxu (snInterval w.slot.n w.slot.vrUr w.slot.vrUx)) ∧
      umReordExpiry w = if ur = w.slot.vrUh then u else umStartReord u := by
  have hr := h.window.low_lt
  obtain ⟨moving, -, -⟩ := umMoving_umAdvance h h.vrUx hzone
  obtain ⟨m, hm, hheld, hgo⟩ := exists_umAdvance_umGap hr h.vrUx moving
  have hspan := rel_add_rel h.window.high_lt h.vrUx hr hzone
  have hlt := rel_lt_of_pos w.slot.n_pos w.slot.vrUh w.slot.vrUr
  obtain ⟨hrel, hno, hlost, hadv⟩ := hgo (by omega)
  have hwork := hadv.trans (passed_eq (without_snInterval hr h.window.keys_lt) hlost rfl)
  refine ⟨m, _, _, _, rfl, hrel, hheld, hno, rfl, rfl, ?_⟩
  unfold umReordExpiry
  dsimp only
  rw [hwork]
  by_cases hend : (w.slot.vrUx + m) % w.slot.n = w.slot.vrUh
  · rw [if_pos hend, if_neg (by simpa using hend)]
    rfl
  · rw [if_neg hend, if_pos (by simpa using hend)]
    rfl

/-- Settles O28: the expiry passes all SNs from `VR_UR` to the first gap from `VR_UX` on, of which those below `VR_UX` may be missing
(`exists_umReordExpiry_eq`), and the timer is started again unless that gap is `VR_UH`. -/
theorem umExpiryForcesLoss : Obligations.UmExpiryForcesLoss := by
  intro l s v hv ha mode hinv hon
  have hum := hinv.um mode
  have hzone := rel_vrUx_le hum hon
  have hexec := exec_timerExpiry_um hv ha mode hon
  obtain ⟨m, ur, fed, u, hur, hrel, hheld, hno, hfed, rfl, he⟩ :=
    exists_umReordExpiry_eq (w := s.workOn l { v with running := { v.running with reord := false } }) { hum.toUmMoving with }
      hzone
  change rel v.n ur v.vrUr = rel v.n v.vrUx v.vrUr + m at hrel
  change ur = (v.vrUx + m) % v.n at hur
  subst hur
  refine ⟨m, fed.1, fed.2, hheld, hno, hfed, ?_⟩
  rw [hexec, he, ← hrel]
  change commit s (if _ = v.vrUh then _ else _) [] = _
  clear hrel hheld hno hfed he hexec
  generalize (v.vrUx + m) % v.n = ur
  by_cases hend : ur = v.vrUh
  · rw [if_pos hend, if_pos hend, if_pos hend, if_pos hend, List.append_nil, decide_eq_false (not_not.mpr hend)]
    rfl
  · rw [if_neg hend, if_neg hend, if_neg hend, if_neg hend, decide_eq_true hend]
    rfl

end Sys2Proof.Machine
end

section
/-! PROOFS. Transfers between two UM bearers in step (44_um_rx.md R240): reassembly makes the SDUs that left the sender's queue of
the PDU that R215 took from it. -/

namespace Sys2Proof.Machine

/-! ## The part of the head SDU that has been sent -/

/-- What has been sent of the SDU at the head of a queue, where it has been sent in part. -/
def sentPart : List TxSdu → Option Bytes
  | [] => none
  | q :: _ => if q.off = 0 then none else some (q.bytes.take q.off)

/-- The receiver holds exactly the sent part of the head SDU, and expects the rest of it in the PDU of SN `sn`. -/
structure HoldsSent (txq : List TxSdu) (sn : Nat) (rsm : Rsm) : Prop where
  part : rsm.part = sentPart txq
  next : sentPart txq ≠ none → rsm.next = sn

/-- Two bearers in step, R240. -/
theorem umInStep_iff {pm : Params} {tx rx : Slot} : UmInStep pm tx rx ↔
    tx.active = true ∧ rx.active = true ∧ tx.cfg.mode = .um ∧ rx.cfg.mode = .um ∧ rx.cfg.snw = tx.cfg.snw ∧
      rx.cfg.liw = tx.cfg.liw ∧ tx.QueueOk pm ∧ tx.vtUs < tx.n ∧ rx.vrUr = tx.vtUs ∧ rx.vrUh = tx.vtUs ∧ rx.rxu = [] ∧
      rx.running.reord = false ∧ HoldsSent tx.txq tx.vtUs rx.rsm := by
  unfold UmInStep
  iterate 12 refine and_congr_right fun _ => ?_
  cases tx.txq with
  | nil => exact ⟨fun h => ⟨h, fun hne => absurd rfl hne⟩, HoldsSent.part⟩
  | cons q post =>
    by_cases h0 : q.off = 0
    · have hnone : sentPart (q :: post) = none := if_pos h0
      constructor
      · rintro ⟨hpart, -⟩
        exact ⟨(hpart h0).trans hnone.symm, fun hne => absurd hnone hne⟩
      · rintro ⟨hpart, -⟩
        exact ⟨fun _ => hpart.trans hnone, fun hpos => absurd h0 hpos.ne'⟩
    · have hsome : sentPart (q :: post) = some (q.bytes.take q.off) := if_neg h0
      constructor
      · rintro ⟨-, hpart⟩
        obtain ⟨hpart, hnext⟩ := hpart (Nat.pos_of_ne_zero h0)
        exact ⟨hpart.trans hsome.symm, fun _ => hnext⟩
      · rintro ⟨hpart, hnext⟩
        exact ⟨fun h => absurd h h0, fun _ => ⟨hpart.trans hsome, hnext (by rw [hsome]; exact Option.some_ne_none _)⟩⟩

/-- What reassembly has of the head SDU when the PDU of SN `sn` arrives. -/
theorem HoldsSent.held {txq : List TxSdu} {sn : Nat} {rsm : Rsm} (h : HoldsSent txq sn rsm) :
    (if rsm.next = sn then rsm.part else none) = sentPart txq := by
  by_cases hnone : sentPart txq = none
  · rw [h.part, hnone, ite_self]
  · rw [if_pos (h.next hnone), h.part]

theorem sentPart_of_tail {q : TxSdu} {post : List TxSdu} (h : ∀ r ∈ (q :: post).tail, r.off = 0) : sentPart post = none := by
  cases post with
  | nil => rfl
  | cons r post => exact if_pos (h r List.mem_cons_self)

/-- After `x` more bytes of the record in front, its sent part is a part of the SDU, or nothing once it is all sent. -/
theorem sentPart_leftOver {q : TxSdu} {x : Nat} {post : List TxSdu} (hpos : 0 < x) (h : ∀ r ∈ (q :: post).tail, r.off = 0) :
    sentPart (leftOver q x post) = if x < q.remaining then some (q.bytes.take (q.off + x)) else none := by
  unfold leftOver
  split
  · exact if_neg (by dsimp only; omega)
  · exact sentPart_of_tail h

/-! ## The elements of a PDU, put together -/

theorem TxSdu.take_off_add_remaining (q : TxSdu) : q.bytes.take (q.off + q.remaining) = q.bytes :=
  List.take_of_length_le (by unfold TxSdu.remaining; omega)

/-- The next `x` bytes of the SDU in front, behind what has been sent of it. -/
theorem joined_sentPart {q : TxSdu} {post : List TxSdu} {continues : Bool} (hc : continues = true ↔ 0 < q.off) (x : Nat) :
    (if continues then (sentPart (q :: post)).map (· ++ q.rest.take x) else some (q.rest.take x)) =
      some (q.bytes.take (q.off + x)) := by
  by_cases h0 : q.off = 0
  · rw [if_neg (by rw [hc, h0]; exact Nat.lt_irrefl 0), TxSdu.rest, h0, List.drop_zero, Nat.zero_add]
  · rw [if_pos (hc.mpr (Nat.pos_of_ne_zero h0)), sentPart, if_neg h0, Option.map_some, TxSdu.rest, List.take_add]

theorem contents_of_fits {pm : Params} {held : Option Bytes} {continues : Bool} {e b : Bytes} {rest : List Bytes}
    (hfirst : (if continues then held.map (· ++ e) else some e) = some b) (hfit : ∀ c ∈ b :: rest, c.length ≤ pm.maxSduBytes) :
    contents pm held continues (e :: rest) = (b :: rest).map some := by
  rw [contents, hfirst, ← List.map_cons, List.map_map]
  refine List.map_congr_left fun c hc => ?_
  simp [Option.filter, hfit c hc]

/-- The contents of the elements taken from a queue: the SDUs in front whole, and of the last what has then been sent of it. -/
theorem contents_of_queue {pm : Params} {pre post : List TxSdu} {q : TxSdu} {continues : Bool} (x : Nat)
    (hq : QueueShape pm (pre ++ q :: post))
    (hc : continues = true ↔ 0 < ((pre ++ q :: post).head?.map TxSdu.off).getD 0) :
    contents pm (sentPart (pre ++ q :: post)) continues (pre.map TxSdu.rest ++ [q.rest.take x]) =
      (pre.map TxSdu.bytes ++ [q.bytes.take (q.off + x)]).map some := by
  have hlast : (q.bytes.take (q.off + x)).length ≤ pm.maxSduBytes := by
    have := (hq.records q (by simp)).2
    rw [List.length_take]
    omega
  cases pre with
  | nil =>
    exact contents_of_fits (joined_sentPart hc x) (by simpa using hlast)
  | cons r pre =>
    have hfirst := joined_sentPart (post := pre ++ q :: post) hc r.remaining
    rw [TxSdu.take_rest, r.take_off_add_remaining] at hfirst
    have hwhole : ∀ t ∈ pre ++ q :: post, t.rest = t.bytes := fun t ht => by
      rw [TxSdu.rest, hq.tail t ht, List.drop_zero]
    have hrest : pre.map TxSdu.rest ++ [q.rest.take x] = pre.map TxSdu.bytes ++ [q.bytes.take (q.off + x)] := by
      rw [List.map_congr_left fun t ht => hwhole t (by simp [ht]), hwhole q (by simp), hq.tail q (by simp), Nat.zero_add]
    change contents pm _ continues (r.rest :: (pre.map TxSdu.rest ++ [q.rest.take x])) =
      (r.bytes :: (pre.map TxSdu.bytes ++ [q.bytes.take (q.off + x)])).map some
    rw [hrest]
    refine contents_of_fits hfirst fun c hcm => ?_
    simp only [List.mem_cons, List.mem_append, List.mem_map, List.not_mem_nil, or_false] at hcm
    rcases hcm with rfl | ⟨t, ht, rfl⟩ | rfl
    · exact (hq.records r (by simp)).2
    · exact (hq.records t (by simp [ht])).2
    · exact hlast

/-- Reassembly of the PDU that R215 takes from a queue, in step with it: the SDUs that have left the queue are delivered, and what
has been sent of the one now at the head is held. -/
theorem reassemble_of_builtFrom {pm : Params} {liw : LiWidth} {budget h dcap n sn : Nat} {txq txq' : List TxSdu} {fi : BitVec 2}
    {lis : List Nat} {data : Bytes} {rsm : Rsm} (hb : BuiltFrom pm liw budget h dcap txq txq' fi lis data)
    (hq : QueueShape pm txq) (hheld : HoldsSent txq sn rsm) :
    ∃ rsm' sent, reassemble pm n sn ⟨fi, boundsOf lis, data⟩ rsm = (rsm', sent) ∧ HoldsSent txq' ((sn + 1) % n) rsm' ∧
      txq.map TxSdu.bytes = sent ++ txq'.map TxSdu.bytes := by
  obtain ⟨pre, q, post, x, rfl, hpos, hle, hsplit, htxq', hfi1, hfi0, -⟩ := hb
  obtain rfl : txq' = leftOver q x post := htxq'
  have htail : ∀ r ∈ (q :: post).tail, r.off = 0 := fun r hr => by
    refine hq.tail r ?_
    cases pre with
    | nil => exact hr
    | cons _ pre => exact List.mem_append_right _ (List.mem_of_mem_tail hr)
  have hcontents := contents_of_queue x hq hfi1
  have hpart := sentPart_leftOver hpos htail
  unfold reassemble
  dsimp only
  rw [hheld.held, hsplit, hcontents]
  by_cases hcut : x < q.remaining
  · rw [if_pos hcut] at hpart
    refine ⟨⟨some (q.bytes.take (q.off + x)), (sn + 1) % n⟩, pre.map TxSdu.bytes, ?_, ⟨hpart.symm, fun _ => rfl⟩, ?_⟩
    · simp [hfi0.mpr hcut]
    · rw [leftOver, if_pos hcut]
      simp
  · have hwhole : x = q.remaining := by omega
    have hends : fi0 fi = false := Bool.eq_false_iff.mpr fun h0 => hcut (hfi0.mp h0)
    rw [if_neg hcut] at hpart
    refine ⟨⟨none, rsm.next⟩, pre.map TxSdu.bytes ++ [q.bytes], ?_, ⟨hpart.symm, fun hne => absurd hpart hne⟩, ?_⟩
    · rw [hwhole, q.take_off_add_remaining]
      simp [hends]
    · rw [leftOver, if_neg hcut]
      simp

/-! ## One transfer -/

/-- The receiver's side of a transfer: a PDU of the sender in step, with its SN, LI and SN widths, is the one expected next. -/
theorem noGap_of_umInStep {pm : Params} {tx rx : Slot} (h : UmInStep pm tx rx) : rx.NoGap ∧ rx.vrUr = tx.vtUs ∧ rx.n = tx.n ∧
    rx.cfg.fmt = tx.cfg.fmt ∧ rx.cfg.liw = tx.cfg.liw := by
  obtain ⟨-, -, htx, hrx, hsnw, hliw, -, hsn, hur, huh, hrxu, hoff, -⟩ := umInStep_iff.mp h
  have hn : rx.n = tx.n := by rw [Slot.n, Slot.n, Cfg.modulus, Cfg.modulus, hsnw]
  refine ⟨⟨by rwa [hur, hn], huh.trans hur.symm, hrxu, hoff⟩, hur, hn, ?_, hliw⟩
  rw [Cfg.fmt, Cfg.fmt, htx, hrx, hsnw]

/-- The bearers are in step after the sender has sent a PDU and the receiver has put it together. -/
theorem umInStep_after {pm : Params} {tx rx : Slot} (h : UmInStep pm tx rx) {budget : Nat} {built : Built}
    (hb : tx.umBuilt pm budget = some built) {rsm : Rsm} (hheld : HoldsSent built.txq ((tx.vtUs + 1) % tx.n) rsm)
    (sdus : List Bytes) : UmInStep pm (tx.afterUmdPdu built) (rx.umTook rsm sdus) := by
  obtain ⟨-, hur, hn, -⟩ := noGap_of_umInStep h
  obtain ⟨htxa, hrxa, htx, hrx, hsnw, hliw, ⟨hlen, records, tail⟩, hsn, -, -, hrxu, hoff, -⟩ := umInStep_iff.mp h
  obtain ⟨⟨records', tail'⟩, hlen', -⟩ := buildElems_spec ⟨records, tail⟩ (by decide) hb
  have hnext : (rx.vrUr + 1) % rx.n = (tx.vtUs + 1) % tx.n := by rw [hur, hn]
  exact umInStep_iff.mpr ⟨htxa, hrxa, htx, hrx, hsnw, hliw, ⟨hlen'.trans hlen, records', tail'⟩, Nat.mod_lt _ tx.n_pos, hnext,
    hnext, hrxu, hoff, hheld⟩

/-- Settles O29: READ_PDU sends the PDU of `build_elems` or nothing; its receiver expects it next (`noGap_of_umInStep`), and makes
of it the SDUs that have left the queue and the sent part of the one at its head (`reassemble_of_builtFrom`). -/
theorem umTransferStaysInStep : Obligations.UmTransferStaysInStep := by
  intro l j b s hne hstep
  obtain ⟨hgap, hur, hn, hfmt, hliw⟩ := noGap_of_umInStep hstep
  obtain ⟨htxa, hrxa, htx, hrx, -, -, ⟨-, records, tail⟩, hsn, -, -, -, -, hheld⟩ := umInStep_iff.mp hstep
  have hq : QueueShape s.params (s.slot l).txq := ⟨records, tail⟩
  cases hb : (s.slot l).umBuilt s.params b.toNat with
  | none => exact ⟨[], _, exec_readPdu_um_of_none htxa htx hb, rfl, fun _ => rfl, fun h => absurd rfl h⟩
  | some built =>
    refine ⟨_, _, exec_readPdu_um_of_some htxa htx hb, rfl, fun hnil => absurd hnil (Slot.umdPdu_ne_nil _ _), fun _ => ?_⟩
    have hunpack := unpackHdr_umdPdu htx hsn hq hb
    obtain ⟨rsm, sent, hfed, hholds, hsent⟩ :=
      reassemble_of_builtFrom (n := (s.slot l).n) (builtFrom_of_buildElems hq (by decide) hb) hq hheld
    have hdata : ((s.slot l).umdPdu built).drop (packHdr (s.slot l).cfg.fmt (s.slot l).cfg.liw ((s.slot l).umdHdr built)).length =
        built.data := List.drop_left
    rw [← hfmt, ← hliw] at hunpack hdata
    rw [← hn, ← hdata] at hfed
    have hexec := exec_writePdu_next (s := s.after l ((s.slot l).afterUmdPdu built) (s.tags l) ((s.slot l).umdPdu built) [])
      (slot_after_other _ _ _ _ _ _ hne.symm).symm hrxa hrx hgap hunpack hur.symm hfed
    refine ⟨_, sent, hexec, ?_, rfl, ?_⟩
    · rw [slot_after_same, slot_after_other _ _ _ _ _ _ hne, slot_after_same]
      exact umInStep_after (rx := (s.workOn j (s.slot j)).countRxPdu.slot) hstep hb hholds sent
    · rw [slot_after_other _ _ _ _ _ _ hne, slot_after_same]
      exact hsent

end Sys2Proof.Machine
end

section
/-! PROOFS. Segments of an AMD PDU (45_am_tx.md R266): the framing that the original implies for a range of its bytes, and how
segments that cover a PDU rebuild it (R267, R314). -/

namespace Sys2Proof.Machine

/-! ## The header of a segment, R266 -/

/-- The header of the segment `[a, a + n)` of an entry, R266. -/
def RetxEntry.segHdr (e : RetxEntry) (sn : Nat) (p : Bool) (a n : Nat) : Hdr :=
  ⟨sn, (segFields e a n).1, true, p, (segFields e a n).2.2, a, (segFields e a n).2.1⟩

/-- The data field of the segment `[a, a + n)` of an entry. -/
def RetxEntry.segData (e : RetxEntry) (a n : Nat) : Bytes := (e.data.drop a).take n

theorem RetxEntry.length_segData {e : RetxEntry} {a n : Nat} (h : a + n ≤ e.data.length) : (e.segData a n).length = n := by
  rw [segData, List.length_take, List.length_drop]
  omega

theorem mem_innerBounds {bounds : List Nat} {a n b : Nat} : b ∈ innerBounds bounds a n ↔ b ∈ bounds ∧ a < b ∧ b < a + n := by
  simp [innerBounds]

/-- Boundaries counted from the start of a segment still rise. -/
theorem pairwise_map_sub {bs : List Nat} {a : Nat} (hlow : ∀ b ∈ bs, a ≤ b) (hp : bs.Pairwise (· < ·)) :
    (bs.map (· - a)).Pairwise (· < ·) := by
  refine List.pairwise_map.mpr (hp.imp_of_mem fun {x y} hx hy hlt => ?_)
  have := hlow x hx
  have := hlow y hy
  omega

section SegHdr

variable {e : RetxEntry} (sn : Nat) (p : Bool) (a n : Nat)

theorem fi1_segHdr : fi1 (e.segHdr sn p a n).fi = if a = 0 then fi1 e.fi else !e.bounds.contains a := fi1_mkFi _ _

theorem fi0_segHdr :
    fi0 (e.segHdr sn p a n).fi = if a + n = e.data.length then fi0 e.fi else !e.bounds.contains (a + n) := fi0_mkFi _ _

theorem lsf_segHdr : (e.segHdr sn p a n).lsf = decide (a + n = e.data.length) := rfl

theorem lis_segHdr : (e.segHdr sn p a n).lis = lisOf ((innerBounds e.bounds a n).map (· - a)) := rfl

/-- The LIs of a segment give back the boundaries of the original inside it. -/
theorem boundsOf_segHdr (hp : e.bounds.Pairwise (· < ·)) :
    (boundsOf (e.segHdr sn p a n).lis).map (a + ·) = innerBounds e.bounds a n := by
  have hlow : ∀ b ∈ innerBounds e.bounds a n, a ≤ b := fun b hb => (mem_innerBounds.mp hb).2.1.le
  rw [lis_segHdr, boundsOf_lisOf (pairwise_map_sub hlow (hp.filter _)), List.map_map]
  exact (List.map_congr_left fun b hb => Nat.add_sub_cancel' (hlow b hb)).trans (List.map_id _)

/-- A segment reveals the boundaries of the original inside it and at its ends. -/
theorem reveals_segHdr (hp : e.bounds.Pairwise (· < ·)) (hin : ∀ b ∈ e.bounds, 0 < b ∧ b < e.data.length)
    (hn : 1 ≤ n) (hle : a + n ≤ e.data.length) (b : Nat) :
    Reveals a (e.segHdr sn p a n).lsf (e.segHdr sn p a n) (e.segData a n) b ↔ b ∈ e.bounds ∧ a ≤ b ∧ b ≤ a + n := by
  have hstart : 0 < a ∧ fi1 (e.segHdr sn p a n).fi = false ∧ b = a ↔ b ∈ e.bounds ∧ b = a := by
    rw [fi1_segHdr]
    constructor
    · rintro ⟨ha, hfi, rfl⟩
      simpa [ha.ne'] using hfi
    · rintro ⟨hb, rfl⟩
      have hpos := (hin b hb).1
      exact ⟨hpos, by simpa [hpos.ne'] using hb, rfl⟩
  have hend : (e.segHdr sn p a n).lsf = false ∧ fi0 (e.segHdr sn p a n).fi = false ∧ b = a + (e.segData a n).length ↔
      b ∈ e.bounds ∧ b = a + n := by
    rw [lsf_segHdr, fi0_segHdr, e.length_segData hle]
    constructor
    · rintro ⟨hlast, hfi, rfl⟩
      simpa [of_decide_eq_false hlast] using hfi
    · rintro ⟨hb, rfl⟩
      have hlt := (hin _ hb).2
      exact ⟨decide_eq_false hlt.ne, by simpa [hlt.ne] using hb, rfl⟩
  unfold Reveals
  rw [boundsOf_segHdr sn p a n hp, mem_innerBounds, hstart, hend, ← and_or_left, ← and_or_left]
  refine and_congr_right fun _ => ?_
  omega

end SegHdr

/-! ## Cells -/

/-- Putting a cell in adds no other cell. -/
theorem mem_of_mem_cellInsert {c x : Host.Cell} {held : List Host.Cell} {rest : List Host.Cell → List Host.Cell}
    (hrest : ∀ ys, c ∈ rest ys → c ∈ held ∨ c ∈ ys) : ∀ {ys : List Host.Cell},
    c ∈ cellInsert x rest ys → c ∈ x :: held ∨ c ∈ ys
  | [], h => (List.mem_cons.mp h).elim (fun h => .inl (h ▸ List.mem_cons_self))
      fun h => (hrest [] h).imp_left (List.mem_cons_of_mem _)
  | y :: ys, h => by
    have hys := hrest ys
    have hyys := hrest (y :: ys)
    unfold cellInsert at h
    split_ifs at h
    · have ih := mem_of_mem_cellInsert (ys := ys) (x := x) hrest
      simp only [List.mem_cons] at h ih ⊢
      tauto
    · simp only [List.mem_cons] at h ⊢
      tauto
    · simp only [List.mem_cons] at h hyys ⊢
      tauto

/-- Every cell of a merge is one held or a new one. -/
theorem mem_of_mem_cellMerge {c : Host.Cell} : ∀ {held new : List Host.Cell}, c ∈ cellMerge held new → c ∈ held ∨ c ∈ new
  | [], _, h => .inr h
  | _ :: _, _, h => mem_of_mem_cellInsert (fun _ => mem_of_mem_cellMerge) h

theorem getElem?_of_mem_cellsOf {c : Host.Cell} : ∀ {so : Nat} {d : Bytes}, c ∈ cellsOf so d →
    so ≤ c.1 ∧ d[c.1 - so]? = some c.2
  | so, b :: d, h => by
    rcases List.mem_cons.mp h with rfl | h
    · simp
    · obtain ⟨hle, hget⟩ := getElem?_of_mem_cellsOf h
      refine ⟨by omega, ?_⟩
      rwa [show c.1 - so = c.1 - (so + 1) + 1 by omega, List.getElem?_cons_succ]

/-- A cell of a segment is a byte of the original. -/
theorem getElem?_of_mem_cellsOf_segData {e : RetxEntry} {a n : Nat} {c : Host.Cell} (h : c ∈ cellsOf a (e.segData a n)) :
    e.data[c.1]? = some c.2 := by
  obtain ⟨hle, hget⟩ := getElem?_of_mem_cellsOf h
  have hlt : c.1 - a < n := by
    have := (List.getElem?_eq_some_iff.mp hget).1
    rw [RetxEntry.segData, List.length_take] at this
    omega
  rwa [RetxEntry.segData, List.getElem?_take_of_lt hlt, List.getElem?_drop, Nat.add_sub_cancel' hle] at hget

/-- Cells at all offsets below the length of a byte string that are bytes of it are that byte string. -/
theorem cellBytes_eq {d : Bytes} {cells : List Host.Cell} (hkeys : cellKeys cells = List.range' 0 d.length)
    (hbytes : ∀ c ∈ cells, d[c.1]? = some c.2) : cellBytes d.length cells = d := by
  have hbelow : ∀ c ∈ cells, decide (c.1 < d.length) = true := fun c hc =>
    decide_eq_true (List.getElem?_eq_some_iff.mp (hbytes c hc)).1
  have hlen : cells.length = d.length := by
    have := congrArg List.length hkeys
    rwa [cellKeys, List.length_map, List.length_range'] at this
  rw [cellBytes, List.filter_eq_self.mpr hbelow]
  refine List.ext_getElem (by rw [List.length_map, hlen]) fun i hi hi' => ?_
  have hkey : (cells[i]'(hlen ▸ hi')).1 = i := by
    have hget : (cellKeys cells)[i]? = (List.range' 0 d.length)[i]? := by rw [hkeys]
    simpa [cellKeys, hlen, hi'] using hget
  have hbyte := hbytes _ (List.getElem_mem (hlen ▸ hi'))
  rw [hkey, List.getElem?_eq_getElem hi'] at hbyte
  rw [List.getElem_map]
  exact (Option.some.inj hbyte).symm

/-! ## Rebuilding a PDU, R267 -/

/-- A reception entry that holds some of the bytes of the PDU `e`, and what they reveal of its framing. -/
structure AmEntry.PartOf (e : RetxEntry) (r : AmEntry) : Prop where
  wf : rangeWf r.rcvd = true
  below : ∀ x, rangeHas x r.rcvd = true → x < e.data.length
  keys : cellKeys r.data = rangeOffsets r.rcvd
  bytes : ∀ c ∈ r.data, e.data[c.1]? = some c.2
  rising : r.bset.Pairwise (· < ·)
  bounds : ∀ b ∈ r.bset, b ∈ e.bounds
  known : ∀ b ∈ e.bounds, rangeHas b r.rcvd = true → b ∈ r.bset
  len : r.len = if rangeHas (e.data.length - 1) r.rcvd then some e.data.length else none
  first : r.fiFirst = if rangeHas 0 r.rcvd then some (fi1 e.fi) else none
  last : r.fiLast = if rangeHas (e.data.length - 1) r.rcvd then some (fi0 e.fi) else none

theorem AmEntry.partOf_empty (e : RetxEntry) : AmEntry.empty.PartOf e :=
  ⟨rfl, nofun, rfl, nofun, .nil, nofun, nofun, rfl, rfl, rfl⟩

section Rebuild

variable {e : RetxEntry} {r : AmEntry} {a n : Nat}

/-- The segment as a received piece, R312. -/
def RetxEntry.segPiece (e : RetxEntry) (a n : Nat) : Piece := ⟨a, n, decide (a + n = e.data.length)⟩

/-- A segment of a PDU never contradicts what is held of it, R315. -/
theorem AmEntry.PartOf.not_contradicts (hr : r.PartOf e) (hp : e.bounds.Pairwise (· < ·))
    (hin : ∀ b ∈ e.bounds, 0 < b ∧ b < e.data.length) (hn : 1 ≤ n) (hle : a + n ≤ e.data.length) (sn : Nat) (p : Bool) :
    ¬ Contradicts r a (e.segHdr sn p a n).lsf (e.segHdr sn p a n) (e.segData a n) := by
  have hlen : ∀ len, r.len = some len → len = e.data.length := fun len h => by
    rw [hr.len] at h
    split at h
    · exact (Option.some.inj h).symm
    · cases h
  unfold Contradicts
  rw [lsf_segHdr, e.length_segData hle]
  rintro (⟨hlast, len, hknown, hne⟩ | ⟨len, hknown, hbeyond⟩)
  · exact hne ((hlen len hknown).trans (of_decide_eq_true hlast).symm)
  · obtain rfl : len = e.data.length := by
      split at hknown
      · exact (Option.some.inj hknown).symm.trans (of_decide_eq_true ‹_›)
      · exact hlen len hknown
    rcases hbeyond with ⟨x, hx, hheld | hnew⟩ | ⟨b, hb, hheld | hnew⟩
    · exact absurd (hr.below x hheld) hx.not_gt
    · omega
    · exact absurd (hin b (hr.bounds b hheld)).2 hb.not_gt
    · rw [← lsf_segHdr sn p, reveals_segHdr sn p a n hp hin hn hle] at hnew
      exact absurd (hin b hnew.1).2 hb.not_gt

/-- A segment merges with what is held of its PDU. -/
theorem AmEntry.PartOf.merge (hr : r.PartOf e) (hp : e.bounds.Pairwise (· < ·))
    (hin : ∀ b ∈ e.bounds, 0 < b ∧ b < e.data.length) (hn : 1 ≤ n) (hle : a + n ≤ e.data.length) (sn : Nat) (p : Bool) :
    ∃ r' : AmEntry, merge r (e.segPiece a n) (e.segHdr sn p a n) (e.segData a n) = some r' ∧ r'.PartOf e ∧
      ∀ x, rangeHas x r'.rcvd = true ↔ rangeHas x r.rcvd = true ∨ (a ≤ x ∧ x < a + n) := by
  have hd := e.length_segData hle
  obtain ⟨r', hm⟩ := Option.ne_none_iff_exists'.mp fun hnone => hr.not_contradicts hp hin hn hle sn p
    ((merge_eq_none_iff r (e.segPiece a n) _ _ hd.symm hr.wf).mp hnone)
  have hhas : ∀ x, rangeHas x (rangeAdd a (a + n) r.rcvd) = true ↔ rangeHas x r.rcvd = true ∨ (a ≤ x ∧ x < a + n) := fun x => by
    simp [rangeHas_rangeAdd]
  have hbset : ∀ b, b ∈ bsetUnion r.bset (pieceBounds (e.segPiece a n) (e.segHdr sn p a n)) ↔
      b ∈ r.bset ∨ b ∈ e.bounds ∧ a ≤ b ∧ b ≤ a + n := fun b => by
    rw [mem_bsetUnion, mem_pieceBounds _ _ _ hd.symm]
    exact or_congr_right (reveals_segHdr sn p a n hp hin hn hle b)
  have hlast : rangeHas (e.data.length - 1) (rangeAdd a (a + n) r.rcvd) = true ↔
      a + n = e.data.length ∨ rangeHas (e.data.length - 1) r.rcvd = true := by
    rw [hhas, or_comm]
    exact or_congr_left (by omega)
  have hzero : rangeHas 0 (rangeAdd a (a + n) r.rcvd) = true ↔ a = 0 ∨ rangeHas 0 r.rcvd = true := by
    rw [hhas, or_comm]
    exact or_congr_left (by omega)
  obtain ⟨rfl, -⟩ := eq_mergeRaw_of_merge hm
  refine ⟨_, hm, ?_, hhas⟩
  exact {
    wf := rangeWf_rangeAdd _ _ hr.wf
    below := fun x hx => ((hhas x).mp hx).elim (hr.below x) fun h => by omega
    keys := by
      have := cellKeys_cellMerge_cellsOf hr.wf hr.keys a (e.segData a n)
      rwa [hd] at this
    bytes := fun c hc => (mem_of_mem_cellMerge hc).elim (hr.bytes c) getElem?_of_mem_cellsOf_segData
    rising := pairwise_bsetUnion _ hr.rising
    bounds := fun b hb => ((hbset b).mp hb).elim (hr.bounds b) And.left
    known := fun b hb hx => (hbset b).mpr (((hhas b).mp hx).imp (hr.known b hb) fun h => ⟨hb, h.1, h.2.le⟩)
    len := by
      simp only [mergeRaw, RetxEntry.segPiece, hlast, hr.len, decide_eq_true_eq]
      by_cases h : a + n = e.data.length <;> simp [h]
    first := by
      simp only [mergeRaw, RetxEntry.segPiece, hzero, hr.first, fi1_segHdr]
      by_cases h : a = 0 <;> by_cases h' : rangeHas 0 r.rcvd = true <;> simp [h, h']
    last := by
      simp only [mergeRaw, RetxEntry.segPiece, hlast, hr.last, fi0_segHdr, decide_eq_true_eq]
      by_cases h : a + n = e.data.length <;> by_cases h' : rangeHas (e.data.length - 1) r.rcvd = true <;> simp [h, h'] }

/-- Segments of a PDU merge one after another, and what is held is what they cover. -/
theorem mergeSegments_eq_some (hp : e.bounds.Pairwise (· < ·)) (hin : ∀ b ∈ e.bounds, 0 < b ∧ b < e.data.length) :
    ∀ {segs : List (Nat × Nat)} {r : AmEntry}, (∀ i ∈ segs, 1 ≤ i.2 ∧ i.1 + i.2 ≤ e.data.length) → r.PartOf e →
    ∃ r', mergeSegments e segs r = some r' ∧ r'.PartOf e ∧
      ∀ x, rangeHas x r'.rcvd = true ↔ rangeHas x r.rcvd = true ∨ ∃ i ∈ segs, i.1 ≤ x ∧ x < i.1 + i.2
  | [], r, _, hr => ⟨r, rfl, hr, by simp⟩
  | (a, n) :: segs, r, hsegs, hr => by
    obtain ⟨⟨hn, hle⟩, hsegs⟩ := List.forall_mem_cons.mp hsegs
    obtain ⟨r₁, hm, hr₁, hhas₁⟩ := hr.merge hp hin hn hle 0 false
    obtain ⟨r', hrest, hr', hhas⟩ := mergeSegments_eq_some hp hin hsegs hr₁
    refine ⟨r', ?_, hr', fun x => ?_⟩
    · exact (congrArg (·.bind (mergeSegments e segs)) hm).trans hrest
    · rw [hhas, hhas₁, List.exists_mem_cons_iff, or_assoc]

theorem mkFi_fi1_fi0 : ∀ fi : BitVec 2, mkFi (fi1 fi) (fi0 fi) = fi := by decide

/-- What holds every byte of a PDU is complete, and is that PDU. -/
theorem AmEntry.PartOf.whole (hr : r.PartOf e) (hp : e.bounds.Pairwise (· < ·))
    (hin : ∀ b ∈ e.bounds, 0 < b ∧ b < e.data.length) (hpos : 1 ≤ e.data.length)
    (hall : ∀ x < e.data.length, rangeHas x r.rcvd = true) : r.complete = true ∧ r.body = ⟨e.fi, e.bounds, e.data⟩ := by
  have hrcvd : r.rcvd = [(0, e.data.length)] := by
    refine rangeWf_ext hr.wf (by simp [rangeWfFrom_cons]; omega) fun x => Bool.eq_iff_iff.mpr ?_
    rw [rangeHas_cons]
    simpa using ⟨hr.below x, hall x⟩
  have hlen : r.len = some e.data.length := by rw [hr.len, if_pos (hall _ (by omega))]
  have hfirst : r.fiFirst = some (fi1 e.fi) := by rw [hr.first, if_pos (hall 0 hpos)]
  have hlast : r.fiLast = some (fi0 e.fi) := by rw [hr.last, if_pos (hall _ (by omega))]
  have hbset : r.bset = e.bounds := hr.rising.eq_of_mem_iff hp fun b =>
    ⟨hr.bounds b, fun hb => hr.known b hb (hall b (hin b hb).2)⟩
  have hdata : cellBytes e.data.length r.data = e.data :=
    cellBytes_eq (by rw [hr.keys, hrcvd, rangeOffsets, List.flatMap_singleton, Nat.sub_zero]) hr.bytes
  refine ⟨by simp [AmEntry.complete, hlen, hrcvd, rangeCovers, rangeIncl], ?_⟩
  rw [AmEntry.body, hlen, hfirst, hlast, hbset]
  simp only [Option.getD_some, mkFi_fi1_fi0, hdata]

end Rebuild

/-- Settles O34, by induction on the segments: each keeps the entry a part of the PDU (`AmEntry.PartOf.merge`), and once every byte
is held the entry is the PDU (`AmEntry.PartOf.whole`). -/
theorem segmentsRebuildThePdu : Obligations.SegmentsRebuildThePdu := by
  rintro pm liw e segs ⟨hpos, -, -, hp, hin, -⟩ hsegs hcover
  obtain ⟨r, hm, hr, hhas⟩ := mergeSegments_eq_some hp hin hsegs (AmEntry.partOf_empty e)
  exact ⟨r, hm, hr.whole hp hin hpos fun x hx => (hhas x).mpr (.inr (hcover x hx))⟩

end Sys2Proof.Machine
end

section
/-! PROOFS. READ_PDU on an AM bearer, part by part (45_am_tx.md R262 to R270): the poll decision, new data and retransmission, each as
an equation, and where there is nothing to send. -/

namespace Sys2Proof.Machine

/-! ## The poll decision, R269 and R270 -/

theorem stalled_iff {v : Slot} : v.stalled = true ↔ v.amW ≤ rel v.n v.vtS v.vtA := by simp [Slot.stalled, inside]

theorem anyPending_eq_false_iff {v : Slot} : v.anyPending = false ↔ ∀ e ∈ v.rb, e.2.pending = [] := by
  simp [Slot.anyPending]

theorem nothingToSend_iff {v : Slot} : v.nothingToSend = true ↔ v.txq = [] ∧ ∀ e ∈ v.rb, e.2.pending = [] := by
  rw [Slot.nothingToSend, Bool.and_eq_true, List.isEmpty_iff, Bool.not_eq_true', anyPending_eq_false_iff]

/-- The poll condition of the machine is that of R270. -/
theorem pollDue_iff {v : Slot} : pollDue v = true ↔ v.PollDue v.pduWithoutPoll.toNat v.byteWithoutPoll.toNat := by
  unfold pollDue Slot.PollDue
  simp only [Bool.or_eq_true, Bool.and_eq_true, bne_iff_ne, decide_eq_true_eq, nothingToSend_iff, stalled_iff, or_assoc]

theorem toNat_satAdd32 (x : BitVec 32) (n : Nat) : (satAdd32 x n).toNat = min (x.toNat + n) 4294967295 := by
  rw [satAdd32, BitVec.toNat_ofNat, Nat.mod_eq_of_lt (by omega)]

/-- The work after a PDU with P bit `p`, R270. -/
def Work.pollIf (p : Bool) (w : Work) : Work :=
  { w with
    slot := if p then w.slot.polled else w.slot
    tags := if p then { w.tags with pollretx := w.tags.pollretx + 1 } else w.tags
    events := w.events ++
      if p then [.timerStart w.lcid .pollretx (w.tags.pollretx + 1) w.slot.cfg.tPollRetransmitMs] else [] }

/-- `poll_decide`, R270: the PDU polls where the condition holds after it has been counted. -/
theorem pollDecide_eq (new : Bool) (nbytes : Nat) (w : Work) :
    pollDecide new nbytes w =
      (pollDue (pollCount new nbytes w.slot), (w.upd (pollCount new nbytes)).pollIf (pollDue (pollCount new nbytes w.slot))) := by
  rcases pollDecide_cases new nbytes w with ⟨hdue, hp⟩ | ⟨hdue, hp⟩ <;> rw [hp, hdue]
  · simp [Work.pollIf, Work.upd]
  · cases new <;> rfl

/-! ## New data, R263 -/

/-- What `build_elems` gives an AM READ_PDU, R263. -/
def Slot.amBuilt (pm : Params) (v : Slot) (budget : Nat) : Option Built :=
  buildElems pm budget 2 Config.maxAmData v.cfg.liw v.txq

/-- The bearer that has given the bytes of a new PDU to the SN `VT_S`, R263. -/
def Slot.taken (v : Slot) (b : Built) : Slot := { v with txq := b.txq, vtS := modN v.n (v.vtS + 1) }

/-- The header of a new AMD PDU, R263. -/
def Slot.amdHdr (v : Slot) (b : Built) (p : Bool) : Hdr := ⟨v.vtS, b.fi, false, p, false, 0, b.lis⟩

/-- A new AMD PDU, R263. -/
def Slot.amdPdu (v : Slot) (b : Built) (p : Bool) : Bytes := packHdr .amd v.cfg.liw (v.amdHdr b p) ++ b.data

/-- The P bit of a new AMD PDU, R270. -/
def Slot.newPolls (v : Slot) (b : Built) : Bool := pollDue (pollCount true b.data.length (v.taken b))

/-- The bearer after a new AMD PDU, but for the poll, R263 and R269. -/
def Slot.afterAmdPdu (v : Slot) (b : Built) : Slot :=
  { pollCount true b.data.length (v.taken b) with
    rb := mapPut v.vtS ⟨b.fi, boundsOf b.lis, b.data, v.newPolls b, 0, [], false⟩ v.rb
    metrics := { v.metrics with numTxPdus := v.metrics.numTxPdus + 1 } }

theorem newPdu_eq_none_iff {budget : Nat} {w : Work} :
    newPdu budget w = none ↔ w.slot.stalled = true ∨ w.slot.txq = [] ∨ budget ≤ 2 := by
  rw [← buildElems_eq_none_iff (pm := w.params) (dcap := Config.maxAmData) (liw := w.slot.cfg.liw)]
  unfold newPdu
  dsimp only
  split
  · simp [*]
  · split <;> simp [*]

/-- A new PDU of an open window: the poll is decided once the bytes have left the queue, and the entry joins `RB`. -/
theorem newPdu_eq_some {budget : Nat} {w : Work} {b : Built} (hopen : w.slot.stalled = false)
    (hb : w.slot.amBuilt w.params budget = some b) :
    ∃ u, newPdu budget w = some (w.slot.amdPdu b (w.slot.newPolls b), u) ∧
      u.countTxPdu = Work.pollIf (w.slot.newPolls b) { w with slot := w.slot.afterAmdPdu b } := by
  have htaken : (w.upd fun s => { s with txq := b.txq, vtS := modN s.n (s.vtS + 1) }).slot = w.slot.taken b := rfl
  rw [Slot.amBuilt] at hb
  unfold newPdu
  simp only [hopen, Bool.false_eq_true, if_false, hb, pollDecide_eq, htaken, Slot.afterAmdPdu, Slot.newPolls]
  generalize pollDue (pollCount true b.data.length (w.slot.taken b)) = p
  cases p <;> exact ⟨_, rfl, rfl⟩

/-! ## The lowest SN with pending bytes, R265 -/

/-- The keys of the entries with a property. -/
theorem mem_mapKeys_filter {α : Type} {m : SnMap α} (hw : mapWf m = true) (p : α → Bool) {k : Nat} :
    k ∈ mapKeys (m.filter fun e => p e.2) ↔ ∃ a, mapGet k m = some a ∧ p a = true := by
  simp only [mapKeys, List.mem_map, List.mem_filter]
  constructor
  · rintro ⟨⟨j, a⟩, ⟨hmem, hp⟩, rfl⟩
    exact ⟨a, mapGet_of_mem hw hmem, hp⟩
  · rintro ⟨a, hget, hp⟩
    exact ⟨(k, a), ⟨mem_of_mapGet hget, hp⟩, rfl⟩

theorem mem_pendingSns {rb : SnMap RetxEntry} (hw : mapWf rb = true) {sn : Nat} :
    sn ∈ pendingSns rb ↔ ∃ e, mapGet sn rb = some e ∧ e.pending ≠ [] := by
  rw [pendingSns, mem_mapKeys_filter hw fun e => !e.pending.isEmpty]
  simp only [Bool.not_eq_true', List.isEmpty_eq_false_iff]

section Retx

variable {budget : Nat} {w : Work}

/-- What R265 chooses: nothing where nothing is pending, and otherwise the lowest SN with pending bytes. -/
theorem leastBy_pendingSns {v : Slot} (h : v.AmInv) :
    (leastBy (fun sn => rel v.n sn v.vtA) (pendingSns v.rb) = none ∧ ∀ e ∈ v.rb, e.2.pending = []) ∨
      ∃ sn e, leastBy (fun sn => rel v.n sn v.vtA) (pendingSns v.rb) = some sn ∧ v.FirstPending sn e := by
  have hmem := fun sn => mem_pendingSns h.rb.wf (sn := sn)
  rcases leastBy_spec (fun sn => rel v.n sn v.vtA) (pendingSns v.rb) with ⟨hnone, hnil⟩ | ⟨sn, hsn, hsome, hmin⟩
  · refine .inl ⟨hnone, fun e he => by_contra fun hne => ?_⟩
    have := (hmem e.1).mpr ⟨e.2, mapGet_of_mem h.rb.wf he, hne⟩
    rw [hnil] at this
    cases this
  · obtain ⟨e, hget, hne⟩ := (hmem sn).mp hsn
    exact .inr ⟨sn, e, hsome, hget, hne, fun k hk hkne => hmin k.1 ((hmem k.1).mpr ⟨k.2, mapGet_of_mem h.rb.wf hk, hkne⟩)⟩

theorem Slot.FirstPending.unique {v : Slot} (h : v.AmInv) {sn sn' : Nat} {e e' : RetxEntry} (hf : v.FirstPending sn e)
    (hf' : v.FirstPending sn' e') : sn = sn' := by
  obtain ⟨hget, hne, hmin⟩ := hf
  obtain ⟨hget', hne', hmin'⟩ := hf'
  have hlt := h.rb.keys_lt sn (mem_mapKeys.mpr ⟨e, hget⟩)
  have hlt' := h.rb.keys_lt sn' (mem_mapKeys.mpr ⟨e', hget'⟩)
  exact rel_inj hlt hlt' h.vtA (le_antisymm (hmin _ (mem_of_mapGet hget') hne') (hmin' _ (mem_of_mapGet hget) hne))

theorem retxPdu_of_firstPending (h : w.slot.AmInv) {sn : Nat} {e : RetxEntry} (hf : w.slot.FirstPending sn e) :
    retxPdu budget w = retxEntry budget sn e w := by
  rcases leastBy_pendingSns h with ⟨-, hnil⟩ | ⟨sn', e', hsome, hf'⟩
  · exact absurd (hnil _ (mem_of_mapGet hf.1)) hf.2.1
  · obtain rfl := hf.unique h hf'
    obtain ⟨hget, -⟩ := hf
    simp only [retxPdu, hsome, hget]

/-- The longest segment within the budget: none where not one of the lengths fits, and otherwise the greatest that does. -/
theorem largestSeg_spec (liw : LiWidth) (bounds : List Nat) (budget a : Nat) : ∀ m,
    (largestSeg liw bounds budget a m = none ∧ ∀ k, 1 ≤ k → k ≤ m → budget < segLen liw bounds a k) ∨
      ∃ n, largestSeg liw bounds budget a m = some n ∧ 1 ≤ n ∧ n ≤ m ∧ segLen liw bounds a n ≤ budget ∧
        ∀ k, n < k → k ≤ m → budget < segLen liw bounds a k
  | 0 => .inl ⟨rfl, fun k h1 h2 => by omega⟩
  | m + 1 => by
    rw [largestSeg]
    by_cases hfit : segLen liw bounds a (m + 1) ≤ budget
    · exact .inr ⟨m + 1, if_pos hfit, by omega, le_rfl, hfit, fun k h1 h2 => by omega⟩
    · rw [if_neg hfit]
      have hlast : ∀ k, k ≤ m + 1 → (k ≤ m → budget < segLen liw bounds a k) → budget < segLen liw bounds a k := fun k hk h => by
        rcases Nat.le_succ_iff.mp hk with hk | rfl
        · exact h hk
        · exact not_le.mp hfit
      refine (largestSeg_spec liw bounds budget a m).imp ?_ ?_
      · exact fun ⟨hnone, hall⟩ => ⟨hnone, fun k h1 h2 => hlast k h2 (hall k h1)⟩
      · exact fun ⟨n, hsome, hpos, hle, hn, hall⟩ => ⟨n, hsome, hpos, hle.trans (Nat.le_succ m), hn,
          fun k h1 h2 => hlast k h2 (hall k h1)⟩

/-- A segment of one byte takes five bytes, R86 and R265. -/
theorem segLen_one (liw : LiWidth) (bounds : List Nat) (a : Nat) : segLen liw bounds a 1 = 5 := by
  have hinner : innerBounds bounds a 1 = [] := List.eq_nil_iff_forall_not_mem.mpr fun b hb => by
    have := (mem_innerBounds.mp hb).2
    omega
  rw [segLen, hinner]
  cases liw <;> rfl

/-- The segment that R265 sends of the pending interval `[a, z)` has `n` bytes: as many as the interval and the budget hold. -/
structure LongestSeg (liw : LiWidth) (bounds : List Nat) (budget a z n : Nat) : Prop where
  pos : 1 ≤ n
  le : n ≤ z - a
  fits : segLen liw bounds a n ≤ budget
  longest : n = z - a ∨ budget < segLen liw bounds a (n + 1)

/-- A budget of five bytes holds a segment of a pending interval. -/
theorem exists_longestSeg (liw : LiWidth) (bounds : List Nat) {budget a z : Nat} (haz : a < z) (hb : 5 ≤ budget) :
    ∃ n, largestSeg liw bounds budget a (min (z - a) (budget - 4)) = some n ∧ LongestSeg liw bounds budget a z n := by
  rcases largestSeg_spec liw bounds budget a (min (z - a) (budget - 4)) with ⟨-, hall⟩ | ⟨n, hsome, hpos, hle, hfits, hall⟩
  · have := hall 1 le_rfl (by omega)
    rw [segLen_one] at this
    omega
  · refine ⟨n, hsome, hpos, by omega, hfits, ?_⟩
    by_cases hn : n = z - a
    · exact .inl hn
    · right
      by_cases hroom : n + 1 ≤ min (z - a) (budget - 4)
      · exact hall (n + 1) (Nat.lt_succ_self n) hroom
      · unfold segLen
        omega

/-- The first pending interval is not empty. -/
theorem pending_lt {e : RetxEntry} (hw : rangeWf e.pending = true) {a z : Nat} {more : RangeSet} (hp : e.pending = (a, z) :: more) :
    a < z := by
  rw [hp] at hw
  exact ((rangeWfFrom_cons _ _ _ _).mp hw).2.1

/-- A retransmission of the entry, R265: nothing where neither the whole PDU nor a segment of one byte fits. -/
theorem retxEntry_eq_none_iff {sn : Nat} {e : RetxEntry} (hw : rangeWf e.pending = true) (hne : e.pending ≠ []) :
    retxEntry budget sn e w = none ↔ ¬ e.WholeFits w.slot.cfg.liw budget ∧ budget < 5 := by
  obtain ⟨⟨a, z⟩, more, hp⟩ := List.exists_cons_of_ne_nil hne
  unfold retxEntry
  dsimp only
  by_cases hwhole : e.WholeFits w.slot.cfg.liw budget
  · rw [if_pos hwhole]
    simp [hwhole]
  · rw [if_neg hwhole, hp]
    by_cases hb : 5 ≤ budget
    · obtain ⟨n, hsome, -⟩ := exists_longestSeg w.slot.cfg.liw e.bounds (pending_lt hw hp) hb
      simp [hsome, hb]
    · have hzero : min (z - a) (budget - 4) = 0 := by omega
      simp [hzero, largestSeg, hwhole, not_le.mp hb]

theorem retxPdu_eq_none_iff (h : w.slot.AmInv) : retxPdu budget w = none ↔ w.slot.NoRetx budget := by
  rcases leastBy_pendingSns h with ⟨hnone, hnil⟩ | ⟨sn, e, -, hf⟩
  · exact iff_of_true (by simp only [retxPdu, hnone]) (.inl hnil)
  · have hmem := mem_of_mapGet hf.1
    rw [retxPdu_of_firstPending h hf, retxEntry_eq_none_iff (h.rb.pendingWf _ hmem) hf.2.1]
    constructor
    · exact fun hno => .inr ⟨sn, e, hf, hno⟩
    · rintro (hnil | ⟨sn', e', hf', hno⟩)
      · exact absurd (hnil _ hmem) hf.2.1
      · obtain rfl := hf.unique h hf'
        obtain rfl := Option.some.inj (hf.1.symm.trans hf'.1)
        exact hno

/-- A budget below a fixed header retransmits nothing. -/
theorem noRetx_of_lt_two {v : Slot} (h : v.AmInv) (hb : budget < 2) : v.NoRetx budget := by
  rcases leastBy_pendingSns h with ⟨-, hnil⟩ | ⟨sn, e, -, hf⟩
  · exact .inl hnil
  · exact .inr ⟨sn, e, hf, fun hwhole => by have := hwhole.2; omega, by omega⟩

end Retx

/-! ## The three parts of READ_PDU, R262 -/

section AmRead

variable {budget : Nat} {w : Work}

theorem amRead_of_due (hd : statusDue w.slot = true) (hb : 2 ≤ budget) : amRead budget w = statusPdu budget w := by
  simp [amRead, hd, hb]

/-- No status goes out: none is due, or the budget does not hold one. -/
def Slot.NoStatus (v : Slot) (budget : Nat) : Prop := ¬ (statusDue v = true ∧ 2 ≤ budget)

theorem Slot.NoStatus.of_not_due {v : Slot} (h : v.statusTriggered = false ∨ v.running.prohibit = true) (budget : Nat) :
    v.NoStatus budget := by
  rintro ⟨hd, -⟩
  obtain ⟨ht, hp⟩ := statusDue_iff.mp hd
  simp [ht, hp] at h

theorem amRead_of_retx (hn : w.slot.NoStatus budget) {pdu : Bytes} {u : Work} (hr : retxPdu budget w = some (pdu, u)) :
    amRead budget w = (pdu, u.countTxPdu.countRetxPdu) := by
  rw [amRead, if_neg (by simpa [Slot.NoStatus] using hn), hr]

theorem amRead_of_new (hn : w.slot.NoStatus budget) (hr : retxPdu budget w = none) {pdu : Bytes} {u : Work}
    (hnew : newPdu budget w = some (pdu, u)) : amRead budget w = (pdu, u.countTxPdu) := by
  rw [amRead, if_neg (by simpa [Slot.NoStatus] using hn), hr, hnew]

theorem amRead_of_none (hn : w.slot.NoStatus budget) (hr : retxPdu budget w = none) (hnew : newPdu budget w = none) :
    amRead budget w = ([], w) := by
  rw [amRead, if_neg (by simpa [Slot.NoStatus] using hn), hr, hnew]

/-- READ_PDU on an active AM bearer, R214. -/
theorem exec_readPdu_am {l : Lcid} {s : State} (ha : (s.slot l).active = true) (mode : (s.slot l).cfg.mode = .am) (b : Imm) :
    exec (.readPdu l 0 b) s = commit s (amRead b.toNat (s.enter l)).2 (amRead b.toNat (s.enter l)).1 := by
  simp [exec, execReadPdu, ha, readPdu, mode]

end AmRead

end Sys2Proof.Machine
end

section
/-! PROOFS. READ_PDU on an AM bearer (45_am_tx.md R261 to R270, R284): what each part sends and leaves, and how the reported buffer
state goes with it. -/

namespace Sys2Proof.Machine

/-! ## The LIs of a segment -/

theorem one_le_of_mem_lisFrom : ∀ {p : Nat} {bs : List Nat}, (∀ b ∈ bs, p < b) → bs.Pairwise (· < ·) →
    ∀ li ∈ lisFrom p bs, 1 ≤ li
  | _, [], _, _, _, hli => by cases hli
  | p, b :: bs, hlow, hp, li, hli => by
    obtain ⟨hb, hp⟩ := List.pairwise_cons.mp hp
    rcases List.mem_cons.mp hli with rfl | hli
    · have := hlow b List.mem_cons_self
      omega
    · exact one_le_of_mem_lisFrom hb hp li hli

/-- The LIs from a boundary on take the data up to the last boundary. -/
theorem sum_lisFrom_lt : ∀ {p c : Nat} {bs : List Nat}, p < c → (∀ b ∈ bs, p < b ∧ b < c) → bs.Pairwise (· < ·) →
    (lisFrom p bs).sum < c - p
  | p, c, [], hpc, _, _ => Nat.sub_pos_of_lt hpc
  | p, c, b :: bs, _, hin, hp => by
    obtain ⟨⟨hpb, hbc⟩, hin⟩ := List.forall_mem_cons.mp hin
    obtain ⟨hb, hp⟩ := List.pairwise_cons.mp hp
    have := sum_lisFrom_lt hbc (fun x hx => ⟨hb x hx, (hin x hx).2⟩) hp
    rw [lisFrom, List.sum_cons]
    omega

/-- LIs do not depend on where offsets are counted from. -/
theorem lisFrom_map_sub {a : Nat} : ∀ {p : Nat} {bs : List Nat}, a ≤ p → (∀ b ∈ bs, a ≤ b) →
    lisFrom (p - a) (bs.map (· - a)) = lisFrom p bs
  | _, [], _, _ => rfl
  | p, b :: bs, hp, hlow => by
    obtain ⟨hb, hlow⟩ := List.forall_mem_cons.mp hlow
    rw [List.map_cons, lisFrom, lisFrom, lisFrom_map_sub hb hlow, Nat.sub_sub_sub_cancel_right hp]

/-- The LIs of the boundaries inside a part of a data field are no longer than those of the whole, the first counted from the part's
start. -/
theorem le_of_mem_lisFrom_filter {lmax c : Nat} : ∀ {p q : Nat} {bs : List Nat}, p ≤ q → bs.Pairwise (· < ·) →
    (∀ li ∈ lisFrom p bs, li ≤ lmax) → ∀ li ∈ lisFrom q (bs.filter fun b => q < b && b < c), li ≤ lmax
  | _, _, [], _, _, _, _, hli => by cases hli
  | p, q, b :: bs, hpq, hp, hmax, li, hli => by
    obtain ⟨hb, hp⟩ := List.pairwise_cons.mp hp
    obtain ⟨hfirst, hmax⟩ := List.forall_mem_cons.mp hmax
    by_cases hqb : q < b
    · by_cases hbc : b < c
      · have hrest : (bs.filter fun x => q < x && x < c) = bs.filter fun x => b < x && x < c :=
          List.filter_congr fun x hx => by simp [hb x hx, hqb.trans (hb x hx)]
        rw [List.filter_cons_of_pos (by simp [hqb, hbc]), hrest] at hli
        rcases List.mem_cons.mp hli with rfl | hli
        · omega
        · exact le_of_mem_lisFrom_filter le_rfl hp hmax li hli
      · have hnil : ((b :: bs).filter fun x => q < x && x < c) = [] := List.filter_eq_nil_iff.mpr fun x hx => by
          have : c ≤ x := by
            rcases List.mem_cons.mp hx with rfl | hx
            · exact not_lt.mp hbc
            · exact (not_lt.mp hbc).trans (hb x hx).le
          simp [this]
        rw [hnil] at hli
        cases hli
    · rw [List.filter_cons_of_neg (by simp [hqb])] at hli
      exact le_of_mem_lisFrom_filter (not_lt.mp hqb) hp hmax li hli

theorem lis_segHdr_eq_lisFrom (e : RetxEntry) (sn : Nat) (p : Bool) (a n : Nat) :
    (e.segHdr sn p a n).lis = lisFrom a (innerBounds e.bounds a n) := by
  rw [lis_segHdr, lisOf, ← Nat.sub_self a, lisFrom_map_sub le_rfl fun b hb => (mem_innerBounds.mp hb).2.1.le]

/-! ## Retransmitted PDUs unpack to their headers -/

/-- The header of a whole retransmitted PDU, R265. -/
def RetxEntry.wholeHdr (e : RetxEntry) (sn : Nat) (p : Bool) : Hdr := ⟨sn, e.fi, false, p, false, 0, lisOf e.bounds⟩

section Headers

variable {pm : Params} {liw : LiWidth} {e : RetxEntry} {sn : Nat} (hsh : e.Shape pm liw) (hsn : sn < 1024) (p : Bool)
include hsh hsn

theorem unpackHdr_wholeHdr :
    unpackHdr pm .amd liw (packHdr .amd liw (e.wholeHdr sn p) ++ e.data) =
      some (e.wholeHdr sn p, (packHdr .amd liw (e.wholeHdr sn p)).length) := by
  obtain ⟨hpos, hmax, hcount, hp, hin, hlis⟩ := hsh
  have hok : (e.wholeHdr sn p).FixedOk .amd := ⟨hsn, fun hne => absurd rfl hne, fun _ => ⟨rfl, rfl⟩, nofun⟩
  have hone := one_le_of_mem_lisFrom (fun b hb => (hin b hb).1) hp
  exact (headerRoundTrip pm .amd liw).1 (e.wholeHdr sn p) e.data
    (Hdr.valid_iff.mpr ⟨(length_lisOf _).trans_le hcount, fun li hli => ⟨hone li hli, hlis li hli⟩, hok⟩)
    (sum_lisFrom_lt hpos hin hp) fun _ => ⟨hmax, nofun⟩

theorem unpackHdr_segHdr {a n : Nat} (hn : 1 ≤ n) (hle : a + n ≤ e.data.length) :
    unpackHdr pm .amd liw (packHdr .amd liw (e.segHdr sn p a n) ++ e.segData a n) =
      some (e.segHdr sn p a n, (packHdr .amd liw (e.segHdr sn p a n)).length) := by
  obtain ⟨hpos, hmax, hcount, hp, hin, hlis⟩ := hsh
  have hd := e.length_segData hle
  have hlis' := lis_segHdr_eq_lisFrom e sn p a n
  have hinner : ∀ b ∈ innerBounds e.bounds a n, a < b ∧ b < a + n := fun b hb => (mem_innerBounds.mp hb).2
  have hok : (e.segHdr sn p a n).FixedOk .amd :=
    ⟨hsn, fun hne => absurd rfl hne, nofun, fun _ => show a ≤ Config.maxAmData - 1 by omega⟩
  have hone := one_le_of_mem_lisFrom (fun b hb => (hinner b hb).1) (hp.filter _)
  have hlimit := le_of_mem_lisFrom_filter (c := a + n) (Nat.zero_le a) hp hlis
  refine (headerRoundTrip pm .amd liw).1 (e.segHdr sn p a n) (e.segData a n) (Hdr.valid_iff.mpr ⟨?_, ?_, hok⟩) ?_ fun _ =>
    ⟨by omega, fun _ => show a + _ ≤ _ by omega⟩
  · rw [hlis', length_lisFrom]
    exact (List.length_filter_le _ _).trans hcount
  · rw [hlis']
    exact fun li hli => ⟨hone li hli, hlimit li hli⟩
  · have := sum_lisFrom_lt (show a < a + n by omega) hinner (hp.filter _)
    rw [hlis']
    omega

end Headers

/-! ## Status PDUs, R262 -/

/-- Settles O30: a due status has priority (`amRead_of_due`), and what `build_status` reports is a valid record within the budget
(`statusGeneratorIsValid`). -/
theorem amStatusIsSentFirst : Obligations.AmStatusIsSentFirst := by
  rintro l b s v rfl ha mode hinv hsh htrig hprohibit hb
  obtain ⟨-, hlen, hunpack⟩ := statusGeneratorIsValid s.params (s.slot l) b.toNat hinv hsh mode hb
  refine ⟨_, hunpack, hlen, ?_⟩
  rw [exec_readPdu_am ha mode, amRead_of_due (w := s.enter l) (statusDue_iff.mpr ⟨htrig, hprohibit⟩) hb, commit_eq]
  rfl

/-! ## New data, R263 -/

section NewData

variable {s : State} {l : Lcid} {b : Imm} {built : Built}

theorem exec_readPdu_am_of_none (ha : (s.slot l).active = true) (mode : (s.slot l).cfg.mode = .am)
    (hn : (s.slot l).NoStatus b.toNat) (hr : retxPdu b.toNat (s.enter l) = none) (hnew : newPdu b.toNat (s.enter l) = none) :
    exec (.readPdu l 0 b) s = .next (s.answer []) := by
  rw [exec_readPdu_am ha mode, amRead_of_none (w := s.enter l) hn hr hnew, commit_eq]
  exact congrArg _ (after_self s l [])

/-- READ_PDU that leaves the bearer at `u` but for the poll of a PDU with P bit `p`, R270. -/
theorem commit_pollIf (s : State) (l : Lcid) (p : Bool) (u : Slot) (pdu : Bytes) :
    commit s (Work.pollIf p { s.enter l with slot := u }) pdu =
      .next (s.after l (if p then u.polled else u)
        (if p then { s.tags l with pollretx := (s.tags l).pollretx + 1 } else s.tags l) pdu
        (if p then [.timerStart l .pollretx ((s.tags l).pollretx + 1) u.cfg.tPollRetransmitMs] else [])) := rfl

theorem exec_readPdu_am_of_new (ha : (s.slot l).active = true) (mode : (s.slot l).cfg.mode = .am)
    (hn : (s.slot l).NoStatus b.toNat) (hr : retxPdu b.toNat (s.enter l) = none) (hopen : (s.slot l).stalled = false)
    (hb : (s.slot l).amBuilt s.params b.toNat = some built) :
    exec (.readPdu l 0 b) s =
      commit s (Work.pollIf ((s.slot l).newPolls built) { s.enter l with slot := (s.slot l).afterAmdPdu built })
        ((s.slot l).amdPdu built ((s.slot l).newPolls built)) := by
  obtain ⟨u, hnew, hu⟩ := newPdu_eq_some (w := s.enter l) hopen hb
  rw [exec_readPdu_am ha mode, amRead_of_new (w := s.enter l) hn hr hnew, hu]
  rfl

/-- A new AMD PDU unpacks to its header, R263. -/
theorem unpackHdr_amdPdu {pm : Params} {v : Slot} {budget : Nat} (hsn : v.vtS < 1024) (hq : QueueShape pm v.txq)
    (hb : v.amBuilt pm budget = some built) (p : Bool) :
    unpackHdr pm .amd v.cfg.liw (v.amdPdu built p) =
      some (v.amdHdr built p, (packHdr .amd v.cfg.liw (v.amdHdr built p)).length) := by
  obtain ⟨⟨hcount, hlis⟩, -, hcap⟩ := (builtFrom_of_buildElems hq (by decide) hb).fits
  have hok : (v.amdHdr built p).FixedOk .amd := ⟨hsn, fun hne => absurd rfl hne, fun _ => ⟨rfl, rfl⟩, nofun⟩
  exact (headerRoundTrip pm .amd v.cfg.liw).1 (v.amdHdr built p) built.data (Hdr.valid_iff.mpr ⟨hcount, hlis, hok⟩)
    (sum_lis_lt_of_buildElems hq (by decide) hb) fun _ => ⟨hcap, nofun⟩

theorem Slot.length_amdPdu (v : Slot) (built : Built) (p : Bool) :
    (v.amdPdu built p).length = 2 + liBytes v.cfg.liw built.lis.length + built.data.length := by
  rw [amdPdu, List.length_append, length_packHdr]
  rfl

/-- The poll condition of a new PDU, R269 and R270: the counters count it, and its entry in `RB` has nothing pending. -/
theorem newPolls_iff {v : Slot} : v.newPolls built = true ↔
    (v.taken built).PollDue (min (v.pduWithoutPoll.toNat + 1) 4294967295)
      (min (v.byteWithoutPoll.toNat + built.data.length) 4294967295) := by
  rw [Slot.newPolls, pollDue_iff, ← toNat_satAdd32, ← toNat_satAdd32]
  rfl

end NewData

/-- Settles O31: with no status and no retransmission, READ_PDU sends the PDU of `build_elems` where the window is open
(`exec_readPdu_am_of_new`) or nothing; what R215 says of the PDU is `builtFrom_of_buildElems`. -/
theorem amNewPduEntersTheBuffer : Obligations.AmNewPduEntersTheBuffer := by
  rintro l b s v g rfl rfl ha mode hinv hsh
  have ham := hinv.am mode
  have hretx := retxPdu_eq_none_iff (w := s.enter l) (budget := b.toNat) ham
  have hnew := newPdu_eq_none_iff (w := s.enter l) (budget := b.toNat)
  refine ⟨fun hb => ?_, fun hdue hno => ?_⟩
  · exact exec_readPdu_am_of_none ha mode (fun hs => by have := hs.2; omega) (hretx.mpr (noRetx_of_lt_two ham hb))
      (hnew.mpr (.inr (.inr (by omega))))
  have hn := Slot.NoStatus.of_not_due hdue b.toNat
  rw [← stalled_iff, ← not_le, ← stalled_iff]
  refine ⟨fun hnone => exec_readPdu_am_of_none ha mode hn (hretx.mpr hno) (hnew.mpr hnone), fun hopen hne hb => ?_⟩
  have hq := (hsh.am mode).queue
  obtain ⟨built, hbuilt⟩ : ∃ built, (s.slot l).amBuilt s.params b.toNat = some built :=
    Option.ne_none_iff_exists'.mp fun hnone => (buildElems_eq_none_iff.mp hnone).elim hne hb.not_ge
  have hfrom := builtFrom_of_buildElems hq (by decide) hbuilt
  have hsn : (s.slot l).vtS < 1024 := (ham.legal.am mode).1 ▸ ham.vtS
  have hdata : ((s.slot l).amdPdu built ((s.slot l).newPolls built)).drop
      (packHdr .amd (s.slot l).cfg.liw ((s.slot l).amdHdr built ((s.slot l).newPolls built))).length = built.data :=
    List.drop_left
  refine ⟨_, _, _, built.txq, _, _, (s.slot l).afterAmdPdu built, rfl, rfl, ?_,
    unpackHdr_amdPdu hsn hq hbuilt ((s.slot l).newPolls built), rfl, rfl, ?_, ?_, ?_, ?_, ?_⟩
  · rw [Slot.length_amdPdu]
    exact hfrom.fits.2.1
  · rw [hdata]
    exact hfrom.append_queueBytes
  · rw [hdata]
    exact hfrom
  · rw [hdata]
    exact newPolls_iff
  · rw [hdata]
    rfl
  · rw [exec_readPdu_am_of_new ha mode hn (hretx.mpr hno) (Bool.eq_false_iff.mpr hopen) hbuilt, commit_pollIf]
    rfl

/-! ## Retransmission, R265 -/

/-- The bearer after a retransmission that leaves the ranges `pend` of the entry pending, but for the poll. -/
def Slot.resent (v : Slot) (sn : Nat) (e : RetxEntry) (pend : RangeSet) : Slot :=
  { v with
    rb := mapPut sn { e with pending := pend } v.rb
    metrics := { v.metrics with numTxPdus := v.metrics.numTxPdus + 1, numRetxPdus := v.metrics.numRetxPdus + 1 } }

section Resent

variable {s : State} {l : Lcid} {b : Imm} {w : Work} {sn : Nat} {e : RetxEntry}

/-- The poll of a retransmission, which the counters do not count. -/
theorem pollDecide_resent (w : Work) (sn : Nat) (e : RetxEntry) (pend : RangeSet) (nbytes : Nat) :
    ∃ u, pollDecide false nbytes (w.upd fun s => { s with rb := mapPut sn { e with pending := pend } s.rb }) =
        (pollDue (w.slot.resent sn e pend), u) ∧
      u.slot.cfg = w.slot.cfg ∧
      u.countTxPdu.countRetxPdu =
        Work.pollIf (pollDue (w.slot.resent sn e pend)) { w with slot := w.slot.resent sn e pend } := by
  have hdue : pollDue (pollCount false nbytes
      (w.upd fun s => { s with rb := mapPut sn { e with pending := pend } s.rb }).slot) = pollDue (w.slot.resent sn e pend) := rfl
  rw [pollDecide_eq, hdue]
  generalize pollDue (w.slot.resent sn e pend) = p
  cases p <;> exact ⟨_, rfl, rfl, rfl⟩

/-- The whole PDU is retransmitted: all of it leaves `pending`. -/
theorem retxEntry_of_wholeFits {budget : Nat} (hwhole : e.WholeFits w.slot.cfg.liw budget) :
    ∃ u, retxEntry budget sn e w =
        some (packHdr .amd w.slot.cfg.liw (e.wholeHdr sn (pollDue (w.slot.resent sn e []))) ++ e.data, u) ∧
      u.countTxPdu.countRetxPdu =
        Work.pollIf (pollDue (w.slot.resent sn e [])) { w with slot := w.slot.resent sn e [] } := by
  obtain ⟨u, hpoll, hcfg, hu⟩ := pollDecide_resent w sn e [] e.data.length
  refine ⟨u, ?_, hu⟩
  rw [retxEntry, if_pos hwhole, retxWhole]
  simp only [hpoll, hcfg]
  rfl

/-- The longest segment that fits is retransmitted: its bytes leave `pending`. -/
theorem retxEntry_of_segment {budget a z : Nat} {more : RangeSet} (hnot : ¬ e.WholeFits w.slot.cfg.liw budget)
    (hp : e.pending = (a, z) :: more) (haz : a < z) (hb : 5 ≤ budget) :
    ∃ n pend u, LongestSeg w.slot.cfg.liw e.bounds budget a z n ∧ pend = rangeSub a (a + n) e.pending ∧
      retxEntry budget sn e w =
        some (packHdr .amd w.slot.cfg.liw (e.segHdr sn (pollDue (w.slot.resent sn e pend)) a n) ++ e.segData a n, u) ∧
      u.countTxPdu.countRetxPdu =
        Work.pollIf (pollDue (w.slot.resent sn e pend)) { w with slot := w.slot.resent sn e pend } := by
  obtain ⟨n, hsome, hlongest⟩ := exists_longestSeg w.slot.cfg.liw e.bounds haz hb
  obtain ⟨u, hpoll, hcfg, hu⟩ := pollDecide_resent w sn e (rangeSub a (a + n) e.pending) n
  refine ⟨n, _, u, hlongest, rfl, ?_, hu⟩
  unfold retxEntry
  dsimp only
  rw [if_neg hnot]
  split
  · simp [hp] at *
  · rename_i a' z' more' hp'
    obtain ⟨⟨rfl, rfl⟩, rfl⟩ : (a' = a ∧ z' = z) ∧ more' = more := by simpa using hp'.symm.trans hp
    rw [hsome]
    simp only [retxSegment, hpoll, hcfg]
    rfl

/-- READ_PDU of a retransmission. -/
theorem exec_readPdu_am_of_retx (ha : (s.slot l).active = true) (mode : (s.slot l).cfg.mode = .am)
    (hn : (s.slot l).NoStatus b.toNat) {pdu : Bytes} {u : Work} {p : Bool} {v : Slot}
    (hr : retxPdu b.toNat (s.enter l) = some (pdu, u))
    (hu : u.countTxPdu.countRetxPdu = Work.pollIf p { s.enter l with slot := v }) :
    exec (.readPdu l 0 b) s = commit s (Work.pollIf p { s.enter l with slot := v }) pdu := by
  rw [exec_readPdu_am ha mode, amRead_of_retx (w := s.enter l) hn hr, hu]

end Resent

/-- Settles O33: the entry is that of the first SN pending (`retxPdu_of_firstPending`); it is sent whole where it fits, and else as the
longest segment (`retxEntry_of_segment`), whose header carries the framing that the original implies. -/
theorem retransmissionIsExact : Obligations.RetransmissionIsExact := by
  rintro l b s v g sn e a z more rfl rfl ha mode hinv hsh hdue hfirst hpend hfits
  have ham := hinv.am mode
  have hn := Slot.NoStatus.of_not_due hdue b.toNat
  have hmem := mem_of_mapGet hfirst.1
  have hshape := (hsh.am mode).rb _ hmem
  have hsn : sn < 1024 := (ham.legal.am mode).1 ▸ ham.rb.keys_lt sn (mem_mapKeys.mpr ⟨e, hfirst.1⟩)
  have hwf := ham.rb.pendingWf _ hmem
  have haz := pending_lt hwf hpend
  have hz : z ≤ e.data.length := (ham.rb.entries _ hmem).1 (a, z) (by simp [hpend])
  have hr := retxPdu_of_firstPending (w := s.enter l) (budget := b.toNat) ham hfirst
  obtain ⟨hpos, -, -, hrise, hin, -⟩ := id hshape
  by_cases hwhole : e.WholeFits (s.slot l).cfg.liw b.toNat
  · obtain ⟨u, hentry, hu⟩ := retxEntry_of_wholeFits (w := s.enter l) (sn := sn) hwhole
    have hexec := exec_readPdu_am_of_retx ha mode hn (hr.trans hentry) hu
    obtain ⟨⟨rfl, rfl⟩, rfl⟩ : (a = 0 ∧ z = e.data.length) ∧ more = [] := by simpa using hpend.symm.trans hwhole.1
    refine ⟨_, _, _, e.data.length, [], (s.slot l).resent sn e [], ?_, unpackHdr_wholeHdr hshape hsn _, rfl, ?_, hpos, le_rfl,
      iff_of_true rfl hwhole, fun _ => ⟨rfl, rfl⟩, nofun, by simp [RetxEntry.wholeHdr], by simp [RetxEntry.wholeHdr], ?_, rfl,
      fun x => ?_, rfl, pollDue_iff, hexec.trans (commit_pollIf s l _ _ _)⟩
    · rw [List.length_append, length_packHdr]
      simpa [RetxEntry.wholeHdr, fixedLen] using hwhole.2
    · rw [List.drop_left, List.drop_zero, List.take_length]
    · have hall : e.bounds.filter (fun x => decide (0 < x) && decide (x < 0 + e.data.length)) = e.bounds :=
        List.filter_eq_self.mpr fun x hx => by simpa using hin x hx
      rw [hall, RetxEntry.wholeHdr, boundsOf_lisOf hrise]
      simp
    · simp [hpend, rangeHas_cons]
  · obtain ⟨n, pend, u, hlongest, rfl, hentry, hu⟩ :=
      retxEntry_of_segment (w := s.enter l) (sn := sn) hwhole hpend haz (hfits.resolve_left hwhole)
    have hexec := exec_readPdu_am_of_retx ha mode hn (hr.trans hentry) hu
    obtain ⟨hn1, hnz, hbudget, hmax⟩ := hlongest
    have hle : a + n ≤ e.data.length := by omega
    refine ⟨_, _, _, n, _, (s.slot l).resent sn e (rangeSub a (a + n) e.pending), ?_, unpackHdr_segHdr hshape hsn _ hn1 hle, rfl,
      List.drop_left, hn1, hnz, iff_of_false nofun hwhole, nofun, fun _ => ⟨rfl, decide_eq_true_iff, hmax⟩, ?_, ?_,
      boundsOf_segHdr _ _ _ _ hrise, rangeWf_rangeSub (by omega) hwf, fun x => ?_, rfl, pollDue_iff,
      hexec.trans (commit_pollIf s l _ _ _)⟩
    · rw [List.length_append, length_packHdr, e.length_segData hle, lis_segHdr_eq_lisFrom, length_lisFrom]
      exact hbudget
    · rw [fi1_segHdr]
      split <;> simp
    · rw [fi0_segHdr]
      split <;> simp
    · rw [rangeHas_rangeSub, Bool.and_eq_true, Bool.not_eq_true', ← Bool.not_eq_true, Bool.and_eq_true, decide_eq_true_eq,
        decide_eq_true_eq]

/-! ## A stalled window, R261 -/

/-- Writing an entry that is held leaves the keys as they are. -/
theorem mapKeys_mapPut_of_mapGet {α : Type} {m : SnMap α} (hw : mapWf m = true) {k : Nat} {a a' : α} (hg : mapGet k m = some a) :
    mapKeys (mapPut k a' m) = mapKeys m := by
  refine (mapWf_iff.mp (mapWf_mapPut k a' hw)).eq_of_mem_iff (mapWf_iff.mp hw) fun j => ?_
  rw [mem_mapKeys_mapPut hw]
  exact or_iff_right_of_imp fun hj => hj ▸ mem_mapKeys.mpr ⟨a, hg⟩

/-- A retransmission leaves the queue, `VT_S` and the SNs of `RB` as they are. -/
theorem retxPdu_frame {budget : Nat} {w u : Work} {pdu : Bytes} (hw : mapWf w.slot.rb = true)
    (h : retxPdu budget w = some (pdu, u)) :
    u.slot.txq = w.slot.txq ∧ u.slot.vtS = w.slot.vtS ∧ mapKeys u.slot.rb = mapKeys w.slot.rb := by
  obtain ⟨sn, e, pending, nbytes, hg, -, rfl⟩ := retxPdu_cases h
  obtain ⟨_, _, _, _, _, hslot, -⟩ := pollDecide_slot false nbytes
    (w.upd fun s => { s with rb := mapPut sn { e with pending := pending } s.rb })
  rw [hslot]
  exact ⟨rfl, rfl, mapKeys_mapPut_of_mapGet hw hg⟩

/-- READ_PDU on a bearer with a stalled window, R261. -/
theorem amRead_frame_of_stalled {budget : Nat} {w : Work} (hw : mapWf w.slot.rb = true) (hst : w.slot.stalled = true) :
    (amRead budget w).2.slot.txq = w.slot.txq ∧ (amRead budget w).2.slot.vtS = w.slot.vtS ∧
      mapKeys (amRead budget w).2.slot.rb = mapKeys w.slot.rb := by
  by_cases hd : statusDue w.slot = true ∧ 2 ≤ budget
  · rw [amRead_of_due hd.1 hd.2]
    exact ⟨rfl, rfl, rfl⟩
  · cases hr : retxPdu budget w with
    | some r =>
      obtain ⟨pdu, u⟩ := r
      rw [amRead_of_retx hd hr]
      exact retxPdu_frame (u := u) hw hr
    | none =>
      rw [amRead_of_none hd hr (newPdu_eq_none_iff.mpr (.inl hst))]
      exact ⟨rfl, rfl, rfl⟩

/-- Settles O32: neither a status nor a retransmission touches them, and a stalled window lets no new PDU out. -/
theorem stalledBearerSendsNoNewData : Obligations.StalledBearerSendsNoNewData := by
  intro l b s t ha mode hinv hst ht
  have hframe := amRead_frame_of_stalled (w := s.enter l) (budget := b.toNat) (hinv.am mode).rb.wf (stalled_iff.mpr hst)
  have hlcid := (Accepted.readPdu (b := b) ha).lcid_eq
  simp only [readPdu, slot_enter, mode] at hlcid
  rw [exec_readPdu_am ha mode, commit_eq, hlcid] at ht
  cases ht
  simpa [Instr.lcid] using hframe

/-! ## The buffer state, R284 -/

theorem packHdr_append_ne_nil (fmt : Fmt) (liw : LiWidth) (h : Hdr) (d : Bytes) : packHdr fmt liw h ++ d ≠ [] := by
  refine List.ne_nil_of_length_pos ?_
  have := fixedLen_pos fmt h.rf
  rw [List.length_append, length_packHdr]
  omega

theorem packStatus_ne_nil (st : Status) : packStatus st ≠ [] := by
  refine List.ne_nil_of_length_pos ?_
  rw [length_packStatus, statusLen]
  omega

theorem retxPdu_ne_nil {budget : Nat} {w u : Work} {pdu : Bytes} (h : retxPdu budget w = some (pdu, u)) : pdu ≠ [] := by
  unfold retxPdu at h
  split at h
  · cases h
  split at h
  · cases h
  unfold retxEntry at h
  dsimp only at h
  split at h
  · cases h
    exact packHdr_append_ne_nil _ _ _ _
  split at h
  · cases h
  split at h
  · cases h
  · cases h
    exact packHdr_append_ne_nil _ _ _ _

theorem newPdu_ne_nil {budget : Nat} {w u : Work} {pdu : Bytes} (h : newPdu budget w = some (pdu, u)) : pdu ≠ [] := by
  unfold newPdu at h
  split at h
  · cases h
  dsimp only at h
  split at h
  · cases h
  · cases h
    exact packHdr_append_ne_nil _ _ _ _

/-- READ_PDU gives nothing exactly where none of its three parts has anything to send. -/
theorem amRead_eq_nil_iff {budget : Nat} {w : Work} (h : w.slot.AmInv) : (amRead budget w).1 = [] ↔
    w.slot.NoStatus budget ∧ w.slot.NoRetx budget ∧ (w.slot.stalled = true ∨ w.slot.txq = [] ∨ budget ≤ 2) := by
  rw [← retxPdu_eq_none_iff h, ← newPdu_eq_none_iff]
  by_cases hd : statusDue w.slot = true ∧ 2 ≤ budget
  · rw [amRead_of_due hd.1 hd.2]
    exact iff_of_false (packStatus_ne_nil _) fun hn => hn.1 hd
  cases hr : retxPdu budget w with
  | some r =>
    obtain ⟨pdu, u⟩ := r
    rw [amRead_of_retx hd hr]
    exact iff_of_false (retxPdu_ne_nil hr) nofun
  | none =>
    cases hnew : newPdu budget w with
    | some r =>
      obtain ⟨pdu, u⟩ := r
      rw [amRead_of_new hd hr hnew]
      exact iff_of_false (newPdu_ne_nil hnew) nofun
    | none =>
      rw [amRead_of_none hd hr hnew]
      exact iff_of_true rfl ⟨hd, rfl, rfl⟩

/-- An AM bearer has nothing to send, whatever the budget. -/
structure Slot.Drained (v : Slot) : Prop where
  status : statusDue v = false
  retx : ∀ e ∈ v.rb, e.2.pending = []
  new : v.stalled = true ∨ v.txq = []

theorem bsEntry_of_not_pending (liw : LiWidth) {e : RetxEntry} (h : e.pending = []) : bsEntry liw e = 0 := by
  rw [bsEntry_eq, if_pos h]

/-- What is reported for an entry with pending bytes is enough for its whole PDU where all of it is pending, and for a segment
else. -/
theorem wholeFits_or_five_le_bsEntry (liw : LiWidth) {e : RetxEntry} (hw : rangeWf e.pending = true) (hne : e.pending ≠ []) :
    e.WholeFits liw (bsEntry liw e) ∨ 5 ≤ bsEntry liw e := by
  rw [bsEntry_eq, if_neg hne]
  by_cases hall : e.pending = [(0, e.data.length)]
  · rw [if_pos hall]
    exact .inl ⟨hall, le_rfl⟩
  · obtain ⟨⟨a, z⟩, more, hp⟩ := List.exists_cons_of_ne_nil hne
    have haz := pending_lt hw hp
    rw [if_neg hall, hp, List.map_cons, List.sum_cons]
    exact .inr (by dsimp only; omega)

section BsAm

variable {pm : Params} {v : Slot}

theorem bsEntry_le_bsAm {e : Nat × RetxEntry} (he : e ∈ v.rb) : bsEntry v.cfg.liw e.2 ≤ bsAm pm v := by
  have := List.le_sum_of_mem (List.mem_map_of_mem (f := fun e : Nat × RetxEntry => bsEntry v.cfg.liw e.2) he)
  unfold bsAm
  omega

theorem two_le_bsAm_of_due (h : statusDue v = true) : 2 ≤ bsAm pm v := by
  rw [bsAm, if_pos h, length_packStatus, statusLen]
  omega

theorem bsNew_le_bsAm (h : v.stalled = false) : bsNew 2 v.cfg.liw v.txq ≤ bsAm pm v := by
  rw [bsAm, h]
  simp

theorem bsAm_of_drained (h : v.Drained) : bsAm pm v = 0 := by
  have hrb : (v.rb.map fun e => bsEntry v.cfg.liw e.2).sum = 0 := List.sum_eq_zero fun x hx => by
    obtain ⟨e, he, rfl⟩ := List.mem_map.mp hx
    exact bsEntry_of_not_pending _ (h.retx e he)
  rw [bsAm, h.status, hrb]
  rcases h.new with hst | hnil
  · simp [hst]
  · simp [hnil, bsNew_nil]

/-- A read of the size reported, up to a bound on budgets, gives nothing only where there is nothing to send. -/
theorem drained_of_amRead_eq_nil {w : Work} (h : w.slot.AmInv) (hq : QueueShape w.params w.slot.txq) {budget bound : Nat}
    (hbound : 5 ≤ bound) (hb : min (bsAm w.params w.slot) bound ≤ budget) (hnil : (amRead budget w).1 = []) :
    w.slot.Drained := by
  obtain ⟨hstatus, hretx, hnew⟩ := (amRead_eq_nil_iff h).mp hnil
  refine ⟨Bool.eq_false_iff.mpr fun hd => hstatus ⟨hd, ?_⟩, hretx.resolve_right ?_, by_contra fun hsend => ?_⟩
  · have := two_le_bsAm_of_due (pm := w.params) hd
    omega
  · rintro ⟨sn, e, ⟨hget, hne, -⟩, hnot, hlt⟩
    have hmem := mem_of_mapGet hget
    have hle : bsEntry w.slot.cfg.liw e ≤ bsAm w.params w.slot := bsEntry_le_bsAm hmem
    have hwf : rangeWf e.pending = true := h.rb.pendingWf _ hmem
    rcases wholeFits_or_five_le_bsEntry w.slot.cfg.liw hwf hne with ⟨hall, hfit⟩ | hfive
    · exact hnot ⟨hall, hfit.trans (by omega)⟩
    · omega
  · obtain ⟨hopen, hne⟩ := not_or.mp hsend
    have hbytes := hq.length_queueBytes_pos hne
    have hle := bsNew_le_bsAm (pm := w.params) (Bool.eq_false_iff.mpr hopen)
    rw [bsNew_of_ne_nil hne] at hle
    have := (hnew.resolve_left hopen).resolve_left hne
    omega

/-- The report is 0 exactly where there is nothing to send: with a budget of 0 nothing is sent either. -/
theorem bsAm_eq_zero_iff {w : Work} (h : w.slot.AmInv) (hq : QueueShape w.params w.slot.txq) :
    bsAm w.params w.slot = 0 ↔ w.slot.Drained := by
  refine ⟨fun hzero => ?_, bsAm_of_drained⟩
  have hnil : (amRead 0 w).1 = [] := (amRead_eq_nil_iff h).mpr
    ⟨fun hd => absurd hd.2 (by decide), noRetx_of_lt_two h (by decide), .inr (.inr (by decide))⟩
  exact drained_of_amRead_eq_nil h hq le_rfl (by rw [hzero]; exact Nat.min_le_left 0 5) hnil

end BsAm

theorem exec_readPdu_am_of_drained {s : State} {l : Lcid} (ha : (s.slot l).active = true) (mode : (s.slot l).cfg.mode = .am)
    (h : (s.slot l).AmInv) (hd : (s.slot l).Drained) (b : Imm) : exec (.readPdu l 0 b) s = .next (s.answer []) :=
  exec_readPdu_am_of_none ha mode (fun hs => by simp [hd.status] at hs) ((retxPdu_eq_none_iff (w := s.enter l) h).mpr (.inl hd.retx))
    (newPdu_eq_none_iff.mpr (hd.new.imp_right .inl))

/-- What GET_BUFFER_STATE answers is the capped value of R212. -/
theorem min_bufferState_of_exec {s : State} {l : Lcid} {n : Nat} (hn : n ≤ 4294967295)
    (h : exec (.getBufferState l 0 0) s = .next (s.answer (put32 n))) : min (bufferState s.params (s.slot l)) 4294967295 = n := by
  rcases hn.lt_or_eq with hlt | rfl
  · rw [(exec_getBufferState_eq_iff hlt).mp h, min_eq_left hlt.le]
  · by_contra hne
    have hlt : bufferState s.params (s.slot l) < 4294967295 := by omega
    have hsame := h.symm.trans ((exec_getBufferState_eq_iff hlt).mpr rfl)
    injection hsame with hsame
    have hr := congrArg State.responses hsame
    rw [responses_answer, responses_answer, List.append_cancel_left_eq] at hr
    have := put32_injective (by omega) (by omega) (congrArg Response.result (List.singleton_inj.mp hr))
    omega

/-- Settles O23: the report is 0 exactly where there is nothing to send (`bsAm_eq_zero_iff`), and a bearer that sends nothing for the
size it reports, or for the largest budget, has nothing to send (`drained_of_amRead_eq_nil`). -/
theorem amBufferStateIsConsistent : Obligations.AmBufferStateIsConsistent := by
  rintro l s v rfl ha mode hinv hsh
  have ham := hinv.am mode
  have hq := (hsh.am mode).queue
  have hzero := bsAm_eq_zero_iff (w := s.enter l) ham hq
  refine ⟨?_, fun b hpos hmax hreport => ?_⟩
  · rw [exec_getBufferState_eq_iff (by decide), bufferState_am ha mode]
    refine hzero.trans ⟨exec_readPdu_am_of_drained ha mode ham, fun hread => ?_⟩
    have hlast := (exec_readPdu_am ha mode 65535).symm.trans (hread 65535)
    injection hlast with hlast
    have hr := congrArg State.responses hlast
    rw [responses_answer] at hr
    have hnil := congrArg Response.result (List.singleton_inj.mp (List.append_cancel_left hr))
    exact drained_of_amRead_eq_nil (w := s.enter l) ham hq (by decide) (Nat.min_le_right _ 65535) hnil
  · have hmin := min_bufferState_of_exec hmax hreport
    rw [bufferState_am ha mode] at hmin
    have hbudget : (BitVec.ofNat 16 (min b 65535)).toNat = min b 65535 := by
      rw [BitVec.toNat_ofNat, Nat.mod_eq_of_lt (by omega)]
    refine ⟨_, _, exec_readPdu_am ha mode _, rfl, fun hnil => ?_⟩
    rw [hbudget] at hnil
    have hdrained := drained_of_amRead_eq_nil (w := s.enter l) (bound := 65535) ham hq (by decide)
      (show min (bsAm s.params (s.slot l)) 65535 ≤ _ by omega) hnil
    have : bsAm s.params (s.slot l) = 0 := hzero.mpr hdrained
    omega

end Sys2Proof.Machine
end

section
/-! PROOFS. Status reception on an AM bearer (45_am_tx.md R273 to R277): what a status makes of each entry of `RB`, and of the whole
bearer. -/

namespace Sys2Proof.Machine

/-! ## Considering an entry for retransmission, R276 -/

/-- Writing back the entry that is held changes nothing. -/
theorem mapPut_of_mapGet {α : Type} {m : SnMap α} (hw : mapWf m = true) {k : Nat} {a : α} (hg : mapGet k m = some a) :
    mapPut k a m = m := by
  refine mapWf_ext (mapWf_mapPut k a hw) hw fun j => ?_
  rw [mapGet_mapPut k j a hw]
  split
  · rename_i h
    rw [h, hg]
  · rfl

/-- The entry `e` considered for retransmission of the ranges `rg`, where `limit` is the greatest number of retransmissions, R276. -/
def RetxEntry.considered (limit : Nat) (rg : RangeSet) (e : RetxEntry) : RetxEntry :=
  if e.dead then e
  else if e.pending = [] then
    if limit < e.retxCount.toNat + 1 then { e with dead := true }
    else { e with retxCount := e.retxCount + 1, pending := rangeUnion e.pending rg }
  else { e with pending := rangeUnion e.pending rg }

section Considered

variable {limit : Nat} {rg : RangeSet} {e : RetxEntry}

theorem considered_of_dead (h : e.dead = true) : e.considered limit rg = e := if_pos h

theorem considered_of_exhausted (hd : e.dead = false) (hp : e.pending = []) (hl : limit < e.retxCount.toNat + 1) :
    e.considered limit rg = { e with dead := true } := by
  rw [RetxEntry.considered, if_neg (by simp [hd]), if_pos hp, if_pos hl]

/-- An entry that may be sent again takes the ranges, and counts where nothing was pending. -/
theorem considered_of_alive (hd : e.dead = false) (hl : e.pending = [] → e.retxCount.toNat + 1 ≤ limit) :
    e.considered limit rg =
      { e with
        retxCount := if e.pending = [] then e.retxCount + 1 else e.retxCount
        pending := rangeUnion e.pending rg } := by
  rw [RetxEntry.considered, if_neg (by simp [hd])]
  by_cases hp : e.pending = []
  · rw [if_pos hp, if_neg (not_lt.mpr (hl hp)), if_pos hp]
  · rw [if_neg hp, if_neg hp]

/-- Nothing but the count, the pending ranges and the dead flag may change. -/
theorem considered_frame (limit : Nat) (rg : RangeSet) (e : RetxEntry) :
    e.considered limit rg =
      { e with
        retxCount := (e.considered limit rg).retxCount
        pending := (e.considered limit rg).pending
        dead := (e.considered limit rg).dead } := by
  unfold RetxEntry.considered
  split_ifs <;> rfl

end Considered

/-- The most retransmissions of a PDU, `max_retx_threshold`. -/
abbrev Slot.retxLimit (v : Slot) : Nat := v.cfg.maxRetxThreshold.toNat

/-- `consider_for_retx`, R276: the entry is considered, and a NOTIFY_MAX_RETX says that it is dead now and was not before. -/
theorem considerForRetx_eq {w : Work} (hw : mapWf w.slot.rb = true) {sn : Nat} (rg : RangeSet) {e : RetxEntry}
    (hg : mapGet sn w.slot.rb = some e) :
    considerForRetx sn rg w =
      { w with
        slot := { w.slot with rb := mapPut sn (e.considered w.slot.retxLimit rg) w.slot.rb }
        events := w.events ++
          if !e.dead && (e.considered w.slot.retxLimit rg).dead then [.notifyMaxRetx w.lcid sn] else [] } := by
  unfold considerForRetx
  simp only [hg]
  by_cases hd : e.dead = true
  · rw [considered_of_dead hd, mapPut_of_mapGet hw hg]
    simp [hd]
  · have halive : e.dead = false := Bool.eq_false_iff.mpr hd
    rw [if_neg hd, show (!e.dead) = true by simp [hd], Bool.true_and]
    by_cases hp : e.pending = []
    · rw [if_pos (List.isEmpty_iff.mpr hp)]
      by_cases hl : w.slot.retxLimit < e.retxCount.toNat + 1
      · rw [considered_of_exhausted halive hp hl, if_pos hl]
        rfl
      · rw [considered_of_alive halive fun _ => not_lt.mp hl, if_neg hl, if_pos hp, if_neg hd, List.append_nil]
        rfl
    · rw [considered_of_alive halive fun h => absurd h hp, if_neg (by simpa using hp), if_neg hp, if_neg hd, List.append_nil]
      rfl

/-! ## The ranges that NACKs ask for, R274 -/

theorem Nack.asks_iff {k : Nack} {x : Nat} :
    k.asks x = true ↔ k.hasSo = false ∨ (k.soStart ≤ x ∧ (k.soEnd = 0x7FFF ∨ x ≤ k.soEnd)) := by
  simp [Nack.asks]

theorem rangeHas_nackRange {len x : Nat} {k : Nack} {rg : RangeSet} :
    rangeHas x (nackRange len k rg) = true ↔ rangeHas x rg = true ∨ (x < len ∧ k.asks x = true) := by
  rw [Nack.asks_iff]
  unfold nackRange
  dsimp only
  cases k.hasSo with
  | false => simp [rangeHas_rangeAdd]
  | true =>
    by_cases hstart : k.soStart < len
    · rw [if_pos rfl, if_pos hstart, rangeHas_rangeAdd, Bool.or_eq_true, Bool.and_eq_true, decide_eq_true_eq, decide_eq_true_eq]
      refine or_congr_right ?_
      split <;> simp [*] <;> omega
    · rw [if_pos rfl, if_neg hstart]
      refine (or_iff_left ?_).symm
      simp
      omega

theorem rangeHas_foldl_nackRange {len x : Nat} : ∀ (ks : List Nack) (rg : RangeSet),
    rangeHas x (ks.foldl (fun rg k => nackRange len k rg) rg) = true ↔
      rangeHas x rg = true ∨ (x < len ∧ ∃ k ∈ ks, k.asks x = true)
  | [], rg => by simp
  | k :: ks, rg => by
    rw [List.foldl_cons, rangeHas_foldl_nackRange ks, rangeHas_nackRange, List.exists_mem_cons_iff, and_or_left, or_assoc]

/-- NACK records ask for the bytes of the PDU that one of them names. -/
theorem rangeHas_nackRanges {len x : Nat} {ks : List Nack} :
    rangeHas x (nackRanges len ks) = true ↔ x < len ∧ ∃ k ∈ ks, k.asks x = true :=
  (rangeHas_foldl_nackRange ks []).trans (by simp)

theorem rangeWf_nackRanges (len : Nat) (ks : List Nack) : rangeWf (nackRanges len ks) = true := by
  refine List.foldlRecOn (motive := fun rg => rangeWf rg = true) ks _ rfl fun rg hrg k _ => ?_
  unfold nackRange
  dsimp only
  split_ifs
  · exact rangeWf_rangeAdd _ _ hrg
  · exact rangeWf_rangeAdd _ _ hrg
  · exact hrg
  · exact rangeWf_rangeAdd _ _ hrg

theorem eq_nil_iff_forall_rangeHas {r : RangeSet} (hw : rangeWf r = true) : r = [] ↔ ∀ x, rangeHas x r = false :=
  ⟨fun h x => by rw [h, rangeHas_nil], fun h => rangeWf_ext hw rfl h⟩

/-! ## One SN of a status, R273 -/

/-- The NACK records of an SN. -/
def nacksFor (nacks : List Nack) (sn : Nat) : List Nack := nacks.filter fun k => k.sn == sn

/-- What a status with the records `nacks` leaves of the entry `e` of an SN below its ACK_SN, R273: nothing where it does not name the
SN, the entry as it was where it asks for no byte of it, and otherwise the entry considered for retransmission. -/
def RetxEntry.acked (limit : Nat) (nacks : List Nack) (sn : Nat) (e : RetxEntry) : Option RetxEntry :=
  if nacksFor nacks sn = [] then none
  else if nackRanges e.data.length (nacksFor nacks sn) = [] then some e
  else some (e.considered limit (nackRanges e.data.length (nacksFor nacks sn)))

/-- A status with the records `nacks` makes the entry of an SN dead that was not. -/
def Slot.killedBy (v : Slot) (nacks : List Nack) (sn : Nat) : Bool :=
  (mapGet sn v.rb).any fun e => !e.dead && (e.acked v.retxLimit nacks sn).any RetxEntry.dead

/-- `rb'` is `rb` with the entries of the SNs `sns` as a status with the records `nacks` leaves them. -/
structure AckedOver (limit : Nat) (nacks : List Nack) (sns : List Nat) (rb rb' : SnMap RetxEntry) : Prop where
  wf : mapWf rb' = true
  get : ∀ k, mapGet k rb' = if k ∈ sns then (mapGet k rb).bind (RetxEntry.acked limit nacks k) else mapGet k rb

theorem ackedOver_singleton {limit : Nat} {nacks : List Nack} {sn : Nat} {rb rb' : SnMap RetxEntry} (hw : mapWf rb' = true)
    (hget : mapGet sn rb' = (mapGet sn rb).bind (RetxEntry.acked limit nacks sn))
    (hother : ∀ k, k ≠ sn → mapGet k rb' = mapGet k rb) : AckedOver limit nacks [sn] rb rb' := by
  refine ⟨hw, fun k => ?_⟩
  by_cases hk : k = sn
  · rw [hk, if_pos List.mem_cons_self, hget]
  · rw [if_neg (by simpa using hk), hother k hk]

section OneSn

variable {limit : Nat} {nacks : List Nack} {sn : Nat} {e : RetxEntry}

theorem acked_of_free (hfree : nacksFor nacks sn = []) : e.acked limit nacks sn = none := if_pos hfree

theorem acked_of_ineffective (hnamed : nacksFor nacks sn ≠ []) (hnone : nackRanges e.data.length (nacksFor nacks sn) = []) :
    e.acked limit nacks sn = some e := by
  rw [RetxEntry.acked, if_neg hnamed, if_pos hnone]

theorem acked_of_effective (hnamed : nacksFor nacks sn ≠ []) (hsome : nackRanges e.data.length (nacksFor nacks sn) ≠ []) :
    e.acked limit nacks sn = some (e.considered limit (nackRanges e.data.length (nacksFor nacks sn))) := by
  rw [RetxEntry.acked, if_neg hnamed, if_neg hsome]

theorem killedBy_of_mapGet {v : Slot} (hg : mapGet sn v.rb = some e) :
    v.killedBy nacks sn = (!e.dead && (e.acked v.retxLimit nacks sn).any RetxEntry.dead) := by
  rw [Slot.killedBy, hg, Option.any_some]

/-- One SN of a status, R273: its entry is acknowledged, and a NOTIFY_MAX_RETX says that it is dead now and was not before. -/
theorem statusStep_eq {w : Work} (hw : mapWf w.slot.rb = true) (nacks : List Nack) (sn : Nat) :
    ∃ rb, statusStep nacks w sn =
      { w with
        slot := { w.slot with rb := rb }
        events := w.events ++ if w.slot.killedBy nacks sn then [.notifyMaxRetx w.lcid sn] else [] } ∧
      AckedOver w.slot.retxLimit nacks [sn] w.slot.rb rb := by
  unfold statusStep
  cases hg : mapGet sn w.slot.rb with
  | none =>
    refine ⟨w.slot.rb, ?_, ackedOver_singleton hw (by rw [hg]; rfl) fun _ _ => rfl⟩
    simp [Slot.killedBy, hg]
  | some e =>
    change ∃ rb, (if (nacksFor nacks sn).isEmpty then _ else if (nackRanges _ (nacksFor nacks sn)).isEmpty then _ else _) = _ ∧ _
    rw [killedBy_of_mapGet hg]
    by_cases hfree : nacksFor nacks sn = []
    · refine ⟨mapDel sn w.slot.rb, ?_, ackedOver_singleton (mapWf_mapDel sn hw) ?_ fun k hk => ?_⟩
      · rw [if_pos (List.isEmpty_iff.mpr hfree), acked_of_free hfree]
        simp [Work.upd]
      · rw [mapGet_mapDel, if_pos rfl, hg, Option.bind_some, acked_of_free hfree]
      · rw [mapGet_mapDel, if_neg hk]
    rw [if_neg (by simpa using hfree)]
    by_cases hnone : nackRanges e.data.length (nacksFor nacks sn) = []
    · refine ⟨w.slot.rb, ?_, ackedOver_singleton hw ?_ fun _ _ => rfl⟩
      · rw [if_pos (List.isEmpty_iff.mpr hnone), acked_of_ineffective hfree hnone]
        simp
      · rw [hg, Option.bind_some, acked_of_ineffective hfree hnone]
    · refine ⟨mapPut sn (e.considered w.slot.retxLimit (nackRanges e.data.length (nacksFor nacks sn))) w.slot.rb, ?_,
        ackedOver_singleton (mapWf_mapPut sn _ hw) ?_ fun k hk => ?_⟩
      · rw [if_neg (by simpa using hnone), acked_of_effective hfree hnone]
        exact considerForRetx_eq hw _ hg
      · rw [mapGet_mapPut sn sn _ hw, if_pos rfl, hg, Option.bind_some, acked_of_effective hfree hnone]
      · rw [mapGet_mapPut sn k _ hw, if_neg hk]

end OneSn

/-! ## A whole status, R273 and R275 -/

/-- The SNs of a list, each once, one after another: each finds its own entry as it was. -/
theorem foldl_statusStep_eq (nacks : List Nack) : ∀ {sns : List Nat} {w : Work}, sns.Nodup → mapWf w.slot.rb = true →
    ∃ rb, sns.foldl (statusStep nacks) w =
      { w with
        slot := { w.slot with rb := rb }
        events := w.events ++ (sns.filter (w.slot.killedBy nacks)).map (.notifyMaxRetx w.lcid) } ∧
      AckedOver w.slot.retxLimit nacks sns w.slot.rb rb
  | [], w, _, hw => ⟨w.slot.rb, by simp, hw, by simp⟩
  | sn :: sns, w, hnodup, hw => by
    obtain ⟨hsn, hnodup⟩ := List.nodup_cons.mp hnodup
    obtain ⟨rb, hstep, hacked⟩ := statusStep_eq hw nacks sn
    have hsame : ∀ k ∈ sns, mapGet k rb = mapGet k w.slot.rb := fun k hk => by
      have hne : k ∉ [sn] := fun hmem => hsn (List.mem_singleton.mp hmem ▸ hk)
      rw [hacked.get, if_neg hne]
    obtain ⟨rb', hfold, hacked'⟩ := foldl_statusStep_eq nacks (w := statusStep nacks w sn) hnodup (by rw [hstep]; exact hacked.wf)
    have hkilled : sns.filter ((statusStep nacks w sn).slot.killedBy nacks) = sns.filter (w.slot.killedBy nacks) :=
      List.filter_congr fun k hk => by
        rw [hstep]
        unfold Slot.killedBy
        dsimp only
        rw [hsame k hk]
    refine ⟨rb', ?_, hacked'.wf, fun k => ?_⟩
    · rw [List.foldl_cons, hfold, hkilled, hstep, List.filter_cons]
      split <;> simp
    · rw [hacked'.get, hstep]
      dsimp only
      by_cases hk : k ∈ sns
      · rw [if_pos hk, if_pos (List.mem_cons_of_mem _ hk), hsame k hk]
      · rw [if_neg hk, hacked.get]
        simp [hk]

theorem snRun_eq_map {n : Nat} : ∀ {k a : Nat}, a < n → snRun n a k = (List.range k).map fun j => (a + j) % n
  | 0, _, _ => rfl
  | k + 1, a, ha => by
    have hfirst : (a + 0) % n = a := Nat.mod_eq_of_lt ha
    have hnext : ∀ j, (modN n (a + 1) + j) % n = (a + (j + 1)) % n := fun j => by
      rw [modN, Nat.mod_add_mod, Nat.add_assoc, Nat.add_comm 1 j]
    rw [snRun, snRun_eq_map (succ_spec ha).1, List.range_succ_eq_map, List.map_cons, List.map_map, hfirst]
    exact congrArg (a :: ·) (List.map_congr_left fun j _ => hnext j)

/-- The SNs of an interval rise from its start. -/
theorem pairwise_snInterval {n a b : Nat} (ha : a < n) : (snInterval n a b).Pairwise fun x y => rel n x a < rel n y a := by
  have hlt := rel_lt_of_pos (Nat.zero_lt_of_lt ha) b a
  rw [snInterval, snRun_eq_map ha]
  refine List.pairwise_map.mpr (List.pairwise_lt_range.imp_of_mem fun {i j} hi hj hij => ?_)
  rw [List.mem_range] at hi hj
  rwa [rel_of_add ha (by omega), rel_of_add ha (by omega)]

theorem nodup_snInterval {n a b : Nat} (ha : a < n) : (snInterval n a b).Nodup :=
  (pairwise_snInterval ha).imp fun hlt heq => absurd hlt (by rw [heq]; exact Nat.lt_irrefl _)

/-- The SNs that a status makes dead, in rising order from `VT_A`. -/
def Slot.deadBy (v : Slot) (st : Status) : List Nat := (snInterval v.n v.vtA st.ack).filter (v.killedBy st.nacks)

/-- The events of a status on bearer `l`, whose poll timer has the tag `g`, R273 and R277. -/
def Slot.statusEvents (v : Slot) (st : Status) (l : Lcid) (g : BitVec 16) : List Event :=
  (v.deadBy st).map (.notifyMaxRetx l) ++
    if v.running.pollretx && before v.n v.pollSn st.ack v.vtA then [.timerStop l .pollretx g] else []

theorem notifyMaxRetx_mem_statusEvents {v : Slot} {st : Status} {l : Lcid} {g : BitVec 16} {sn : Nat} :
    .notifyMaxRetx l sn ∈ v.statusEvents st l g ↔ sn ∈ v.deadBy st := by
  unfold Slot.statusEvents
  split <;> simp

/-- The retransmission buffer `rb` is what a status leaves of that of the bearer, R273. -/
def Slot.Acked (v : Slot) (st : Status) (rb : SnMap RetxEntry) : Prop :=
  AckedOver v.retxLimit st.nacks (snInterval v.n v.vtA st.ack) v.rb rb

/-- The bearer after a status that leaves the retransmission buffer `rb`, R273 and R275. -/
def Slot.afterStatus (v : Slot) (st : Status) (rb : SnMap RetxEntry) : Slot :=
  { v with
    rb := rb
    vtA := nextVtA v.n v.vtA v.vtS rb
    running := { v.running with pollretx := v.running.pollretx && !before v.n v.pollSn st.ack v.vtA } }

/-- `handle_status`, R273. -/
theorem handleStatus_eq {w : Work} (ha : w.slot.vtA < w.slot.n) (hw : mapWf w.slot.rb = true) (st : Status) :
    ∃ rb, w.slot.Acked st rb ∧ handleStatus st w =
      { w with
        slot := w.slot.afterStatus st rb
        events := w.events ++ w.slot.statusEvents st w.lcid w.tags.pollretx } := by
  obtain ⟨rb, hfold, hacked⟩ := foldl_statusStep_eq st.nacks (nodup_snInterval (b := st.ack) ha) hw
  refine ⟨rb, hacked, ?_⟩
  unfold handleStatus Slot.afterStatus Slot.statusEvents
  simp only [hfold, Work.upd, ← List.append_assoc]
  by_cases hstop : (w.slot.running.pollretx && before w.slot.n w.slot.pollSn st.ack w.slot.vtA) = true
  · have hoff : (w.slot.running.pollretx && !before w.slot.n w.slot.pollSn st.ack w.slot.vtA) = false := by simp_all
    rw [if_pos hstop, if_pos hstop, hoff]
    rfl
  · have hkeep : (w.slot.running.pollretx && !before w.slot.n w.slot.pollSn st.ack w.slot.vtA) = w.slot.running.pollretx := by
      simp_all
    rw [if_neg hstop, if_neg hstop, hkeep, List.append_nil]
    rfl

theorem amWritePdu_of_status {w : Work} {pdu : Bytes} {st : Status} (hdc : wireBit pdu 0 = false)
    (hu : unpackStatus w.params pdu = some st) (hctx : inContext w.slot.n w.slot.vtA w.slot.vtS st = true) :
    amWritePdu pdu w = handleStatus st w.countRxPdu := by
  have hne : pdu ≠ [] := fun hnil => by simp [unpackStatus, hnil] at hu
  rw [amWritePdu_control hne hdc, statusReceive, hu]
  exact if_pos hctx

/-- WRITE_PDU of an accepted status, R272 and R273. -/
theorem exec_writePdu_status {l : Lcid} {pdu : Bytes} {s : State} {v : Slot} {st : Status} (hv : v = s.slot l) (ha : v.active = true)
    (mode : v.cfg.mode = .am) (h : v.AmInv) (hdc : wireBit pdu 0 = false) (hu : unpackStatus s.params pdu = some st)
    (hctx : inContext v.n v.vtA v.vtS st = true) :
    ∃ rb, v.Acked st rb ∧ exec (.writePdu l 0 pdu) s =
      .next (s.after l
        { v.afterStatus st rb with metrics := { v.metrics with numRxPdus := v.metrics.numRxPdus + 1 } } (s.tags l) []
        (v.statusEvents st l (s.tags l).pollretx)) := by
  subst hv
  obtain ⟨rb, hacked, heq⟩ := handleStatus_eq (w := (s.enter l).countRxPdu) h.vtA h.rb.wf st
  refine ⟨rb, hacked, ?_⟩
  have hwrite : writePdu pdu (s.enter l) = amWritePdu pdu (s.enter l) := by simp [writePdu, mode]
  rw [exec_writePdu ha, hwrite, amWritePdu_of_status (w := s.enter l) hdc hu hctx, heq, commit_eq]
  rfl

/-! ## What a status does, by SN -/

section Acked

variable {v : Slot} {st : Status} {rb : SnMap RetxEntry}

theorem before_iff_rel_lt {n x y b : Nat} : before n x y b = true ↔ rel n x b < rel n y b := decide_eq_true_iff

theorem nacksFor_ne_nil_iff {nacks : List Nack} {sn : Nat} : nacksFor nacks sn ≠ [] ↔ ∃ q ∈ nacks, q.sn = sn := by
  simp [nacksFor]

/-- An SN below ACK_SN. -/
theorem mem_snInterval_iff_before (h : v.AmInv) {k : Nat} (hk : k ∈ mapKeys v.rb) :
    k ∈ snInterval v.n v.vtA st.ack ↔ before v.n k st.ack v.vtA = true := by
  rw [mem_snInterval h.vtA (h.rb.keys_lt k hk), before_iff_rel_lt]

theorem Slot.Acked.mapGet_of_not_before (hacked : v.Acked st rb) (h : v.AmInv) {k : Nat}
    (hk : before v.n k st.ack v.vtA = false) : mapGet k rb = mapGet k v.rb := by
  rw [hacked.get, if_neg fun hmem => ?_]
  rw [mem_snInterval h.vtA (lt_of_mem_snInterval h.vtA hmem), ← before_iff_rel_lt, hk] at hmem
  cases hmem

/-- The entry of an SN below ACK_SN. -/
theorem Slot.Acked.mapGet_of_before (hacked : v.Acked st rb) (h : v.AmInv) {k : Nat} {e : RetxEntry} (hg : mapGet k v.rb = some e)
    (hk : before v.n k st.ack v.vtA = true) : mapGet k rb = e.acked v.retxLimit st.nacks k := by
  rw [hacked.get, if_pos ((mem_snInterval_iff_before h (mem_mapKeys.mpr ⟨e, hg⟩)).mpr hk), hg, Option.bind_some]

theorem isSome_acked_iff {limit : Nat} {nacks : List Nack} {sn : Nat} {e : RetxEntry} :
    (∃ e', e.acked limit nacks sn = some e') ↔ ∃ q ∈ nacks, q.sn = sn := by
  rw [← nacksFor_ne_nil_iff]
  by_cases hfree : nacksFor nacks sn = []
  · simp [acked_of_free hfree, hfree]
  · by_cases hnone : nackRanges e.data.length (nacksFor nacks sn) = []
    · simp [acked_of_ineffective hfree hnone, hfree]
    · simp [acked_of_effective hfree hnone, hfree]

/-- The SNs that stay in `RB`, R273. -/
theorem Slot.Acked.mem_mapKeys_iff (hacked : v.Acked st rb) (h : v.AmInv) {k : Nat} : k ∈ mapKeys rb ↔
    k ∈ mapKeys v.rb ∧ (before v.n k st.ack v.vtA = true → ∃ q ∈ st.nacks, q.sn = k) := by
  cases hk : before v.n k st.ack v.vtA with
  | false => simp [mem_mapKeys, hacked.mapGet_of_not_before h hk]
  | true =>
    cases hg : mapGet k v.rb with
    | none =>
      have hnone : mapGet k rb = none := by
        rw [hacked.get, hg]
        exact ite_self _
      simp [mem_mapKeys, hg, hnone]
    | some e => simp [mem_mapKeys, hg, hacked.mapGet_of_before h hg hk, isSome_acked_iff]

/-- The SNs notified are those of the entries that were not dead before the status and are after it, R277. -/
theorem Slot.Acked.mem_deadBy_iff (hacked : v.Acked st rb) (h : v.AmInv) {k : Nat} : k ∈ v.deadBy st ↔
    ∃ e e', mapGet k v.rb = some e ∧ mapGet k rb = some e' ∧ e.dead = false ∧ e'.dead = true := by
  rw [Slot.deadBy, List.mem_filter]
  cases hg : mapGet k v.rb with
  | none => simp [Slot.killedBy, hg]
  | some e =>
    rw [mem_snInterval_iff_before h (mem_mapKeys.mpr ⟨e, hg⟩), killedBy_of_mapGet hg]
    cases hk : before v.n k st.ack v.vtA with
    | false => simp [hacked.mapGet_of_not_before h hk, hg]
    | true => simp [hacked.mapGet_of_before h hg hk, Option.any_eq_true, and_left_comm]

end Acked

/-- `VT_A` after a status is the lowest SN left, R275. -/
theorem nextVtA_spec (n a0 vtS : Nat) {rb : SnMap RetxEntry} (hne : rb ≠ []) :
    nextVtA n a0 vtS rb ∈ mapKeys rb ∧ ∀ k ∈ mapKeys rb, rel n (nextVtA n a0 vtS rb) a0 ≤ rel n k a0 := by
  unfold nextVtA
  rcases leastBy_spec (fun k => rel n k a0) (mapKeys rb) with ⟨-, hnil⟩ | ⟨k, hk, hsome, hmin⟩
  · exact absurd (List.map_eq_nil_iff.mp hnil) hne
  · rw [hsome]
    exact ⟨hk, hmin⟩

/-- Settles O35: each SN below ACK_SN is handled once (`foldl_statusStep_eq`), so the entries, and with them the events, are told SN by
SN. -/
theorem acknowledgementFreesEntries : Obligations.AcknowledgementFreesEntries := by
  rintro l pdu s v st rfl ha mode hinv hdc hu hctx
  have ham := hinv.am mode
  obtain ⟨rb, hacked, hexec⟩ := exec_writePdu_status rfl ha mode ham hdc hu hctx
  refine ⟨rb, _, _, hexec, fun k => hacked.mem_mapKeys_iff ham, fun k hk => hacked.mapGet_of_not_before ham hk, ?_,
    nextVtA_spec _ _ _, fun k => hacked.mem_deadBy_iff ham, (pairwise_snInterval ham.vtA).filter _⟩
  rintro rfl
  rfl

/-! ## What NACKs do to one entry, R274 and R276 -/

section Nacked

variable {nacks : List Nack} {sn : Nat} {e : RetxEntry}

/-- The bytes that a status asks for of an SN. -/
theorem rangeHas_nackRanges_nacksFor {len x : Nat} : rangeHas x (nackRanges len (nacksFor nacks sn)) = true ↔
    x < len ∧ ∃ k ∈ nacks, k.sn = sn ∧ k.asks x = true := by
  rw [rangeHas_nackRanges]
  simp [nacksFor, and_assoc]

theorem acked_of_asked (h : ∃ x < e.data.length, ∃ k ∈ nacks, k.sn = sn ∧ k.asks x = true) (limit : Nat) :
    e.acked limit nacks sn = some (e.considered limit (nackRanges e.data.length (nacksFor nacks sn))) := by
  obtain ⟨x, hx, k, hk, hsn, hasks⟩ := h
  refine acked_of_effective (nacksFor_ne_nil_iff.mpr ⟨k, hk, hsn⟩) fun hnil => ?_
  have := rangeHas_nackRanges_nacksFor.mpr ⟨hx, k, hk, hsn, hasks⟩
  rw [hnil] at this
  cases this

theorem acked_of_not_asked (hnamed : ∃ k ∈ nacks, k.sn = sn)
    (hnone : ∀ x < e.data.length, ∀ k ∈ nacks, k.sn = sn → k.asks x = false) (limit : Nat) :
    e.acked limit nacks sn = some e := by
  refine acked_of_ineffective (nacksFor_ne_nil_iff.mpr hnamed) ?_
  refine (eq_nil_iff_forall_rangeHas (rangeWf_nackRanges _ _)).mpr fun x => Bool.eq_false_iff.mpr fun hx => ?_
  obtain ⟨hlt, k, hk, hsn, hasks⟩ := rangeHas_nackRanges_nacksFor.mp hx
  rw [hnone x hlt k hk hsn] at hasks
  cases hasks

end Nacked

/-- Settles O36: a NACK names an SN below ACK_SN, whose entry is considered for the bytes asked for where there are any
(`acked_of_asked`), and stays as it was where there are none (`acked_of_not_asked`). -/
theorem nackMarksTheBytes : Obligations.NackMarksTheBytes := by
  rintro l pdu s v st sn e rfl ha mode hinv hdc hu hctx hg
  have ham := hinv.am mode
  obtain ⟨rb, hacked, hexec⟩ := exec_writePdu_status rfl ha mode ham hdc hu hctx
  have hbefore : (∃ k ∈ st.nacks, k.sn = sn) → before (s.slot l).n sn st.ack (s.slot l).vtA = true := by
    rintro ⟨k, hk, rfl⟩
    obtain ⟨-, hall⟩ := Bool.and_eq_true_iff.mp hctx
    exact List.all_eq_true.mp hall k hk
  have hnotify : ∀ e', mapGet sn rb = some e' →
      (Event.notifyMaxRetx l sn ∈ (s.slot l).statusEvents st l (s.tags l).pollretx ↔ e.dead = false ∧ e'.dead = true) :=
    fun e' he' => by
      rw [notifyMaxRetx_mem_statusEvents, hacked.mem_deadBy_iff ham, hg, he']
      simp
  refine ⟨fun hasked => ?_, fun hnamed hnone => ?_⟩
  · have hnamed : ∃ k ∈ st.nacks, k.sn = sn := by
      obtain ⟨x, -, k, hk, hsn, -⟩ := hasked
      exact ⟨k, hk, hsn⟩
    have hget := (hacked.mapGet_of_before ham hg (hbefore hnamed)).trans (acked_of_asked hasked _)
    refine ⟨_, _, _, hexec, rfl, by rw [slot_after_same]; exact hget, considered_frame _ _ e, fun hd => ?_, fun hd hp hl => ?_,
      fun hd hl => ?_⟩
    · rw [hnotify _ hget, hd]
      exact ⟨considered_of_dead hd, nofun⟩
    · rw [hnotify _ hget, considered_of_exhausted hd hp hl]
      exact ⟨rfl, hd, rfl⟩
    · rw [hnotify _ hget, considered_of_alive hd hl]
      refine ⟨by simp [hd], hd, ?_, fun x => ?_⟩
      · have hlimit := (s.slot l).cfg.maxRetxThreshold.isLt
        dsimp only
        split
        · exact BitVec.toNat_add_of_lt ((hl ‹_›).trans_lt hlimit)
        · rfl
      · rw [rangeHas_rangeUnion, Bool.or_eq_true, rangeHas_nackRanges_nacksFor]
  · have hget := (hacked.mapGet_of_before ham hg (hbefore hnamed)).trans (acked_of_not_asked hnamed hnone _)
    refine ⟨_, _, hexec, rfl, by rw [slot_after_same]; exact hget, ?_⟩
    rw [hnotify _ hget]
    exact fun h => by simp [h.1] at h

end Sys2Proof.Machine
end

section
/-! PROOFS. Expiry of t_poll_retransmit on an AM bearer (45_am_tx.md R276, R279). -/

namespace Sys2Proof.Machine

/-! ## Whether anything can be sent, and which SN is chosen -/

/-- SNs are outstanding, and nothing but a retransmission can be sent: nothing is queued or pending, or the window is stalled
(R279). -/
def Slot.Idle (v : Slot) : Prop :=
  v.vtS ≠ v.vtA ∧ ((v.txq = [] ∧ ∀ e ∈ v.rb, e.2.pending = []) ∨ v.amW ≤ rel v.n v.vtS v.vtA)

theorem idle_iff {v : Slot} : (v.vtS != v.vtA && (v.nothingToSend || v.stalled)) = true ↔ v.Idle := by
  rw [Bool.and_eq_true, bne_iff_ne, Bool.or_eq_true, nothingToSend_iff, stalled_iff]
  rfl

/-- The SNs of the entries that are not dead. -/
def Slot.liveSns (v : Slot) : List Nat := mapKeys (v.rb.filter fun e => !e.2.dead)

theorem mem_liveSns {v : Slot} (hw : mapWf v.rb = true) {sn : Nat} :
    sn ∈ v.liveSns ↔ ∃ e, mapGet sn v.rb = some e ∧ e.dead = false := by
  rw [Slot.liveSns, mem_mapKeys_filter hw fun e => !e.dead]
  simp only [Bool.not_eq_true']

/-- The highest SN that is not dead, counted from `VT_A`. -/
theorem greatestBy_liveSns {v : Slot} (h : v.AmInv) {sn : Nat} {e : RetxEntry} (hg : mapGet sn v.rb = some e) (hd : e.dead = false)
    (hmax : ∀ k ∈ v.rb, k.2.dead = false → rel v.n k.1 v.vtA ≤ rel v.n sn v.vtA) :
    greatestBy (fun k => rel v.n k v.vtA) v.liveSns = some sn := by
  have hsn := (mem_liveSns h.rb.wf).mpr ⟨e, hg, hd⟩
  rcases greatestBy_spec (fun k => rel v.n k v.vtA) v.liveSns with ⟨-, hnil⟩ | ⟨k, hk, hsome, hall⟩
  · rw [hnil] at hsn
    cases hsn
  · obtain ⟨e', hg', hd'⟩ := (mem_liveSns h.rb.wf).mp hk
    have hlt := h.rb.keys_lt sn (mem_mapKeys.mpr ⟨e, hg⟩)
    have hlt' := h.rb.keys_lt k (mem_mapKeys.mpr ⟨e', hg'⟩)
    rw [hsome, rel_inj hlt' hlt h.vtA (le_antisymm (hmax _ (mem_of_mapGet hg') hd') (hall sn hsn))]

/-! ## The expiry, R279 -/

section Expiry

variable {w : Work}

theorem pollRetxExpiry_of_not_idle (h : ¬ w.slot.Idle) :
    pollRetxExpiry w = w.upd fun s => { s with pollPending := true } :=
  if_neg fun hidle => h (idle_iff.mp hidle)

theorem pollRetxExpiry_of_all_dead (h : ∀ e ∈ w.slot.rb, e.2.dead = true) :
    pollRetxExpiry w = w.upd fun s => { s with pollPending := true } := by
  have hnil : (w.upd fun s => { s with pollPending := true }).slot.rb.filter (fun e => !e.2.dead) = [] :=
    List.filter_eq_nil_iff.mpr fun e he => by simp [h e he]
  unfold pollRetxExpiry
  simp only [hnil]
  exact ite_self _

theorem pollRetxExpiry_of_idle (h : w.slot.AmInv) (hidle : w.slot.Idle) {sn : Nat} {e : RetxEntry}
    (hg : mapGet sn w.slot.rb = some e) (hd : e.dead = false)
    (hmax : ∀ k ∈ w.slot.rb, k.2.dead = false → rel w.slot.n k.1 w.slot.vtA ≤ rel w.slot.n sn w.slot.vtA) :
    pollRetxExpiry w =
      considerForRetx sn (rangeAdd 0 e.data.length []) (w.upd fun s => { s with pollPending := true }) := by
  have hask : (w.upd fun s => { s with pollPending := true }).slot.AmInv := { h with }
  have hidle : (w.upd fun s => { s with pollPending := true }).slot.Idle := hidle
  have hg : mapGet sn (w.upd fun s => { s with pollPending := true }).slot.rb = some e := hg
  have hchosen := greatestBy_liveSns hask hg hd hmax
  unfold pollRetxExpiry
  dsimp only
  generalize (w.upd fun s => { s with pollPending := true }) = u at hidle hg hchosen ⊢
  rw [Slot.liveSns] at hchosen
  rw [if_pos (idle_iff.mpr hidle)]
  simp only [hchosen, hg]

end Expiry

section Exec

variable {l : Lcid} {s : State} {v : Slot}

/-- The bearer whose poll timer has expired, R363. -/
def Slot.pollExpired (v : Slot) : Slot := { v with running := { v.running with pollretx := false } }

/-- TIMER_EXPIRY of the running poll timer on an AM bearer, R363 and R364. -/
theorem exec_timerExpiry_pollretx (hv : v = s.slot l) (ha : v.active = true) (mode : v.cfg.mode = .am)
    (hon : v.running.pollretx = true) :
    exec (.timerExpiry l 2 (s.tags l).pollretx) s = commit s (pollRetxExpiry (s.workOn l v.pollExpired)) [] := by
  subst hv
  have hcurrent : expiryCurrent .pollretx (s.tags l).pollretx (s.enter l) = true := by
    simp [expiryCurrent, ha, PerTimer.get, hon]
  have hexpire : expire .pollretx (s.enter l) =
      pollRetxExpiry ((s.enter l).upd fun v => { v with running := v.running.set .pollretx false }) := by
    simp only [expire, expiryAction, slot_upd, slot_enter, mode]
  change (if expiryCurrent .pollretx (s.tags l).pollretx (s.enter l) then commit s (expire .pollretx (s.enter l)) [] else _) = _
  rw [if_pos hcurrent, hexpire]
  rfl

/-- The expiry marks nothing where something else can be sent, or every entry is dead. -/
theorem exec_timerExpiry_pollretx_of_none (hv : v = s.slot l) (ha : v.active = true) (mode : v.cfg.mode = .am)
    (hon : v.running.pollretx = true) (hnone : ¬ v.Idle ∨ ∀ e ∈ v.rb, e.2.dead = true) :
    exec (.timerExpiry l 2 (s.tags l).pollretx) s =
      .next (s.after l { v.pollExpired with pollPending := true } (s.tags l) [] []) := by
  have hpoll : pollRetxExpiry (s.workOn l v.pollExpired) =
      (s.workOn l v.pollExpired).upd fun s => { s with pollPending := true } :=
    hnone.elim (fun h => pollRetxExpiry_of_not_idle (w := s.workOn l v.pollExpired) h)
      fun h => pollRetxExpiry_of_all_dead (w := s.workOn l v.pollExpired) h
  rw [exec_timerExpiry_pollretx hv ha mode hon, hpoll]
  rfl

/-- The expiry considers the whole PDU of the highest SN that is not dead where nothing else can be sent. -/
theorem exec_timerExpiry_pollretx_of_idle (hv : v = s.slot l) (ha : v.active = true) (h : v.AmInv)
    (hon : v.running.pollretx = true) (hidle : v.Idle) {sn : Nat} {e : RetxEntry} (hg : mapGet sn v.rb = some e)
    (hd : e.dead = false) (hmax : ∀ k ∈ v.rb, k.2.dead = false → rel v.n k.1 v.vtA ≤ rel v.n sn v.vtA) :
    exec (.timerExpiry l 2 (s.tags l).pollretx) s =
      .next (s.after l
        { v.pollExpired with
          pollPending := true
          rb := mapPut sn (e.considered v.retxLimit (rangeAdd 0 e.data.length [])) v.rb } (s.tags l) []
        (if (e.considered v.retxLimit (rangeAdd 0 e.data.length [])).dead then [.notifyMaxRetx l sn] else [])) := by
  have hexpired : (s.workOn l v.pollExpired).slot.AmInv := { h with }
  have hconsider := considerForRetx_eq (w := (s.workOn l v.pollExpired).upd fun s => { s with pollPending := true }) h.rb.wf
    (rangeAdd 0 e.data.length []) hg
  rw [hd, Bool.not_false, Bool.true_and] at hconsider
  rw [exec_timerExpiry_pollretx hv ha h.mode hon, pollRetxExpiry_of_idle hexpired hidle hg hd hmax, hconsider]
  rfl

end Exec

/-- All of a PDU, together with any part of it, is all of it. -/
theorem rangeUnion_whole {r : RangeSet} {len : Nat} (hw : rangeWf r = true) (hle : ∀ i ∈ r, i.2 ≤ len) (hpos : 1 ≤ len) :
    rangeUnion r (rangeAdd 0 len []) = [(0, len)] := by
  refine rangeWf_ext (rangeWf_rangeUnion _ hw) (by simp [rangeWfFrom_cons]; omega) fun x => Bool.eq_iff_iff.mpr ?_
  have hbelow : rangeHas x r = true → x < len := fun hx => by
    simp only [rangeHas, List.any_eq_true, Bool.and_eq_true, decide_eq_true_eq] at hx
    obtain ⟨i, hi, -, hlt⟩ := hx
    exact hlt.trans_le (hle i hi)
  rw [rangeHas_rangeUnion, rangeHas_rangeAdd, rangeHas_cons, Bool.or_eq_true]
  simpa using hbelow

/-- Settles O52: where nothing else can be sent, the highest SN that is not dead is considered whole
(`exec_timerExpiry_pollretx_of_idle`), with all of its bytes pending after it (`rangeUnion_whole`). -/
theorem pollExpiryRetransmitsTheHighestSn : Obligations.PollExpiryRetransmitsTheHighestSn := by
  rintro l s v idle hv ha mode hinv hsh hon rfl
  have ham := hinv.am mode
  refine ⟨exec_timerExpiry_pollretx_of_none hv ha mode hon, fun sn e hidle hg hd hmax => ?_⟩
  have hmem := mem_of_mapGet hg
  have hpos : 1 ≤ e.data.length := ((hsh.am mode).rb _ hmem).1
  have hwhole : rangeUnion e.pending (rangeAdd 0 e.data.length []) = [(0, e.data.length)] :=
    rangeUnion_whole (ham.rb.pendingWf _ hmem) (ham.rb.entries _ hmem).1 hpos
  refine ⟨_, _, exec_timerExpiry_pollretx_of_idle hv ha ham hon hidle hg hd hmax, fun hne => ?_, fun hnil hl => ?_,
    fun hnil hl => ?_⟩
  · rw [considered_of_alive hd fun h => absurd h hne, hwhole, if_neg hne, hd]
    exact ⟨rfl, rfl⟩
  · rw [considered_of_alive hd fun _ => hl, hwhole, if_pos hnil, hd]
    exact ⟨rfl, rfl⟩
  · rw [considered_of_exhausted hd hnil hl]
    exact ⟨rfl, rfl⟩

end Sys2Proof.Machine
end

section
/-! PROOFS. No command touches a dead entry, or notifies it again, while its SN is held (45_am_tx.md R277, R285). -/

namespace Sys2Proof.Machine

/-! ## The entry in `RB` -/

/-- SN `sn` of `RB`, where it is held, has the entry `e`. -/
def Slot.KeepsEntry (v : Slot) (sn : Nat) (e : RetxEntry) : Prop :=
  mapWf v.rb = true ∧ ∀ e', mapGet sn v.rb = some e' → e' = e

section

variable {v v' : Slot} {sn : Nat} {e : RetxEntry}

theorem Slot.KeepsEntry.put (h : v.KeepsEntry sn e) {k : Nat} {e' : RetxEntry} (hk : sn = k → e' = e)
    (hrb : v'.rb = mapPut k e' v.rb) : v'.KeepsEntry sn e := by
  obtain ⟨hw, he⟩ := h
  rw [Slot.KeepsEntry, hrb]
  refine ⟨mapWf_mapPut k e' hw, fun x hx => ?_⟩
  rw [mapGet_mapPut k sn e' hw] at hx
  split at hx
  · rename_i hsn
    exact (Option.some.inj hx).symm.trans (hk hsn)
  · exact he x hx

theorem Slot.KeepsEntry.del (h : v.KeepsEntry sn e) (k : Nat) (hrb : v'.rb = mapDel k v.rb) : v'.KeepsEntry sn e := by
  obtain ⟨hw, he⟩ := h
  rw [Slot.KeepsEntry, hrb]
  refine ⟨mapWf_mapDel k hw, fun x hx => ?_⟩
  rw [mapGet_mapDel] at hx
  split at hx
  · cases hx
  · exact he x hx

theorem keepsEntry_of_nil (hrb : v.rb = []) : v.KeepsEntry sn e := by
  rw [Slot.KeepsEntry, hrb]
  exact ⟨rfl, fun _ h => by cases h⟩

end

/-! ## Work that spares the entry -/

/-- The work has not notified SN `sn` of bearer `l`, and on that bearer the SN keeps the entry `e`. -/
structure Work.Spares (l : Lcid) (sn : Nat) (e : RetxEntry) (w : Work) : Prop where
  silent : .notifyMaxRetx l sn ∉ w.events
  keeps : w.lcid = l → w.slot.KeepsEntry sn e

namespace Work.Spares

variable {l : Lcid} {sn : Nat} {e : RetxEntry} {w : Work}

/-- Work that leaves `RB` as it was, and has notified no SN since. -/
theorem of_sameRb {w' : Work} {evs : List Event} (h : w.Spares l sn e) (hl : w'.lcid = w.lcid) (hrb : w'.slot.rb = w.slot.rb)
    (hev : w'.events = w.events ++ evs) (hq : .notifyMaxRetx l sn ∉ evs) : w'.Spares l sn e where
  silent := by
    rw [hev, List.mem_append, not_or]
    exact ⟨h.silent, hq⟩
  keeps hw := by
    rw [Slot.KeepsEntry, hrb]
    exact h.keeps (hl ▸ hw)

theorem upd (h : w.Spares l sn e) {f : Slot → Slot} (hrb : (f w.slot).rb = w.slot.rb) : (w.upd f).Spares l sn e :=
  h.of_sameRb (evs := []) rfl hrb (by simp) (by simp)

/-- A change of `RB` that spares the entry. -/
theorem updRb (h : w.Spares l sn e) {f : Slot → Slot} (hf : w.slot.KeepsEntry sn e → (f w.slot).KeepsEntry sn e) :
    (w.upd f).Spares l sn e :=
  ⟨h.silent, fun hw => hf (h.keeps hw)⟩

theorem startTimer (h : w.Spares l sn e) (k : TimerKind) : (w.startTimer k).Spares l sn e :=
  h.of_sameRb rfl rfl rfl (by simp)

theorem stopTimer (h : w.Spares l sn e) (k : TimerKind) : (w.stopTimer k).Spares l sn e :=
  h.of_sameRb rfl rfl rfl (by simp)

theorem drop (h : w.Spares l sn e) (d : DropReason) : (w.drop d).Spares l sn e :=
  h.of_sameRb rfl rfl rfl (by simp)

theorem ite {u : Work} {c : Prop} [Decidable c] (hu : u.Spares l sn e) (hw : w.Spares l sn e) :
    (if c then u else w).Spares l sn e := by
  split <;> assumption

theorem stopIfRunning (h : w.Spares l sn e) (k : TimerKind) : (w.stopIfRunning k).Spares l sn e := (h.stopTimer k).ite h

theorem stopAllTimers (h : w.Spares l sn e) : w.stopAllTimers.Spares l sn e :=
  ((h.stopIfRunning _).stopIfRunning _).stopIfRunning _

/-! ### Reception -/

theorem umAdvance (h : w.Spares l sn e) (stop : Nat) : (umAdvance stop w).Spares l sn e := by
  obtain ⟨_, _, _, _, _, sdus, heq⟩ := umAdvance_frame stop w
  rw [heq]
  exact h.of_sameRb rfl rfl rfl (by simp)

theorem amAdvance (h : w.Spares l sn e) : (amAdvance w).Spares l sn e := by
  obtain ⟨_, _, _, _, sdus, heq⟩ := amAdvanceLoop_frame w.slot.rxa.length w
  rw [Machine.amAdvance, heq]
  exact h.of_sameRb rfl rfl rfl (by simp)

theorem umStartReord (h : w.Spares l sn e) : (umStartReord w).Spares l sn e := (h.upd rfl).startTimer _

theorem amStartReord (h : w.Spares l sn e) : (amStartReord w).Spares l sn e := (h.upd rfl).startTimer _

/-- The reordering-timer requests leave `RB` as it was and notify no SN. -/
theorem of_reorderedFrom {w' : Work} (h : w.Spares l sn e) (hr : ReorderedFrom w w') : w'.Spares l sn e := by
  obtain ⟨_, _, _, _, evs, rfl, hevs⟩ := hr
  refine h.of_sameRb rfl rfl rfl fun hmem => ?_
  rcases hevs _ hmem with ⟨_, hstop⟩ | ⟨_, hstart⟩
  · cases hstop
  · cases hstart

theorem umInsert (h : w.Spares l sn e) (x : Nat) (p : Body) : (umInsert x p w).Spares l sn e := by
  have hput : (w.upd fun s => { s with rxu := mapPut x p s.rxu }).Spares l sn e := h.upd rfl
  have hmoved := hput.upd (f := fun s => { s with vrUh := modN s.n (x + 1) }) rfl
  exact ((hmoved.umAdvance _).ite hmoved).ite hput

theorem umReceive (h : w.Spares l sn e) (x : Nat) (p : Body) : (umReceive x p w).Spares l sn e :=
  h.ite ((((h.umInsert x p).umAdvance _).ite (h.umInsert x p)).of_reorderedFrom (umTimers_frame _))

theorem umWritePdu (h : w.Spares l sn e) (pdu : Bytes) : (umWritePdu pdu w).Spares l sn e := by
  unfold Machine.umWritePdu
  split
  · exact h.drop _
  · exact (h.upd rfl).umReceive _ _

theorem amCount (h : w.Spares l sn e) (p : Bool) : (amCount p w).Spares l sn e := (h.upd rfl).upd rfl

theorem amAccept (h : w.Spares l sn e) (x : Nat) (r : AmEntry) : (amAccept x r w).Spares l sn e := by
  have hput : (w.upd fun s => amBumpVrH x { s with rxa := mapPut x r s.rxa }).Spares l sn e := by
    refine h.upd ?_
    unfold amBumpVrH
    split <;> rfl
  exact (hput.amAdvance.ite hput).of_reorderedFrom (amTimers_frame _)

theorem amDataReceive (h : w.Spares l sn e) (pdu : Bytes) : (amDataReceive pdu w).Spares l sn e := by
  unfold Machine.amDataReceive
  split
  · exact h.drop _
  · refine (h.amCount _).ite ?_
    dsimp only
    split
    · exact h.drop _
    · exact (h.amCount _).ite ((h.amCount _).amAccept _ _)

/-! ### Status reception -/

/-- An entry that R276 changes is not dead, so it is another SN's, and so is its notification. -/
theorem considerForRetx (h : w.Spares l sn e) (he : e.dead = true) (k : Nat) (rg : RangeSet) :
    (considerForRetx k rg w).Spares l sn e := by
  rcases considerForRetx_frame k rg w with heq | ⟨x, x', evs, hg, hx, -, hevs, heq⟩
  · rw [heq]
    exact h
  · have hother (hl : w.lcid = l) : sn ≠ k := by
      rintro rfl
      rw [(h.keeps hl).2 x hg, he] at hx
      cases hx
    rw [heq]
    refine ⟨?_, fun hl => (h.keeps hl).put (fun hk => absurd hk (hother hl)) rfl⟩
    rw [List.mem_append, not_or]
    refine ⟨h.silent, fun hmem => ?_⟩
    rcases hevs with rfl | ⟨rfl, -⟩
    · cases hmem
    · obtain ⟨hl, hk⟩ := Event.notifyMaxRetx.inj (List.mem_singleton.mp hmem)
      exact hother hl.symm hk

theorem statusStep (h : w.Spares l sn e) (he : e.dead = true) (nacks : List Nack) (k : Nat) :
    (statusStep nacks w k).Spares l sn e := by
  unfold Machine.statusStep
  split
  · exact h
  · exact (h.updRb fun hv => hv.del k rfl).ite (h.ite (h.considerForRetx he _ _))

theorem handleStatus (h : w.Spares l sn e) (he : e.dead = true) (st : Status) : (handleStatus st w).Spares l sn e := by
  have hfold : ((snInterval w.slot.n w.slot.vtA st.ack).foldl (Machine.statusStep st.nacks) w).Spares l sn e :=
    List.foldlRecOn (motive := Work.Spares l sn e) _ _ h fun _ hu k _ => hu.statusStep he _ k
  have hvtA := hfold.upd (f := fun s => { s with vtA := nextVtA w.slot.n w.slot.vtA s.vtS s.rb }) rfl
  exact (hvtA.stopTimer _).ite hvtA

theorem amWritePdu (h : w.Spares l sn e) (he : e.dead = true) (pdu : Bytes) : (amWritePdu pdu w).Spares l sn e := by
  refine (h.drop _).ite ((h.amDataReceive pdu).ite ?_)
  unfold statusReceive
  split
  · exact h.drop _
  · exact ((h.upd rfl).handleStatus he _).ite (h.drop _)

/-! ### Transmission -/

theorem countTxPdu (h : w.Spares l sn e) : w.countTxPdu.Spares l sn e := h.upd rfl

theorem countRetxPdu (h : w.Spares l sn e) : w.countRetxPdu.Spares l sn e := h.upd rfl

theorem pollDecide (h : w.Spares l sn e) (new : Bool) (nbytes : Nat) : (pollDecide new nbytes w).2.Spares l sn e := by
  have hcount : (w.upd (pollCount new nbytes)).Spares l sn e := h.upd (by cases new <;> rfl)
  unfold Machine.pollDecide
  dsimp only
  split
  · exact (hcount.upd rfl).startTimer _
  · exact hcount

/-- A new PDU takes an SN that is not held. -/
theorem newPdu (h : w.Spares l sn e) (hsn : w.lcid = l → sn ≠ w.slot.vtS) {budget : Nat} {w' : Work} {pdu : Bytes}
    (hnew : newPdu budget w = some (pdu, w')) : w'.Spares l sn e := by
  obtain ⟨-, b, p, -, rfl⟩ := newPdu_cases hnew
  have hpolled := (h.upd (f := fun s => { s with txq := b.txq, vtS := modN s.n (s.vtS + 1) }) rfl).pollDecide true b.data.length
  refine ⟨hpolled.silent, fun hl => (hpolled.keeps hl).put (fun hk => absurd hk (hsn ?_)) rfl⟩
  rw [← hl]
  exact (Tracks.newPdu hnew).lcid_eq.symm

/-- A retransmission of an entry without pending bytes leaves it as it was. -/
theorem retxPdu (h : w.Spares l sn e) (hp : e.pending = []) {budget : Nat} {w' : Work} {pdu : Bytes}
    (hretx : retxPdu budget w = some (pdu, w')) : w'.Spares l sn e := by
  obtain ⟨k, x, pending, nbytes, hg, hpending, rfl⟩ := retxPdu_cases hretx
  refine (h.updRb fun hv => hv.put (k := k) (fun hk => ?_) rfl).pollDecide false nbytes
  subst hk
  obtain rfl := hv.2 x hg
  have hnil : pending = x.pending := by
    rcases hpending with rfl | ⟨a, n, -, rfl⟩
    · exact hp.symm
    · rw [hp]
      rfl
  rw [hnil]

theorem amRead (h : w.Spares l sn e) (hp : e.pending = []) (hsn : w.lcid = l → sn ≠ w.slot.vtS) (budget : Nat) :
    (amRead budget w).2.Spares l sn e := by
  unfold Machine.amRead
  split
  · exact ((h.upd rfl).startTimer _).countTxPdu
  · split
    · rename_i hretx
      exact (h.retxPdu hp hretx).countTxPdu.countRetxPdu
    · split
      · rename_i hnew
        exact (h.newPdu hsn hnew).countTxPdu
      · exact h

theorem umRead (h : w.Spares l sn e) (budget : Nat) : (umRead budget w).2.Spares l sn e := by
  unfold Machine.umRead
  dsimp only
  split
  · exact h
  · exact (h.upd rfl).countTxPdu

/-! ### Commands on one slot -/

theorem readPdu (h : w.Spares l sn e) (hp : e.pending = []) (hsn : w.lcid = l → sn ≠ w.slot.vtS) (budget : Nat) :
    (readPdu budget w).2.Spares l sn e := by
  unfold Machine.readPdu
  split
  · exact h.umRead budget
  · exact h.amRead hp hsn budget

theorem writePdu (h : w.Spares l sn e) (he : e.dead = true) (pdu : Bytes) : (writePdu pdu w).Spares l sn e := by
  unfold Machine.writePdu
  split
  · exact h.umWritePdu pdu
  · exact h.amWritePdu he pdu

/-- An emptied `RB` holds no SN. -/
theorem emptyRb (h : w.Spares l sn e) {f : Slot → Slot} (hf : (f w.slot).rb = []) : (w.upd f).Spares l sn e :=
  h.updRb fun _ => keepsEntry_of_nil hf

theorem reconfigure (h : w.Spares l sn e) (c : Cfg) : (reconfigure c w).Spares l sn e :=
  (h.stopAllTimers.emptyRb rfl).ite (h.upd rfl)

theorem pollRetxExpiry (h : w.Spares l sn e) (he : e.dead = true) : (pollRetxExpiry w).Spares l sn e := by
  have hpoll := h.upd (f := fun s => { s with pollPending := true }) rfl
  refine Work.Spares.ite ?_ hpoll
  split
  · exact hpoll
  · split
    · exact hpoll
    · exact hpoll.considerForRetx he _ _

theorem expiryAction (h : w.Spares l sn e) (he : e.dead = true) (k : TimerKind) : (expiryAction k w).Spares l sn e := by
  unfold Machine.expiryAction
  split
  · exact ((h.umAdvance _).umAdvance _).umStartReord.ite ((h.umAdvance _).umAdvance _)
  · exact (h.upd rfl).amStartReord.ite (h.upd rfl)
  · exact h.pollRetxExpiry he
  · exact h
  · exact h

end Work.Spares

/-! ## Commands -/

/-- An entry that is dead has nothing pending, and its SN is not the next to send. -/
theorem Slot.AmInv.of_dead {v : Slot} (h : v.AmInv) {sn : Nat} {e : RetxEntry} (hg : mapGet sn v.rb = some e)
    (he : e.dead = true) : e.pending = [] ∧ sn ≠ v.vtS := by
  refine ⟨(h.rb.entries _ (mem_of_mapGet hg)).2 he, ?_⟩
  rintro rfl
  exact lt_irrefl _ (h.rb.keys _ (mem_mapKeys.mpr ⟨e, hg⟩))

/-- The work that a command leaves on its slot spares a dead entry of bearer `l`, unless it deletes that bearer. -/
theorem Accepted.spares {s : State} {i : Instr} {w : Work} (h : Accepted s i w) {l : Lcid} {sn : Nat} {e : RetxEntry}
    (hv : (s.slot l).AmInv) (hg : mapGet sn (s.slot l).rb = some e) (he : e.dead = true)
    (hkept : w.lcid = l → w.slot.active = true) : w.Spares l sn e := by
  obtain ⟨hp, hsn⟩ := hv.of_dead hg he
  have henter (j : Lcid) : (s.enter j).Spares l sn e := by
    refine ⟨List.not_mem_nil, ?_⟩
    rintro rfl
    exact ⟨hv.rb.wf, fun x hx => Option.some.inj (hx.symm.trans hg)⟩
  cases h with
  | addBearer => exact (henter _).emptyRb rfl
  | configure => exact (henter _).reconfigure _
  | delBearer => exact ⟨(henter _).stopAllTimers.silent, fun hl => absurd (hkept hl) (by simp [deletedSlot])⟩
  | reestablish => exact (henter _).stopAllTimers.emptyRb rfl
  | writeSdu => exact ((henter _).upd rfl).upd rfl
  | readPdu => exact (henter _).readPdu hp (by rintro rfl; exact hsn) _
  | writePdu => exact (henter _).writePdu he _
  | timerExpiry => exact ((henter _).upd rfl).expiryAction he _

/-- Settles O37: whatever an accepted command does on its slot spares a dead entry (`Accepted.spares`), and every other slot is
as it was. -/
theorem maxRetxIsNotifiedOnce : Obligations.MaxRetxIsNotifiedOnce := by
  intro i l s t r sn e e' hexec hr _ hactive mode hinv hg he
  have hv := hinv.am mode
  rcases exec_outcomes i s with ⟨-, r', hev, hx⟩ | ⟨w, hw, free, result, hx⟩
  · cases hexec.symm.trans hx
    obtain rfl : r' = r := by simpa using hr
    rw [hev]
    exact ⟨List.not_mem_nil, fun hg' => Option.some.inj (hg'.symm.trans hg)⟩
  · cases hexec.symm.trans hx
    obtain rfl : ⟨.ok, result, w.events⟩ = r := by simpa using hr
    have hspares : w.Spares l sn e := hw.spares hv hg he fun hl => by
      rwa [← hl, slot_after_same] at hactive
    refine ⟨hspares.silent, fun hg' => ?_⟩
    by_cases hl : w.lcid = l
    · rw [← hl, slot_after_same] at hg'
      exact (hspares.keeps hl).2 e' hg'
    · rw [slot_after_other _ _ _ _ _ _ (Ne.symm hl)] at hg'
      exact Option.some.inj (hg'.symm.trans hg)

end Sys2Proof.Machine
end

section
/-! PROOFS. AM receive as equations (46_am_rx.md R314 to R319): what a merge makes of an entry, what `VR_R` passes, and what the
reordering timer is told. -/

namespace Sys2Proof.Machine

/-! ## Cells -/

theorem mem_cellInsert_of_mem {c x : Host.Cell} {rest : List Host.Cell → List Host.Cell} (h : c = x ∨ ∀ ys, c ∈ rest ys) :
    ∀ ys, c ∈ cellInsert x rest ys
  | [] => List.mem_cons.mpr (h.imp_right fun hrest => hrest [])
  | y :: ys => by
    have ih := mem_cellInsert_of_mem h ys
    unfold cellInsert
    split_ifs
    · exact List.mem_cons_of_mem _ ih
    · exact List.mem_cons.mpr (h.imp_right fun hrest => hrest ys)
    · exact List.mem_cons.mpr (h.imp_right fun hrest => hrest (y :: ys))

/-- Cells held stay. -/
theorem mem_cellMerge_of_held {c : Host.Cell} : ∀ {held : List Host.Cell} (new : List Host.Cell),
    c ∈ held → c ∈ cellMerge held new
  | _ :: _, new, h => mem_cellInsert_of_mem ((List.mem_cons.mp h).imp_right fun hc ys => mem_cellMerge_of_held ys hc) new

/-- The cells of a merge: those held, and the new ones at offsets not held. -/
theorem mem_cellMerge_iff {held new : List Host.Cell} (hheld : (cellKeys held).Pairwise (· < ·))
    (hnew : (cellKeys new).Pairwise (· < ·)) {c : Host.Cell} :
    c ∈ cellMerge held new ↔ c ∈ held ∨ (c.1 ∉ cellKeys held ∧ c ∈ new) := by
  obtain ⟨hp, hkeys⟩ := cellKeys_cellMerge hheld hnew
  have unique : ∀ {cells : List Host.Cell}, (cellKeys cells).Pairwise (· < ·) →
      ∀ {x y}, x ∈ cells → y ∈ cells → x.1 = y.1 → x = y :=
    fun hcells _ _ hx hy hxy => List.inj_on_of_nodup_map (hcells.imp Nat.ne_of_lt) hx hy hxy
  constructor
  · intro hc
    by_cases hk : c.1 ∈ cellKeys held
    · obtain ⟨x, hx, hxc⟩ := List.mem_map.mp hk
      exact .inl (unique hp (mem_cellMerge_of_held new hx) hc hxc ▸ hx)
    · exact .inr ⟨hk, (mem_of_mem_cellMerge hc).resolve_left fun hc => hk (List.mem_map_of_mem hc)⟩
  · rintro (hc | ⟨hk, hc⟩)
    · exact mem_cellMerge_of_held new hc
    · obtain ⟨x, hx, hxc⟩ := List.mem_map.mp ((hkeys c.1).mpr (.inr (List.mem_map_of_mem hc)))
      have hxnew := (mem_of_mem_cellMerge hx).resolve_left fun hx => hk (hxc ▸ List.mem_map_of_mem hx)
      exact unique hnew hxnew hc hxc ▸ hx

theorem mem_cellsOf_iff {c : Host.Cell} {so : Nat} {d : Bytes} : c ∈ cellsOf so d ↔ so ≤ c.1 ∧ d[c.1 - so]? = some c.2 := by
  refine ⟨getElem?_of_mem_cellsOf, ?_⟩
  induction d generalizing so with
  | nil => simp
  | cons b d ih =>
    rintro ⟨hle, hget⟩
    rcases Nat.eq_or_lt_of_le hle with rfl | hlt
    · have hb : b = c.2 := by simpa using hget
      exact List.mem_cons.mpr (.inl (Prod.ext rfl hb.symm))
    · rw [show c.1 - so = c.1 - (so + 1) + 1 by omega, List.getElem?_cons_succ] at hget
      exact List.mem_cons_of_mem _ (ih ⟨hlt, hget⟩)

/-! ## What a merge makes of an entry, R314 -/

section Merge

variable {old : AmEntry} {pc : Piece} {h : Hdr} {d : Bytes}

/-- A piece that contradicts nothing merges, R315. -/
theorem merge_of_not_contradicts (hl : pc.len = d.length) (hw : rangeWf old.rcvd = true)
    (hc : ¬ Contradicts old pc.so pc.last h d) : merge old pc h d = some (mergeRaw old pc h d) := by
  obtain ⟨r, hm⟩ := Option.ne_none_iff_exists'.mp fun hnone => hc ((merge_eq_none_iff old pc h d hl hw).mp hnone)
  rw [hm, (eq_mergeRaw_of_merge hm).1]

theorem mergedFrom_mergeRaw (hold : old.Held) (hl : pc.len = d.length) :
    MergedFrom old (mergeRaw old pc h d) pc.so pc.last h d := by
  refine ⟨fun x => ?_, fun x b => ?_, fun b => ?_, ?_, rfl, rfl⟩
  · simp [mergeRaw, rangeHas_rangeAdd, hl]
  · have hcells := mem_cellMerge_iff (c := (x, b)) (hold.data ▸ pairwise_rangeOffsets hold.wf)
      (cellKeys_cellsOf pc.so d ▸ List.pairwise_lt_range')
    rw [hold.data, mem_rangeOffsets, Bool.not_eq_true, mem_cellsOf_iff] at hcells
    exact hcells
  · rw [mergeRaw, mem_bsetUnion, mem_pieceBounds pc h d hl]
  · rw [mergeRaw, hl]

end Merge

/-- What is held of an SN, or the empty entry where nothing is. -/
theorem held_getD_mapGet {rxa : SnMap AmEntry} (hshape : ∀ e ∈ rxa, e.2.Shape) (sn : Nat) :
    ((mapGet sn rxa).getD AmEntry.empty).Held := by
  cases hg : mapGet sn rxa with
  | none => exact AmEntry.held_empty
  | some e => exact (AmEntry.shape_iff.mp (hshape _ (mem_of_mapGet hg))).2

/-- An entry is complete exactly where its length is known and every byte below it is held, R28. -/
theorem AmEntry.complete_iff {r : AmEntry} (hw : rangeWf r.rcvd = true) :
    r.complete = true ↔ ∃ len, r.len = some len ∧ ∀ x, x < len → rangeHas x r.rcvd = true := by
  unfold AmEntry.complete
  cases r.len with
  | none => simp
  | some len => simp [rangeCovers, rangeIncl_iff hw]

/-- A whole PDU merges with nothing, and is complete at once: its entry is the PDU. -/
theorem merge_whole {h : Hdr} {d : Bytes} (hrf : h.rf = false) (hlis : ∀ li ∈ h.lis, 1 ≤ li) (hroom : h.lis.sum < d.length) :
    ∃ r : AmEntry, merge AmEntry.empty (pieceOf h d.length) h d = some r ∧ r.complete = true ∧
      r.body = ⟨h.fi, boundsOf h.lis, d⟩ := by
  have hpc : pieceOf h d.length = ⟨0, d.length, true⟩ := by rw [pieceOf, hrf]; rfl
  have hreveals : ∀ b, Reveals 0 true h d b ↔ b ∈ boundsOf h.lis := fun b => by simp [Reveals]
  have hno : ¬ Contradicts AmEntry.empty 0 true h d := by
    rintro (⟨-, len, hlen, -⟩ | ⟨len, hlen, ⟨x, hx, hheld | hnew⟩ | ⟨b, hb, hheld | hnew⟩⟩)
    · cases hlen
    · cases hheld
    · have : 0 + d.length = len := Option.some.inj hlen
      omega
    · cases hheld
    · have hlen : 0 + d.length = len := Option.some.inj hlen
      have := (mem_boundsFrom hlis ((hreveals b).mp hnew)).2
      omega
  rw [hpc]
  refine ⟨_, merge_of_not_contradicts rfl rfl hno, ?_, ?_⟩
  · have hpos : 0 < d.length := by omega
    simp [AmEntry.complete, mergeRaw, AmEntry.empty, rangeCovers, rangeAdd, rangeIncl, hpos]
  · have hbset : bsetUnion [] (pieceBounds ⟨0, d.length, true⟩ h) = boundsOf h.lis :=
      (pairwise_bsetUnion _ .nil).eq_of_mem_iff (pairwise_boundsFrom hlis) fun b => by
        rw [mem_bsetUnion, mem_pieceBounds _ h d rfl, hreveals]
        simp
    have hdata : cellBytes d.length (cellsOf 0 d) = d :=
      cellBytes_eq (cellKeys_cellsOf 0 d) fun c hc => (getElem?_of_mem_cellsOf hc).2
    simp [AmEntry.body, mergeRaw, AmEntry.empty, cellMerge, hbset, hdata, mkFi_fi1_fi0]

/-! ## Passing SNs, R318 -/

theorem rxComplete_iff {v : Slot} {sn : Nat} :
    v.rxComplete sn = true ↔ ∃ r, mapGet sn v.rxa = some r ∧ r.complete = true := by
  unfold Slot.rxComplete
  cases mapGet sn v.rxa <;> simp

theorem rxComplete_of_mapDel {v u : Slot} {k sn : Nat} (hrxa : u.rxa = mapDel k v.rxa) (hne : sn ≠ k) :
    u.rxComplete sn = v.rxComplete sn := by
  rw [Slot.rxComplete, hrxa, mapGet_mapDel, if_neg hne]
  rfl

/-- The work after `VR_R` has moved to `vr`: `rxa` is left, and `fed` is what reassembly has left and delivered. -/
def Work.amPassed (w : Work) (vr : Nat) (rxa : SnMap AmEntry) (fed : Rsm × List Bytes) : Work :=
  { w with
    slot :=
      { w.slot with
        vrR := vr
        rxa := rxa
        rsm := fed.1
        metrics := { w.slot.metrics with numRxSdus := w.slot.metrics.numRxSdus + BitVec.ofNat 32 fed.2.length } }
    events := w.events ++ fed.2.map (.deliverSdu w.lcid) }

theorem amPassed_none (w : Work) : w.amPassed w.slot.vrR w.slot.rxa (w.slot.rsm, []) = w := by simp [Work.amPassed]

theorem amPassed_amPassed (w : Work) (vr vr' : Nat) (rxa rxa' : SnMap AmEntry) (fed fed' : Rsm × List Bytes) :
    (w.amPassed vr rxa fed).amPassed vr' rxa' fed' = w.amPassed vr' rxa' (fed'.1, fed.2 ++ fed'.2) := by
  simp [Work.amPassed, BitVec.ofNat_add, BitVec.add_assoc]

section Advance

variable {w : Work}

theorem amAdvanceLoop_of_gap (hgap : w.slot.rxComplete w.slot.vrR = false) : ∀ fuel, amAdvanceLoop fuel w = w
  | 0 => rfl
  | fuel + 1 => by
    unfold amAdvanceLoop
    cases hg : mapGet w.slot.vrR w.slot.rxa with
    | none => rfl
    | some r =>
      have hc : r.complete = false := by simpa [Slot.rxComplete, hg] using hgap
      simp [hc]

/-- The work after one turn of R318, which takes the entry `r` at `VR_R`. -/
def Work.amPopped (w : Work) (r : AmEntry) : Work :=
  w.amPassed (modN w.slot.n (w.slot.vrR + 1)) (mapDel w.slot.vrR w.slot.rxa)
    (reassemble w.params w.slot.n w.slot.vrR r.body w.slot.rsm)

theorem amAdvanceLoop_of_complete {r : AmEntry} (hg : mapGet w.slot.vrR w.slot.rxa = some r) (hc : r.complete = true)
    (fuel : Nat) : amAdvanceLoop (fuel + 1) w = amAdvanceLoop fuel (w.amPopped r) := by
  rw [amAdvanceLoop, hg]
  dsimp only
  rw [if_pos hc, rsmFeed_eq]
  rfl

/-- A base one SN further is one place nearer to every other SN. -/
theorem rel_succ_base {n x b : Nat} (hx : x < n) (hb : b < n) (hne : x ≠ b) : rel n x (modN n (b + 1)) + 1 = rel n x b := by
  have hs := succ_spec hb
  have := rel_spec hx hs.1
  have := rel_spec hx hb
  omega

/-- Leaving out the entry at the lower end, and then those below `vr`, is leaving out those below `vr`. -/
theorem filter_mapDel_window {n r vr : Nat} {rxa : SnMap AmEntry} (hr : r < n) (hkeys : ∀ k ∈ mapKeys rxa, k < n) (hvr : vr < n)
    (hne : vr ≠ r) :
    (mapDel r rxa).filter (fun e => rel n vr (modN n (r + 1)) ≤ rel n e.1 (modN n (r + 1))) =
      rxa.filter fun e => rel n vr r ≤ rel n e.1 r := by
  rw [mapDel, List.filter_filter]
  refine List.filter_congr fun e he => ?_
  have hvrs := rel_succ_base hvr hr hne
  by_cases hk : e.1 = r
  · have hpos := rel_pos_of_ne hvr hr hne
    simp [hk, rel_self hr, hpos.ne']
  · have hks := rel_succ_base (hkeys _ (List.mem_map_of_mem (f := Prod.fst) he)) hr hk
    rw [bne_iff_ne.mpr hk, Bool.and_true, ← hvrs, ← hks]
    simp

/-- From the work `w`, `VR_R` has gone on `m` places to `vr`, over the complete SNs, which have been removed and passed to
reassembly in order (R318). -/
structure AmAdvanced (w : Work) (m vr : Nat) (u : Work) : Prop where
  below : m ≤ rel w.slot.n w.slot.vrH w.slot.vrR
  low : vr = (w.slot.vrR + m) % w.slot.n
  complete : ∀ j, j < m → w.slot.rxComplete ((w.slot.vrR + j) % w.slot.n) = true
  gap : w.slot.rxComplete vr = false
  work : u = w.amPassed vr
    (w.slot.rxa.filter fun e => rel w.slot.n vr w.slot.vrR ≤ rel w.slot.n e.1 w.slot.vrR)
    (reassembleAll w.params w.slot.n (fun sn => (mapGet sn w.slot.rxa).map AmEntry.body) (snRun w.slot.n w.slot.vrR m) w.slot.rsm)

/-- Where the SN at `VR_R` is not complete, nothing is passed. -/
theorem AmAdvanced.none (hr : w.slot.vrR < w.slot.n) (hgap : w.slot.rxComplete w.slot.vrR = false) :
    AmAdvanced w 0 w.slot.vrR w where
  below := Nat.zero_le _
  low := by rw [Nat.add_zero, Nat.mod_eq_of_lt hr]
  complete := nofun
  gap := hgap
  work := by
    rw [List.filter_eq_self.mpr fun e _ => decide_eq_true (by rw [rel_self hr]; exact Nat.zero_le _)]
    exact (amPassed_none w).symm

/-- The complete SN at `VR_R`, and then those after it. -/
theorem AmAdvanced.cons (hw : AmWindow w.slot.n w.slot.amW w.slot.vrR w.slot.vrH w.slot.rxa) {r : AmEntry}
    (hg : mapGet w.slot.vrR w.slot.rxa = some r) (hc : r.complete = true) {m vr : Nat} {u : Work}
    (h : AmAdvanced (w.amPopped r) m vr u) : AmAdvanced w (m + 1) vr u := by
  obtain ⟨hbelow, hlow, hcomplete, hgap, rfl⟩ := h
  change m ≤ rel w.slot.n w.slot.vrH (modN w.slot.n (w.slot.vrR + 1)) at hbelow
  change vr = (modN w.slot.n (w.slot.vrR + 1) + m) % w.slot.n at hlow
  have hr := hw.low_lt
  have hn : 0 < w.slot.n := Nat.zero_lt_of_lt hr
  have hpos := hw.keys _ (mem_mapKeys.mpr ⟨r, hg⟩)
  have hhne : w.slot.vrH ≠ w.slot.vrR := fun he => by
    rw [he] at hpos
    exact lt_irrefl _ hpos
  have hhigh := rel_succ_base hw.high_lt hr hhne
  have hlt := rel_lt_of_pos hn w.slot.vrH w.slot.vrR
  have hstep : ∀ j, (modN w.slot.n (w.slot.vrR + 1) + j) % w.slot.n = (w.slot.vrR + (j + 1)) % w.slot.n := fun j => by
    rw [modN, Nat.mod_add_mod, Nat.add_right_comm, Nat.add_assoc]
  have hlater : ∀ j ≤ m, (modN w.slot.n (w.slot.vrR + 1) + j) % w.slot.n ≠ w.slot.vrR := fun j hj he => by
    have hrel := rel_of_add hr (k := j + 1) (by omega)
    rw [← hstep, he, rel_self hr] at hrel
    omega
  have hvr : vr ≠ w.slot.vrR := hlow ▸ hlater m le_rfl
  have hsame : ∀ {sn}, sn ≠ w.slot.vrR → (w.amPopped r).slot.rxComplete sn = w.slot.rxComplete sn :=
    fun hne => rxComplete_of_mapDel rfl hne
  refine ⟨by omega, hlow.trans (hstep m), fun j hj => ?_, (hsame hvr).symm.trans hgap, ?_⟩
  · cases j with
    | zero =>
      rw [Nat.add_zero, Nat.mod_eq_of_lt hr]
      exact rxComplete_iff.mpr ⟨r, hg, hc⟩
    | succ j =>
      rw [← hstep, ← hsame (hlater j (by omega))]
      exact hcomplete j (by omega)
  · have hlook : ∀ sn ∈ snRun w.slot.n (modN w.slot.n (w.slot.vrR + 1)) m,
        (mapGet sn (mapDel w.slot.vrR w.slot.rxa)).map AmEntry.body = (mapGet sn w.slot.rxa).map AmEntry.body := by
      intro sn hsn
      obtain ⟨j, hj, rfl⟩ := (mem_snRun (succ_spec hr).1 (by omega)).mp hsn
      rw [mapGet_mapDel, if_neg (hlater j hj.le)]
    have hfilter := filter_mapDel_window (vr := vr) hr hw.keys_lt (hlow ▸ Nat.mod_lt _ hn) hvr
    rw [Work.amPopped, amPassed_amPassed]
    change w.amPassed vr ((mapDel w.slot.vrR w.slot.rxa).filter fun e => rel w.slot.n vr (modN w.slot.n (w.slot.vrR + 1)) ≤
      rel w.slot.n e.1 (modN w.slot.n (w.slot.vrR + 1))) _ = _
    rw [hfilter]
    congr 1
    rw [snRun, reassembleAll, hg, Option.map_some]
    have hrest := reassembleAll_congr w.params w.slot.n
      (reassemble w.params w.slot.n w.slot.vrR r.body w.slot.rsm).1 hlook
    dsimp only
    rw [← hrest]
    rfl

/-- `am_advance`, R318, where the turns are enough. -/
theorem exists_amAdvanceLoop : ∀ (fuel : Nat) {w : Work}, AmWindow w.slot.n w.slot.amW w.slot.vrR w.slot.vrH w.slot.rxa →
    2 * w.slot.amW ≤ w.slot.n → w.slot.rxa.length ≤ fuel → ∃ m vr, AmAdvanced w m vr (amAdvanceLoop fuel w)
  | fuel, w, hw, hn, hlen => by
    cases hgap : w.slot.rxComplete w.slot.vrR with
    | false =>
      rw [amAdvanceLoop_of_gap hgap]
      exact ⟨0, _, .none hw.low_lt hgap⟩
    | true =>
      obtain ⟨r, hg, hc⟩ := rxComplete_iff.mp hgap
      have hmem : w.slot.vrR ∈ mapKeys w.slot.rxa := mem_mapKeys.mpr ⟨r, hg⟩
      have hshort := length_mapDel_lt hmem
      cases fuel with
      | zero => omega
      | succ fuel =>
        rw [amAdvanceLoop_of_complete hg hc]
        obtain ⟨m, vr, h⟩ := exists_amAdvanceLoop fuel (w := w.amPopped r) (hw.pop hn hmem) hn
          (Nat.le_of_lt_succ (hshort.trans_le hlen))
        exact ⟨m + 1, vr, h.cons hw hg hc⟩

end Advance

/-! ## The reordering timer, R319 -/

/-- What requests for the AM reordering timer leave of a command's work: it has been stopped where `stop` says so, and then started
against `VR_H` where `start` says so. -/
def Work.amRetimed (w : Work) (stop start : Bool) : Work :=
  { w with
    slot :=
      { w.slot with
        vrX := if start then w.slot.vrH else w.slot.vrX
        running := { w.slot.running with reord := start || (w.slot.running.reord && !stop) } }
    tags := if start then { w.tags with reord := w.tags.reord + 1 } else w.tags
    events := w.events ++ (if stop then [.timerStop w.lcid .reord w.tags.reord] else []) ++
      if start then [.timerStart w.lcid .reord (w.tags.reord + 1) w.slot.cfg.tReorderingMs] else [] }

theorem amStartReord_eq (w : Work) : amStartReord w = w.amRetimed false true := by
  simp [amStartReord, Work.startTimer, Work.emit, Work.upd, Work.amRetimed, PerTimer.set, PerTimer.get, Cfg.duration]

theorem amRetimed_false (w : Work) : w.amRetimed false false = w := by simp [Work.amRetimed]

/-- The running timer is stopped, R319. -/
def Slot.amStops (v : Slot) : Bool := v.running.reord && amTimerObsolete v

/-- The timer is started, R319. -/
def Slot.amStarts (v : Slot) : Bool := (!v.running.reord || v.amStops) && v.vrH != v.vrR

theorem Slot.amStops_of_off {v : Slot} (hoff : v.running.reord = false) : v.amStops = false := by
  rw [amStops, hoff, Bool.false_and]

theorem Slot.amStops_iff {v : Slot} (hx : v.vrX < v.n) (hr : v.vrR < v.n) :
    v.amStops = true ↔ v.running.reord = true ∧ (v.vrX = v.vrR ∨ v.amW < rel v.n v.vrX v.vrR) := by
  have hpos := rel_pos_of_ne hx hr
  simp only [amStops, amTimerObsolete, Bool.and_eq_true, Bool.or_eq_true, beq_iff_eq, Bool.not_eq_true', Bool.and_eq_false_iff,
    decide_eq_false_iff_not]
  refine and_congr_right fun _ => ?_
  by_cases heq : v.vrX = v.vrR
  · simp [heq]
  · have := hpos heq
    simp only [heq, false_or]
    omega

theorem Slot.amStarts_iff {v : Slot} :
    v.amStarts = true ↔ (v.running.reord = false ∨ v.amStops = true) ∧ v.vrH ≠ v.vrR := by
  simp [amStarts]

/-- `am_timers`, R319. -/
theorem amTimers_eq (w : Work) : amTimers w = w.amRetimed w.slot.amStops w.slot.amStarts := by
  cases hstop : w.slot.amStops with
  | true =>
    have hafter : amTimers w = if w.slot.vrH != w.slot.vrR then amStartReord (w.stopTimer .reord) else w.stopTimer .reord := by
      rw [amTimers, show (w.slot.running.reord && amTimerObsolete w.slot) = true from hstop]
      rfl
    rw [hafter, Slot.amStarts, hstop, Bool.or_true, Bool.true_and]
    cases w.slot.vrH != w.slot.vrR with
    | true =>
      rw [if_pos rfl, amStartReord_eq]
      simp [Work.amRetimed, Work.stopTimer, Work.emit, Work.upd, PerTimer.set, PerTimer.get]
    | false => simp [Work.amRetimed, Work.stopTimer, Work.emit, Work.upd, PerTimer.set, PerTimer.get]
  | false =>
    have hafter : amTimers w = if w.slot.amStarts then amStartReord w else w := by
      rw [amTimers, show (w.slot.running.reord && amTimerObsolete w.slot) = false from hstop, Slot.amStarts, hstop, Bool.or_false]
      rfl
    rw [hafter]
    cases w.slot.amStarts with
    | true => exact amStartReord_eq w
    | false => exact (amRetimed_false w).symm

/-! ## An accepted piece, R312 and R317 -/

/-- The slot with the entry `r` of SN `x` in the window. -/
def Slot.amInserted (v : Slot) (x : Nat) (r : AmEntry) : Slot :=
  { v with rxa := mapPut x r v.rxa, vrH := amHigh v.n v.vrR v.vrH x }

theorem rxComplete_amInserted {v : Slot} (hwf : mapWf v.rxa = true) (x : Nat) (r : AmEntry) (sn : Nat) :
    (v.amInserted x r).rxComplete sn = if sn = x then r.complete else v.rxComplete sn := by
  rw [Slot.rxComplete, Slot.amInserted, mapGet_mapPut x sn r hwf]
  by_cases hsn : sn = x
  · rw [if_pos hsn, if_pos hsn]
  · rw [if_neg hsn, if_neg hsn]
    rfl

/-- Where `VR_R` stands at an SN that is not complete, `am_advance` may be tried after any piece: only one that completes that SN
moves `VR_R`. -/
theorem amAccept_eq {w : Work} (hwf : mapWf w.slot.rxa = true) (hgap : w.slot.rxComplete w.slot.vrR = false) (x : Nat)
    (r : AmEntry) : amAccept x r w = amTimers (amAdvance (w.upd fun v => v.amInserted x r)) := by
  have hput : (w.upd fun v => amBumpVrH x { v with rxa := mapPut x r v.rxa }) = w.upd fun v => v.amInserted x r := by
    simp only [Work.upd, amBumpVrH_eq]
    rfl
  unfold amAccept
  dsimp only
  rw [hput]
  congr 1
  split
  · rfl
  · rename_i hno
    refine (amAdvanceLoop_of_gap ?_ _).symm
    change (w.slot.amInserted x r).rxComplete w.slot.vrR = false
    rw [rxComplete_amInserted hwf]
    split
    · rename_i heq
      change ¬ (x == w.slot.vrR && r.complete) = true at hno
      simpa [heq] using hno
    · exact hgap

/-! ## WRITE_PDU of an AM data PDU, R312 -/

section Receive

variable {w : Work} {pdu : Bytes} {h : Hdr} {n : Nat}

/-- An SN outside the window, R313. -/
theorem amDataReceive_of_outside (hu : unpackHdr w.params .amd w.slot.cfg.liw pdu = some (h, n))
    (hout : w.slot.amW ≤ rel w.slot.n h.sn w.slot.vrR) : amDataReceive pdu w = amCount h.p w := by
  simp [amDataReceive, hu, inside, hout]

/-- A piece that merges and brings nothing, R316. -/
theorem amDataReceive_of_duplicate (hu : unpackHdr w.params .amd w.slot.cfg.liw pdu = some (h, n)) {r : AmEntry}
    (hm : merge ((mapGet h.sn w.slot.rxa).getD AmEntry.empty) (pieceOf h (pdu.drop n).length) h (pdu.drop n) = some r)
    (hdup : pieceDuplicate (mapGet h.sn w.slot.rxa) (pieceOf h (pdu.drop n).length) = true) :
    amDataReceive pdu w = amCount h.p w := by
  simp only [amDataReceive, hu, hm, hdup, if_true, ite_self]

/-- A piece inside the window that merges and brings something. -/
theorem amDataReceive_of_new (hu : unpackHdr w.params .amd w.slot.cfg.liw pdu = some (h, n))
    (hin : rel w.slot.n h.sn w.slot.vrR < w.slot.amW) {r : AmEntry}
    (hm : merge ((mapGet h.sn w.slot.rxa).getD AmEntry.empty) (pieceOf h (pdu.drop n).length) h (pdu.drop n) = some r)
    (hnew : pieceDuplicate (mapGet h.sn w.slot.rxa) (pieceOf h (pdu.drop n).length) = false) :
    amDataReceive pdu w = amAccept h.sn r (amCount h.p w) := by
  have hinside : inside w.slot.n h.sn w.slot.vrR w.slot.amW = true := decide_eq_true hin
  simp only [amDataReceive, hu, hinside, hm, hnew, Bool.not_true, Bool.false_eq_true, if_false]

/-- A piece is no duplicate where some byte of it is not held. -/
theorem pieceDuplicate_eq_false {old : Option AmEntry} {pc : Piece} (hw : ∀ r, old = some r → rangeWf r.rcvd = true)
    (hmissing : ∃ x, pc.so ≤ x ∧ x < pc.so + pc.len ∧ rangeHas x (old.getD AmEntry.empty).rcvd = false) :
    pieceDuplicate old pc = false := by
  cases old with
  | none => rfl
  | some r =>
    obtain ⟨x, hlow, hhigh, hno⟩ := hmissing
    refine Bool.eq_false_iff.mpr fun hall => Bool.false_ne_true (hno.symm.trans ?_)
    exact (rangeIncl_iff (hw r rfl)).mp hall x hlow hhigh

/-- WRITE_PDU of an AM data PDU that unpacks, R311. -/
theorem exec_writePdu_amd {l : Lcid} {s : State} {v : Slot} (hv : v = s.slot l) (ha : v.active = true) (mode : v.cfg.mode = .am)
    (hu : unpackHdr s.params .amd v.cfg.liw pdu = some (h, n)) :
    exec (.writePdu l 0 pdu) s = commit s (amDataReceive pdu (s.workOn l v)) [] := by
  subst hv
  have hdc : wireBit pdu 0 = true := (unpackHdr_eq_some.mp hu).1 rfl
  have hwrite : writePdu pdu (s.enter l) = amWritePdu pdu (s.enter l) := by simp [writePdu, mode]
  rw [exec_writePdu ha, hwrite, amWritePdu_data hdc]
  rfl

end Receive

end Sys2Proof.Machine
end

section
/-! PROOFS. Reception on an AM bearer (46_am_rx.md R312 to R321): repeated PDUs, the PDU that is expected next, the first gap,
reception in full, and the expiry of the reordering timer. -/

namespace Sys2Proof.Machine

section WritePdu

variable {l : Lcid} {pdu : Bytes} {s : State} {v : Slot} {h : Hdr} {n : Nat}

/-- The bearer after a received data PDU has been counted, R312 and R321. -/
def Slot.amCounted (v : Slot) (p : Bool) : Slot :=
  { v with
    statusTriggered := v.statusTriggered || p
    metrics := { v.metrics with numRxPdus := v.metrics.numRxPdus + 1 } }

theorem amCount_workOn (s : State) (l : Lcid) (v : Slot) (p : Bool) : amCount p (s.workOn l v) = s.workOn l (v.amCounted p) := rfl

theorem Slot.AmInv.amCounted (h : v.AmInv) (p : Bool) : (v.amCounted p).AmInv := { h with }

theorem Slot.AmInv.sn_lt (ham : v.AmInv) {pm : Params} {liw : LiWidth} (hu : unpackHdr pm .amd liw pdu = some (h, n)) :
    h.sn < v.n := by
  rw [(ham.legal.am ham.mode).1]
  exact (received_of_unpackHdr hu).sn

/-! ## Repeated PDUs, R313 and R316 -/

/-- A PDU that only counts. -/
theorem exec_writePdu_of_amCount (hv : v = s.slot l) (ha : v.active = true) (mode : v.cfg.mode = .am)
    (hu : unpackHdr s.params .amd v.cfg.liw pdu = some (h, n))
    (hcount : amDataReceive pdu (s.workOn l v) = amCount h.p (s.workOn l v)) :
    exec (.writePdu l 0 pdu) s = .next (s.after l (v.amCounted h.p) (s.tags l) [] []) := by
  rw [exec_writePdu_amd hv ha mode hu, hcount, amCount_workOn, commit_eq]
  rfl

end WritePdu

/-- Settles O40: a PDU outside the window is counted before anything else, and one that contradicts nothing merges
(`merge_of_not_contradicts`) and is counted where every byte of it is held. -/
theorem amRepeatedPduOnlyCounts : Obligations.AmRepeatedPduOnlyCounts := by
  intro l pdu s v h n hv ha mode hu hrepeated
  refine exec_writePdu_of_amCount hv ha mode hu ?_
  rcases hrepeated with hout | ⟨old, hg, hheld, hw, hno⟩
  · exact amDataReceive_of_outside (w := s.workOn l v) hu hout
  · obtain ⟨hso, hlast⟩ := pieceOf_so_last h (pdu.drop n).length
    have hlen := len_pieceOf h (pdu.drop n).length
    rw [← hso, ← hlast] at hno
    rw [← hso, ← List.length_drop] at hheld
    have hg : mapGet h.sn (s.workOn l v).slot.rxa = some old := hg
    refine amDataReceive_of_duplicate hu (by rw [hg]; exact merge_of_not_contradicts hlen hw hno) ?_
    rw [hg]
    refine (rangeIncl_iff hw).mpr fun x hlow hhigh => ?_
    rw [← Nat.add_sub_cancel' hlow]
    exact hheld _ (by omega)

/-! ## A bearer without a gap -/

/-- Nothing is held above `VR_R`, and the timer does not run. -/
structure Slot.AmNoGap (v : Slot) : Prop where
  low_lt : v.vrR < v.n
  high : v.vrH = v.vrR
  rxa : v.rxa = []
  off : v.running.reord = false

theorem Slot.AmInv.noGap {v : Slot} (h : v.AmInv) (heq : v.vrR = v.vrH) : v.AmNoGap := by
  have hself : rel v.n v.vrH v.vrR = 0 := by rw [heq, rel_self h.window.high_lt]
  refine ⟨h.window.low_lt, heq.symm, ?_, Bool.eq_false_iff.mpr fun hon => ?_⟩
  · have hno : mapKeys v.rxa = [] := List.eq_nil_iff_forall_not_mem.mpr fun k hk => by
      have := h.window.keys k hk
      omega
    exact List.map_eq_nil_iff.mp hno
  · have := h.reordOn hon
    omega

section NoGap

variable {w : Work} {x : Nat} {r : AmEntry}

/-- The slot with an entry in a window that holds nothing. -/
def Slot.amHeldAlone (v : Slot) (x : Nat) (r : AmEntry) : Slot := { v with rxa := [(x, r)], vrH := (x + 1) % v.n }

theorem amAccept_of_noGap (h : w.slot.AmNoGap) (x : Nat) (r : AmEntry) :
    amAccept x r w = amTimers (amAdvance (w.upd fun v => v.amHeldAlone x r)) := by
  have hgap : w.slot.rxComplete w.slot.vrR = false := by rw [Slot.rxComplete, h.rxa]; rfl
  have hhigh : amHigh w.slot.n w.slot.vrR w.slot.vrH x = (x + 1) % w.slot.n :=
    if_pos (by rw [h.high, rel_self h.low_lt]; exact Nat.zero_le _)
  have hput : w.slot.amInserted x r = w.slot.amHeldAlone x r := by
    rw [Slot.amInserted, hhigh, h.rxa]
    rfl
  rw [amAccept_eq (by rw [h.rxa]; rfl) hgap, Work.upd, hput]
  rfl

/-- The slot after the PDU that a bearer without a gap expects: reassembly has left `rsm` and delivered `sdus` (R318). -/
def Slot.amTook (v : Slot) (rsm : Rsm) (sdus : List Bytes) : Slot :=
  { v with
    vrR := (v.vrR + 1) % v.n
    vrH := (v.vrR + 1) % v.n
    rsm := rsm
    metrics := { v.metrics with numRxSdus := v.metrics.numRxSdus + BitVec.ofNat 32 sdus.length } }

/-- The complete entry of `VR_R` goes to reassembly at once and leaves no gap. -/
theorem amAccept_next (h : w.slot.AmNoGap) (hx : x = w.slot.vrR) (hc : r.complete = true) {fed : Rsm × List Bytes}
    (hfed : reassemble w.params w.slot.n x r.body w.slot.rsm = fed) :
    amAccept x r w = { w with slot := w.slot.amTook fed.1 fed.2, events := w.events ++ fed.2.map (.deliverSdu w.lcid) } := by
  subst hx
  have hdel : mapDel w.slot.vrR [(w.slot.vrR, r)] = w.slot.rxa := by
    rw [h.rxa]
    simp [mapDel]
  have hpassed : amAdvance (w.upd fun v => v.amHeldAlone w.slot.vrR r) =
      { w with slot := w.slot.amTook fed.1 fed.2, events := w.events ++ fed.2.map (.deliverSdu w.lcid) } := by
    have hg : mapGet w.slot.vrR [(w.slot.vrR, r)] = some r := if_pos rfl
    refine (amAdvanceLoop_of_complete (w := w.upd fun v => v.amHeldAlone w.slot.vrR r) hg hc 0).trans ?_
    change (w.upd fun v => v.amHeldAlone w.slot.vrR r).amPassed _ (mapDel w.slot.vrR [(w.slot.vrR, r)])
      (reassemble w.params w.slot.n w.slot.vrR r.body w.slot.rsm) = _
    rw [hdel, hfed]
    rfl
  have hstop : (w.slot.amTook fed.1 fed.2).amStops = false := Slot.amStops_of_off h.off
  have hstart : (w.slot.amTook fed.1 fed.2).amStarts = false := Bool.eq_false_iff.mpr fun hs => (Slot.amStarts_iff.mp hs).2 rfl
  rw [amAccept_of_noGap h, hpassed, amTimers_eq, hstop, hstart, amRetimed_false]

/-- An entry above `VR_R` opens a gap: it is held, and the timer is started. -/
theorem amAccept_beyond (h : w.slot.AmNoGap) {j : Nat} (hx : x = (w.slot.vrR + j) % w.slot.n) (hpos : 0 < j)
    (hj : j + 1 < w.slot.n) (r : AmEntry) : amAccept x r w = (w.upd fun v => v.amHeldAlone x r).amRetimed false true := by
  have hr := h.low_lt
  have hxlt : x < w.slot.n := hx ▸ Nat.mod_lt _ w.slot.n_pos
  have hrel : rel w.slot.n x w.slot.vrR = j := by rw [hx, rel_of_add hr (by omega)]
  have hne : x ≠ w.slot.vrR := fun he => by
    rw [he, rel_self hr] at hrel
    omega
  have hgap : (w.slot.amHeldAlone x r).rxComplete w.slot.vrR = false := by
    simp [Slot.rxComplete, Slot.amHeldAlone, mapGet, hne]
  have hhigh : (x + 1) % w.slot.n ≠ w.slot.vrR := fun he => by
    have hnext := rel_succ hxlt hr (by omega)
    rw [modN, he, rel_self hr] at hnext
    omega
  have hstop : (w.slot.amHeldAlone x r).amStops = false := Slot.amStops_of_off h.off
  have hstart : (w.slot.amHeldAlone x r).amStarts = true := Slot.amStarts_iff.mpr ⟨.inl h.off, hhigh⟩
  have hstay : amAdvance (w.upd fun v => v.amHeldAlone x r) = w.upd fun v => v.amHeldAlone x r := amAdvanceLoop_of_gap hgap _
  rw [amAccept_of_noGap h, hstay, amTimers_eq, slot_upd, hstop, hstart]

end NoGap

section Whole

variable {l : Lcid} {pdu : Bytes} {s : State} {v : Slot} {h : Hdr} {n : Nat}

/-- A whole PDU inside the window of a bearer without a gap is accepted as a complete entry. -/
theorem exists_exec_writePdu_whole (hv : v = s.slot l) (ha : v.active = true) (ham : v.AmInv) (heq : v.vrR = v.vrH)
    (hu : unpackHdr s.params .amd v.cfg.liw pdu = some (h, n)) (hrf : h.rf = false) (hin : rel v.n h.sn v.vrR < v.amW) :
    ∃ r : AmEntry, r.complete = true ∧ r.body = ⟨h.fi, boundsOf h.lis, pdu.drop n⟩ ∧
      exec (.writePdu l 0 pdu) s = commit s (amAccept h.sn r (s.workOn l (v.amCounted h.p))) [] := by
  have hroom : h.lis.sum < (pdu.drop n).length := by
    obtain ⟨hcarries, rfl⟩ := unpackHdr_eq_some_iff.mp hu
    rw [List.length_drop]
    exact hcarries.data.room
  obtain ⟨r, hm, hc, hbody⟩ := merge_whole hrf (received_of_unpackHdr hu).lis hroom
  have hnone : mapGet h.sn (s.workOn l v).slot.rxa = none := congrArg (mapGet h.sn) (ham.noGap heq).rxa
  refine ⟨r, hc, hbody, ?_⟩
  rw [exec_writePdu_amd hv ha ham.mode hu, amDataReceive_of_new (w := s.workOn l v) hu hin (r := r)
    (by rw [hnone]; exact hm) (by rw [hnone]; rfl)]
  rfl

end Whole

/-- Settles O38: the whole PDU of `VR_R` is complete (`merge_whole`) and passed at once (`amAccept_next`), and with one element
reassembly makes of it what R237 says (`oneElement_reassemble`). -/
theorem amInOrderPduIsDelivered : Obligations.AmInOrderPduIsDelivered := by
  intro l pdu s v h n hv ha mode hinv hu hrf heq hsn
  have ham := hinv.am mode
  obtain ⟨-, hw, -⟩ := ham.legal.am mode
  have hin : rel v.n h.sn v.vrR < v.amW := by
    rw [hsn, rel_self ham.window.low_lt]
    exact hw
  obtain ⟨r, hc, hbody, hexec⟩ := exists_exec_writePdu_whole hv ha ham heq hu hrf hin
  rw [amAccept_next { ham.noGap heq with } hsn hc rfl, commit_eq, hbody] at hexec
  refine ⟨_, _, hexec, rfl, fun hlis => ?_⟩
  rw [hlis]
  exact oneElement_reassemble _ _ _ _ _ _

/-! ## Reception in full, R312 to R319 -/

/-- An accepted piece: its entry is inserted, `VR_R` goes on over the complete SNs, and the timer is settled. -/
theorem exists_amAccept_eq {w : Work} (h : w.slot.AmInv) {x : Nat} (hx : x < w.slot.n)
    (hin : rel w.slot.n x w.slot.vrR < w.slot.amW) {r : AmEntry} (hr : rangeWf r.rcvd = true) {v : Slot}
    (hv : v = w.slot.amInserted x r) :
    ∃ (m vr : Nat) (fed : Rsm × List Bytes) (stop start : Bool), vr = (v.vrR + m) % v.n ∧
      (∀ j, j < m → v.rxComplete ((v.vrR + j) % v.n) = true) ∧ v.rxComplete vr = false ∧
      fed = reassembleAll w.params v.n (fun sn => (mapGet sn v.rxa).map AmEntry.body) (snInterval v.n v.vrR vr) v.rsm ∧
      (stop = true ↔ v.running.reord = true ∧ (v.vrX = vr ∨ v.amW < rel v.n v.vrX vr)) ∧
      (start = true ↔ (v.running.reord = false ∨ stop = true) ∧ v.vrH ≠ vr) ∧
      amAccept x r w =
        ((w.upd fun _ => v).amPassed vr (v.rxa.filter fun e => rel v.n vr v.vrR ≤ rel v.n e.1 v.vrR) fed).amRetimed
          stop start := by
  have hw := h.amW_le h.mode
  have hlow := h.window.low_lt
  obtain ⟨m, vr, hbelow, hvr, hcomplete, hgap, hwork⟩ := exists_amAdvanceLoop _ (w := w.upd fun _ => v)
    (by rw [hv]; exact h.window.insert hw hx hin hr) (by rw [hv]; exact hw) le_rfl
  have haccept : amAccept x r w = amTimers (amAdvance (w.upd fun _ => v)) := by
    rw [amAccept_eq h.window.wf h.gap, hv]
    rfl
  have hrun : snInterval v.n v.vrR vr = snRun v.n v.vrR m := by
    have hlt : m < v.n := hbelow.trans_lt (rel_lt_of_pos v.n_pos _ _)
    rw [snInterval, hvr]
    exact congrArg _ (rel_of_add (by rw [hv]; exact hlow) hlt)
  rw [haccept, amAdvance, hwork, amTimers_eq]
  refine ⟨m, vr, _, _, _, hvr, hcomplete, hgap, by rw [hrun]; rfl, Slot.amStops_iff ?_ ?_, Slot.amStarts_iff, rfl⟩
  · change v.vrX < v.n
    rw [hv]
    exact h.vrX
  · exact hvr ▸ Nat.mod_lt _ v.n_pos

/-- Settles O39: the first clause is a piece beyond the window of a bearer without a gap (`amAccept_beyond`), the second any piece
that merges (`merge_of_not_contradicts`, `exists_amAccept_eq`). -/
theorem amReceptionMergesAndAdvances : Obligations.AmReceptionMergesAndAdvances := by
  intro l pdu s v h n hv ha mode hinv hu
  have ham := hinv.am mode
  obtain ⟨hn, -, hw⟩ := ham.legal.am mode
  have hr := ham.window.low_lt
  constructor
  · intro j hrf heq hpos hj hsn
    have hin : rel v.n h.sn v.vrR < v.amW := by rwa [hsn, rel_of_add hr (by omega)]
    obtain ⟨r, hc, hbody, hexec⟩ := exists_exec_writePdu_whole hv ha ham heq hu hrf hin
    rw [amAccept_beyond { ham.noGap heq with } hsn hpos (show j + 1 < v.n by omega), commit_eq] at hexec
    exact ⟨r, hc, hbody, hexec⟩
  · rintro old so last vh hshapes hin hold hso hlast hno hmissing rfl
    obtain ⟨hpso, hplast⟩ := pieceOf_so_last h (pdu.drop n).length
    rw [← hpso] at hso
    rw [← hplast] at hlast
    subst hso hlast
    have hlen := len_pieceOf h (pdu.drop n).length
    have hreceived := received_of_unpackHdr hu
    obtain ⟨hpos, hmax⟩ := hreceived.piece_le
    have hheld : old.Held := hold ▸ held_getD_mapGet (hshapes.am mode).rxa h.sn
    have hm := merge_of_not_contradicts hlen hheld.wf hno
    have hshape := hheld.merge hlen hpos hmax hreceived.lis hm
    have hrwf := (AmEntry.shape_iff.mp hshape).2.wf
    have hnew : pieceDuplicate (mapGet h.sn v.rxa) (pieceOf h (pdu.drop n).length) = false :=
      pieceDuplicate_eq_false (fun e he => ham.window.rcvdWf _ (mem_of_mapGet he)) (by rw [← hold, hlen]; exact hmissing)
    obtain ⟨m, vr, fed, stop, start, hvr, hcomplete, hgap, hfed, hstop, hstart, he⟩ :=
      exists_amAccept_eq (w := s.workOn l (v.amCounted h.p)) (ham.amCounted h.p) (ham.sn_lt hu) hin hrwf rfl
    have hexec := exec_writePdu_amd hv ha mode hu
    rw [amDataReceive_of_new (w := s.workOn l v) hu hin (by rw [← hm, hold]; rfl) hnew, amCount_workOn, he, commit_eq] at hexec
    exact ⟨_, _, m, vr, fed.1, fed.2, stop, start, mergedFrom_mergeRaw hheld hlen, hshape, AmEntry.complete_iff hrwf, rfl, hvr,
      hcomplete, hgap, hfed, hstop, hstart, hexec⟩

/-! ## Expiry of the reordering timer, R320 -/

/-- A current TIMER_EXPIRY, R363. -/
theorem exec_timerExpiry_of_current {l : Lcid} {s : State} {sub : Sub} {k : TimerKind} (hk : timerKindOf sub = some k)
    (ha : (s.slot l).active = true) (hon : (s.slot l).running.get k = true) :
    exec (.timerExpiry l sub ((s.tags l).get k)) s = commit s (expire k (s.enter l)) [] := by
  simp [exec, execTimerExpiry, hk, expiryCurrent, ha, hon]

/-- TIMER_EXPIRY of the running reordering timer on an AM bearer, R364. -/
theorem exec_timerExpiry_am {l : Lcid} {s : State} {v : Slot} (hv : v = s.slot l) (ha : v.active = true) (mode : v.cfg.mode = .am)
    (hon : v.running.reord = true) :
    exec (.timerExpiry l 0 (s.tags l).reord) s =
      commit s (amReordExpiry (s.workOn l { v with running := { v.running with reord := false } })) [] := by
  subst hv
  refine (exec_timerExpiry_of_current (sub := 0) (k := .reord) rfl ha hon).trans ?_
  simp only [expire, expiryAction, slot_upd, slot_enter, mode]
  rfl

/-- Some SN of `[VR_X, VR_H)` is not completely received, R320. -/
def Slot.ZoneHasGap (v : Slot) : Prop := ∃ j < rel v.n v.vrH v.vrX, v.rxComplete ((v.vrX + j) % v.n) = false

/-- The search of R320 from `VR_X` on stops below `VR_H` exactly where it finds a gap there. -/
theorem rel_snSkip_lt_iff {v : Slot} (hx : v.vrX < v.n) (hh : v.vrH < v.n) (hr : v.vrR < v.n)
    (hzone : rel v.n v.vrX v.vrR ≤ rel v.n v.vrH v.vrR) :
    rel v.n (snSkip v.n (fun t => t != v.vrH && v.rxComplete t) v.n v.vrX) v.vrR < rel v.n v.vrH v.vrR ↔ v.ZoneHasGap := by
  obtain ⟨m, -, he, hall, hstop⟩ := snSkip_spec v.n (fun t => t != v.vrH && v.rxComplete t) v.n v.vrX hx
  have hspan := rel_add_rel hh hx hr hzone
  have hlt := rel_lt_of_pos v.n_pos v.vrH v.vrR
  have hm : m ≤ rel v.n v.vrH v.vrX := by
    by_contra hgt
    have hend := hall _ (Nat.lt_of_not_le hgt)
    rw [add_rel_mod hh hx] at hend
    simp at hend
  have hrelx : rel v.n ((v.vrX + m) % v.n) v.vrX = m := rel_of_add hx (by omega)
  have hrel : rel v.n ((v.vrX + m) % v.n) v.vrR = rel v.n v.vrX v.vrR + m := by
    rw [rel_trans (Nat.mod_lt _ v.n_pos) hx hr (by omega), hrelx]
  rw [he, hrel]
  constructor
  · intro hbelow
    have hne : (v.vrX + m) % v.n ≠ v.vrH := fun heq => by
      rw [heq] at hrelx
      omega
    have hno := hstop (by omega)
    rw [bne_iff_ne.mpr hne, Bool.true_and] at hno
    exact ⟨m, by omega, hno⟩
  · rintro ⟨j, hj, hno⟩
    have hmj : m ≤ j := by
      by_contra hgt
      have hyes := hall j (Nat.lt_of_not_le hgt)
      rw [hno, Bool.and_false] at hyes
      cases hyes
    omega

/-- The expiry of the timer, R320. -/
theorem amReordExpiry_eq {w : Work} (hx : w.slot.vrX < w.slot.n) (hh : w.slot.vrH < w.slot.n) (hr : w.slot.vrR < w.slot.n)
    (hzone : rel w.slot.n w.slot.vrX w.slot.vrR ≤ rel w.slot.n w.slot.vrH w.slot.vrR) {start : Bool}
    (hstart : start = true ↔ w.slot.ZoneHasGap) :
    amReordExpiry w = (w.upd fun s => { s with statusTriggered := true }).amRetimed false start := by
  rw [← rel_snSkip_lt_iff hx hh hr hzone] at hstart
  unfold amReordExpiry
  cases start with
  | true => exact (if_pos (hstart.mp rfl)).trans (amStartReord_eq _)
  | false => exact (if_neg fun hlt => Bool.false_ne_true (hstart.mpr hlt)).trans (amRetimed_false _).symm

/-- Settles O51: the expiry sets the trigger, and starts the timer again where its zone has a gap (`amReordExpiry_eq`). -/
theorem amReorderingExpiryTriggersStatus : Obligations.AmReorderingExpiryTriggersStatus := by
  intro l s v hv ha mode hinv hon
  have ham := hinv.am mode
  have hexec {start : Bool} (hstart : start = true ↔ v.ZoneHasGap) := (exec_timerExpiry_am hv ha mode hon).trans
    (congrArg (fun w => commit s w []) (amReordExpiry_eq (w := s.workOn l { v with running := { v.running with reord := false } })
      ham.vrX ham.window.high_lt ham.window.low_lt (ham.reordOn hon).2 hstart))
  constructor
  · intro hgap
    have hrunning : { v.running with reord := true } = v.running := by rw [← hon]
    rw [hexec (start := true) (iff_of_true rfl hgap), commit_eq]
    simp only [Work.amRetimed, slot_upd, State.workOn, Bool.true_or, hrunning]
    rfl
  · intro hfull
    have hno : ¬ v.ZoneHasGap := fun ⟨j, hj, hgap⟩ => Bool.false_ne_true (hgap.symm.trans (hfull j hj))
    exact hexec (start := false) (iff_of_false Bool.false_ne_true hno)

end Sys2Proof.Machine
end

section
/-! PROOFS. What a status reports of each SN (46_am_rx.md R324): one NACK record for each gap, and where the list ends. -/

namespace Sys2Proof.Machine

/-! ## The gaps of a range set, in order -/

/-- The gap in front of an interval ends no later than the interval starts. -/
theorem exists_rangeGaps_cons (len : Option Nat) (p a b : Nat) (r : RangeSet) : ∃ z ≤ a,
    rangeGaps len p ((a, b) :: r) = (if p < z then [(p, some z)] else []) ++ rangeGaps len b r := by
  cases len with
  | none => exact ⟨a, le_rfl, rfl⟩
  | some n => exact ⟨min a n, min_le_left a n, rfl⟩

theorem le_of_mem_rangeGaps {len : Option Nat} : ∀ {p : Nat} {r : RangeSet}, rangeWfFrom p r = true →
    ∀ g ∈ rangeGaps len p r, p ≤ g.1
  | p, [], _, g, hg => by
    cases len with
    | none => simp_all [rangeGaps]
    | some n => simp_all [rangeGaps]
  | p, (a, b) :: r, hw, g, hg => by
    obtain ⟨hpa, hab, hw⟩ := (rangeWfFrom_cons _ _ _ _).mp hw
    obtain ⟨z, -, heq⟩ := exists_rangeGaps_cons len p a b r
    rw [heq] at hg
    rcases List.mem_append.mp hg with hg | hg
    · split at hg
      · exact (List.mem_singleton.mp hg ▸ le_rfl)
      · cases hg
    · have := le_of_mem_rangeGaps (rangeWfFrom_mono (Nat.le_succ b) hw) g hg
      omega

/-- Between two gaps lies an interval: a gap ends below the start of every later one. -/
theorem pairwise_rangeGaps (len : Option Nat) : ∀ {p : Nat} {r : RangeSet}, rangeWfFrom p r = true →
    (rangeGaps len p r).Pairwise fun g h => ∃ z, g.2 = some z ∧ g.1 < z ∧ z < h.1
  | p, [], _ => by
    cases len with
    | none => exact List.pairwise_singleton _ _
    | some n =>
      rw [rangeGaps]
      split
      · exact List.pairwise_singleton _ _
      · exact .nil
  | p, (a, b) :: r, hw => by
    obtain ⟨-, hab, hw⟩ := (rangeWfFrom_cons _ _ _ _).mp hw
    have hw := rangeWfFrom_mono (Nat.le_succ b) hw
    obtain ⟨z, hz, heq⟩ := exists_rangeGaps_cons len p a b r
    rw [heq]
    split
    · rename_i hpz
      refine List.pairwise_cons.mpr ⟨fun g hg => ⟨z, rfl, hpz, ?_⟩, pairwise_rangeGaps len hw⟩
      have := le_of_mem_rangeGaps hw g hg
      omega
    · exact pairwise_rangeGaps len hw

/-! ## The record of a gap -/

/-- The NACK record that R324 makes of a gap of SN `sn`. -/
def gapNack (sn : Nat) (g : Nat × Option Nat) : Nack :=
  ⟨sn, true, g.1, match g.2 with
    | none => 0x7FFF
    | some z => z - 1⟩

/-- A gap lies within MAX_AM_DATA and is not empty. -/
def GapOk (g : Nat × Option Nat) : Prop := g.1 ≤ Config.maxAmData ∧ ∀ z, g.2 = some z → g.1 < z ∧ z ≤ Config.maxAmData

theorem gapNack_start_le_end {g : Nat × Option Nat} (hg : GapOk g) (sn : Nat) :
    (gapNack sn g).soStart ≤ (gapNack sn g).soEnd := by
  obtain ⟨a, z⟩ := g
  obtain ⟨hmax, hend⟩ := hg
  cases z with
  | none => exact hmax
  | some z => exact Nat.le_sub_one_of_lt (hend z rfl).1

/-- The record asks for the gap's bytes: its end is no SOend that stands for the end of the PDU, unless the gap has none. -/
theorem gapNack_asks_iff {g : Nat × Option Nat} (hg : GapOk g) (sn x : Nat) :
    (gapNack sn g).asks x = true ↔ g.1 ≤ x ∧ ∀ z, g.2 = some z → x < z := by
  obtain ⟨a, z⟩ := g
  obtain ⟨-, hend⟩ := hg
  cases z with
  | none => simp [gapNack, Nack.asks_iff]
  | some z =>
    obtain ⟨haz, hz⟩ := hend z rfl
    have hmax : z - 1 ≠ 0x7FFF := by
      rw [Config.maxAmData] at hz
      omega
    have hbelow : x ≤ z - 1 ↔ x < z := by omega
    simp [gapNack, Nack.asks_iff, hmax, hbelow]

/-! ## The records of one SN -/

section OneSn

variable {rxa : SnMap AmEntry} {sn : Nat} {r : AmEntry}

theorem nacksOf_of_none (hg : mapGet sn rxa = none) : nacksOf rxa sn = [⟨sn, false, 0, 0⟩] := by
  rw [nacksOf, hg]

theorem nacksOf_of_complete (hg : mapGet sn rxa = some r) (hc : r.complete = true) : nacksOf rxa sn = [] := by
  simp [nacksOf, hg, hc]

theorem nacksOf_of_incomplete (hg : mapGet sn rxa = some r) (hc : r.complete = false) :
    nacksOf rxa sn = (rangeGaps r.len 0 r.rcvd).map (gapNack sn) := by
  simp only [nacksOf, hg, hc, Bool.false_eq_true, if_false]
  rfl

/-- Some byte of an incomplete entry is missing, below its length where that is known. -/
theorem AmEntry.Shape.exists_missing (h : r.Shape) (hc : r.complete = false) :
    ∃ x, (∀ n, r.len = some n → x < n) ∧ rangeHas x r.rcvd = false := by
  obtain ⟨-, hw, hmax, -⟩ := h
  cases hlen : r.len with
  | none =>
    refine ⟨Config.maxAmData, nofun, Bool.eq_false_iff.mpr fun hhas => ?_⟩
    simp only [rangeHas, List.any_eq_true, Bool.and_eq_true, decide_eq_true_eq] at hhas
    obtain ⟨i, hi, -, hlt⟩ := hhas
    exact absurd (hmax i hi) hlt.not_ge
  | some n =>
    by_contra hall
    refine Bool.eq_false_iff.mp hc ((AmEntry.complete_iff hw).mpr ⟨n, hlen, fun x hx => ?_⟩)
    by_contra hno
    exact hall ⟨x, by simpa using hx, Bool.eq_false_iff.mpr hno⟩

/-- The gaps of an entry lie within MAX_AM_DATA. -/
theorem AmEntry.Shape.gapOk (h : r.Shape) : ∀ g ∈ rangeGaps r.len 0 r.rcvd, GapOk g := by
  obtain ⟨-, hw, hmax, hlen, -⟩ := h
  exact bounds_of_mem_rangeGaps hlen (Nat.zero_le _) hmax hw

/-- An SN of which something is held needs no record exactly where it is complete. -/
theorem nacksOf_eq_nil_iff (hg : mapGet sn rxa = some r) (h : r.Shape) : nacksOf rxa sn = [] ↔ r.complete = true := by
  refine ⟨fun hnil => by_contra fun hno => ?_, nacksOf_of_complete hg⟩
  have hc := Bool.eq_false_iff.mpr hno
  obtain ⟨x, hx, hmissing⟩ := h.exists_missing hc
  obtain ⟨-, hw, -⟩ := h
  obtain ⟨g, hmem, -⟩ := (rangeGaps_spec r.len hx hw (Nat.zero_le x)).mp hmissing
  rw [nacksOf_of_incomplete hg hc, List.map_eq_nil_iff] at hnil
  rw [hnil] at hmem
  cases hmem

theorem mem_nacksOf_of_held (hg : mapGet sn rxa = some r) (h : r.Shape) :
    ∀ k ∈ nacksOf rxa sn, k.sn = sn ∧ k.hasSo = true ∧ k.soStart ≤ k.soEnd := by
  intro k hk
  cases hc : r.complete with
  | true =>
    rw [nacksOf_of_complete hg hc] at hk
    cases hk
  | false =>
    rw [nacksOf_of_incomplete hg hc] at hk
    obtain ⟨g, hmem, rfl⟩ := List.mem_map.mp hk
    exact ⟨rfl, rfl, gapNack_start_le_end (h.gapOk g hmem) sn⟩

/-- The records of one SN rise and are not adjacent. -/
theorem pairwise_nacksOf (hg : mapGet sn rxa = some r) (hw : rangeWf r.rcvd = true) :
    (nacksOf rxa sn).Pairwise fun j k => j.soEnd + 1 < k.soStart := by
  cases hc : r.complete with
  | true =>
    rw [nacksOf_of_complete hg hc]
    exact .nil
  | false =>
    rw [nacksOf_of_incomplete hg hc, List.pairwise_map]
    refine (pairwise_rangeGaps r.len hw).imp ?_
    rintro ⟨a, _⟩ g ⟨z, rfl, haz, hz⟩
    change z - 1 + 1 < g.1
    omega

/-- The records of an incomplete SN ask for the bytes that are missing, and no other below its length. -/
theorem missing_iff_nacksOf_asks (hg : mapGet sn rxa = some r) (h : r.Shape) (hc : r.complete = false) {x : Nat}
    (hx : x < r.len.getD Config.maxAmData) : rangeHas x r.rcvd = false ↔ ∃ k ∈ nacksOf rxa sn, k.asks x = true := by
  have hgaps := h.gapOk
  obtain ⟨-, hw, -⟩ := h
  rw [nacksOf_of_incomplete hg hc, rangeGaps_spec r.len (fun n hn => by rwa [hn] at hx) hw (Nat.zero_le x)]
  simp only [List.mem_map, exists_exists_and_eq_and]
  exact exists_congr fun g => and_congr_right fun hmem => (gapNack_asks_iff (hgaps g hmem) sn x).symm

end OneSn

/-! ## Where the list ends -/

/-- The records `q` do not fit behind the records `ks`, R324. -/
def NacksOverflow (pm : Params) (budget : Nat) (ks q : List Nack) : Prop :=
  q ≠ [] ∧ (pm.maxNacks < ks.length + q.length ∨ budget < statusLen (ks ++ q))

/-- The loop of R324 reaches its end, or it stops at an SN whose records do not fit. -/
theorem statusLoop_ack (pm : Params) (rxa : SnMap AmEntry) (budget ack : Nat) : ∀ (sns : List Nat) (nacks : List Nack),
    (statusLoop pm rxa budget ack sns nacks).ack = ack ∨
      NacksOverflow pm budget (statusLoop pm rxa budget ack sns nacks).nacks
        (nacksOf rxa (statusLoop pm rxa budget ack sns nacks).ack)
  | [], _ => .inl rfl
  | sn :: sns, nacks => by
    rw [statusLoop]
    split
    · rename_i hover
      exact .inr hover
    · exact statusLoop_ack pm rxa budget ack sns _

/-- Settles O42: the records of an SN are those of its gaps (`nacksOf_of_incomplete`), the list is that of the SNs before the one
where the loop stops (`buildStatus_spec`), and there the records would not fit (`statusLoop_ack`). -/
theorem statusReportsEverySn : Obligations.StatusReportsEverySn := by
  intro pm v hinv hshapes mode
  have ham := hinv.am mode
  have hrxa := (hshapes.am mode).rxa
  refine ⟨fun sn _ => ⟨nacksOf_of_none, fun r hg => ?_⟩, ?_⟩
  · have hshape : r.Shape := hrxa _ (mem_of_mapGet hg)
    exact ⟨nacksOf_eq_nil_iff hg hshape, mem_nacksOf_of_held hg hshape,
      pairwise_nacksOf hg (ham.window.rcvdWf _ (mem_of_mapGet hg)), fun hc x hx => missing_iff_nacksOf_asks hg hshape hc hx⟩
  · rintro b st hb rfl
    obtain ⟨j, hj, heq, -⟩ := buildStatus_spec pm ham.window.low_lt ham.window.high_lt hb
    have hrel : rel v.n (buildStatus pm v b).ack v.vrR = j := by
      rw [heq]
      exact rel_of_add ham.window.low_lt (hj.trans_lt (rel_lt_of_pos v.n_pos _ _))
    refine ⟨hrel.trans_le hj, ?_, fun hne => (statusLoop_ack pm v.rxa b v.vrH _ _).resolve_left hne⟩
    rw [snInterval, hrel, heq]

end Sys2Proof.Machine
end

section
/-! PROOFS. What sets and clears `status_triggered` (46_am_rx.md R322). -/

namespace Sys2Proof.Machine

/-! ## What leaves the trigger as it was -/

section Keeps

variable {w w' : Work}

theorem statusTriggered_umAdvance (stop : Nat) (w : Work) :
    (umAdvance stop w).slot.statusTriggered = w.slot.statusTriggered := by
  obtain ⟨_, _, _, _, _, _, h⟩ := umAdvance_frame stop w
  rw [h]

theorem statusTriggered_amAdvance (w : Work) : (amAdvance w).slot.statusTriggered = w.slot.statusTriggered := by
  obtain ⟨_, _, _, _, _, h⟩ := amAdvanceLoop_frame w.slot.rxa.length w
  rw [amAdvance, h]

/-- The reordering timer's requests leave the trigger as it was. -/
theorem ReorderedFrom.statusTriggered (h : ReorderedFrom w w') : w'.slot.statusTriggered = w.slot.statusTriggered := by
  obtain ⟨_, _, _, _, _, rfl, -⟩ := h
  rfl

theorem statusTriggered_umInsert (x : Nat) (p : Body) (w : Work) :
    (umInsert x p w).slot.statusTriggered = w.slot.statusTriggered := by
  unfold umInsert
  dsimp only
  split
  · split
    · exact statusTriggered_umAdvance _ _
    · rfl
  · rfl

theorem statusTriggered_umReceive (x : Nat) (p : Body) (w : Work) :
    (umReceive x p w).slot.statusTriggered = w.slot.statusTriggered := by
  unfold umReceive
  split
  · rfl
  · refine (umTimers_frame _).statusTriggered.trans (Eq.trans ?_ (statusTriggered_umInsert x p w))
    split
    · exact statusTriggered_umAdvance _ _
    · rfl

theorem statusTriggered_umWritePdu (pdu : Bytes) (w : Work) :
    (umWritePdu pdu w).slot.statusTriggered = w.slot.statusTriggered := by
  unfold umWritePdu
  split
  · rfl
  · exact statusTriggered_umReceive _ _ _

theorem statusTriggered_umReordExpiry (w : Work) :
    (umReordExpiry w).slot.statusTriggered = w.slot.statusTriggered := by
  have hpassed : (umAdvance (umGap (umAdvance w.slot.vrUx w).slot) (umAdvance w.slot.vrUx w)).slot.statusTriggered =
      w.slot.statusTriggered := (statusTriggered_umAdvance _ _).trans (statusTriggered_umAdvance _ _)
  unfold umReordExpiry
  dsimp only
  split
  · exact (reorderedFrom_umStart _).statusTriggered.trans hpassed
  · exact hpassed

theorem statusTriggered_amAccept (x : Nat) (r : AmEntry) (w : Work) :
    (amAccept x r w).slot.statusTriggered = w.slot.statusTriggered := by
  have hput : (w.upd fun s => amBumpVrH x { s with rxa := mapPut x r s.rxa }).slot.statusTriggered = w.slot.statusTriggered := by
    rw [slot_upd, amBumpVrH_eq]
  unfold amAccept
  refine (amTimers_frame _).statusTriggered.trans (Eq.trans ?_ hput)
  split
  · exact statusTriggered_amAdvance _
  · rfl

theorem statusTriggered_statusReceive (pdu : Bytes) (w : Work) :
    (statusReceive pdu w).slot.statusTriggered = w.slot.statusTriggered := by
  unfold statusReceive
  split
  · rfl
  · rename_i st _
    split
    · obtain ⟨_, _, _, _, h⟩ := handleStatus_frame st w.countRxPdu
      rw [h]
      rfl
    · rfl

theorem statusTriggered_pollDecide (new : Bool) (nbytes : Nat) (w : Work) :
    (pollDecide new nbytes w).2.slot.statusTriggered = w.slot.statusTriggered := by
  rcases pollDecide_cases new nbytes w with ⟨-, h⟩ | ⟨-, h⟩
  · rw [h]
    cases new <;> rfl
  · rw [h]

theorem statusTriggered_newPdu {budget : Nat} {pdu : Bytes} (h : newPdu budget w = some (pdu, w')) :
    w'.slot.statusTriggered = w.slot.statusTriggered := by
  obtain ⟨-, b, p, -, rfl⟩ := newPdu_cases h
  exact statusTriggered_pollDecide _ _ _

theorem statusTriggered_retxPdu {budget : Nat} {pdu : Bytes} (h : retxPdu budget w = some (pdu, w')) :
    w'.slot.statusTriggered = w.slot.statusTriggered := by
  obtain ⟨sn, e, pending, nbytes, -, -, rfl⟩ := retxPdu_cases h
  exact statusTriggered_pollDecide _ _ _

theorem statusTriggered_pollRetxExpiry (w : Work) : (pollRetxExpiry w).slot.statusTriggered = w.slot.statusTriggered := by
  unfold pollRetxExpiry
  dsimp only
  split
  · split
    · rfl
    · split
      · rfl
      · rename_i sn _ _ e _
        rcases considerForRetx_frame sn (rangeAdd 0 e.data.length []) (w.upd fun s => { s with pollPending := true }) with
          h | ⟨_, _, _, -, -, -, -, h⟩
        · rw [h]
          rfl
        · rw [h]
          rfl
  · rfl

end Keeps

/-! ## What sets and clears it -/

/-- A received data PDU sets the trigger where its P bit is 1, and no PDU changes it otherwise (R321). -/
theorem statusTriggered_writePdu (pdu : Bytes) (w : Work) :
    (writePdu pdu w).slot.statusTriggered = w.slot.statusTriggered ∨
      (writePdu pdu w).slot.statusTriggered = true ∧
        ∃ h n, unpackHdr w.params .amd w.slot.cfg.liw pdu = some (h, n) ∧ h.p = true := by
  have hdata : (amDataReceive pdu w).slot.statusTriggered = w.slot.statusTriggered ∨
      ∃ h n, unpackHdr w.params .amd w.slot.cfg.liw pdu = some (h, n) ∧
        (amDataReceive pdu w).slot.statusTriggered = (w.slot.statusTriggered || h.p) := by
    unfold amDataReceive
    split
    · exact .inl rfl
    · rename_i h n hu
      dsimp only
      split
      · exact .inr ⟨h, n, hu, rfl⟩
      · split
        · exact .inl rfl
        · refine .inr ⟨h, n, hu, ?_⟩
          split
          · rfl
          · exact statusTriggered_amAccept _ _ _
  unfold writePdu
  split
  · exact .inl (statusTriggered_umWritePdu pdu w)
  · unfold amWritePdu
    split
    · exact .inl rfl
    · split
      · rcases hdata with hkept | ⟨h, n, hu, hset⟩
        · exact .inl hkept
        · cases hp : h.p
          · exact .inl (by rw [hset, hp, Bool.or_false])
          · exact .inr ⟨by rw [hset, hp, Bool.or_true], h, n, hu, hp⟩
      · exact .inl (statusTriggered_statusReceive pdu w)

/-- Reading a PDU clears the trigger where the PDU is a status, and leaves it as it was otherwise (R262). -/
theorem statusTriggered_readPdu (budget : Nat) (w : Work) :
    (readPdu budget w).2.slot.statusTriggered = w.slot.statusTriggered ∨
      (readPdu budget w).2.slot.statusTriggered = false ∧
        (readPdu budget w).1 = packStatus (buildStatus w.params w.slot budget) := by
  unfold readPdu
  split
  · left
    unfold umRead
    dsimp only
    split <;> rfl
  · unfold amRead
    split
    · exact .inr ⟨rfl, rfl⟩
    · left
      split
      · rename_i hr
        exact (statusTriggered_retxPdu hr :)
      · split
        · rename_i hn
          exact (statusTriggered_newPdu hn :)
        · rfl

/-- A current expiry sets the trigger where it is that of t_reordering, and leaves it as it was otherwise (R320). -/
theorem statusTriggered_expire (k : TimerKind) (w : Work) :
    (expire k w).slot.statusTriggered = w.slot.statusTriggered ∨ k = .reord ∧ (expire k w).slot.statusTriggered = true := by
  unfold expire expiryAction
  split
  · exact .inl (statusTriggered_umReordExpiry _)
  · refine .inr ⟨rfl, ?_⟩
    unfold amReordExpiry
    dsimp only
    split <;> rfl
  · exact .inl (statusTriggered_pollRetxExpiry _)
  · exact .inl rfl
  · exact .inl rfl

/-! ## Commands -/

/-- The command is a cause that sets the trigger of bearer `l`, R322. -/
def SetsTrigger (s : State) (l : Lcid) (i : Instr) : Prop :=
  i = .timerExpiry l 0 (s.tags l).reord ∨
    ∃ pdu h n, i = .writePdu l 0 pdu ∧ unpackHdr s.params .amd (s.slot l).cfg.liw pdu = some (h, n) ∧ h.p = true

/-- The command is a cause that clears the trigger of bearer `l`, R322. -/
def ClearsTrigger (s : State) (l : Lcid) (i : Instr) : Prop :=
  (∃ b, i = .readPdu l 0 b ∧
      (readPdu b.toNat (s.enter l)).1 = packStatus (buildStatus s.params (s.slot l) b.toNat)) ∨
    i = .reestablish l 0 0 ∨ ∃ p c, i = .configure l 0 p ∧ acceptCfg p = some c ∧ structuralChange (s.slot l).cfg c = true

/-- The one kind of expiry that R322 names. -/
theorem eq_zero_of_timerKindOf_reord : ∀ {sub : Sub}, timerKindOf sub = some .reord → sub = 0 := by decide

/-- An accepted command on a bearer that is active before and after it leaves the trigger as it was, or is one of its causes. -/
theorem Accepted.statusTriggered {s : State} {i : Instr} {w : Work} (h : Accepted s i w)
    (ha : (s.slot i.lcid).active = true) (ha' : w.slot.active = true) :
    w.slot.statusTriggered = (s.slot i.lcid).statusTriggered ∨
      w.slot.statusTriggered = true ∧ SetsTrigger s i.lcid i ∨ w.slot.statusTriggered = false ∧ ClearsTrigger s i.lcid i := by
  cases h with
  | addBearer _ hoff => exact absurd ha (by simp [Instr.lcid, hoff])
  | @configure l p c _ _ hc =>
    unfold reconfigure
    split
    · rename_i hstruct
      exact .inr (.inr ⟨rfl, .inr (.inr ⟨p, c, rfl, hc, hstruct⟩)⟩)
    · exact .inl rfl
  | delBearer => exact absurd ha' (by simp [deletedSlot])
  | reestablish => exact .inr (.inr ⟨rfl, .inr (.inl rfl)⟩)
  | writeSdu => exact .inl rfl
  | @readPdu l b =>
    exact (statusTriggered_readPdu b.toNat (s.enter l)).imp_right fun ⟨hoff, hsent⟩ => .inr ⟨hoff, .inl ⟨b, rfl, hsent⟩⟩
  | @writePdu l p =>
    exact (statusTriggered_writePdu p (s.enter l)).imp_right fun ⟨hon, hd, n, hu, hp⟩ =>
      .inl ⟨hon, .inr ⟨p, hd, n, rfl, hu, hp⟩⟩
  | @timerExpiry l sub k hk =>
    refine (statusTriggered_expire k (s.enter l)).imp_right fun ⟨hreord, hon⟩ => .inl ⟨hon, .inl ?_⟩
    subst hreord
    rw [eq_zero_of_timerKindOf_reord hk]
    rfl

/-- A flag that is as it was has been neither set nor cleared. -/
theorem not_changed {b b' : Bool} (h : b' = b) (P Q : Prop) :
    (b = false → b' = true → P) ∧ (b = true → b' = false → Q) := by
  subst h
  cases b' <;> simp

/-- READ_PDU on an active bearer, R214. -/
theorem exec_readPdu {l : Lcid} {s : State} (ha : (s.slot l).active = true) (b : Imm) :
    exec (.readPdu l 0 b) s = commit s (readPdu b.toNat (s.enter l)).2 (readPdu b.toNat (s.enter l)).1 := by
  simp [exec, execReadPdu, ha]

/-- Settles O54: what an accepted command does to the trigger of its bearer has its cause (`Accepted.statusTriggered`), and the
status that clears it is the PDU that the command answers. -/
theorem statusTriggerHasItsCauses : Obligations.StatusTriggerHasItsCauses := by
  intro i s t r l hexec hr ha ha'
  rcases exec_outcomes i s with ⟨-, r', -, hx⟩ | ⟨w, hw, free, result, hx⟩
  · cases hexec.symm.trans hx
    exact not_changed rfl _ _
  · have ht : t = ({ s with freeCount := free } : State).after w.lcid w.slot w.tags result w.events :=
      Host.Outcome.next.inj (hexec.symm.trans hx)
    have hlcid := hw.lcid_eq
    by_cases hl : l = i.lcid
    · subst hl
      have hslot : t.slot i.lcid = w.slot := by rw [ht, ← hlcid, slot_after_same]
      rw [hslot] at ha' ⊢
      rcases hw.statusTriggered ha ha' with hkept | ⟨hset, hcause⟩ | ⟨hclear, hcause⟩
      · exact not_changed hkept _ _
      · exact ⟨fun _ _ => hcause, fun _ hoff => absurd (hoff.symm.trans hset) Bool.false_ne_true⟩
      · refine ⟨fun _ hon => absurd (hclear.symm.trans hon) Bool.false_ne_true, fun _ _ => hcause.imp_left ?_⟩
        rintro ⟨b, hi, hsent⟩
        refine ⟨b, hi, ?_⟩
        rw [hi, exec_readPdu ha, commit_eq] at hexec
        cases hexec
        obtain rfl : ⟨.ok, _, _⟩ = r := by simpa using hr
        exact hsent
    · rw [ht, hlcid, slot_after_other _ _ _ _ _ _ hl]
      exact not_changed rfl _ _

end Sys2Proof.Machine
end

section
/-! PROOFS. Responses and refusals (60_exceptions.md R350 to R353), the commands that never refuse (R352), and the expiries that
act (R363). -/

namespace Sys2Proof.Machine

/-! ## How a command completes -/

/-- The ways in which a command completes in state `s`: it is refused, it answers, or it answers with the work it leaves on one
slot. Only DEL_BEARER draws a free slot content. -/
inductive Completes (s : State) : Next → Prop
  | refused (c : Code) : Completes s (raise s c)
  | answered (b : Bytes) : Completes s (finish s b)
  | left (free : Nat) (w : Work) (b : Bytes) : Completes s (commit { s with freeCount := free } w b)

section Completes

variable {s : State}

theorem completes_commit (w : Work) (b : Bytes) : Completes s (commit s w b) := .left s.freeCount w b

theorem completes_require {ok : Bool} {c : Code} {x : Next} (h : Completes s x) : Completes s (require ok c s x) := by
  cases ok
  · exact .refused c
  · exact h

theorem completes_snCommand (l : Lcid) (p : Bytes) (boundOk : Bool) (b : Bytes) : Completes s (snCommand l p s boundOk b) :=
  completes_require (completes_require (completes_require (.answered b)))

/-- TIMER_EXPIRY checks its kind, and then whether the expiry is current, R363. -/
theorem completes_timerExpiry (l : Lcid) (sub : Sub) (g : Imm) : Completes s (execTimerExpiry l sub g s) := by
  unfold execTimerExpiry
  split
  · exact .refused _
  · split
    · exact completes_commit _ _
    · exact .answered _

theorem completes_hdrPack (l : Lcid) (fmt : Sub) (p : Bytes) : Completes s (execHdrPack l fmt p s) := by
  refine completes_require ?_
  split
  · exact .refused _
  · split
    · exact .refused _
    · exact completes_require (.answered _)

theorem completes_hdrUnpack (l : Lcid) (fmt : Sub) (p : Bytes) : Completes s (execHdrUnpack l fmt p s) := by
  refine completes_require ?_
  split
  · exact .refused _
  · split
    · exact .refused _
    · exact .answered _

end Completes

/-- Every command completes: each of its checks refuses or goes on, and what passes them all answers. -/
theorem completes_exec (i : Instr) (s : State) : Completes s (exec i s) := by
  cases i with
  | nop | getBufferState => exact completes_require (.answered _)
  | getMetrics | getState => exact completes_require (completes_require (.answered _))
  | addBearer | configure =>
    refine completes_require (completes_require ?_)
    split
    · exact .refused _
    · exact completes_commit _ _
  | delBearer => exact completes_require (completes_require (.left _ _ _))
  | reestablish => exact completes_require (completes_require (completes_commit _ _))
  | writeSdu =>
    exact completes_require (completes_require (completes_require (completes_require (completes_commit _ _))))
  | readPdu | writePdu =>
    refine completes_require ?_
    split
    · exact .answered _
    · exact completes_commit _ _
  | timerExpiry l sub g => exact completes_timerExpiry l sub g
  | snInwin l p | snInrange l p | snRel l p | snBefore l p => exact completes_snCommand l p _ _
  | hdrPack l fmt p => exact completes_hdrPack l fmt p
  | hdrUnpack l fmt p => exact completes_hdrUnpack l fmt p
  | statusPack =>
    refine completes_require ?_
    split
    · exact .refused _
    · exact completes_require (.answered _)
  | statusUnpack =>
    refine completes_require ?_
    split
    · exact .refused _
    · exact .answered _
  | statusCheck => exact completes_require (completes_require (completes_require (.answered _)))

/-- Settles O7: of the three ways to complete (`completes_exec`) only a refusal has a code other than OK, and each gives one
response. -/
theorem everyCommandAnswersOnceAndRefusesAtomically : Obligations.EveryCommandAnswersOnceAndRefusesAtomically := by
  intro i s
  have hcompletes := completes_exec i s
  generalize exec i s = x at hcompletes ⊢
  cases hcompletes with
  | refused c => exact ⟨_, ⟨c, [], []⟩, raise_eq s c, rfl, rfl, rfl, fun _ => rfl⟩
  | answered b => exact ⟨_, ⟨.ok, b, []⟩, finish_eq s b, rfl, rfl, rfl, fun hne => absurd rfl hne⟩
  | left free w b => exact ⟨_, ⟨.ok, b, w.events⟩, commit_eq _ w b, rfl, rfl, rfl, fun hne => absurd rfl hne⟩

/-! ## TIMER_EXPIRY, by its checks -/

section Expiry

variable {s : State} {l : Lcid} {sub : Sub} {k : TimerKind} {g : Imm}

theorem timerKindOf_eq_none (h : 3 ≤ sub.toNat) : timerKindOf sub = none := by
  unfold timerKindOf
  split
  case h_4 => rfl
  all_goals omega

theorem exec_timerExpiry_of_badKind (h : 3 ≤ sub.toNat) : exec (.timerExpiry l sub g) s = .next (s.refused .badField) := by
  simp [exec, execTimerExpiry, timerKindOf_eq_none h, raise_eq]

theorem exec_timerExpiry_of_kind (hk : timerKindOf sub = some k) :
    exec (.timerExpiry l sub g) s =
      if expiryCurrent k g (s.enter l) then commit s (expire k (s.enter l)) [] else finish s [] := by
  simp [exec, execTimerExpiry, hk]

theorem expiryCurrent_eq_false (h : (s.slot l).active = false ∨ (s.slot l).running.get k = false ∨ g ≠ (s.tags l).get k) :
    expiryCurrent k g (s.enter l) = false := by
  rcases h with h | h | h <;> simp [expiryCurrent, h]

theorem expiryAction_prohibit (w : Work) : expiryAction .prohibit w = w := by
  unfold expiryAction
  cases w.slot.cfg.mode <;> rfl

end Expiry

/-- Settles O50: a stale expiry fails `expiryCurrent` (`expiryCurrent_eq_false`), and a current one of PROHIBIT has no action
beyond its bit (`expiryAction_prohibit`). -/
theorem expiryActsOnlyWhenCurrent : Obligations.ExpiryActsOnlyWhenCurrent := by
  rintro l sub g s v rfl
  refine ⟨exec_timerExpiry_of_badKind, fun k hk hstale => ?_, fun ha hon => ?_⟩
  · rw [exec_timerExpiry_of_kind hk, expiryCurrent_eq_false hstale, if_neg Bool.false_ne_true, finish_eq]
  · refine (exec_timerExpiry_of_current (sub := 1) (k := .prohibit) rfl ha hon).trans ?_
    rw [expire, expiryAction_prohibit, commit_eq]
    rfl

/-! ## The transport commands -/

/-- The command completes with one response, whose code is OK. -/
def AnswersOk (s : State) (x : Next) : Prop :=
  ∃ t r, x = .next t ∧ t.responses = s.responses ++ [r] ∧ r.code = .ok

theorem answersOk_finish (s : State) (b : Bytes) : AnswersOk s (finish s b) := ⟨_, _, rfl, rfl, rfl⟩

theorem answersOk_commit (s : State) (w : Work) (b : Bytes) : AnswersOk s (commit s w b) := ⟨_, _, rfl, rfl, rfl⟩

/-- The one header check of READ_PDU and WRITE_PDU, R106. -/
theorem require_of_badSub {s : State} {sub : Sub} (hbad : sub ≠ 0) (k : Next) :
    require (sub == 0) .badField s k = .next (s.refused .badField) :=
  require_eq_refused fun hf => absurd (beq_iff_eq.mp hf) hbad

section Transport

variable (s : State) (l : Lcid)

theorem answersOk_readPdu (b : Imm) : AnswersOk s (exec (.readPdu l 0 b) s) := by
  cases ha : (s.slot l).active
  · obtain ⟨hread, -, -⟩ := exec_transport_of_inactive ha b []
    exact hread ▸ answersOk_finish s []
  · exact exec_readPdu ha b ▸ answersOk_commit s _ _

theorem answersOk_writePdu (p : Bytes) : AnswersOk s (exec (.writePdu l 0 p) s) := by
  cases ha : (s.slot l).active
  · obtain ⟨-, hwrite, -⟩ := exec_transport_of_inactive ha 0 p
    exact hwrite ▸ answersOk_finish s []
  · exact exec_writePdu ha p ▸ answersOk_commit s _ _

theorem answersOk_timerExpiry {k : Sub} (hk : k.toNat ≤ 2) (g : Imm) : AnswersOk s (exec (.timerExpiry l k g) s) := by
  obtain ⟨j, hj⟩ := timerKindOf_of_le hk
  rw [exec_timerExpiry_of_kind hj]
  split
  · exact answersOk_commit s _ _
  · exact answersOk_finish s _

end Transport

/-- Settles O18: once its header fields pass, a transport command either answers at once or ends the work on an active slot, and
both answer OK (`AnswersOk`). -/
theorem transportCommandsAreInfallible : Obligations.TransportCommandsAreInfallible := by
  refine fun l b g p k s => ⟨fun hbad => ?_, fun hk => ⟨?_, fun ha => ?_⟩⟩
  · exact ⟨require_of_badSub hbad _, require_of_badSub hbad _⟩
  · simp only [List.forall_mem_cons, List.not_mem_nil, false_implies, implies_true, and_true]
    exact ⟨answersOk_readPdu s l b, answersOk_writePdu s l p, answersOk_finish s _, answersOk_timerExpiry s l hk g⟩
  · obtain ⟨hread, hwrite, hbuffer⟩ := exec_transport_of_inactive ha b p
    exact ⟨hread, hbuffer, hwrite, exec_timerExpiry_of_stopped (fun h => absurd h (by simp [ha])) hk g⟩

end Sys2Proof.Machine
end

section
/-! PROOFS. Hardware reset (70_reset_and_hazards.md R380), and the wait for a whole command (20_memory.md R68; log 2). -/

namespace Sys2Proof

/-! ## Streams that hold no whole command -/

@[simp] theorem length_headerBytes (h : Header) : (headerBytes h).length = 4 := rfl

theorem takeCommand_eq_none_of_shortHeader {b : Bytes} (hb : b.length < 4) : takeCommand b = none := by
  refine Option.eq_none_iff_forall_ne_some.mpr fun ⟨h, p, rest⟩ ht => ?_
  obtain ⟨rfl, -⟩ := takeCommand_eq_some_iff.mp ht
  simp at hb

theorem takeCommand_eq_none_of_shortPayload {h : Header} {p : Bytes} (hp : p.length < plen h) :
    takeCommand (headerBytes h ++ p) = none := by
  simp [takeCommand, headerBytes, headerBytes_join, hp]

end Sys2Proof

namespace Sys2Proof.Machine

theorem step_of_takeCommand_eq_none {s : State} (h : takeCommand s.input = none) : step s = .next s := by
  rw [step, h]

/-- Settles O2: bytes that end in the header word, or in the payload it announces, hold no command to take. -/
theorem stepWaitsForAWholeCommand : Obligations.StepWaitsForAWholeCommand := by
  refine fun s => ⟨fun hshort => ?_, fun h p hin hp => ?_⟩
  · exact step_of_takeCommand_eq_none (takeCommand_eq_none_of_shortHeader hshort)
  · exact step_of_takeCommand_eq_none (hin ▸ takeCommand_eq_none_of_shortPayload hp)

/-! ## Hardware reset -/

theorem active_resetOf (pm : Params) (l : Lcid) : ((State.resetOf pm).slot l).active = false := by
  rw [slot_resetOf]
  rfl

/-- What is asked of the active slots alone holds after reset, where there is none. -/
theorem resetOf_of_active {P : Slot → Prop} (pm : Params) (l : Lcid) (h : ((State.resetOf pm).slot l).active = true) :
    P ((State.resetOf pm).slot l) :=
  absurd h (Bool.eq_false_iff.mp (active_resetOf pm l))

theorem legal_defaultParams : Config.defaultParams.Legal := by
  decide

/-- Settles O1: reset fills every slot with the same inactive one, and every tag with 0. -/
theorem resetLeavesEveryBearerInactive : Obligations.ResetLeavesEveryBearerInactive :=
  ⟨fun pm => ⟨fun l => ⟨active_resetOf pm l, tags_resetOf pm l⟩, responses_resetOf pm, params_resetOf pm⟩,
    Config.defaultParams, rfl⟩

/-- Settles O55: both invariants speak of the active slots alone (`resetOf_of_active`), and the defaults of R6 are legal. -/
theorem resetMeetsTheInvariants : Obligations.ResetMeetsTheInvariants :=
  ⟨fun pm => ⟨resetOf_of_active pm, resetOf_of_active pm⟩, rfl, params_reset ▸ legal_defaultParams⟩

end Sys2Proof.Machine
end
